-- ==== Sys2Proof/Word.lean ====
section
/-! DEFINITION. The word types of the Lomivo L7: register words, bytes and the two wide words. -/

namespace Sys2Proof

/-- A 32-bit register (R10). -/
abbrev Word := BitVec 32

/-- One byte of memory. -/
abbrev Byte := BitVec 8

/-- A 64-bit operand, or a virtual address before its range check (R12, R179). -/
abbrev DWord := BitVec 64

/-- One 128-bit instruction word (R85). -/
abbrev QWord := BitVec 128

end Sys2Proof
end

