-- ==== Sys2Proof/Machine/Bits.lean ====
section
/-! DEFINITION. Bit fields, byte order and integer views used by the machine and its instructions (R4, R142). -/

namespace Sys2Proof.Machine

/-- Bit `i` of a natural number, as 0 or 1. -/
def bitN (x i : Nat) : Nat := x / 2 ^ i % 2

/-- Field of `n` bits from bit `lo` of a natural number (R4). -/
def fieldN (x lo n : Nat) : Nat := x / 2 ^ lo % 2 ^ n

/-- True where bit `i` is 1. -/
def testN (x i : Nat) : Bool := bitN x i == 1

/-- `x` with the `n` bits from bit `lo` replaced by `v`. -/
def setFieldN (x lo n v : Nat) : Nat :=
  x / 2 ^ (lo + n) * 2 ^ (lo + n) + v % 2 ^ n * 2 ^ lo + x % 2 ^ lo

/-- A `w`-bit code as a two's complement value (R142). -/
def signedOf (w x : Nat) : Int :=
  if x % 2 ^ w ≥ 2 ^ (w - 1) ∧ w ≠ 0 then Int.ofNat (x % 2 ^ w) - 2 ^ w else Int.ofNat (x % 2 ^ w)

/-- An integer held in `w` bits: x mod 2^w (R142). -/
def wrapI (w : Nat) (x : Int) : Nat := (x % (2 ^ w : Int)).toNat

/-- Bytes of a value, least significant first (R4). -/
def bytesOf : Nat → Nat → List Byte
  | 0, _ => []
  | n + 1, x => BitVec.ofNat 8 (x % 256) :: bytesOf n (x / 256)

/-- The value of bytes, least significant first (R4). -/
def ofBytes : List Byte → Nat
  | [] => 0
  | b :: bs => b.toNat + 256 * ofBytes bs

/-- Sign extension of an `n`-bit field to 64 bits (R130, R179). -/
def sext64 (n x : Nat) : DWord := BitVec.ofInt 64 (signedOf n x)

/-- Round `x` up to a multiple of `m`. -/
def alignUp (x m : Nat) : Nat := (x + m - 1) / m * m

/-- The quotient rounded up. -/
def ceilDiv (a b : Nat) : Nat := (a + b - 1) / b

/-- Largest value of a list, 0 for the empty list. -/
def maxList (l : List Nat) : Nat := l.foldl max 0

/-- Sum of a list of naturals. -/
def sumList (l : List Nat) : Nat := l.foldl (· + ·) 0

/-- Bitwise and of naturals below 2^w, as the hardware takes it. -/
def andN (w a b : Nat) : Nat := (BitVec.ofNat w a &&& BitVec.ofNat w b).toNat

/-- Bitwise or of naturals below 2^w. -/
def orN (w a b : Nat) : Nat := (BitVec.ofNat w a ||| BitVec.ofNat w b).toNat

/-- Bitwise exclusive or of naturals below 2^w. -/
def xorN (w a b : Nat) : Nat := (BitVec.ofNat w a ^^^ BitVec.ofNat w b).toNat

/-- Number of 1 bits among the lowest `w` bits. -/
def popN : Nat → Nat → Nat
  | 0, _ => 0
  | w + 1, x => x % 2 + popN w (x / 2)

/-- Index of the lowest 1 bit among the lowest `w` bits, or `w` (R147 CTZ). -/
def ctzN : Nat → Nat → Nat
  | 0, _ => 0
  | w + 1, x => if x % 2 = 1 then 0 else 1 + ctzN w (x / 2)

/-- The low `w` bits of `x` in reverse order (R147 BREV). -/
def revN : Nat → Nat → Nat
  | 0, _ => 0
  | w + 1, x => x % 2 * 2 ^ w + revN w (x / 2)

/-- The mask with the listed bits set. -/
def maskOf (l : List Nat) : Nat := sumList (l.map fun i => 2 ^ i)

/-- Integer square root by `fuel` binary digits: the largest r with r*r ≤ x, for x < 4^fuel. -/
def isqrt : Nat → Nat → Nat
  | 0, _ => 0
  | f + 1, x =>
    let r := 2 * isqrt f (x / 4)
    if (r + 1) * (r + 1) ≤ x then r + 1 else r

end Sys2Proof.Machine
end

