-- ==== Sys2Proof/Syntax.lean ====
section
/-! DEFINITION. The instructions and events of the Lomivo L7 as data: one constructor of `Instr` for each row of the
spec's table of operations and events. Instructions carry their decoded operands; an event carries what names it (the
unit it happens to) and the values that come with it from outside. The control field of a word (R85) is `Ctl`. -/

namespace Sys2Proof

/-- Rates and their codes in order (R28). -/
inductive Rate | N | F | O | C | V | K | S | Y
  deriving DecidableEq, Repr

/-- The control field of a word, less KIND (R85). -/
structure Ctl where
  stall : BitVec 4
  rate : Rate
  elect : Bool
  pred : BitVec 3
  pneg : Bool
  deriving DecidableEq, Repr

/-- An operand position by class (R88): a thread register, a held register with its interpolation mode, a launch
constant or special register by number, or unused. -/
inductive Opd
  | v (n : BitVec 8)
  | h (n : BitVec 6) (mode : BitVec 2)
  | c (n : BitVec 8)
  | none
  deriving DecidableEq, Repr

/-- A last source that may be an immediate (R139). -/
inductive SrcI
  | reg (o : Opd)
  | imm (w : BitVec 32)
  deriving DecidableEq, Repr

/-- Element types (R89). `f8 u x p` is the binary8 family: unsigned, extended, precision. -/
inductive Ty
  | none
  | b8 | b16 | b32 | b64 | b128
  | s8 | s16 | s32 | s64
  | n8 | n16 | n32 | n64
  | f16 | bf16 | f32
  | f8 (u x : Bool) (p : BitVec 3)
  deriving DecidableEq, Repr

/-- Rounding modes (R90, R121). -/
inductive Rm | rne | rtz | rup | rdn | rna | sr
  deriving DecidableEq, Repr

/-- Overflow policies carried by a word (R124). -/
inductive Pol | sat | inf | nan | trap
  deriving DecidableEq, Repr

/-- Integer comparisons (R150). -/
inductive Cond | eq | ne | lt | le | gt | ge
  deriving DecidableEq, Repr

/-- Combination of a comparison with a predicate (R150). -/
inductive Bop | none | and | or | xor
  deriving DecidableEq, Repr

/-- NEG and ABS on sources A, B, C; bit 2 is A, bit 1 is B, bit 0 is C (R154). -/
structure FMods where
  neg : BitVec 3
  abs : BitVec 3
  deriving DecidableEq, Repr

/-- Ordering, scope, promotion and displacement of a memory word (R176). -/
structure MemMods where
  ord : BitVec 2
  scope : BitVec 3
  remote : Bool
  disp : BitVec 24
  deriving DecidableEq, Repr

/-- Completion fields of an engine word (R272). -/
structure EngMods where
  cpl : BitVec 2
  che : Bool
  sel : BitVec 6
  deriving DecidableEq, Repr

/-- Pair opcodes (R94). -/
inductive POp
  | add | sub | min | max | and | or | xor | shl | shr | sar | mov | mad
  | fadd | fsub | fmul | ffma | fmin | fmax
  | pkadd | pkmul | pkfma | dot2h
  | rcp | rsq | exp2 | log2 | sinr | cosr | tanh | fsqrt
  deriving DecidableEq, Repr

/-- One half of a paired word (R92, R95). -/
structure Half where
  op : POp
  d : BitVec 8
  a : BitVec 8
  b : BitVec 8
  c : BitVec 8
  ty : Ty
  rm : Rm
  fm : FMods
  deriving DecidableEq, Repr

/-- Atomic operations (R186). -/
inductive AOp | add | min | max | and | or | xor | exch | cas | inc | dec | fadd | fmin | fmax
  deriving DecidableEq, Repr

/-- Modes of SHFL (R199). -/
inductive ShMode | pick | back | fwd | mirr
  deriving DecidableEq, Repr

/-- Operations of VOTE (R200). -/
inductive VOp | all | any | eq | ballot
  deriving DecidableEq, Repr

/-- Operations of REDUX and SCAN (R201). -/
inductive ROp | add | min | max | and | or | xor | fadd | fmin | fmax
  deriving DecidableEq, Repr

/-- Spaces an engine reads or writes (R272). -/
inductive ESp | S | G | D | K | W
  deriving DecidableEq, Repr

/-- Operations of HCOLL (R292). -/
inductive COp | bcast | allred | allgat | redsct
  deriving DecidableEq, Repr

/-- What a peer or switch asks of this device over the fabric (R426). -/
inductive FabReq
  | read (addr n : Nat)
  | write (addr : Nat) (data : List Byte)
  | atomic (addr : Nat) (op : AOp) (ty : Ty) (b c : DWord)
  | collective (ctx grp inst rank count : Nat) (op : COp) (ty : Ty) (size : Nat) (data : List Byte)
  | response (id : Nat) (data : List Byte)
  deriving DecidableEq, Repr

/-- What arrives on the PTP port (R434, R435). An Announce gives the grandmaster's priority1, its clock quality (class, accuracy
and variance as one number), its priority2 and its identity. -/
inductive PtpMsg
  | sync (offset : Int) (gm : DWord)
  | announce (priority1 quality priority2 : Nat) (gm : DWord)
  | delayReq
  | delayResp (delay : Int)
  deriving DecidableEq, Repr

/-- A message on the PTP port, with its domain and the transport by which it came, coded as in TCFG (R434, R437). -/
structure PtpPacket where
  domain : Nat
  transport : Nat
  msg : PtpMsg
  deriving DecidableEq, Repr

/-- A slot that passes a carousel station; `bad` where its tile is found to have an uncorrectable error (R333, R336). -/
structure Ride where
  slot : Nat
  bad : Bool
  deriving DecidableEq, Repr

/-- Where a packet goes on the network on chip, and its virtual channel (R430, R433). -/
structure Hop where
  dst : Nat
  vc : Nat
  deriving DecidableEq, Repr

/-- The instructions, then the events, in the table's families. -/
inductive Instr
  -- Integer and predicate (R143)
  | mov (ty : Ty) (d a : Opd)
  | movi32 (ty : Ty) (d : Opd) (imm : BitVec 32)
  | movi64 (ty : Ty) (d : Opd) (imm : BitVec 64)
  | sel (ty : Ty) (d a : Opd) (b : SrcI) (ps : BitVec 3) (psn : Bool)
  | add (sat : Bool) (ty : Ty) (d a : Opd) (b : SrcI) (po : BitVec 3)
  | addc (ty : Ty) (d a : Opd) (b : SrcI) (pi po : BitVec 3)
  | sub (sat : Bool) (ty : Ty) (d a : Opd) (b : SrcI) (po : BitVec 3)
  | subb (ty : Ty) (d a : Opd) (b : SrcI) (pi po : BitVec 3)
  | neg (sat : Bool) (ty : Ty) (d a : Opd)
  | abs (sat : Bool) (ty : Ty) (d a : Opd)
  | mul (ty : Ty) (d a : Opd) (b : SrcI)
  | mulhi (ty : Ty) (d a : Opd) (b : SrcI)
  | mad (ty : Ty) (d a b : Opd) (c : SrcI)
  | madw (ty : Ty) (d a b : Opd) (c : SrcI)
  | div (ty : Ty) (d a : Opd) (b : SrcI)
  | rem (ty : Ty) (d a : Opd) (b : SrcI)
  | min (ty : Ty) (d a : Opd) (b : SrcI)
  | max (ty : Ty) (d a : Opd) (b : SrcI)
  | and (ty : Ty) (d a : Opd) (b : SrcI)
  | or (ty : Ty) (d a : Opd) (b : SrcI)
  | xor (ty : Ty) (d a : Opd) (b : SrcI)
  | not (ty : Ty) (d a : Opd)
  | andn (ty : Ty) (d a : Opd) (b : SrcI)
  | orn (ty : Ty) (d a : Opd) (b : SrcI)
  | shl (ty : Ty) (d a : Opd) (b : SrcI)
  | shr (ty : Ty) (d a : Opd) (b : SrcI)
  | sar (ty : Ty) (d a : Opd) (b : SrcI)
  | rot (ty : Ty) (d a : Opd) (b : SrcI)
  | fshl (ty : Ty) (d a b : Opd) (c : SrcI)
  | bfx (ty : Ty) (d a : Opd) (b : SrcI)
  | bfi (ty : Ty) (d a b : Opd) (c : SrcI)
  | popc (ty : Ty) (d a : Opd)
  | clz (ty : Ty) (d a : Opd)
  | ctz (ty : Ty) (d a : Opd)
  | brev (ty : Ty) (d a : Opd)
  | permb (ty : Ty) (d a b : Opd) (c : SrcI)
  | lea (ty : Ty) (d a : Opd) (b : SrcI) (sh : BitVec 5)
  | cmp (ty : Ty) (cond : Cond) (bop : Bop) (pd ps : BitVec 3) (psn : Bool) (a : Opd) (b : SrcI)
  | plop (pd pa pb pc : BitVec 3) (table : BitVec 8)
  | pmov (d : Opd)
  | pmovSet (a : Opd) (mask : BitVec 7)
  | pairedWord (x y : Half)
  -- Control (R129)
  | nop
  | bra (off : BitVec 32)
  | jmp (a : Opd)
  | call (d : Opd) (off : BitVec 32)
  | callr (d a : Opd)
  | ret (a : Opd)
  | reconv (regroup : Bool) (a : Opd) (off : BitVec 32)
  | exit
  | yield
  | sleep (n : SrcI)
  | sleepExpiry (t : Nat)
  -- Floating point (R154)
  | fadd (rm : Rm) (m : FMods) (d a b : Opd)
  | fsub (rm : Rm) (m : FMods) (d a b : Opd)
  | fmul (rm : Rm) (m : FMods) (d a b : Opd)
  | ffma (rm : Rm) (m : FMods) (d a b c : Opd)
  | fmin (m : FMods) (d a b : Opd)
  | fmax (m : FMods) (d a b : Opd)
  | fcmp (cond : BitVec 4) (bop : Bop) (pd ps : BitVec 3) (psn : Bool) (m : FMods) (a b : Opd)
  | fclass (d a : Opd)
  | frnd (rm : Rm) (m : FMods) (d a : Opd)
  | ffrac (m : FMods) (d a : Opd)
  | fdiv (rm : Rm) (m : FMods) (d a b : Opd)
  | fsqrt (rm : Rm) (m : FMods) (d a : Opd)
  | rcp (m : FMods) (d a : Opd)
  | rsq (m : FMods) (d a : Opd)
  | exp2 (m : FMods) (d a : Opd)
  | log2 (m : FMods) (d a : Opd)
  | sinr (m : FMods) (d a : Opd)
  | cosr (m : FMods) (d a : Opd)
  | tanh (m : FMods) (d a : Opd)
  | pkadd (ty : Ty) (rm : Rm) (m : FMods) (d a b : Opd)
  | pkmul (ty : Ty) (rm : Rm) (m : FMods) (d a b : Opd)
  | pkfma (ty : Ty) (rm : Rm) (m : FMods) (d a b c : Opd)
  | dot2h (sty : Ty) (rm : Rm) (m : FMods) (d a b c : Opd)
  | dot4b8 (sty : Ty) (rm : Rm) (m : FMods) (d a b c : Opd)
  -- Conversion (R168): r is the random register, s the scale register
  | cvt (ty sty : Ty) (rm : Rm) (pol : Pol) (m : FMods) (scl : Bool) (k : BitVec 2) (d a r sc : Opd)
  | cvts (ty sty : Ty) (rm : Rm) (pol : Pol) (m : FMods) (k : BitVec 2) (d a r sc : Opd)
  | pack2 (ty sty : Ty) (rm : Rm) (pol : Pol) (m : FMods) (hi : Bool) (d a b r : Opd)
  | unpack (sty : Ty) (rm : Rm) (pol : Pol) (scl : Bool) (k : BitVec 2) (d a sc : Opd)
  | scale (rm : Rm) (pol : Pol) (m : FMods) (scl : Bool) (k : BitVec 2) (d a b : Opd)
  -- Cross-lane (R197)
  | shfl (mode : ShMode) (seg : BitVec 3) (ty : Ty) (pd : BitVec 3) (d a : Opd) (b : SrcI) (m : Opd)
  | vote (op : VOp) (ps : BitVec 3) (psn : Bool) (pd : BitVec 3) (d m : Opd)
  | matchKeys (all : Bool) (ty : Ty) (pd : BitVec 3) (d a m : Opd)
  | redux (op : ROp) (ty : Ty) (d a m : Opd)
  | scan (op : ROp) (incl : Bool) (ty : Ty) (d a m : Opd)
  -- Memory (R177)
  | lds (mm : MemMods) (ty : Ty) (d a : Opd)
  | sts (mm : MemMods) (ty : Ty) (a b : Opd)
  | ldg (mm : MemMods) (ty : Ty) (d a : Opd)
  | stg (mm : MemMods) (ty : Ty) (a b : Opd)
  | ldd (mm : MemMods) (ty : Ty) (d a : Opd)
  | std (mm : MemMods) (ty : Ty) (a b : Opd)
  | ldl (mm : MemMods) (ty : Ty) (d a : Opd)
  | stl (mm : MemMods) (ty : Ty) (a b : Opd)
  | ldk (mm : MemMods) (ty : Ty) (d a : Opd)
  | ldw (mm : MemMods) (ty : Ty) (d a : Opd)
  | stw (mm : MemMods) (ty : Ty) (a b : Opd)
  | pres (mm : MemMods) (d a : Opd)
  | atoms (op : AOp) (mm : MemMods) (ty : Ty) (d a b c : Opd)
  | atomd (op : AOp) (mm : MemMods) (ty : Ty) (d a b c : Opd)
  | atomg (op : AOp) (mm : MemMods) (ty : Ty) (d a b c : Opd)
  | redg (op : AOp) (mm : MemMods) (ty : Ty) (a b : Opd)
  | redd (op : AOp) (mm : MemMods) (ty : Ty) (a b : Opd)
  | fence (ord : BitVec 2) (scope : BitVec 3)
  -- Synchronisation and spawning (R202)
  | bar (level op : BitVec 2) (id : BitVec 4)
  | chdrop (try_ : Bool) (pd : BitVec 3) (sel : BitVec 6) (a : Opd)
  | chtake (try_ : Bool) (pd : BitVec 3) (sel : BitVec 6) (d : Opd)
  | chfree (sel : BitVec 6)
  | wait (all : Bool) (nc : BitVec 2) (scope : BitVec 3) (d w : Opd) (b : SrcI)
  | waitEvaluation (t : Nat)
  | msend (len : BitVec 9) (d a b c : Opd)
  | mrecv (len : BitVec 9) (d a b c : Opd)
  | mprobe (d b c : Opd)
  | messageDelivery (m : Nat)
  | spawn (nohold : Bool) (a b : Opd)
  | binTimerExpiry (bin : Nat)
  | binflush (a : Opd)
  | wsplit (d a b : Opd)
  | grow (count : BitVec 6)
  | growGrant (crew : Nat)
  | shrink (count : BitVec 6)
  | launch (defer : Bool) (d a : Opd) (queue : BitVec 10)
  | signal (defer irq : Bool) (vec : BitVec 11) (a b : Opd)
  -- Matrix (R224)
  | mma (z scl : Bool) (ta tb : Ty) (ka kb : BitVec 2) (tile : BitVec 3) (ksm1 : BitVec 5) (vw : BitVec 8) (d l sa sb : Opd)
  | mmaStep (pair : Nat)
  | matrixQueueEntry (pair : Nat)
  | mmag (scl : Bool) (ta tb : Ty) (ka kb : BitVec 2) (sa sb : BitVec 8) (d a b c : Opd)
  | mloadb (d a b c : Opd)
  | mrd (tile : BitVec 3) (d a b : Opd)
  | mrdSt (tile : BitVec 3) (d : Opd)
  | mst (ty : Ty) (rm : Rm) (pol : Pol) (rsel : BitVec 2) (tile : BitVec 3) (d l : Opd)
  | mzero (mask : BitVec 8)
  | mburst (len : BitVec 16)
  | rampFillersDone (core : Nat)
  | burstHoldExpiry (core : Nat)
  -- Rate and rendering (R249)
  | kill
  | hrel
  | deriv (axis fine : Bool) (d a : Opd)
  | bary (lin : Bool) (k : BitVec 2) (d : Opd)
  | emit (z : Bool) (ty : Ty) (a b : Opd)
  | tex (dim : BitVec 2) (pd : BitVec 3) (d a b : Opd)
  | texl (dim : BitVec 2) (pd : BitVec 3) (d a b c : Opd)
  | texg (ch dim : BitVec 2) (pd : BitVec 3) (d a b c : Opd)
  | texq (d b c : Opd)
  | dice (d a b : Opd)
  | trace (mode : BitVec 2) (mask : BitVec 8) (d a b : Opd)
  | infer (nin : BitVec 5) (nout : BitVec 4) (d a b : Opd)
  | inferBatchService (die : Nat)
  -- Carousel (R277)
  | cboard (e : EngMods) (sp : ESp) (d a b : Opd)
  | ccatch (e : EngMods) (d a b : Opd)
  | creplace (e : EngMods) (masked : Bool) (d a b c : Opd)
  | calight (e : EngMods) (copy : Bool) (d a b : Opd)
  | cquery (d b : Opd)
  | carouselPassage (die : Nat) (slot : Ride)
  -- Lots and hoists (R287, R289)
  | labort (code : BitVec 8)
  | lotq (d a : Opd)
  | hcopy (e : EngMods) (sp dp : ESp) (d a b c : Opd)
  | hlayout (e : EngMods) (sp dp : ESp) (ty : Ty) (n0 n1 n2 : BitVec 16) (p1 p2 : BitVec 32) (d a b : Opd)
  | hgather (e : EngMods) (sp : ESp) (rlen : BitVec 8) (d a b c : Opd)
  | hscatter (e : EngMods) (dp : ESp) (rlen : BitVec 8) (d a b c : Opd)
  | hcoll (op : COp) (e : EngMods) (sp dp : ESp) (ty : Ty) (grp : BitVec 16) (rank sizem1 : BitVec 8) (d a b c : Opd)
  | engineCompletion (op : Nat)
  | trackedResultReturn (r : Nat)
  | homeRmwPerform (r : Nat)
  -- System (R294, R297)
  | trap (n : BitVec 7)
  | handlerEntry (gang : Nat)
  | tretReplay
  | tretSkip
  | brk (n : BitVec 16)
  | getsr (sr : BitVec 8) (d : Opd)
  | setsr (sr : BitVec 8) (a : Opd)
  | dflip (e : EngMods) (sp : ESp) (d a b c : Opd)
  | dbgmbGet (d a : Opd)
  | dbgmbPut (irq : Bool) (a b : Opd)
  | pref (space : BitVec 2) (tlb : Bool) (disp : BitVec 24) (a : Opd)
  -- Scheduler and translation events
  | fetchTranslationFault (gang : Nat)
  | starvationPromotion (gang : Nat)
  | watchdogFire (ctx : Nat)
  | residencyBatchTimeout (die : Nat)
  | qdoor (q : Nat) (v : Word)
  | qcfgWrite (q : Nat) (v : Word)
  | qchead (q : Nat) (v : Word)
  | recordTake (q : Nat)
  | launchAdmission (l : Nat)
  | crewPlacement (crew : Nat)
  | evictionSaveComplete (crew : Nat)
  | crewRestore (crew : Nat)
  | restoreWaitTimeout (crew : Nat)
  | deadlineCut (l : Nat)
  | fallbackAdmission (q : Nat)
  | lotCommit (l : Nat)
  | dresserFold (l line : Nat)
  | elementCreation (r : Nat)
  | stockpileStallLimit (r : Nat)
  | primitiveRasterise (l p : Nat)
  | sampleResolve (l i : Nat)
  | drawWriteOut (l : Nat)
  | frameStart (out : Nat)
  | fresp (die : Nat) (batch : BitVec 16)
  | tlbInvalidate (ctx : Nat) (v : Word)
  | contextCreate (ctx : Nat) (v : Word)
  | contextDestroy (ctx : Nat)
  | debugAttach (ctx : Nat) (v : Word)
  | watchpointWrite (ctx n : Nat) (v : DWord)
  | haltreq (ctx : Nat) (v : DWord)
  | debugResume (ctx : Nat)
  | debugStep (ctx : Nat)
  | debugAbort (ctx : Nat)
  | stopRecordDelivery (ctx : Nat)
  -- Host and fabric events
  | registerWrite (off width : Nat) (v : DWord)
  | hostBar2Write (addr : Nat) (data : List Byte)
  | hostBar2Read (addr n : Nat)
  | configurationRequest (reg : Nat)
  | getCertificate (slot off len : Nat)
  | challenge (slot : Nat) (nonce : List Byte)
  | getMeasurements (idx : Nat)
  | fabricRequest (port src : Nat) (req : FabReq)
  | windowPacketArrival (wid off : Nat) (op : AOp) (ty : Ty) (count : Nat) (operand : DWord)
  | subnetworkPowerUp (mesh : Nat)
  | subnetworkPowerDown (mesh n : Nat)
  | escapeDiversion (src : Nat) (dst : Hop)
  -- Time and display events
  | ptpEnable (v : Word)
  | ptpEventMessage (m : PtpPacket)
  | outputEnable (out : Nat) (v : Word)
  | ostatClear (out : Nat) (v : Word)
  -- Bring-up and recovery events
  | soundingComplete (fail : Option Nat) (detail : Word)
  | hbmScrub (corrected : Nat) (bad : List Nat)
  | thermalThrottle (die : Nat)
  | storePerformed (st : Nat)
  | engineLineDelivery (op line : Nat)
  | frhead (die : Nat) (v : Word)
  | portLinkChange (port lanes : Nat)
  | outputLinkChange (out : Nat) (up : Bool)
  | announceReceiptTimeout (best : Bool)
  | ptpMessageInterval (kind : Nat)
  | throttleEnd (die : Nat)
  | hbmStackTemperatureChange (stack : Nat) (hot : Bool)
  | contextResume (ctx : Nat)
  -- Events without an operand
  | getVersion
  | getCapabilities
  | negotiateAlgorithms
  | getDigests
  | syncLoss
  | holdoverTimeout
  | checkpoint
  | restore
  | fwload
  | warmreset
  | coldreset
  | survey
  | commandCompletion
  | fundamentalReset
  | fatalErrorContainment
  | powerLoss
  | behindTest
  | congestionSample
  deriving DecidableEq, Repr

/-- A fetched instruction: its control field and the instruction (R85). -/
structure Fetched where
  ctl : Ctl
  ins : Instr
  deriving DecidableEq, Repr

end Sys2Proof
end

