-- ==== Sys2Proof/WellFormed.lean ====
section
/-! DEFINITION. Which instructions are well formed: the operand classes, register alignment, types, rates, ELECT rules
and field ranges that the entries accept (R88 to R96 and each entry). Checks that need the crew, the context or the held
map are made by the machine (`Machine/Issue.lean`). An event is no instruction word, so it is never well formed. -/

namespace Sys2Proof

/-- Register number of a class v operand that begins `k` aligned registers (R12, R45). -/
def Opd.isV (k : Nat) : Opd → Bool
  | .v n => n.toNat % k == 0
  | _ => false

/-- Class 0b11 with field 0x00 (R88). -/
def Opd.isNone : Opd → Bool
  | .none => true
  | _ => false

/-- A held source; mode 0b11 is never legal (R31). -/
def Opd.isH : Opd → Bool
  | .h _ m => m != 3
  | _ => false

/-- A held destination carries mode 0b00 (R31). -/
def Opd.isHD : Opd → Bool
  | .h _ m => m == 0
  | _ => false

/-- A launch constant or special register: numbers to 0x30 (R15). -/
def Opd.isC : Opd → Bool
  | .c n => decide (n.toNat ≤ 0x30)
  | _ => false

/-- A 64-bit special register (R140).
(DEDUCED, log 15: safe.) -/
def Opd.isC64 : Opd → Bool
  | .c n => n == 0x27 || n == 0x2A || n == 0x2B || n == 0x30
  | _ => false

/-- A 32-bit source of class v or c/special (R196, R202). -/
def Opd.isVC (o : Opd) : Bool := o.isV 1 || o.isC

/-- A 32-bit source of class v, h or c/special (R140, R153). -/
def Opd.isVHC (o : Opd) : Bool := o.isV 1 || o.isH || o.isC

/-- A 32-bit destination of class v or h (R140, R153). -/
def Opd.isVHD (o : Opd) : Bool := o.isV 1 || o.isHD

/-- A source of `w` bits of an integer instruction (R12, R140). -/
def Opd.src (w : Nat) (o : Opd) : Bool :=
  if w ≤ 32 then o.isVHC else if w = 64 then o.isV 2 || o.isC64 else o.isV 4

/-- A destination of `w` bits (R12, R140). -/
def Opd.dst (w : Nat) (o : Opd) : Bool :=
  if w ≤ 32 then o.isVHD else if w = 64 then o.isV 2 else o.isV 4

/-- Store data: v, h or c/special to 32 bits, then v pair or quad (R178). -/
def Opd.data (w : Nat) (o : Opd) : Bool :=
  if w ≤ 32 then o.isVHC else if w = 64 then o.isV 2 else o.isV 4

/-- A last source that may be an immediate; there is no 128-bit immediate (R139). -/
def SrcI.src (w : Nat) : SrcI → Bool
  | .reg o => o.src w
  | .imm _ => decide (w ≤ 64)

/-- A bit-field descriptor: an immediate has bits [31:16] zero (R147). -/
def SrcI.desc : SrcI → Bool
  | .reg o => o.isVHC
  | .imm w => w.toNat / 65536 == 0

def Ty.isS : Ty → Bool
  | .s8 | .s16 | .s32 | .s64 => true
  | _ => false

def Ty.isN : Ty → Bool
  | .n8 | .n16 | .n32 | .n64 => true
  | _ => false

/-- Integer types (R143 S and U). -/
def Ty.isI (t : Ty) : Bool := t.isS || t.isN

/-- R143 L. -/
def Ty.isL : Ty → Bool
  | .b32 | .b64 => true
  | _ => false

/-- Bit types .b8 to .b128 (R89). -/
def Ty.isB : Ty → Bool
  | .b8 | .b16 | .b32 | .b64 | .b128 => true
  | _ => false

/-- Types of ADDC, SUBB and BFX (R143). -/
def Ty.isI32 : Ty → Bool
  | .s32 | .n32 | .s64 | .n64 => true
  | _ => false

/-- A binary8 code with P from 1 to 7 (R89). -/
def Ty.isF8 : Ty → Bool
  | .f8 _ _ p => p != 0
  | _ => false

/-- FP16 and BF16 (R110). -/
def Ty.isH16 : Ty → Bool
  | .f16 | .bf16 => true
  | _ => false

/-- Floating and binary8 types (R110). -/
def Ty.isFl (t : Ty) : Bool := t == .f32 || t.isH16 || t.isF8

/-- Width in bits (R89). -/
def Ty.w : Ty → Nat
  | .none => 0
  | .b8 | .s8 | .n8 | .f8 _ _ _ => 8
  | .b16 | .s16 | .n16 | .f16 | .bf16 => 16
  | .b32 | .s32 | .n32 | .f32 => 32
  | .b64 | .s64 | .n64 => 64
  | .b128 => 128

/-- NEG and ABS only on the sources of the mask: bit 2 is A, bit 1 is B, bit 0 is C (R155). -/
def FMods.within (m : FMods) (mask : BitVec 3) : Bool := m.neg &&& ~~~mask == 0 && m.abs &&& ~~~mask == 0

/-- Deterministic rounding modes (R90). -/
def Rm.det : Rm → Bool
  | .sr => false
  | _ => true

/-- A word without a combining predicate carries PS = 7 and PSN = 0 (R150, R159). -/
def bopOk (b : Bop) (ps : BitVec 3) (psn : Bool) : Bool := b != .none || (ps == 7 && !psn)

/-- Conditions under a .bN type are eq and ne (R150). -/
def condOk (t : Ty) (c : Cond) : Bool := !t.isL || c == .eq || c == .ne

/-- A draw rate (R249). -/
def Rate.draw : Rate → Bool
  | .N => false
  | _ => true

/-- ORD, SCOPE and REMOTE as R180 accepts them: allowed orders, greatest scope, and whether `.remote` is offered. -/
def MemMods.ok (m : MemMods) (ords : List (BitVec 2)) (maxScope : Nat) (rem atomic : Bool) : Bool :=
  ords.contains m.ord && decide (m.scope.toNat ≤ maxScope) &&
  (m.ord != 0 || atomic || (m.scope == 0 && !m.remote)) &&
  (!m.remote || (rem && m.scope == 2 && (atomic || m.ord == 1)))

/-- Types of loads (R178). -/
def Ty.isLd : Ty → Bool
  | .b8 | .n8 | .s8 | .b16 | .n16 | .s16 | .b32 | .b64 | .b128 => true
  | _ => false

/-- Types that an atomic operation accepts (R186). -/
def aopTy (o : AOp) (t : Ty) : Bool :=
  match o with
  | .add | .min | .max => t.isI32
  | .and | .or | .xor | .exch | .cas => t.isL
  | .inc | .dec => t == .n32 || t == .n64
  | .fadd | .fmin | .fmax => t == .f32

/-- A base of 32 bits for S, L and W, or none (R177). -/
def Opd.base32 (o : Opd) : Bool := o.isVC || o.isNone

/-- A base pair for G, D and K, or none (R177). -/
def Opd.base64 (o : Opd) : Bool := o.isV 2 || o.isNone

/-- The operands of an atomic: D unused or v, B data, C only with CAS (R177, R186).
(DESIGN CHOICE, log 89: unsafe.) -/
def atomOk (o : AOp) (t : Ty) (d b c : Opd) : Bool :=
  aopTy o t && (d.isNone || d.isV (if t.w = 64 then 2 else 1)) && b.data t.w &&
  (if o == .cas then c.data t.w else c.isNone)

/-- Operation types of REDUX and SCAN (R201). -/
def ropTy (o : ROp) (t : Ty) : Bool :=
  match o with
  | .add | .min | .max => t == .s32 || t == .n32
  | .and | .or | .xor => t == .b32
  | .fadd | .fmin | .fmax => t == .f32

/-- An address operand of an engine word: v for S and W, a v pair for G, D and K (R272). -/
def ESp.addr (sp : ESp) (o : Opd) : Bool :=
  match sp with
  | .S | .W => o.isV 1
  | .G | .D | .K => o.isV 2

/-- Completion field and D (R273). -/
def EngMods.ok (e : EngMods) (d : Opd) : Bool :=
  (e.che || e.sel == 0) &&
  (if e.cpl = 0 then d.isV 1 else if e.cpl = 1 then d.isNone else if e.cpl = 2 then d.isV 2 else false)

/-- 64-bit system registers (R297). -/
def sr64 (n : Nat) : Bool := n == 0 || n == 1 || n == 2 || n == 7 || n == 8 || n == 9 || n == 10

/-- Operand types of MMA and MMAG: both 16-bit or both binary8 (R225). -/
def matTypes (ta tb : Ty) : Bool := (ta.isH16 && tb.isH16) || (ta.isF8 && tb.isF8)

/-- Pair types each pair opcode accepts (R94). -/
def POp.tyOk (o : POp) (t : Ty) : Bool :=
  match o with
  | .add | .sub | .min | .max | .mad => t == .s32 || t == .n32
  | .and | .or | .xor | .shl | .shr | .sar | .mov => t == .b32
  | .pkadd | .pkmul | .pkfma | .dot2h => t.isH16
  | _ => t == .f32

/-- Sources that a pair opcode reads: bit 2 is A, bit 1 is B, bit 0 is C (R94). -/
def POp.reads : POp → BitVec 3
  | .mov | .rcp | .rsq | .exp2 | .log2 | .sinr | .cosr | .tanh | .fsqrt => 4
  | .mad | .ffma | .pkfma | .dot2h => 7
  | _ => 6

/-- Integer pair opcodes, whose PMOD is zero (R95). -/
def POp.isInt : POp → Bool
  | .add | .sub | .min | .max | .and | .or | .xor | .shl | .shr | .sar | .mov | .mad => true
  | _ => false

/-- Special functions of the pair map (R94). -/
def POp.special : POp → Bool
  | .rcp | .rsq | .exp2 | .log2 | .sinr | .cosr | .tanh | .fsqrt => true
  | _ => false

/-- Pair opcodes whose single form takes no rounding mode (R158, R162). -/
def POp.noRm : POp → Bool
  | .fmin | .fmax | .rcp | .rsq | .exp2 | .log2 | .sinr | .cosr | .tanh => true
  | o => o.isInt

/-- Registers a half reads (R92). -/
def Half.srcs (h : Half) : List Nat :=
  let r := h.op.reads
  (if r.getLsbD 2 then [h.a.toNat] else []) ++ (if r.getLsbD 1 then [h.b.toNat] else []) ++
  (if r.getLsbD 0 then [h.c.toNat] else [])

/-- One half by itself (R92, R94, R95). -/
def Half.wf (h : Half) : Bool :=
  let r := h.op.reads
  h.op.tyOk h.ty && (r.getLsbD 2 || h.a == 0) && (r.getLsbD 1 || h.b == 0) && (r.getLsbD 0 || h.c == 0) &&
  h.fm.within (if h.op.isInt then 0 else r) && h.rm.det && (!h.op.noRm || h.rm == .rne)

/-- Two registers that may be read together: the same register, or different banks (R11, R93). -/
def bankOk (a b : Nat) : Bool := a == b || a % 4 != b % 4

/-- R93 conditions 3 to 5. -/
def pairOk (x y : Half) : Bool :=
  !(x.op.special && y.op.special) && x.d.toNat % 4 != y.d.toNat % 4 &&
  let l := x.srcs ++ y.srcs
  l.all fun a => l.all fun b => bankOk a b

/-- Well-formedness of an instruction under its control field.
(DEDUCED, log 11: safe.)
(DESIGN CHOICE, log 13: unsafe.)
(DEDUCED, log 14: unsafe.)
(DEDUCED, log 15: safe.) -/
def Instr.wf (k : Ctl) : Instr → Bool
  | .mov t d a => t.isB && d.dst t.w && a.src t.w
  | .movi32 t d _ => (t == .b32 || t == .s32 || t == .n32 || t == .f32 || t == .b64 || t == .s64 || t == .n64) &&
      d.dst t.w
  | .movi64 t d _ => (t == .b64 || t == .s64 || t == .n64) && d.isV 2
  | .sel t d a b _ _ => (t.isL || t == .b128) && d.dst t.w && a.src t.w && b.src t.w
  | .add sat t d a b po => t.isI && d.dst t.w && a.src t.w && b.src t.w && (!sat || po == 7)
  | .addc t d a b _ _ => t.isI32 && d.dst t.w && a.src t.w && b.src t.w
  | .sub sat t d a b po => t.isI && d.dst t.w && a.src t.w && b.src t.w && (!sat || po == 7)
  | .subb t d a b _ _ => t.isI32 && d.dst t.w && a.src t.w && b.src t.w
  | .neg _ t d a => t.isS && d.dst t.w && a.src t.w
  | .abs _ t d a => t.isS && d.dst t.w && a.src t.w
  | .mul t d a b => t.isI && d.dst t.w && a.src t.w && b.src t.w
  | .mulhi t d a b => t.isI && d.dst t.w && a.src t.w && b.src t.w
  | .mad t d a b c => t.isI && d.dst t.w && a.src t.w && b.src t.w && c.src t.w
  | .madw t d a b c => (t == .s32 || t == .n32) && d.dst 64 && a.src 32 && b.src 32 && c.src 64
  | .div t d a b => t.isI && d.dst t.w && a.src t.w && b.src t.w
  | .rem t d a b => t.isI && d.dst t.w && a.src t.w && b.src t.w
  | .min t d a b => t.isI && d.dst t.w && a.src t.w && b.src t.w
  | .max t d a b => t.isI && d.dst t.w && a.src t.w && b.src t.w
  | .and t d a b => t.isL && d.dst t.w && a.src t.w && b.src t.w
  | .or t d a b => t.isL && d.dst t.w && a.src t.w && b.src t.w
  | .xor t d a b => t.isL && d.dst t.w && a.src t.w && b.src t.w
  | .not t d a => t.isL && d.dst t.w && a.src t.w
  | .andn t d a b => t.isL && d.dst t.w && a.src t.w && b.src t.w
  | .orn t d a b => t.isL && d.dst t.w && a.src t.w && b.src t.w
  | .shl t d a b => t.isL && d.dst t.w && a.src t.w && b.src 32
  | .shr t d a b => t.isL && d.dst t.w && a.src t.w && b.src 32
  | .sar t d a b => t.isL && d.dst t.w && a.src t.w && b.src 32
  | .rot t d a b => t.isL && d.dst t.w && a.src t.w && b.src 32
  | .fshl t d a b c => t.isL && d.dst t.w && a.src t.w && b.src t.w && c.src 32
  | .bfx t d a b => t.isI32 && d.dst t.w && a.src t.w && b.desc
  | .bfi t d a b c => t.isL && d.dst t.w && a.src t.w && b.src t.w && c.desc
  | .popc t d a => t.isL && d.dst 32 && a.src t.w
  | .clz t d a => t.isL && d.dst 32 && a.src t.w
  | .ctz t d a => t.isL && d.dst 32 && a.src t.w
  | .brev t d a => t.isL && d.dst t.w && a.src t.w
  | .permb t d a b c => t == .b32 && d.dst 32 && a.src 32 && b.src 32 && c.src 32
  | .lea t d a b _ => (t == .n32 || t == .n64 || t == .s64) && d.dst t.w && a.src t.w && b.src 32
  | .cmp t c bop _ ps psn a b => (t.isI || t.isL) && condOk t c && bopOk bop ps psn && a.src t.w && b.src t.w
  | .plop _ _ _ _ _ => true
  | .pmov d => d.isVHD
  | .pmovSet a _ => a.isVHC
  | .pairedWord x y => x.wf && y.wf && pairOk x y
  | .nop => true
  | .bra _ => true
  | .jmp a => a.isV 2
  | .call d _ => d.isV 2
  | .callr d a => d.isV 2 && a.isV 2
  | .ret a => a.isV 2
  | .reconv _ a _ => a.isVC || a.isNone
  | .exit => true
  | .yield => true
  | .sleep n => match n with
      | .reg o => o.isVC
      | .imm _ => true
  | .fadd rm m d a b => rm.det && m.within 6 && d.isVHD && a.isVHC && b.isVHC
  | .fsub rm m d a b => rm.det && m.within 6 && d.isVHD && a.isVHC && b.isVHC
  | .fmul rm m d a b => rm.det && m.within 6 && d.isVHD && a.isVHC && b.isVHC
  | .ffma rm _ d a b c => rm.det && d.isVHD && a.isVHC && b.isVHC && c.isVHC
  | .fmin m d a b => m.within 6 && d.isVHD && a.isVHC && b.isVHC
  | .fmax m d a b => m.within 6 && d.isVHD && a.isVHC && b.isVHC
  | .fcmp cond bop _ ps psn m a b => decide (cond.toNat ≤ 13) && bopOk bop ps psn && m.within 6 && a.isVHC && b.isVHC
  | .fclass d a => d.isVHD && a.isVHC
  | .frnd rm m d a => rm.det && m.within 4 && d.isVHD && a.isVHC
  | .ffrac m d a => m.within 4 && d.isVHD && a.isVHC
  | .fdiv rm m d a b => rm.det && m.within 6 && d.isVHD && a.isVHC && b.isVHC
  | .fsqrt rm m d a => rm.det && m.within 4 && d.isVHD && a.isVHC
  | .rcp m d a => m.within 4 && d.isVHD && a.isVHC
  | .rsq m d a => m.within 4 && d.isVHD && a.isVHC
  | .exp2 m d a => m.within 4 && d.isVHD && a.isVHC
  | .log2 m d a => m.within 4 && d.isVHD && a.isVHC
  | .sinr m d a => m.within 4 && d.isVHD && a.isVHC
  | .cosr m d a => m.within 4 && d.isVHD && a.isVHC
  | .tanh m d a => m.within 4 && d.isVHD && a.isVHC
  | .pkadd t rm m d a b => t.isH16 && rm.det && m.within 6 && d.isVHD && a.isVHC && b.isVHC
  | .pkmul t rm m d a b => t.isH16 && rm.det && m.within 6 && d.isVHD && a.isVHC && b.isVHC
  | .pkfma t rm _ d a b c => t.isH16 && rm.det && d.isVHD && a.isVHC && b.isVHC && c.isVHC
  | .dot2h s rm _ d a b c => s.isH16 && rm.det && d.isVHD && a.isVHC && b.isVHC && c.isVHC
  | .dot4b8 s rm m d a b c => s.isF8 && rm.det && m.within 1 && d.isVHD && a.isVHC && b.isVHC && c.isVHC
  | .cvt t s rm _ m scl kk d a r sr => (t.isI || t.isFl) && (s.isI || s.isFl) && (!(t.isI && s.isI) || rm == .rne) &&
      (s.isFl || (m.neg == 0 && m.abs == 0 && !scl)) && m.within 4 && (scl || kk == 0) && d.dst t.w &&
      (if s.w = 64 then a.isV 2 else a.isVHC) && (if rm == .sr then r.isV 1 else r.isNone) &&
      (if scl then sr.isV 1 else sr.isNone)
  | .cvts t s rm _ m _ d a r sr => (t.isH16 || t.isF8) && (s == .f32 || s.isH16) && m.within 4 && d.isVHD && a.isVHC &&
      (if rm == .sr then r.isV 1 else r.isNone) && sr.isV 1
  | .pack2 t s rm pol m hi d a b r => d.isVHD && a.isVHC && b.isVHC && (if rm == .sr then r.isV 1 else r.isNone) &&
      (if t == .b16 then s == .none && rm == .rne && pol == .sat && m.within 0 && !hi
       else s == .f32 && m.within 6 && (t.isF8 || (t.isH16 && !hi)))
  | .unpack s rm _ scl kk d a sr => (s.isF8 || (s.isH16 && decide (kk.toNat < 2))) && rm.det && d.isVHD && a.isVHC &&
      (if scl then sr.isV 1 else sr.isNone)
  | .scale rm _ m scl kk d a b => rm.det && m.within 4 && d.isVHD && a.isVHC &&
      (if scl then b.isV 1 else b.isVHC && kk == 0)
  | .shfl _ seg t _ d a b m => !k.elect && decide (seg.toNat ≤ 4) && t.isL && d.isV (if t == .b64 then 2 else 1) &&
      a.isV (if t == .b64 then 2 else 1) && m.isVC &&
      (match b with
       | .reg o => o.isVC
       | .imm w => decide (w.toNat < 32))
  | .vote op _ _ pd d m => !k.elect && m.isVC &&
      (if op == .ballot then pd == 7 && d.isV 1 else pd != 7 && d.isNone)
  | .matchKeys all t pd d a m => !k.elect && (t.isL || t == .f32) && d.isV 1 && m.isVC &&
      a.src t.w && (all || pd == 0)
  | .redux op t d a m => !k.elect && ropTy op t && d.isV 1 && a.isVHC && m.isVC
  | .scan op _ t d a m => !k.elect && ropTy op t && d.isV 1 && a.isVHC && m.isVC
  | .lds mm t d a => mm.ok [0, 1] 0 false false && t.isLd && d.isV (if t.w = 128 then 4 else if t.w = 64 then 2 else 1) &&
      a.base32
  | .sts mm t a b => mm.ok [0, 2] 0 false false && t.isB && a.base32 && b.data t.w
  | .ldg mm t d a => mm.ok [0, 1] 2 true false && t.isLd && d.isV (if t.w = 128 then 4 else if t.w = 64 then 2 else 1) &&
      a.base64
  | .stg mm t a b => mm.ok [0, 2] 2 false false && t.isB && a.base64 && b.data t.w
  | .ldd mm t d a => mm.ok [0, 1] 4 true false && t.isLd && d.isV (if t.w = 128 then 4 else if t.w = 64 then 2 else 1) &&
      a.base64
  | .std mm t a b => mm.ok [0, 2] 4 false false && t.isB && a.base64 && b.data t.w
  | .ldl mm t d a => mm.ok [0] 0 false false && t.isLd && d.isV (if t.w = 128 then 4 else if t.w = 64 then 2 else 1) &&
      a.base32
  | .stl mm t a b => mm.ok [0] 0 false false && t.isB && a.base32 && b.data t.w
  | .ldk mm t d a => mm.ok [0] 0 false false && t.isLd && d.isV (if t.w = 128 then 4 else if t.w = 64 then 2 else 1) &&
      a.base64
  | .ldw mm t d a => mm.ok [0, 1] 2 false false && t.isLd && d.isV (if t.w = 128 then 4 else if t.w = 64 then 2 else 1) &&
      a.base32
  | .stw mm t a b => mm.ok [0, 2] 2 false false && t.isB && a.base32 && b.data t.w
  | .pres mm d a => mm.ok [0] 0 false false && d.isV 1 && a.base32
  | .atoms op mm t d a b c => mm.ok [0, 1, 2, 3] 0 false true && a.base32 && atomOk op t d b c
  | .atomd op mm t d a b c => mm.ok [0, 1, 2, 3] 4 true true && a.base64 && atomOk op t d b c
  | .atomg op mm t d a b c => mm.ok [0, 1, 2, 3] 2 true true && a.base64 && atomOk op t d b c
  | .redg op mm t a b => mm.ok [0, 2] 2 false true && a.base64 && aopTy op t && op != .exch && op != .cas && b.data t.w
  | .redd op mm t a b => mm.ok [0, 2] 4 false true && a.base64 && aopTy op t && op != .exch && op != .cas && b.data t.w
  | .fence ord scope => ord != 0 && decide (scope.toNat ≤ 4)
  | .bar level op id => !k.elect && level != 3 && op != 3 &&
      decide (id.toNat < (if level = 0 then 16 else if level = 1 then 8 else 4))
  | .chdrop _ _ _ a => a.isVHC
  | .chtake _ _ _ d => d.isV 1
  | .chfree _ => true
  | .wait _ _ scope d w b => decide (scope.toNat ≤ 4) && d.isV 1 && w.isV 4 &&
      (match b with
       | .reg o => o.isVC
       | .imm _ => true)
  | .msend len d a b c => decide (1 ≤ len.toNat ∧ len.toNat ≤ 256) && d.isV 1 && a.isV 1 && b.isVC && c.isVC
  | .mrecv len d a b c => decide (1 ≤ len.toNat ∧ len.toNat ≤ 256) && d.isV 2 && a.isV 1 && b.isVC && c.isVC
  | .mprobe d b c => d.isV 2 && b.isVC && c.isVC
  | .spawn nohold a b => (!nohold || k.rate != .N) && a.isV 2 && b.isV 8
  | .binflush a => a.isV 2 || a.isNone
  | .wsplit d a b => k.rate == .N && d.isV 4 && a.isVC && b.isVC
  | .grow n => k.rate == .N && !k.elect && decide (1 ≤ n.toNat ∧ n.toNat ≤ 32)
  | .shrink n => k.rate == .N && !k.elect && decide (1 ≤ n.toNat ∧ n.toNat ≤ 32)
  | .launch _ d a _ => k.rate == .N && d.isV 4 && a.isV 2
  | .signal _ irq vec a b => (irq || vec == 0) && a.isV 2 && b.isVHC
  | .mma _ scl ta tb ka kb _ _ _ d l sa sb => k.elect && matTypes ta tb && d.isV 1 && l.isV 4 &&
      (if scl then sa.isV 1 && sb.isV 1 else sa.isNone && sb.isNone && ka == 0 && kb == 0)
  | .mmag scl ta tb ka kb sa sb d a b c => !k.elect && k.pred == 7 && matTypes ta tb && d.isV 8 && a.isV 4 && b.isV 4 &&
      c.isV 8 && (scl || (ka == 0 && kb == 0 && sa == 0 && sb == 0))
  | .mloadb d a b c => k.elect && d.isV 1 && a.isV 1 && b.isV 1 && c.isV 1
  | .mrd _ d a b => d.isV 2 && a.isVC && b.isVC
  | .mrdSt _ d => d.isV 2
  | .mst t rm pol rsel _ d l => k.elect && t.isFl && rm.det && pol != .trap && rsel != 3 && d.isV 1 && l.isV 4
  | .mzero mask => k.elect && mask != 0
  | .mburst _ => true
  | .kill => k.rate == .K || k.rate == .S
  | .hrel => k.rate.draw
  | .deriv _ _ d a => (k.rate == .K || k.rate == .S) && !k.elect && d.isV 1 && a.isVHC
  | .bary _ kk d => (k.rate == .K || k.rate == .S || k.rate == .Y) && kk != 3 && d.isV 1
  | .emit z t a b => match k.rate with
      | .N => false
      | .F | .O | .C => !z && t == .none && a.isNone && b.isNone
      | .V | .Y => !z && t == .f32 && a.isV 4 && b.isNone
      | .K | .S => t == .f32 && a.isV 4 && (if z then b.isVHC else b.isNone)
  | .tex dim _ d a b => (k.rate == .K || k.rate == .S) && !k.elect && dim != 3 && d.isV 4 && a.isV 1 && b.isV 2
  | .texl dim _ d a b c => dim != 3 && d.isV 4 && a.isV 1 && b.isV 2 && c.isVHC
  | .texg _ dim _ d a b c => dim != 3 && dim != 2 && d.isV 4 && a.isV 1 && b.isV 2 && c.isVHC
  | .texq d b c => d.isV 4 && b.isV 2 && c.isVHC
  | .dice d a b => k.rate == .C && d.isV 1 && a.isVHC && b.isVHC
  | .trace mode _ d a b => mode != 3 && d.isV 8 && a.isV 8 && b.isV 2
  | .infer _ _ d a b => d.isV 1 && a.isV 1 && b.isV 2
  | .cboard e sp d a b => e.ok d && (sp == .S || sp == .G) && sp.addr a && b.isVC
  | .ccatch e d a b => e.ok d && a.isV 1 && b.isVC
  | .creplace e masked d a b c => e.ok d && a.isV 1 && b.isVC && (if masked then c.isV 1 else c.isNone)
  | .calight e copy d a b => e.ok d && b.isVC && (if copy then a.isV 1 else a.isNone)
  | .cquery d b => d.isV 2 && b.isVC
  | .labort _ => true
  | .lotq d a => d.isV 2 && a.isVC
  | .hcopy e sp dp d a b c => e.ok d && dp != .K && sp.addr a && dp.addr b && c.isVC
  | .hlayout e sp dp t _ _ _ _ _ d a b => e.ok d && t.isB && a.isV 4 &&
      ((sp == .S && (dp == .G || dp == .D) && dp.addr b) ||
       (dp == .S && (sp == .G || sp == .D || sp == .K) && sp.addr b))
  | .hgather e sp _ d a b c => e.ok d && (sp == .G || sp == .D || sp == .K) && a.isV 2 && b.isV 2 && c.isVC
  | .hscatter e dp _ d a b c => e.ok d && (dp == .G || dp == .D) && a.isV 2 && b.isV 2 && c.isVC
  | .hcoll _ e sp dp t _ rank size d a b c => e.ok d && (sp == .S || sp == .G || sp == .D) &&
      (dp == .S || dp == .G || dp == .D) && (t == .s32 || t == .n32 || t == .f32) && sp.addr a && dp.addr b &&
      c.isVC && size != 0 && decide (rank.toNat ≤ size.toNat)
  | .trap n => decide (0x40 ≤ n.toNat)
  | .tretReplay => true
  | .tretSkip => true
  | .brk _ => true
  | .getsr n d => decide (n.toNat ≤ 0x0F) && d.isV (if sr64 n.toNat then 2 else 1)
  | .setsr n a => decide (n.toNat ≤ 0x0F) && (if sr64 n.toNat then a.isV 2 || a.isC64 else a.isVC)
  | .dflip e sp d a b c => e.ok d && e.cpl != 0 && (sp == .G || sp == .D) && a.isV 2 && b.isV 2 && c.isVC
  | .dbgmbGet d a => d.isV 1 && a.isVC
  | .dbgmbPut _ a b => a.isVC && b.isVC
  | .pref space _ _ a => space != 3 && a.base64
  | .sleepExpiry _ | .waitEvaluation _ | .messageDelivery _ | .binTimerExpiry _ | .growGrant _ | .mmaStep _
  | .matrixQueueEntry _ | .rampFillersDone _ | .burstHoldExpiry _ | .inferBatchService _ | .carouselPassage _ _
  | .engineCompletion _ | .trackedResultReturn _ | .homeRmwPerform _ | .handlerEntry _ | .fetchTranslationFault _
  | .starvationPromotion _ | .behindTest | .congestionSample | .watchdogFire _ | .residencyBatchTimeout _
  | .qdoor _ _ | .qcfgWrite _ _ | .qchead _ _ | .recordTake _ | .launchAdmission _ | .crewPlacement _
  | .evictionSaveComplete _ | .crewRestore _ | .restoreWaitTimeout _ | .deadlineCut _ | .fallbackAdmission _
  | .lotCommit _ | .dresserFold _ _ | .elementCreation _ | .stockpileStallLimit _ | .primitiveRasterise _ _
  | .sampleResolve _ _ | .drawWriteOut _ | .frameStart _ | .fresp _ _ | .tlbInvalidate _ _ | .contextCreate _ _
  | .contextDestroy _ | .debugAttach _ _ | .watchpointWrite _ _ _ | .haltreq _ _ | .debugResume _ | .debugStep _
  | .debugAbort _ | .stopRecordDelivery _ | .registerWrite _ _ _ | .hostBar2Write _ _ | .hostBar2Read _ _
  | .configurationRequest _ | .getVersion | .getCapabilities | .negotiateAlgorithms | .getDigests
  | .getCertificate _ _ _ | .challenge _ _ | .getMeasurements _ | .fabricRequest _ _ _
  | .windowPacketArrival _ _ _ _ _ _ | .subnetworkPowerUp _ | .subnetworkPowerDown _ _ | .escapeDiversion _ _
  | .ptpEnable _ | .ptpEventMessage _ | .syncLoss | .holdoverTimeout | .outputEnable _ _ | .ostatClear _ _
  | .checkpoint | .restore | .fwload | .warmreset | .coldreset | .survey | .commandCompletion | .fundamentalReset
  | .soundingComplete _ _ | .hbmScrub _ _ | .fatalErrorContainment | .thermalThrottle _ | .storePerformed _
  | .engineLineDelivery _ _ | .frhead _ _ | .portLinkChange _ _ | .outputLinkChange _ _ | .announceReceiptTimeout _
  | .ptpMessageInterval _ | .powerLoss | .throttleEnd _ | .hbmStackTemperatureChange _ _ | .contextResume _ => false

/-- A fetched instruction is well formed. -/
def Fetched.wf (f : Fetched) : Bool := f.ins.wf f.ctl

end Sys2Proof
end

