-- ==== Sys2Proof/Decode.lean ====
section
/-! DEFINITION. From words to instructions and back (R85 to R99, R108, R109). Fields are pulled out once; the
instruction they spell is accepted when it is well formed and when encoding it again gives exactly the words that were
read, so that no undefined bit, class or field passes. -/

namespace Sys2Proof

open Sys2Proof.Machine

/-- Why words are no instruction (R99). A continuation word is judged by how it was reached. -/
inductive Reject
  | truncated
  | continuation
  | illegalOp
  | illegalEnc
  deriving DecidableEq, Repr

/-- A field of a natural number as a bit vector. -/
def bf (x lo n : Nat) : BitVec n := BitVec.ofNat n (x / 2 ^ lo)

/-- Rate codes (R28). -/
def Rate.code : Rate → Nat
  | .N => 0 | .F => 1 | .O => 2 | .C => 3 | .V => 4 | .K => 5 | .S => 6 | .Y => 7

/-- The rate of a code (R28). -/
def rateOf : Nat → Rate
  | 0 => .N | 1 => .F | 2 => .O | 3 => .C | 4 => .V | 5 => .K | 6 => .S | _ => .Y

/-- Type codes (R89). -/
def Ty.code : Ty → Nat
  | .none => 0x00
  | .b8 => 0x01 | .b16 => 0x02 | .b32 => 0x03 | .b64 => 0x04 | .b128 => 0x05
  | .s8 => 0x08 | .s16 => 0x09 | .s32 => 0x0A | .s64 => 0x0B
  | .n8 => 0x0C | .n16 => 0x0D | .n32 => 0x0E | .n64 => 0x0F
  | .f16 => 0x10 | .bf16 => 0x11 | .f32 => 0x12
  | .f8 u x p => 0x20 + 16 * u.toNat + 8 * x.toNat + p.toNat

/-- The type of a code; reserved codes have none (R89). -/
def tyOf (c : Nat) : Option Ty :=
  match c with
  | 0x00 => some .none
  | 0x01 => some .b8 | 0x02 => some .b16 | 0x03 => some .b32 | 0x04 => some .b64 | 0x05 => some .b128
  | 0x08 => some .s8 | 0x09 => some .s16 | 0x0A => some .s32 | 0x0B => some .s64
  | 0x0C => some .n8 | 0x0D => some .n16 | 0x0E => some .n32 | 0x0F => some .n64
  | 0x10 => some .f16 | 0x11 => some .bf16 | 0x12 => some .f32
  | c => if c ≥ 0x20 ∧ c < 0x40 ∧ c % 8 ≠ 0 then some (.f8 (testN c 4) (testN c 3) (BitVec.ofNat 3 c)) else none

/-- Rounding mode codes (R90). -/
def Rm.code : Rm → Nat
  | .rne => 0 | .rtz => 1 | .rup => 2 | .rdn => 3 | .rna => 4 | .sr => 5

def rmOf : Nat → Option Rm
  | 0 => some .rne | 1 => some .rtz | 2 => some .rup | 3 => some .rdn | 4 => some .rna | 5 => some .sr | _ => none

/-- Overflow policy codes (R124). -/
def Pol.code : Pol → Nat
  | .sat => 0 | .inf => 1 | .nan => 2 | .trap => 3

def polOfCode : Nat → Pol
  | 0 => .sat | 1 => .inf | 2 => .nan | _ => .trap

/-- Condition codes (R150). -/
def Cond.code : Cond → Nat
  | .eq => 0 | .ne => 1 | .lt => 2 | .le => 3 | .gt => 4 | .ge => 5

def condOf : Nat → Option Cond
  | 0 => some .eq | 1 => some .ne | 2 => some .lt | 3 => some .le | 4 => some .gt | 5 => some .ge | _ => none

/-- Combining operation codes (R150). -/
def Bop.code : Bop → Nat
  | .none => 0 | .and => 1 | .or => 2 | .xor => 3

def bopOf : Nat → Bop
  | 0 => .none | 1 => .and | 2 => .or | _ => .xor

/-- Atomic operation codes (R186). -/
def AOp.code : AOp → Nat
  | .add => 0 | .min => 1 | .max => 2 | .and => 3 | .or => 4 | .xor => 5 | .exch => 6 | .cas => 7 | .inc => 8
  | .dec => 9 | .fadd => 10 | .fmin => 11 | .fmax => 12

def aopOf : Nat → Option AOp
  | 0 => some .add | 1 => some .min | 2 => some .max | 3 => some .and | 4 => some .or | 5 => some .xor
  | 6 => some .exch | 7 => some .cas | 8 => some .inc | 9 => some .dec | 10 => some .fadd | 11 => some .fmin
  | 12 => some .fmax | _ => none

def ShMode.code : ShMode → Nat
  | .pick => 0 | .back => 1 | .fwd => 2 | .mirr => 3

def shModeOf : Nat → Option ShMode
  | 0 => some .pick | 1 => some .back | 2 => some .fwd | 3 => some .mirr | _ => none

def VOp.code : VOp → Nat
  | .all => 0 | .any => 1 | .eq => 2 | .ballot => 3

def vopOf : Nat → Option VOp
  | 0 => some .all | 1 => some .any | 2 => some .eq | 3 => some .ballot | _ => none

/-- Codes of REDUX and SCAN operations (R201). -/
def ROp.code : ROp → Nat
  | .add => 0 | .min => 1 | .max => 2 | .and => 3 | .or => 4 | .xor => 5 | .fadd => 6 | .fmin => 7 | .fmax => 8

def ropOf : Nat → Option ROp
  | 0 => some .add | 1 => some .min | 2 => some .max | 3 => some .and | 4 => some .or | 5 => some .xor
  | 6 => some .fadd | 7 => some .fmin | 8 => some .fmax | _ => none

/-- Engine space codes (R272). -/
def ESp.code : ESp → Nat
  | .S => 0 | .G => 1 | .D => 2 | .K => 3 | .W => 4

def espOf : Nat → Option ESp
  | 0 => some .S | 1 => some .G | 2 => some .D | 3 => some .K | 4 => some .W | _ => none

/-- HCOLL operation codes (R292). -/
def COp.code : COp → Nat
  | .bcast => 0 | .allred => 1 | .allgat => 2 | .redsct => 3

def copOf : Nat → Option COp
  | 0 => some .bcast | 1 => some .allred | 2 => some .allgat | 3 => some .redsct | _ => none

/-- Pair opcodes (R94). -/
def POp.code : POp → Nat
  | .add => 0x01 | .sub => 0x02 | .min => 0x03 | .max => 0x04 | .and => 0x05 | .or => 0x06 | .xor => 0x07
  | .shl => 0x08 | .shr => 0x09 | .sar => 0x0A | .mov => 0x0B | .mad => 0x0C
  | .fadd => 0x10 | .fsub => 0x11 | .fmul => 0x12 | .ffma => 0x13 | .fmin => 0x14 | .fmax => 0x15
  | .pkadd => 0x18 | .pkmul => 0x19 | .pkfma => 0x1A | .dot2h => 0x1B
  | .rcp => 0x20 | .rsq => 0x21 | .exp2 => 0x22 | .log2 => 0x23 | .sinr => 0x24 | .cosr => 0x25 | .tanh => 0x26
  | .fsqrt => 0x27

def popOf : Nat → Option POp
  | 0x01 => some .add | 0x02 => some .sub | 0x03 => some .min | 0x04 => some .max | 0x05 => some .and
  | 0x06 => some .or | 0x07 => some .xor | 0x08 => some .shl | 0x09 => some .shr | 0x0A => some .sar
  | 0x0B => some .mov | 0x0C => some .mad
  | 0x10 => some .fadd | 0x11 => some .fsub | 0x12 => some .fmul | 0x13 => some .ffma | 0x14 => some .fmin
  | 0x15 => some .fmax
  | 0x18 => some .pkadd | 0x19 => some .pkmul | 0x1A => some .pkfma | 0x1B => some .dot2h
  | 0x20 => some .rcp | 0x21 => some .rsq | 0x22 => some .exp2 | 0x23 => some .log2 | 0x24 => some .sinr
  | 0x25 => some .cosr | 0x26 => some .tanh | 0x27 => some .fsqrt
  | _ => none

/-- PTYPE codes (R92). -/
def ptyCode : Ty → Nat
  | .f32 => 0 | .f16 => 1 | .bf16 => 2 | .s32 => 3 | .n32 => 4 | .b32 => 5 | _ => 15

def ptyOf : Nat → Option Ty
  | 0 => some .f32 | 1 => some .f16 | 2 => some .bf16 | 3 => some .s32 | 4 => some .n32 | 5 => some .b32 | _ => none

/-- Class and field of an operand position (R88): 10 bits, class above field. -/
def Opd.code : Opd → Nat × Nat
  | .v n => (0, n.toNat)
  | .h n m => (1, m.toNat * 64 + n.toNat)
  | .c n => (2, n.toNat)
  | .none => (3, 0)

/-- The operand of a class and field (R88). -/
def opdOf (cls f : Nat) : Opd :=
  match cls with
  | 0 => .v (BitVec.ofNat 8 f)
  | 1 => .h (BitVec.ofNat 6 f) (bf f 6 2)
  | 2 => .c (BitVec.ofNat 8 f)
  | _ => .none

/-- A word of KIND 0b00 or 0b10 less its control field, and the payload of its continuation word (R86, R87). -/
structure Raw where
  op : Nat
  d : Opd
  a : Opd
  b : Opd
  c : Opd
  ty : Nat
  md : Nat
  pay : Option Nat
  deriving DecidableEq, Repr

/-- Opcodes that are assigned outside the hint region (R108). -/
def opAssigned (op : Nat) : Bool :=
  [(0x001, 0x027), (0x080, 0x089), (0x100, 0x117), (0x180, 0x184), (0x1A0, 0x1A4), (0x200, 0x20B), (0x210, 0x214),
   (0x218, 0x218), (0x280, 0x28E), (0x300, 0x305), (0x310, 0x31B), (0x320, 0x324), (0x380, 0x381), (0x388, 0x38C),
   (0x390, 0x394), (0x398, 0x399)].any fun r => decide (r.1 ≤ op ∧ op ≤ r.2)

/-- A last source: IMM32 where IMM = 1, else the operand (R139). -/
def srcOf (md : Nat) (o : Opd) : SrcI := if testN md 55 then .imm (bf md 0 32) else .reg o

/-- NEG and ABS of MOD (R154). -/
def fmodsOf (md : Nat) : FMods := { neg := bf md 8 3, abs := bf md 5 3 }

/-- MOD of a memory word (R176). -/
def memModsOf (md : Nat) : MemMods :=
  { ord := bf md 54 2, scope := bf md 51 3, remote := testN md 50, disp := bf md 0 24 }

/-- Completion fields of an engine word (R272). -/
def engModsOf (md : Nat) : EngMods := { cpl := bf md 47 2, che := testN md 46, sel := bf md 40 6 }

/-- Integer and predicate words (R143). -/
def readInteger (r : Raw) : Option Instr :=
  let md := r.md
  match tyOf r.ty with
  | none => none
  | some t =>
    let b := srcOf md r.b
    let c := srcOf md r.c
    match r.op with
    | 0x001 => some (.mov t r.d r.a)
    | 0x002 => match r.pay with
        | none => some (.movi32 t r.d (bf md 0 32))
        | some p => some (.movi64 t r.d (bf p 0 64))
    | 0x003 => some (.sel t r.d r.a b (bf md 41 3) (testN md 40))
    | 0x004 => some (.add (testN md 47) t r.d r.a b (bf md 44 3))
    | 0x005 => some (.addc t r.d r.a b (bf md 41 3) (bf md 44 3))
    | 0x006 => some (.sub (testN md 47) t r.d r.a b (bf md 44 3))
    | 0x007 => some (.subb t r.d r.a b (bf md 41 3) (bf md 44 3))
    | 0x008 => some (.neg (testN md 47) t r.d r.a)
    | 0x009 => some (.abs (testN md 47) t r.d r.a)
    | 0x00A => some (.mul t r.d r.a b)
    | 0x00B => some (.mulhi t r.d r.a b)
    | 0x00C => some (.mad t r.d r.a r.b c)
    | 0x00D => some (.madw t r.d r.a r.b c)
    | 0x00E => some (.div t r.d r.a b)
    | 0x00F => some (.rem t r.d r.a b)
    | 0x010 => some (.min t r.d r.a b)
    | 0x011 => some (.max t r.d r.a b)
    | 0x012 => some (.and t r.d r.a b)
    | 0x013 => some (.or t r.d r.a b)
    | 0x014 => some (.xor t r.d r.a b)
    | 0x015 => some (.not t r.d r.a)
    | 0x016 => some (.andn t r.d r.a b)
    | 0x017 => some (.orn t r.d r.a b)
    | 0x018 => some (.shl t r.d r.a b)
    | 0x019 => some (.shr t r.d r.a b)
    | 0x01A => some (.sar t r.d r.a b)
    | 0x01B => some (.rot t r.d r.a b)
    | 0x01C => some (.fshl t r.d r.a r.b c)
    | 0x01D => some (.bfx t r.d r.a b)
    | 0x01E => some (.bfi t r.d r.a r.b c)
    | 0x01F => some (.popc t r.d r.a)
    | 0x020 => some (.clz t r.d r.a)
    | 0x021 => some (.ctz t r.d r.a)
    | 0x022 => some (.brev t r.d r.a)
    | 0x023 => some (.permb t r.d r.a r.b c)
    | 0x024 => some (.lea t r.d r.a b (bf md 32 5))
    | 0x025 => match condOf (fieldN md 37 3) with
        | some cd => some (.cmp t cd (bopOf (fieldN md 35 2)) (bf md 44 3) (bf md 41 3) (testN md 40) r.a b)
        | none => none
    | 0x026 => some (.plop (bf md 44 3) (bf md 41 3) (bf md 38 3) (bf md 35 3) (bf md 0 8))
    | 0x027 => if testN md 32 then some (.pmovSet r.a (bf md 40 7)) else some (.pmov r.d)
    | _ => none

/-- Control words (R129). -/
def readControl (r : Raw) : Option Instr :=
  let md := r.md
  match r.op with
  | 0x080 => some .nop
  | 0x081 => some (.bra (bf md 0 32))
  | 0x082 => some (.jmp r.a)
  | 0x083 => some (.call r.d (bf md 0 32))
  | 0x084 => some (.callr r.d r.a)
  | 0x085 => some (.ret r.a)
  | 0x086 => some (.reconv (testN md 47) r.a (bf md 0 32))
  | 0x087 => some .exit
  | 0x088 => some .yield
  | 0x089 => some (.sleep (srcOf md r.a))
  | _ => none

/-- Floating-point and special-function words (R154 to R167). -/
def readFloat (r : Raw) : Option Instr :=
  let md := r.md
  let m := fmodsOf md
  match rmOf (fieldN md 0 3), tyOf r.ty, tyOf (fieldN md 50 6) with
  | some rm, some t, some s =>
    match r.op with
    | 0x100 => some (.fadd rm m r.d r.a r.b)
    | 0x101 => some (.fsub rm m r.d r.a r.b)
    | 0x102 => some (.fmul rm m r.d r.a r.b)
    | 0x103 => some (.ffma rm m r.d r.a r.b r.c)
    | 0x104 => some (.fmin m r.d r.a r.b)
    | 0x105 => some (.fmax m r.d r.a r.b)
    | 0x106 => some (.fcmp (bf md 36 4) (bopOf (fieldN md 34 2)) (bf md 44 3) (bf md 41 3) (testN md 40) m r.a r.b)
    | 0x107 => some (.fclass r.d r.a)
    | 0x108 => some (.frnd rm m r.d r.a)
    | 0x109 => some (.ffrac m r.d r.a)
    | 0x10A => some (.fdiv rm m r.d r.a r.b)
    | 0x10B => some (.fsqrt rm m r.d r.a)
    | 0x10C => some (.rcp m r.d r.a)
    | 0x10D => some (.rsq m r.d r.a)
    | 0x10E => some (.exp2 m r.d r.a)
    | 0x10F => some (.log2 m r.d r.a)
    | 0x110 => some (.sinr m r.d r.a)
    | 0x111 => some (.cosr m r.d r.a)
    | 0x112 => some (.tanh m r.d r.a)
    | 0x113 => some (.pkadd t rm m r.d r.a r.b)
    | 0x114 => some (.pkmul t rm m r.d r.a r.b)
    | 0x115 => some (.pkfma t rm m r.d r.a r.b r.c)
    | 0x116 => some (.dot2h s rm m r.d r.a r.b r.c)
    | 0x117 => some (.dot4b8 s rm m r.d r.a r.b r.c)
    | _ => none
  | _, _, _ => none

/-- Conversion words (R168 to R173). -/
def readConversion (r : Raw) : Option Instr :=
  let md := r.md
  let m := fmodsOf md
  let k : BitVec 2 := bf md 48 2
  let pol := polOfCode (fieldN md 3 2)
  match rmOf (fieldN md 0 3), tyOf r.ty, tyOf (fieldN md 50 6) with
  | some rm, some t, some s =>
    match r.op with
    | 0x180 => some (.cvt t s rm pol m (testN md 47) k r.d r.a r.b r.c)
    | 0x181 => some (.cvts t s rm pol m k r.d r.a r.b r.c)
    | 0x182 => some (.pack2 t s rm pol m (testN md 48) r.d r.a r.b r.c)
    | 0x183 => some (.unpack s rm pol (testN md 47) k r.d r.a r.c)
    | 0x184 => some (.scale rm pol m (testN md 47) k r.d r.a r.b)
    | _ => none
  | _, _, _ => none

/-- Cross-lane words (R196, R197). -/
def readCrossLane (r : Raw) : Option Instr :=
  let md := r.md
  let o := fieldN md 48 4
  match tyOf r.ty with
  | none => none
  | some t =>
    match r.op with
    | 0x1A0 => (shModeOf o).map fun x =>
        .shfl x (bf md 40 3) t (bf md 52 3) r.d r.a (if testN md 55 then .imm (BitVec.ofNat 32 (fieldN md 0 5)) else .reg r.b)
          r.c
    | 0x1A1 => (vopOf o).map fun x => .vote x (bf md 44 3) (testN md 43) (bf md 52 3) r.d r.c
    | 0x1A2 => if o = 0 then some (.matchKeys false t (bf md 52 3) r.d r.a r.c)
        else if o = 1 then some (.matchKeys true t (bf md 52 3) r.d r.a r.c) else none
    | 0x1A3 => (ropOf o).map fun x => .redux x t r.d r.a r.c
    | 0x1A4 => (ropOf o).map fun x => .scan x (testN md 47) t r.d r.a r.c
    | _ => none

/-- Load, store, atomic and fence words (R176, R177). -/
def readMemory (r : Raw) : Option Instr :=
  let mm := memModsOf r.md
  match tyOf r.ty with
  | none => none
  | some t =>
    match r.op with
    | 0x200 => some (.lds mm t r.d r.a)
    | 0x201 => some (.sts mm t r.a r.b)
    | 0x202 => some (.ldg mm t r.d r.a)
    | 0x203 => some (.stg mm t r.a r.b)
    | 0x204 => some (.ldd mm t r.d r.a)
    | 0x205 => some (.std mm t r.a r.b)
    | 0x206 => some (.ldl mm t r.d r.a)
    | 0x207 => some (.stl mm t r.a r.b)
    | 0x208 => some (.ldk mm t r.d r.a)
    | 0x209 => some (.ldw mm t r.d r.a)
    | 0x20A => some (.stw mm t r.a r.b)
    | 0x20B => some (.pres mm r.d r.a)
    | 0x210 => (aopOf (fieldN r.md 44 4)).map fun o => .atoms o mm t r.d r.a r.b r.c
    | 0x211 => (aopOf (fieldN r.md 44 4)).map fun o => .atomd o mm t r.d r.a r.b r.c
    | 0x212 => (aopOf (fieldN r.md 44 4)).map fun o => .atomg o mm t r.d r.a r.b r.c
    | 0x213 => (aopOf (fieldN r.md 44 4)).map fun o => .redg o mm t r.a r.b
    | 0x214 => (aopOf (fieldN r.md 44 4)).map fun o => .redd o mm t r.a r.b
    | 0x218 => some (.fence mm.ord mm.scope)
    | _ => none

/-- Synchronisation and spawning words (R202). -/
def readSync (r : Raw) : Option Instr :=
  let md := r.md
  match r.op with
  | 0x280 => some (.bar (bf md 46 2) (bf md 44 2) (bf md 0 4))
  | 0x281 => some (.chdrop (testN md 47) (bf md 44 3) (bf md 0 6) r.a)
  | 0x282 => some (.chtake (testN md 47) (bf md 44 3) (bf md 0 6) r.d)
  | 0x283 => some (.chfree (bf md 0 6))
  | 0x284 => some (.wait (testN md 47) (bf md 45 2) (bf md 42 3) r.d r.a (srcOf md r.b))
  | 0x285 => some (.msend (bf md 32 9) r.d r.a r.b r.c)
  | 0x286 => some (.mrecv (bf md 32 9) r.d r.a r.b r.c)
  | 0x287 => some (.mprobe r.d r.b r.c)
  | 0x288 => some (.spawn (testN md 47) r.a r.b)
  | 0x289 => some (.binflush r.a)
  | 0x28A => some (.wsplit r.d r.a r.b)
  | 0x28B => some (.grow (bf md 0 6))
  | 0x28C => some (.shrink (bf md 0 6))
  | 0x28D => r.pay.map fun p => .launch (testN md 47) r.d r.a (bf p 0 10)
  | 0x28E => some (.signal (testN md 47) (testN md 46) (bf md 0 11) r.a r.b)
  | _ => none

/-- Matrix words (R224, R225). -/
def readMatrix (r : Raw) : Option Instr :=
  let md := r.md
  match r.op with
  | 0x300 =>
    match r.pay with
    | none => none
    | some p =>
      match tyOf (fieldN md 50 6), tyOf (fieldN p 0 6) with
      | some ta, some tb => some (.mma (testN md 44) (testN md 45) ta tb (bf md 48 2) (bf md 46 2) (bf md 41 3) (bf md 36 5)
          (bf p 6 8) r.d r.a r.b r.c)
      | _, _ => none
  | 0x301 =>
    match tyOf (fieldN md 50 6), tyOf (fieldN md 38 6) with
    | some ta, some tb =>
      some (.mmag (testN md 45) ta tb (bf md 48 2) (bf md 46 2) (bf md 30 8) (bf md 22 8) r.d r.a r.b r.c)
    | _, _ => none
  | 0x302 => some (.mloadb r.d r.a r.b r.c)
  | 0x303 => if testN md 40 then some (.mrdSt (bf md 41 3) r.d) else some (.mrd (bf md 41 3) r.d r.a r.b)
  | 0x304 =>
    match tyOf r.ty, rmOf (fieldN md 0 3) with
    | some t, some rm => some (.mst t rm (polOfCode (fieldN md 3 2)) (bf md 39 2) (bf md 41 3) r.d r.a)
    | _, _ => none
  | 0x305 => some (.mzero (bf md 0 8))
  | _ => none

/-- Rate and rendering words (R249). -/
def readRender (r : Raw) : Option Instr :=
  let md := r.md
  let pd : BitVec 3 := bf md 4 3
  let dim : BitVec 2 := bf md 0 2
  match tyOf r.ty with
  | none => none
  | some t =>
    match r.op with
    | 0x310 => some .kill
    | 0x311 => some .hrel
    | 0x312 => some (.deriv (testN md 0) (testN md 1) r.d r.a)
    | 0x313 => some (.bary (testN md 2) (bf md 0 2) r.d)
    | 0x314 => some (.emit (testN md 0) t r.a r.b)
    | 0x315 => some (.tex dim pd r.d r.a r.b)
    | 0x316 => some (.texl dim pd r.d r.a r.b r.c)
    | 0x317 => some (.texg (bf md 8 2) dim pd r.d r.a r.b r.c)
    | 0x318 => some (.texq r.d r.b r.c)
    | 0x319 => some (.dice r.d r.a r.b)
    | 0x31A => r.pay.map fun p => .trace (bf p 8 2) (bf p 0 8) r.d r.a r.b
    | 0x31B => some (.infer (bf md 8 5) (bf md 0 4) r.d r.a r.b)
    | _ => none

/-- Carousel, lot and hoist words (R277, R287 to R292). -/
def readEngine (r : Raw) : Option Instr :=
  let md := r.md
  let e := engModsOf md
  match espOf (fieldN md 37 3), espOf (fieldN md 34 3), tyOf r.ty with
  | some sp, some dp, some t =>
    match r.op with
    | 0x320 => some (.cboard e sp r.d r.a r.b)
    | 0x321 => some (.ccatch e r.d r.a r.b)
    | 0x322 => some (.creplace e (testN md 33) r.d r.a r.b r.c)
    | 0x323 => some (.calight e (testN md 33) r.d r.a r.b)
    | 0x324 => some (.cquery r.d r.b)
    | 0x388 => some (.hcopy e sp dp r.d r.a r.b r.c)
    | 0x389 => r.pay.map fun p =>
        .hlayout e sp dp t (bf p 0 16) (bf p 16 16) (bf p 32 16) (bf p 48 32) (bf p 80 32) r.d r.a r.b
    | 0x38A => some (.hgather e sp (bf md 0 8) r.d r.a r.b r.c)
    | 0x38B => some (.hscatter e dp (bf md 0 8) r.d r.a r.b r.c)
    | 0x38C =>
      match r.pay, copOf (fieldN md 53 3) with
      | some p, some o => some (.hcoll o e sp dp t (bf p 0 16) (bf p 16 8) (bf p 24 8) r.d r.a r.b r.c)
      | _, _ => none
    | _ => none
  | _, _, _ => none

/-- Lot, system, display and debug words, and hints (R287, R288, R294, R297, R299, R300, R194, R237). -/
def readSystem (r : Raw) : Option Instr :=
  let md := r.md
  match r.op with
  | 0x380 => some (.labort (bf md 0 8))
  | 0x381 => some (.lotq r.d r.a)
  | 0x390 => some (.trap (bf md 0 7))
  | 0x391 => if testN md 0 then some .tretSkip else some .tretReplay
  | 0x392 => some (.brk (bf md 0 16))
  | 0x393 => some (.getsr (bf md 0 8) r.d)
  | 0x394 => some (.setsr (bf md 0 8) r.a)
  | 0x398 => (espOf (fieldN md 37 3)).map fun sp => .dflip (engModsOf md) sp r.d r.a r.b r.c
  | 0x399 => if testN md 0 then some (.dbgmbPut (testN md 1) r.a r.b) else some (.dbgmbGet r.d r.a)
  | 0x3C0 => some (.pref (bf md 54 2) (testN md 53) (bf md 0 24) r.a)
  | 0x3C1 => some (.mburst (bf md 0 16))
  | _ => none

/-- The instruction a word of KIND 0b00 or 0b10 spells, by class of its opcode (R108).
(DESIGN CHOICE, log 88: unsafe.) -/
def readRaw (r : Raw) : Option Instr :=
  if r.op < 0x080 then readInteger r
  else if r.op < 0x100 then readControl r
  else if r.op < 0x180 then readFloat r
  else if r.op < 0x1A0 then readConversion r
  else if r.op < 0x200 then readCrossLane r
  else if r.op < 0x280 then readMemory r
  else if r.op < 0x300 then readSync r
  else if r.op < 0x310 then readMatrix r
  else if r.op < 0x320 then readRender r
  else if r.op < 0x380 ∨ (0x388 ≤ r.op ∧ r.op < 0x390) then readEngine r
  else readSystem r

/-- One half of a paired word (R92, R95). -/
def readHalf (h : Nat) : Option Half :=
  match popOf (fieldN h 49 7), ptyOf (fieldN h 13 4), rmOf (fieldN h 10 3) with
  | some o, some t, some rm => some
      { op := o, d := bf h 41 8, a := bf h 33 8, b := bf h 25 8, c := bf h 17 8, ty := t, rm := rm,
        fm := { neg := bf h 7 3, abs := bf h 4 3 } }
  | _, _, _ => none

/-- The control field of a word (R85). -/
def readCtl (w : Nat) : Ctl :=
  { stall := bf w 122 4, rate := rateOf (fieldN w 119 3), elect := testN w 118, pred := bf w 115 3,
    pneg := testN w 114 }

/-- The operand positions and MOD of a word, with its continuation's payload (R86, R87). -/
def readFields (w : Nat) (pay : Option Nat) : Raw :=
  { op := fieldN w 102 10, d := opdOf (fieldN w 68 2) (fieldN w 94 8), a := opdOf (fieldN w 66 2) (fieldN w 86 8),
    b := opdOf (fieldN w 64 2) (fieldN w 78 8), c := opdOf (fieldN w 62 2) (fieldN w 70 8), ty := fieldN w 56 6,
    md := fieldN w 0 56, pay := pay }

/-- Control field with a KIND, as the top 16 bits of a word (R85). -/
def ctlBits (kind : Nat) (k : Ctl) : Nat :=
  kind * 2 ^ 14 + k.stall.toNat * 2 ^ 10 + k.rate.code * 2 ^ 7 + k.elect.toNat * 2 ^ 6 + k.pred.toNat * 2 ^ 3 +
  k.pneg.toNat * 2 ^ 2

/-- Operand and immediate of a last source (R139): operand, then IMM with IMM32. -/
def SrcI.opd : SrcI → Opd
  | .reg o => o
  | .imm _ => .none

/-- MOD bits of a last source (R138). -/
def SrcI.bits : SrcI → Nat
  | .reg _ => 0
  | .imm w => 2 ^ 55 + w.toNat

/-- NEG and ABS bits of MOD (R154). -/
def FMods.bits (m : FMods) : Nat := m.neg.toNat * 2 ^ 8 + m.abs.toNat * 2 ^ 5

/-- Memory bits of MOD (R176). -/
def MemMods.bits (m : MemMods) : Nat :=
  m.ord.toNat * 2 ^ 54 + m.scope.toNat * 2 ^ 51 + m.remote.toNat * 2 ^ 50 + m.disp.toNat

/-- Engine bits of MOD (R272). -/
def EngMods.bits (e : EngMods) (sp dp : ESp) : Nat :=
  e.cpl.toNat * 2 ^ 47 + e.che.toNat * 2 ^ 46 + e.sel.toNat * 2 ^ 40 + sp.code * 2 ^ 37 + dp.code * 2 ^ 34

/-- A word with no operands. -/
def raw0 (op ty md : Nat) : Raw :=
  { op := op, d := .none, a := .none, b := .none, c := .none, ty := ty, md := md, pay := none }

/-- A word with operands D, A, B, C. -/
def raw4 (op : Nat) (d a b c : Opd) (ty md : Nat) : Raw :=
  { op := op, d := d, a := a, b := b, c := c, ty := ty, md := md, pay := none }

/-- A two-source integer word. -/
def rawI2 (op : Nat) (t : Ty) (d a : Opd) (b : SrcI) (fld : Nat) : Raw :=
  raw4 op d a b.opd .none t.code (fld + b.bits)

/-- A three-source integer word. -/
def rawI3 (op : Nat) (t : Ty) (d a b : Opd) (c : SrcI) : Raw := raw4 op d a b c.opd t.code c.bits

/-- A floating word of type .f32. -/
def rawF (op : Nat) (d a b c : Opd) (md : Nat) : Raw := raw4 op d a b c 0x12 md

/-- The fields that spell an instruction; a paired word and every event have none (R108 and each entry).
(DESIGN CHOICE, log 88: unsafe.) -/
def writeRaw : Instr → Option Raw
  | .mov t d a => some (raw4 0x001 d a .none .none t.code 0)
  | .movi32 t d w => some (raw4 0x002 d .none .none .none t.code w.toNat)
  | .movi64 t d w => some { raw4 0x002 d .none .none .none t.code 0 with pay := some w.toNat }
  | .sel t d a b ps psn => some (rawI2 0x003 t d a b (ps.toNat * 2 ^ 41 + psn.toNat * 2 ^ 40))
  | .add sat t d a b po => some (rawI2 0x004 t d a b (sat.toNat * 2 ^ 47 + po.toNat * 2 ^ 44))
  | .addc t d a b pi po => some (rawI2 0x005 t d a b (po.toNat * 2 ^ 44 + pi.toNat * 2 ^ 41))
  | .sub sat t d a b po => some (rawI2 0x006 t d a b (sat.toNat * 2 ^ 47 + po.toNat * 2 ^ 44))
  | .subb t d a b pi po => some (rawI2 0x007 t d a b (po.toNat * 2 ^ 44 + pi.toNat * 2 ^ 41))
  | .neg sat t d a => some (raw4 0x008 d a .none .none t.code (sat.toNat * 2 ^ 47))
  | .abs sat t d a => some (raw4 0x009 d a .none .none t.code (sat.toNat * 2 ^ 47))
  | .mul t d a b => some (rawI2 0x00A t d a b 0)
  | .mulhi t d a b => some (rawI2 0x00B t d a b 0)
  | .mad t d a b c => some (rawI3 0x00C t d a b c)
  | .madw t d a b c => some (rawI3 0x00D t d a b c)
  | .div t d a b => some (rawI2 0x00E t d a b 0)
  | .rem t d a b => some (rawI2 0x00F t d a b 0)
  | .min t d a b => some (rawI2 0x010 t d a b 0)
  | .max t d a b => some (rawI2 0x011 t d a b 0)
  | .and t d a b => some (rawI2 0x012 t d a b 0)
  | .or t d a b => some (rawI2 0x013 t d a b 0)
  | .xor t d a b => some (rawI2 0x014 t d a b 0)
  | .not t d a => some (raw4 0x015 d a .none .none t.code 0)
  | .andn t d a b => some (rawI2 0x016 t d a b 0)
  | .orn t d a b => some (rawI2 0x017 t d a b 0)
  | .shl t d a b => some (rawI2 0x018 t d a b 0)
  | .shr t d a b => some (rawI2 0x019 t d a b 0)
  | .sar t d a b => some (rawI2 0x01A t d a b 0)
  | .rot t d a b => some (rawI2 0x01B t d a b 0)
  | .fshl t d a b c => some (rawI3 0x01C t d a b c)
  | .bfx t d a b => some (rawI2 0x01D t d a b 0)
  | .bfi t d a b c => some (rawI3 0x01E t d a b c)
  | .popc t d a => some (raw4 0x01F d a .none .none t.code 0)
  | .clz t d a => some (raw4 0x020 d a .none .none t.code 0)
  | .ctz t d a => some (raw4 0x021 d a .none .none t.code 0)
  | .brev t d a => some (raw4 0x022 d a .none .none t.code 0)
  | .permb t d a b c => some (rawI3 0x023 t d a b c)
  | .lea t d a b sh => some (rawI2 0x024 t d a b (sh.toNat * 2 ^ 32))
  | .cmp t cond bop pd ps psn a b => some (rawI2 0x025 t .none a b
      (pd.toNat * 2 ^ 44 + ps.toNat * 2 ^ 41 + psn.toNat * 2 ^ 40 + cond.code * 2 ^ 37 + bop.code * 2 ^ 35))
  | .plop pd pa pb pc tb => some (raw0 0x026 0
      (pd.toNat * 2 ^ 44 + pa.toNat * 2 ^ 41 + pb.toNat * 2 ^ 38 + pc.toNat * 2 ^ 35 + tb.toNat))
  | .pmov d => some (raw4 0x027 d .none .none .none 0 0)
  | .pmovSet a m => some (raw4 0x027 .none a .none .none 0 (m.toNat * 2 ^ 40 + 2 ^ 32))
  | .nop => some (raw0 0x080 0 0)
  | .bra off => some (raw0 0x081 0 off.toNat)
  | .jmp a => some (raw4 0x082 .none a .none .none 0 0)
  | .call d off => some (raw4 0x083 d .none .none .none 0 off.toNat)
  | .callr d a => some (raw4 0x084 d a .none .none 0 0)
  | .ret a => some (raw4 0x085 .none a .none .none 0 0)
  | .reconv g a off => some (raw4 0x086 .none a .none .none 0 (g.toNat * 2 ^ 47 + off.toNat))
  | .exit => some (raw0 0x087 0 0)
  | .yield => some (raw0 0x088 0 0)
  | .sleep n => some (raw4 0x089 .none n.opd .none .none 0 n.bits)
  | .fadd rm m d a b => some (rawF 0x100 d a b .none (m.bits + rm.code))
  | .fsub rm m d a b => some (rawF 0x101 d a b .none (m.bits + rm.code))
  | .fmul rm m d a b => some (rawF 0x102 d a b .none (m.bits + rm.code))
  | .ffma rm m d a b c => some (rawF 0x103 d a b c (m.bits + rm.code))
  | .fmin m d a b => some (rawF 0x104 d a b .none m.bits)
  | .fmax m d a b => some (rawF 0x105 d a b .none m.bits)
  | .fcmp cond bop pd ps psn m a b => some (rawF 0x106 .none a b .none
      (pd.toNat * 2 ^ 44 + ps.toNat * 2 ^ 41 + psn.toNat * 2 ^ 40 + cond.toNat * 2 ^ 36 + bop.code * 2 ^ 34 + m.bits))
  | .fclass d a => some (rawF 0x107 d a .none .none 0)
  | .frnd rm m d a => some (rawF 0x108 d a .none .none (m.bits + rm.code))
  | .ffrac m d a => some (rawF 0x109 d a .none .none m.bits)
  | .fdiv rm m d a b => some (rawF 0x10A d a b .none (m.bits + rm.code))
  | .fsqrt rm m d a => some (rawF 0x10B d a .none .none (m.bits + rm.code))
  | .rcp m d a => some (rawF 0x10C d a .none .none m.bits)
  | .rsq m d a => some (rawF 0x10D d a .none .none m.bits)
  | .exp2 m d a => some (rawF 0x10E d a .none .none m.bits)
  | .log2 m d a => some (rawF 0x10F d a .none .none m.bits)
  | .sinr m d a => some (rawF 0x110 d a .none .none m.bits)
  | .cosr m d a => some (rawF 0x111 d a .none .none m.bits)
  | .tanh m d a => some (rawF 0x112 d a .none .none m.bits)
  | .pkadd t rm m d a b => some (raw4 0x113 d a b .none t.code (m.bits + rm.code))
  | .pkmul t rm m d a b => some (raw4 0x114 d a b .none t.code (m.bits + rm.code))
  | .pkfma t rm m d a b c => some (raw4 0x115 d a b c t.code (m.bits + rm.code))
  | .dot2h s rm m d a b c => some (rawF 0x116 d a b c (s.code * 2 ^ 50 + m.bits + rm.code))
  | .dot4b8 s rm m d a b c => some (rawF 0x117 d a b c (s.code * 2 ^ 50 + m.bits + rm.code))
  | .cvt t s rm pol m scl kk d a r sr => some (raw4 0x180 d a r sr t.code
      (s.code * 2 ^ 50 + kk.toNat * 2 ^ 48 + scl.toNat * 2 ^ 47 + m.bits + pol.code * 2 ^ 3 + rm.code))
  | .cvts t s rm pol m kk d a r sr => some (raw4 0x181 d a r sr t.code
      (s.code * 2 ^ 50 + kk.toNat * 2 ^ 48 + 2 ^ 47 + m.bits + pol.code * 2 ^ 3 + rm.code))
  | .pack2 t s rm pol m hi d a b r => some (raw4 0x182 d a b r t.code
      (s.code * 2 ^ 50 + hi.toNat * 2 ^ 48 + m.bits + pol.code * 2 ^ 3 + rm.code))
  | .unpack s rm pol scl kk d a sr => some (rawF 0x183 d a .none sr
      (s.code * 2 ^ 50 + kk.toNat * 2 ^ 48 + scl.toNat * 2 ^ 47 + pol.code * 2 ^ 3 + rm.code))
  | .scale rm pol m scl kk d a b => some (rawF 0x184 d a b .none
      (kk.toNat * 2 ^ 48 + scl.toNat * 2 ^ 47 + m.bits + pol.code * 2 ^ 3 + rm.code))
  | .shfl mode seg t pd d a b m => some (raw4 0x1A0 d a b.opd m t.code
      (b.bits + pd.toNat * 2 ^ 52 + mode.code * 2 ^ 48 + seg.toNat * 2 ^ 40))
  | .vote op ps psn pd d m => some (raw4 0x1A1 d .none .none m 0
      (pd.toNat * 2 ^ 52 + op.code * 2 ^ 48 + ps.toNat * 2 ^ 44 + psn.toNat * 2 ^ 43))
  | .matchKeys all t pd d a m => some (raw4 0x1A2 d a .none m t.code (pd.toNat * 2 ^ 52 + all.toNat * 2 ^ 48))
  | .redux op t d a m => some (raw4 0x1A3 d a .none m t.code (op.code * 2 ^ 48))
  | .scan op incl t d a m => some (raw4 0x1A4 d a .none m t.code (op.code * 2 ^ 48 + incl.toNat * 2 ^ 47))
  | .lds mm t d a => some (raw4 0x200 d a .none .none t.code mm.bits)
  | .sts mm t a b => some (raw4 0x201 .none a b .none t.code mm.bits)
  | .ldg mm t d a => some (raw4 0x202 d a .none .none t.code mm.bits)
  | .stg mm t a b => some (raw4 0x203 .none a b .none t.code mm.bits)
  | .ldd mm t d a => some (raw4 0x204 d a .none .none t.code mm.bits)
  | .std mm t a b => some (raw4 0x205 .none a b .none t.code mm.bits)
  | .ldl mm t d a => some (raw4 0x206 d a .none .none t.code mm.bits)
  | .stl mm t a b => some (raw4 0x207 .none a b .none t.code mm.bits)
  | .ldk mm t d a => some (raw4 0x208 d a .none .none t.code mm.bits)
  | .ldw mm t d a => some (raw4 0x209 d a .none .none t.code mm.bits)
  | .stw mm t a b => some (raw4 0x20A .none a b .none t.code mm.bits)
  | .pres mm d a => some (raw4 0x20B d a .none .none 0 mm.bits)
  | .atoms o mm t d a b c => some (raw4 0x210 d a b c t.code (mm.bits + o.code * 2 ^ 44))
  | .atomd o mm t d a b c => some (raw4 0x211 d a b c t.code (mm.bits + o.code * 2 ^ 44))
  | .atomg o mm t d a b c => some (raw4 0x212 d a b c t.code (mm.bits + o.code * 2 ^ 44))
  | .redg o mm t a b => some (raw4 0x213 .none a b .none t.code (mm.bits + o.code * 2 ^ 44))
  | .redd o mm t a b => some (raw4 0x214 .none a b .none t.code (mm.bits + o.code * 2 ^ 44))
  | .fence ord scope => some (raw0 0x218 0 (ord.toNat * 2 ^ 54 + scope.toNat * 2 ^ 51))
  | .bar level op id => some (raw0 0x280 0 (level.toNat * 2 ^ 46 + op.toNat * 2 ^ 44 + id.toNat))
  | .chdrop tr pd q a => some (raw4 0x281 .none a .none .none 0 (tr.toNat * 2 ^ 47 + pd.toNat * 2 ^ 44 + q.toNat))
  | .chtake tr pd q d => some (raw4 0x282 d .none .none .none 0 (tr.toNat * 2 ^ 47 + pd.toNat * 2 ^ 44 + q.toNat))
  | .chfree q => some (raw0 0x283 0 q.toNat)
  | .wait all nc sc d w b => some (raw4 0x284 d w b.opd .none 0
      (b.bits + all.toNat * 2 ^ 47 + nc.toNat * 2 ^ 45 + sc.toNat * 2 ^ 42))
  | .msend len d a b c => some (raw4 0x285 d a b c 0 (len.toNat * 2 ^ 32))
  | .mrecv len d a b c => some (raw4 0x286 d a b c 0 (len.toNat * 2 ^ 32))
  | .mprobe d b c => some (raw4 0x287 d .none b c 0 0)
  | .spawn nohold a b => some (raw4 0x288 .none a b .none 0 (nohold.toNat * 2 ^ 47))
  | .binflush a => some (raw4 0x289 .none a .none .none 0 0)
  | .wsplit d a b => some (raw4 0x28A d a b .none 0 0)
  | .grow n => some (raw0 0x28B 0 n.toNat)
  | .shrink n => some (raw0 0x28C 0 n.toNat)
  | .launch df d a q => some { raw4 0x28D d a .none .none 0 (df.toNat * 2 ^ 47) with pay := some q.toNat }
  | .signal df irq vec a b => some (raw4 0x28E .none a b .none 0 (df.toNat * 2 ^ 47 + irq.toNat * 2 ^ 46 + vec.toNat))
  | .mma z scl ta tb ka kb tile ks vw d l sa sb => some
      { raw4 0x300 d l sa sb 0x12 (ta.code * 2 ^ 50 + ka.toNat * 2 ^ 48 + kb.toNat * 2 ^ 46 + scl.toNat * 2 ^ 45 +
          z.toNat * 2 ^ 44 + tile.toNat * 2 ^ 41 + ks.toNat * 2 ^ 36) with pay := some (tb.code + vw.toNat * 2 ^ 6) }
  | .mmag scl ta tb ka kb sa sb d a b c => some (raw4 0x301 d a b c 0x12
      (ta.code * 2 ^ 50 + ka.toNat * 2 ^ 48 + kb.toNat * 2 ^ 46 + scl.toNat * 2 ^ 45 + tb.code * 2 ^ 38 +
       sa.toNat * 2 ^ 30 + sb.toNat * 2 ^ 22))
  | .mloadb d a b c => some (raw4 0x302 d a b c 0 0)
  | .mrd tile d a b => some (raw4 0x303 d a b .none 0 (tile.toNat * 2 ^ 41))
  | .mrdSt tile d => some (raw4 0x303 d .none .none .none 0 (tile.toNat * 2 ^ 41 + 2 ^ 40))
  | .mst t rm pol rsel tile d l => some (raw4 0x304 d l .none .none t.code
      (tile.toNat * 2 ^ 41 + rsel.toNat * 2 ^ 39 + pol.code * 2 ^ 3 + rm.code))
  | .mzero m => some (raw0 0x305 0 m.toNat)
  | .mburst len => some (raw0 0x3C1 0 len.toNat)
  | .kill => some (raw0 0x310 0 0)
  | .hrel => some (raw0 0x311 0 0)
  | .deriv axis fine d a => some (rawF 0x312 d a .none .none (fine.toNat * 2 + axis.toNat))
  | .bary lin kk d => some (rawF 0x313 d .none .none .none (lin.toNat * 4 + kk.toNat))
  | .emit z t a b => some (raw4 0x314 .none a b .none t.code z.toNat)
  | .tex dim pd d a b => some (rawF 0x315 d a b .none (pd.toNat * 2 ^ 4 + dim.toNat))
  | .texl dim pd d a b c => some (rawF 0x316 d a b c (pd.toNat * 2 ^ 4 + dim.toNat))
  | .texg ch dim pd d a b c => some (rawF 0x317 d a b c (ch.toNat * 2 ^ 8 + pd.toNat * 2 ^ 4 + dim.toNat))
  | .texq d b c => some (raw4 0x318 d .none b c 0 0)
  | .dice d a b => some (raw4 0x319 d a b .none 0 0)
  | .trace mode mask d a b => some { rawF 0x31A d a b .none 0 with pay := some (mode.toNat * 2 ^ 8 + mask.toNat) }
  | .infer nin nout d a b => some (raw4 0x31B d a b .none 0 (nin.toNat * 2 ^ 8 + nout.toNat))
  | .cboard e sp d a b => some (raw4 0x320 d a b .none 0 (e.bits sp .S))
  | .ccatch e d a b => some (raw4 0x321 d a b .none 0 (e.bits .S .S))
  | .creplace e masked d a b c => some (raw4 0x322 d a b c 0 (e.bits .S .S + masked.toNat * 2 ^ 33))
  | .calight e copy d a b => some (raw4 0x323 d a b .none 0 (e.bits .S .S + copy.toNat * 2 ^ 33))
  | .cquery d b => some (raw4 0x324 d .none b .none 0 0)
  | .labort code => some (raw0 0x380 0 code.toNat)
  | .lotq d a => some (raw4 0x381 d a .none .none 0 0)
  | .hcopy e sp dp d a b c => some (raw4 0x388 d a b c 0 (e.bits sp dp))
  | .hlayout e sp dp t n0 n1 n2 p1 p2 d a b => some { raw4 0x389 d a b .none t.code (e.bits sp dp) with
      pay := some (n0.toNat + n1.toNat * 2 ^ 16 + n2.toNat * 2 ^ 32 + p1.toNat * 2 ^ 48 + p2.toNat * 2 ^ 80) }
  | .hgather e sp rlen d a b c => some (raw4 0x38A d a b c 0 (e.bits sp .S + rlen.toNat))
  | .hscatter e dp rlen d a b c => some (raw4 0x38B d a b c 0 (e.bits .S dp + rlen.toNat))
  | .hcoll op e sp dp t grp rank size d a b c => some
      { raw4 0x38C d a b c t.code (e.bits sp dp + op.code * 2 ^ 53) with
        pay := some (grp.toNat + rank.toNat * 2 ^ 16 + size.toNat * 2 ^ 24) }
  | .trap n => some (raw0 0x390 0 n.toNat)
  | .tretReplay => some (raw0 0x391 0 0)
  | .tretSkip => some (raw0 0x391 0 1)
  | .brk n => some (raw0 0x392 0 n.toNat)
  | .getsr n d => some (raw4 0x393 d .none .none .none 0 n.toNat)
  | .setsr n a => some (raw4 0x394 .none a .none .none 0 n.toNat)
  | .dflip e sp d a b c => some (raw4 0x398 d a b c 0 (e.bits sp .S))
  | .dbgmbGet d a => some (raw4 0x399 d a .none .none 0 0)
  | .dbgmbPut irq a b => some (raw4 0x399 .none a b .none 0 (irq.toNat * 2 + 1))
  | .pref space tlb disp a => some (raw4 0x3C0 .none a .none .none 0
      (space.toNat * 2 ^ 54 + tlb.toNat * 2 ^ 53 + disp.toNat))
  | _ => none

/-- One half as 56 bits (R92, R95). -/
def Half.bits (h : Half) : Nat :=
  h.op.code * 2 ^ 49 + h.d.toNat * 2 ^ 41 + h.a.toNat * 2 ^ 33 + h.b.toNat * 2 ^ 25 + h.c.toNat * 2 ^ 17 +
  ptyCode h.ty * 2 ^ 13 + h.rm.code * 2 ^ 10 + h.fm.neg.toNat * 2 ^ 7 + h.fm.abs.toNat * 2 ^ 4

/-- A single or head word less its control field (R87). -/
def Raw.bits (r : Raw) : Nat :=
  r.op * 2 ^ 102 + r.d.code.2 * 2 ^ 94 + r.a.code.2 * 2 ^ 86 + r.b.code.2 * 2 ^ 78 + r.c.code.2 * 2 ^ 70 +
  r.d.code.1 * 2 ^ 68 + r.a.code.1 * 2 ^ 66 + r.b.code.1 * 2 ^ 64 + r.c.code.1 * 2 ^ 62 + r.ty * 2 ^ 56 + r.md

/-- The words of an instruction (R85 to R95): none for an event.
(DEDUCED, log 11: safe.) -/
def encode (f : Fetched) : List Nat :=
  match f.ins with
  | .pairedWord x y => [ctlBits 1 f.ctl * 2 ^ 112 + x.bits * 2 ^ 56 + y.bits]
  | i =>
    match writeRaw i with
    | none => []
    | some r =>
      match r.pay with
      | none => [ctlBits 0 f.ctl * 2 ^ 112 + r.bits]
      | some p => [ctlBits 2 f.ctl * 2 ^ 112 + r.bits, (3 * 2 ^ 14 + f.ctl.rate.code * 2 ^ 7) * 2 ^ 112 + p]

/-- A candidate is accepted when it is well formed and spells the words that were read (R99).
(DEDUCED, log 11: safe.) -/
def accept (f : Fetched) (words : List Nat) : Option Fetched :=
  if f.wf && encode f == words then some f else none

/-- Decode a word, with the word that follows it for a two-word form (R85 to R99, R109).
(DEDUCED, log 11: safe.)
(DEDUCED, log 12: unsafe.) -/
def decodeWords (w next : Nat) : Except Reject Fetched :=
  let kind := fieldN w 126 2
  let k := readCtl w
  let op := fieldN w 102 10
  let enc (o : Option Fetched) : Except Reject Fetched := match o with
    | some f => .ok f
    | none => .error .illegalEnc
  if kind = 3 then .error .continuation
  else if kind = 1 then
    if (popOf (fieldN w 105 7)).isNone || (popOf (fieldN w 49 7)).isNone then .error .illegalOp
    else
      match readHalf (fieldN w 56 56), readHalf (fieldN w 0 56) with
      | some x, some y => enc (accept { ctl := k, ins := .pairedWord x y } [w])
      | _, _ => .error .illegalEnc
  else if op ≥ 0x3C0 then
    if kind = 0 ∧ fieldN w 112 2 = 0 then
      match readSystem (readFields w none) with
      | some i =>
        match accept { ctl := k, ins := i } [w] with
        | some f => .ok f
        | none => .ok { ctl := k, ins := .nop }
      | none => .ok { ctl := k, ins := .nop }
    else .error .illegalEnc
  else if !opAssigned op then .error .illegalOp
  else
    let two := kind == 2
    match readRaw (readFields w (if two then some (fieldN next 0 112) else none)) with
    | some i => enc (accept { ctl := k, ins := i } (if two then [w, next] else [w]))
    | none => .error .illegalEnc

/-- Decode an instruction from the front of a byte list, little-endian (R4, R85): the instruction and what follows. -/
def decode (bs : List Byte) : Except Reject (Fetched × List Byte) :=
  if bs.length < 16 then .error .truncated
  else
    let w := ofBytes (bs.take 16)
    if fieldN w 126 2 = 2 ∧ bs.length < 32 then .error .truncated
    else
      match decodeWords w (ofBytes ((bs.drop 16).take 16)) with
      | .ok f => .ok (f, bs.drop (if fieldN w 126 2 = 2 then 32 else 16))
      | .error e => .error e

/-- The bytes of a list of words, as memory holds them (R85). -/
def wordBytes (ws : List Nat) : List Byte := ws.flatMap fun w => bytesOf 16 w

/-- The bytes of an instruction. -/
def encodeBytes (f : Fetched) : List Byte := wordBytes (encode f)

/-- The instruction that this decoder reads from a word of the opcode table, the bits above `nbits` zero. -/
def decodeTableWord (nbits w : Nat) : Option Instr :=
  match decode (bytesOf 32 (w % 2 ^ nbits)) with
  | .ok (f, _) => some f.ins
  | .error _ => none

end Sys2Proof
end

