-- ==== Sys2Proof/Machine/Number.lean ====
section
/-! DEFINITION. Number formats, exact values and the one rounding (R110 to R128). An exact value is a sign, a natural
magnitude `m`, a power of two `e` and a sticky bit: the value lies at m × 2^e, or strictly between that and
(m + 1) × 2^e where the sticky bit is set (a quotient or a square root carried to more digits than any format keeps). -/

namespace Sys2Proof.Machine

/-- Where a result is held: a floating format, a binary8 format or an integer type (R110). -/
inductive Fmt
  | f32 | f16 | bf16
  | f8 (u x : Bool) (p : Nat)
  | int (sgn : Bool) (w : Nat)
  deriving DecidableEq, Repr

/-- The format of an element type; bit types have none (R110). -/
def fmtOf : Ty → Option Fmt
  | .f32 => some .f32
  | .f16 => some .f16
  | .bf16 => some .bf16
  | .f8 u x p => some (.f8 u x p.toNat)
  | .s8 => some (.int true 8)
  | .s16 => some (.int true 16)
  | .s32 => some (.int true 32)
  | .s64 => some (.int true 64)
  | .n8 => some (.int false 8)
  | .n16 => some (.int false 16)
  | .n32 => some (.int false 32)
  | .n64 => some (.int false 64)
  | _ => none

/-- Width of a type in bits; 0 for no type (R89). -/
def tyBits : Ty → Nat
  | .none => 0
  | .b8 | .s8 | .n8 | .f8 _ _ _ => 8
  | .b16 | .s16 | .n16 | .f16 | .bf16 => 16
  | .b32 | .s32 | .n32 | .f32 => 32
  | .b64 | .s64 | .n64 => 64
  | .b128 => 128

/-- Signed integer types (R142). -/
def tySigned : Ty → Bool
  | .s8 | .s16 | .s32 | .s64 => true
  | _ => false

/-- An exact value (R123, R156). -/
inductive FVal
  | nan
  | inf (neg : Bool)
  | fin (neg : Bool) (m : Nat) (e : Int) (sticky : Bool)
  deriving DecidableEq, Repr

/-- Plus zero. -/
def FVal.zero : FVal := .fin false 0 0 false

/-- An integer as an exact value. -/
def FVal.ofInt (x : Int) : FVal := .fin (decide (x < 0)) x.natAbs 0 false

/-- A natural number times a power of two. -/
def FVal.dy (m : Nat) (e : Int) : FVal := .fin false m e false

def FVal.isNan : FVal → Bool
  | .nan => true
  | _ => false

def FVal.isZero : FVal → Bool
  | .fin _ m _ st => m == 0 && !st
  | _ => false

/-- True of a real value, zero included. -/
def FVal.isFin : FVal → Bool
  | .fin _ _ _ _ => true
  | _ => false

def FVal.sign : FVal → Bool
  | .nan => false
  | .inf s => s
  | .fin s _ _ _ => s

/-- Negation; NaN stays NaN (R155). -/
def FVal.neg : FVal → FVal
  | .nan => .nan
  | .inf s => .inf (!s)
  | .fin s m e st => .fin (!s) m e st

/-- Absolute value; NaN stays NaN (R155). -/
def FVal.abs : FVal → FVal
  | .nan => .nan
  | .inf _ => .inf false
  | .fin _ m e st => .fin false m e st

/-- Signed mantissa. -/
def sgnMul (s : Bool) (m : Nat) : Int := if s then -(Int.ofNat m) else Int.ofNat m

/-- Exact sum (R156). An exact zero sum is +0, or −0 under RDN, except that zeros of one sign keep it. -/
def FVal.add (rdn : Bool) : FVal → FVal → FVal
  | .nan, _ => .nan
  | _, .nan => .nan
  | .inf s, .inf t => if s = t then .inf s else .nan
  | .inf s, _ => .inf s
  | _, .inf t => .inf t
  | .fin s m e st, .fin t n f su =>
    if m = 0 ∧ n = 0 ∧ s = t then .fin s 0 0 false
    else
      let g := if e ≤ f then e else f
      let x := sgnMul s m * 2 ^ (e - g).toNat + sgnMul t n * 2 ^ (f - g).toNat
      if x = 0 then .fin rdn 0 0 false
      else .fin (decide (x < 0)) x.natAbs g (st || su)

/-- Exact sum of several values (R156): a sum of zeros of one sign keeps it. -/
def FVal.sum : List FVal → FVal
  | [] => .zero
  | x :: xs => xs.foldl (FVal.add false) x

/-- Exact product (R156). -/
def FVal.mul : FVal → FVal → FVal
  | .nan, _ => .nan
  | _, .nan => .nan
  | .inf s, .inf t => .inf (s != t)
  | .inf s, .fin t n _ _ => if n = 0 then .nan else .inf (s != t)
  | .fin s m _ _, .inf t => if m = 0 then .nan else .inf (s != t)
  | .fin s m e st, .fin t n f su => .fin (s != t) (m * n) (e + f) (st || su)

/-- Quotient, carried to at least 64 more digits than the divisor has, with a sticky bit (R156). -/
def FVal.div : FVal → FVal → FVal
  | .nan, _ => .nan
  | _, .nan => .nan
  | .inf _, .inf _ => .nan
  | .inf s, .fin t _ _ _ => .inf (s != t)
  | .fin s _ _ _, .inf t => .fin (s != t) 0 0 false
  | .fin s m e st, .fin t n f _ =>
    if n = 0 then (if m = 0 then .nan else .inf (s != t))
    else if m = 0 then .fin (s != t) 0 0 false
    else
      let k := 64 + Nat.log2 n
      let num := m * 2 ^ k
      .fin (s != t) (num / n) (e - f - k) (st || num % n != 0)

/-- Square root, carried to 64 digits with a sticky bit; the root of −0 is −0 (R156, R157). -/
def FVal.sqrt : FVal → FVal
  | .nan => .nan
  | .inf s => if s then .nan else .inf false
  | .fin s m e st =>
    if m = 0 then .fin s 0 0 false
    else if s then .nan
    else
      let e' : Int := if e % 2 = 0 then e else e - 1
      let m' := if e % 2 = 0 then m else 2 * m
      let big := m' * 4 ^ 64
      let r := isqrt (Nat.log2 big / 2 + 1) big
      .fin false r (e' / 2 - 64) (st || r * r != big)

/-- Multiply by a power of two; zeros, infinities and NaN are unchanged (R123). -/
def FVal.scale (k : Int) : FVal → FVal
  | .fin s m e st => if m = 0 then .fin s m e st else .fin s m (e + k) st
  | v => v

/-- Comparison of two values that are not NaN: the order of the reals, +0 and −0 equal (R159). -/
def FVal.cmp : FVal → FVal → Ordering
  | .inf s, .inf t => if s = t then .eq else if s then .lt else .gt
  | .inf s, _ => if s then .lt else .gt
  | _, .inf t => if t then .gt else .lt
  | .fin s m e _, .fin t n f _ =>
    let g := if e ≤ f then e else f
    let x := sgnMul s m * 2 ^ (e - g).toNat
    let y := sgnMul t n * 2 ^ (f - g).toNat
    if x < y then .lt else if x = y then .eq else .gt
  | _, _ => .eq

def FVal.lt (a b : FVal) : Bool := !a.isNan && !b.isNan && FVal.cmp a b == .lt
def FVal.le (a b : FVal) : Bool := !a.isNan && !b.isNan && FVal.cmp a b != .gt
def FVal.eqv (a b : FVal) : Bool := !a.isNan && !b.isNan && FVal.cmp a b == .eq

/-- The greatest integer at or below a real value; 0 for the others. -/
def FVal.floorI : FVal → Int
  | .fin s m e st =>
    if e ≥ 0 then sgnMul s (m * 2 ^ e.toNat)
    else
      let d := 2 ^ (-e).toNat
      if s then -(Int.ofNat ((m + d - 1) / d + (if st && m % d == 0 then 1 else 0))) else Int.ofNat (m / d)
  | _ => 0

/-- Precision p of a floating format (R110). -/
def Fmt.prec : Fmt → Nat
  | .f32 => 24
  | .f16 => 11
  | .bf16 => 8
  | .f8 _ _ p => p
  | .int _ _ => 0

/-- Bias of a floating format (R110, R115). -/
def Fmt.bias : Fmt → Nat
  | .f32 | .bf16 => 127
  | .f16 => 15
  | .f8 _ _ p => 2 ^ (7 - p)
  | .int _ _ => 0

/-- Exponent of the smallest normal value (R110). -/
def Fmt.emin (f : Fmt) : Int := 1 - Int.ofNat f.bias

/-- Bits of a code (R110). -/
def Fmt.bits : Fmt → Nat
  | .f32 => 32
  | .f16 | .bf16 => 16
  | .f8 _ _ _ => 8
  | .int _ w => w

/-- True of the IEEE-style formats, which have signed zeros and take FLUSH (R111, R114). -/
def Fmt.ieee : Fmt → Bool
  | .f32 | .f16 | .bf16 => true
  | _ => false

/-- True of formats with an infinity (R125). -/
def Fmt.hasInf : Fmt → Bool
  | .f32 | .f16 | .bf16 => true
  | .f8 _ x _ => x
  | .int _ _ => false

/-- True of formats without negative values: unsigned binary8 and .nN (R125). -/
def Fmt.unsigned : Fmt → Bool
  | .f8 u _ _ => u
  | .int s _ => !s
  | _ => false

/-- The canonical NaN of a floating format; 0 for integers (R112, R125). -/
def Fmt.nanCode : Fmt → Nat
  | .f32 => 0x7FC00000
  | .f16 => 0x7E00
  | .bf16 => 0x7FC0
  | .f8 u _ _ => if u then 0xFF else 0x80
  | .int _ _ => 0

/-- Sign bit of a code, and its magnitude bits (R111, R115, R116). -/
def Fmt.split (f : Fmt) (c : Nat) : Bool × Nat :=
  match f with
  | .f8 true _ _ => (false, c % 256)
  | .int _ _ => (false, c)
  | _ => (testN c (f.bits - 1), c % 2 ^ (f.bits - 1))

/-- The real value of a magnitude: exponent field then trailing significand (R111, R115, R116). -/
def Fmt.magVal (f : Fmt) (mag : Nat) : Nat × Int :=
  let t := f.prec - 1
  let e := mag / 2 ^ t
  let fr := mag % 2 ^ t
  if e = 0 then (fr, 1 - Int.ofNat f.bias - Int.ofNat t)
  else (2 ^ t + fr, Int.ofNat e - Int.ofNat f.bias - Int.ofNat t)

/-- The value of a code (R111, R115, R116). -/
def valueOf (f : Fmt) (c : Nat) : FVal :=
  match f with
  | .int s w => .ofInt (if s then signedOf w c else Int.ofNat (c % 2 ^ w))
  | .f8 u x _ =>
    let c := c % 256
    if c = 0 then .zero
    else if u then
      if c = 0xFF then .nan
      else if x && c == 0xFE then .inf false
      else let (m, e) := f.magVal c; .fin false m e false
    else
      if c = 0x80 then .nan
      else
        let (s, mag) := f.split c
        if x && mag == 0x7F then .inf s
        else let (m, e) := f.magVal mag; .fin s m e false
  | _ =>
    let (s, mag) := f.split (c % 2 ^ f.bits)
    let t := f.prec - 1
    let e := mag / 2 ^ t
    if e = 2 ^ (f.bits - 1 - t) - 1 then (if mag % 2 ^ t = 0 then .inf s else .nan)
    else let (m, x) := f.magVal mag; .fin s m x false

/-- True of a real value below the smallest normal of the format, zero apart (R114). -/
def subnormalIn (f : Fmt) : FVal → Bool
  | .fin _ m e _ => m != 0 && decide (Int.ofNat (Nat.log2 m) + e < f.emin)
  | _ => false

/-- WidenExact (R123): the exact value of a code, with FLUSH, and times its block scale where there is one. -/
def widenExact (flush : Bool) (f : Fmt) (c : Nat) (scl : Option Nat) : FVal :=
  let v := valueOf f c
  let v := if flush && f.ieee && subnormalIn f v then .fin v.sign 0 0 false else v
  match scl with
  | none => v
  | some s => if s % 256 = 0xFF then .nan else v.scale (Int.ofNat (s % 256) - 127)

/-- The largest finite magnitude of a floating format as a code without sign, and of an integer type by sign (R124). -/
def Fmt.maxMag : Fmt → Nat
  | .f32 => 0x7F7FFFFF
  | .f16 => 0x7BFF
  | .bf16 => 0x7F7F
  | .f8 u x _ => (if u then 0xFE else 0x7F) - (if x then 1 else 0)
  | .int s w => if s then 2 ^ (w - 1) - 1 else 2 ^ w - 1

/-- Code of the largest finite value with a sign; for integers, the type's extreme of that sign (R124). -/
def Fmt.maxCode (f : Fmt) (neg : Bool) : Nat :=
  match f with
  | .int s w => if neg then (if s then 2 ^ (w - 1) else 0) else f.maxMag
  | _ => f.maxMag + (if neg && !f.unsigned then 2 ^ (f.bits - 1) else 0)

/-- Code of infinity with a sign (R111, R115, R116). -/
def Fmt.infCode (f : Fmt) (neg : Bool) : Nat :=
  match f with
  | .f32 => if neg then 0xFF800000 else 0x7F800000
  | .f16 => if neg then 0xFC00 else 0x7C00
  | .bf16 => if neg then 0xFF80 else 0x7F80
  | .f8 u _ _ => if u then 0xFE else if neg then 0xFF else 0x7F
  | .int _ _ => f.maxCode neg

/-- The five overflow policies: the four that a word carries and the implied one (R124). -/
inductive Policy | sat | inf | nan | trap | ieee
  deriving DecidableEq, Repr

/-- The policy of a conversion word (R124). -/
def polOf : Pol → Policy
  | .sat => .sat
  | .inf => .inf
  | .nan => .nan
  | .trap => .trap

/-- Overflow (R124): the code stored, or none for an ARITH fault. -/
def overflow (neg : Bool) (f : Fmt) (p : Policy) (rm : Rm) : Option Nat :=
  match p with
  | .sat => some (f.maxCode neg)
  | .inf =>
    match f with
    | .int _ _ => some (f.maxCode neg)
    | _ => if f.hasInf then some (f.infCode neg) else some f.nanCode
  | .nan => some f.nanCode
  | .trap => none
  | .ieee =>
    match rm with
    | .rne | .rna | .sr => some (f.infCode neg)
    | .rtz => some (f.maxCode neg)
    | .rup => if neg then some (f.maxCode true) else some (f.infCode false)
    | .rdn => if neg then some (f.infCode true) else some (f.maxCode false)

/-- NegativeUnsigned (R125): a value below zero that does not round to zero, in a format without sign. -/
def negativeUnsigned (f : Fmt) (p : Policy) : Option Nat :=
  match p with
  | .sat => some 0
  | .trap => none
  | _ => some f.nanCode

/-- Whether a magnitude moves up (R121): its fraction lies `rem` of `2^sh` parts above the step, plus a sticky part. -/
def roundsUp (rm : Rm) (neg : Bool) (n rem sh : Nat) (st : Bool) (r : Nat) : Bool :=
  let half := 2 ^ sh
  match rm with
  | .rne => decide (2 * rem > half) || (decide (2 * rem = half) && (st || n % 2 == 1))
  | .rtz => false
  | .rup => (rem != 0 || st) && !neg
  | .rdn => (rem != 0 || st) && neg
  | .rna => decide (2 * rem ≥ half)
  | .sr => decide (rem * 2 ^ 16 / half + r % 2 ^ 16 ≥ 2 ^ 16)

/-- The code of a non-zero magnitude n × 2^q that lies in the format, without its sign (R111, R115, R116). -/
def encodeMag (f : Fmt) (n : Nat) (q : Int) : Nat :=
  match f with
  | .int _ _ => n
  | _ =>
    let t := f.prec - 1
    let l := Nat.log2 n
    let e := Int.ofNat l + q
    if e < f.emin then
      -- subnormal: the step is that of the smallest exponent
      let q0 := f.emin - Int.ofNat t
      if q ≥ q0 then n * 2 ^ (q - q0).toNat else n / 2 ^ (q0 - q).toNat
    else
      let sig := if l ≥ t then n / 2 ^ (l - t) else n * 2 ^ (t - l)
      (e + Int.ofNat f.bias).toNat * 2 ^ t + (sig - 2 ^ t)

/-- True where the magnitude n × 2^q is above the largest finite value (R125). -/
def aboveMax (f : Fmt) (neg : Bool) (n : Nat) (q : Int) : Bool :=
  match f with
  | .int s w =>
    let lim := if neg then (if s then 2 ^ (w - 1) else 0) else f.maxMag
    decide (n > lim)
  | _ =>
    let (m, e) := f.magVal f.maxMag
    FVal.cmp (.fin false n q false) (.fin false m e false) == .gt

/-- Put the sign on a magnitude code (R111, R115, R142). -/
def signCode (f : Fmt) (neg : Bool) (mag : Nat) : Nat :=
  match f with
  | .int _ w => wrapI w (sgnMul neg mag)
  | _ => if neg && !f.unsigned then mag + 2 ^ (f.bits - 1) else mag

/-- Code of a zero with the sign where the format has signed zeros (R125). -/
def zeroCode (f : Fmt) (neg : Bool) : Nat := if f.ieee && neg then 2 ^ (f.bits - 1) else 0

/-- RoundToFormat (R125): the code of an exact value, or none for an ARITH fault. -/
def roundToFormat (flush : Bool) (x : FVal) (f : Fmt) (rm : Rm) (p : Policy) (r : Nat) : Option Nat :=
  match x with
  | .nan =>
    match f, p with
    | .int _ _, .trap => none
    | _, _ => some f.nanCode
  | .inf s =>
    if f.unsigned && s then negativeUnsigned f p
    else if f.hasInf then some (f.infCode s)
    else overflow s f p rm
  | .fin s m e st =>
    if m = 0 then some (zeroCode f s)
    else
      let q : Int :=
        match f with
        | .int _ _ => 0
        | _ =>
          let l := Int.ofNat (Nat.log2 m) + e
          (if l ≥ f.emin then l else f.emin) - (Int.ofNat f.prec - 1)
      let sh := (q - e).toNat
      let n0 := if e ≥ q then m * 2 ^ (e - q).toNat else m / 2 ^ sh
      let rem := if e ≥ q then 0 else m % 2 ^ sh
      let n := if roundsUp rm s n0 rem sh st r then n0 + 1 else n0
      if f.unsigned && s then (if n = 0 then some 0 else negativeUnsigned f p)
      else if n = 0 then some (zeroCode f s)
      else if aboveMax f s n q then overflow s f p rm
      else if flush && f.ieee && subnormalIn f (.fin false n q false) then some (zeroCode f s)
      else some (signCode f s (encodeMag f n q))

/-- A rounding under the implied policy IEEE, which never faults (R124). -/
def roundIeee (flush : Bool) (x : FVal) (f : Fmt) (rm : Rm) : Nat :=
  match roundToFormat flush x f rm .ieee 0 with
  | some c => c
  | none => 0

/-- Round to FP32 with RNE and the implied policy IEEE. -/
def rne32 (flush : Bool) (x : FVal) : Word := BitVec.ofNat 32 (roundIeee flush x .f32 .rne)

/-- The exact value of an FP32 register (R123). -/
def val32 (flush : Bool) (w : Word) : FVal := widenExact flush .f32 w.toNat none

/-- FMIN and FMAX on codes, after Operand and without rounding (R158): the value read is returned. -/
def fminmax (isMax : Bool) (a b : FVal) : FVal :=
  if a.isNan then b
  else if b.isNan then a
  else
    match FVal.cmp a b with
    | .lt => if isMax then b else a
    | .gt => if isMax then a else b
    | .eq => if a.sign == isMax then b else a

/-- RNE addition of two FP32 codes (R125, R156). -/
def fadd32 (flush : Bool) (a b : Word) : Word := rne32 flush (FVal.add false (val32 flush a) (val32 flush b))

/-- RNE product of two FP32 codes. -/
def fmul32 (flush : Bool) (a b : Word) : Word := rne32 flush (FVal.mul (val32 flush a) (val32 flush b))

/-- RNE difference of two FP32 codes. -/
def fsub32 (flush : Bool) (a b : Word) : Word :=
  rne32 flush (FVal.add false (val32 flush a) (FVal.neg (val32 flush b)))

/-- RNE quotient of two FP32 codes. -/
def fdiv32 (flush : Bool) (a b : Word) : Word := rne32 flush (FVal.div (val32 flush a) (val32 flush b))

/-- FMIN or FMAX of two FP32 codes. -/
def fminmax32 (flush isMax : Bool) (a b : Word) : Word :=
  rne32 flush (fminmax isMax (val32 flush a) (val32 flush b))

/-- The least integer-valued value by rounding direction (R161 FRND): the magnitude rounded in units of one. -/
def roundIntegral (rm : Rm) : FVal → FVal
  | .fin s m e st =>
    if e ≥ 0 then .fin s m e st
    else
      let sh := (-e).toNat
      let n0 := m / 2 ^ sh
      .fin s (if roundsUp rm s n0 (m % 2 ^ sh) sh st 0 then n0 + 1 else n0) 0 false
  | v => v

/-- The nearest integer, ties to even (R258, R410). -/
def rneInt (x : FVal) : Int :=
  match roundIntegral .rne x with
  | .fin s m e _ => sgnMul s (m * 2 ^ e.toNat)
  | _ => 0

end Sys2Proof.Machine
end

