-- ==== Sys2Proof/Config.lean ====
section
/-! DEFINITION. Free values: constants with no body. The spec leaves each of them open; nothing can evaluate one, so a
statement about the model holds whatever they are. -/

namespace Sys2Proof.Config

/-- Byte of HBM that nothing has written since the pattern test of sounding number `gen` overwrote it (R447, R456: the
contents are not defined). Arguments: the sounding's number and the physical address.
(DESIGN CHOICE, log 2: unsafe.) -/
opaque coldByte : Nat → Nat → Byte

/-- RCP's bits within its bound (R164). -/
opaque rcp : Word → Word

/-- RSQ's bits within its bound (R164). -/
opaque rsq : Word → Word

/-- EXP2's bits within its bound (R164). -/
opaque exp2 : Word → Word

/-- LOG2's bits within its bound (R164). -/
opaque log2 : Word → Word

/-- SINR's bits within its bound (R164). -/
opaque sinr : Word → Word

/-- COSR's bits within its bound (R164). -/
opaque cosr : Word → Word

/-- TANH's bits within its bound (R164). -/
opaque tanh : Word → Word

/-- Whether an Ed25519 signature of a message verifies against the fused key (R449). Arguments: the message and the
signature.
(DESIGN CHOICE, log 65: safe.) -/
opaque ed25519Ok : List Byte → List Byte → Bool

/-- Whether an ML-DSA-65 signature of a message verifies against the fused key (R449).
(DESIGN CHOICE, log 65: safe.) -/
opaque mlDsa65Ok : List Byte → List Byte → Bool

/-- Byte of a signature that the device makes with its own key (R424). Arguments: the number of the signature, and the byte's
place in it.
(DESIGN CHOICE, log 65: safe.) -/
opaque signatureByte : Nat → Nat → Byte

/-- Whether an error counter crosses its threshold as it comes to hold a count (R423: no threshold is stated). Arguments: the
counter and the count.
(DESIGN CHOICE, log 66: safe.) -/
opaque counterCrosses : Nat → Nat → Bool

/-- The fused minimum security version (R449). -/
opaque fusedMinSvn : Nat

/-- The firmware image in flash when the device was made: what the boot ROM finds at step 0 (R448). -/
opaque flashImage : List Byte

/-- MAC address set at manufacture (R437 TMAC). -/
opaque factoryMac : DWord

/-- Quality of this device's clock: class, accuracy and variance as one number, the smaller the better (R434).
(PRESUMED, log 83: unsafe.) -/
opaque clockQuality : Nat

/-- Body of an SPDM response other than its version, the algorithm it selects, its measurements and its signatures:
certificates, digests and capabilities (R424). Arguments: the request's code and its operands.
(DESIGN CHOICE, log 65: safe.) -/
opaque spdmBody : Nat → List Nat → List Byte

/-- Register of the PCIe configuration space (R446). -/
opaque configSpace : Nat → Word

/-- A read of memory that another device or the host holds and that the model has not been told (R387). Argument: the
location.
(DESIGN CHOICE, log 4: safe.) -/
opaque foreignByte : Nat → Byte

/-- Byte of a saved image (R381, R382): the spec gives the image's length and what it holds, not where each thing lies.
Arguments: the save's number and the byte's place.
(DESIGN CHOICE, log 37: unsafe.) -/
opaque saveByte : Nat → Nat → Byte

/-- Byte of a checkpoint's image in host memory (R455): the spec does not give its format. Arguments: the image's number and the
byte's place. -/
opaque imageByte : Nat → Nat → Byte

/-- A value that the spec does not state, drawn by number from the counter `State.free`. -/
opaque freeWord : Nat → Word

end Sys2Proof.Config
end

