-- ==== Sys2Proof/Machine/SMap.lean ====
section
/-! DEFINITION. Finite maps keyed by natural numbers, held as plain lists in one canonical form: keys strictly rising.
Two maps that answer every key alike are then the same list. -/

namespace Sys2Proof.Machine

/-- A finite map: keys strictly rising (`SMap.sorted`). -/
abbrev SMap (α : Type) := List (Nat × α)

/-- What the map holds at a key. -/
def SMap.get? {α : Type} : SMap α → Nat → Option α
  | [], _ => none
  | (k, v) :: rest, i => if i = k then some v else SMap.get? rest i

/-- What the map holds at a key, or the given value where it holds nothing. -/
def SMap.getD {α : Type} (m : SMap α) (i : Nat) (d : α) : α :=
  match SMap.get? m i with
  | some v => v
  | none => d

/-- Put a value at a key, in its sorted place. -/
def SMap.put {α : Type} : SMap α → Nat → α → SMap α
  | [], i, v => [(i, v)]
  | (k, w) :: rest, i, v =>
    if i < k then (i, v) :: (k, w) :: rest
    else if i = k then (i, v) :: rest
    else (k, w) :: SMap.put rest i v

/-- Remove a key. -/
def SMap.del {α : Type} : SMap α → Nat → SMap α
  | [], _ => []
  | (k, w) :: rest, i => if i = k then rest else if i < k then (k, w) :: rest else (k, w) :: SMap.del rest i

/-- Change the value at a key, where there is one. -/
def SMap.modify {α : Type} (m : SMap α) (i : Nat) (f : α → α) : SMap α :=
  match SMap.get? m i with
  | some v => SMap.put m i (f v)
  | none => m

/-- Apply a function to every value. -/
def SMap.mapVals {α : Type} (f : Nat → α → α) (m : SMap α) : SMap α := m.map fun kv => (kv.1, f kv.1 kv.2)

/-- The values, in key order. -/
def SMap.vals {α : Type} (m : SMap α) : List α := m.map Prod.snd

/-- The keys, rising. -/
def SMap.keys {α : Type} (m : SMap α) : List Nat := m.map Prod.fst

/-- Keep the entries that a test accepts. -/
def SMap.keep {α : Type} (m : SMap α) (p : Nat → α → Bool) : SMap α := m.filter fun kv => p kv.1 kv.2

/-- The first entry that a test accepts. -/
def SMap.find {α : Type} (m : SMap α) (p : Nat → α → Bool) : Option (Nat × α) :=
  List.find? (fun kv => p kv.1 kv.2) m

/-- The canonical form: keys strictly rising. -/
def SMap.sorted {α : Type} : SMap α → Bool
  | [] => true
  | [_] => true
  | (k, _) :: (k', w) :: rest => decide (k < k') && SMap.sorted ((k', w) :: rest)

end Sys2Proof.Machine
end

