-- ==== Sys2Proof/Machine/State.lean ====
section
/-! DEFINITION. The whole state of the package as plain data, and the state right after power-on (R10, R447). Units of
work, engine operations and outstanding results are numbered by `State.fresh`; a field that holds such a number names
the entry of the map it indexes. -/

namespace Sys2Proof.Machine

/-- Cause codes (R296). -/
inductive Cause
  | machineCheck | haltReq | targetAlign | targetCont | illegalOp | illegalEnc | rateOrder
  | xlate | access | align | memberAbsent | stallShort | arith | shadowQuota
  | stockpileStall | msgOverflow | carouselMiss | watch (n : Nat) | brk | step
  | software (n : BitVec 7)
  deriving DecidableEq, Repr

/-- Code of a cause; the lowest code wins (R296). -/
def Cause.code : Cause → Nat
  | .machineCheck => 0x01 | .haltReq => 0x02 | .targetAlign => 0x08 | .targetCont => 0x09
  | .illegalOp => 0x0A | .illegalEnc => 0x0B | .rateOrder => 0x0C | .xlate => 0x10 | .access => 0x11
  | .align => 0x12 | .memberAbsent => 0x18 | .stallShort => 0x19 | .arith => 0x20 | .shadowQuota => 0x28
  | .stockpileStall => 0x2B | .msgOverflow => 0x2C | .carouselMiss => 0x2D
  | .watch _ => 0x30 | .brk => 0x31 | .step => 0x32
  | .software n => n.toNat

/-- A place a result is written to: thread register, predicate or held register (R102, R103). -/
inductive Res
  | v (n : Nat)
  | p (n : Nat)
  | h (n : Nat)
  deriving DecidableEq, Repr

/-- A fixed-latency result in flight: the cycle from which it can be read (R102).
(DESIGN CHOICE, log 21: safe.) -/
structure Pend where
  due : Nat
  res : Res
  val : Word
  deriving DecidableEq, Repr

/-- A load that has been sent and not yet performed (R306, R308): `n` bytes from a location, of the lot's view (`glob`) or of
memory, and what it writes. -/
structure LoadReq where
  glob : Bool
  loc : Nat
  n : Nat
  ty : Ty
  dst : Opd
  acquire : Bool
  remote : Bool
  deriving DecidableEq, Repr

/-- A tracked result (R104): the registers that wait, their values once the producer has them, the cycle by which
they are written where R470 bounds it, and the load that produces it while that is on its way. -/
structure Result where
  thread : Nat
  regs : List Res
  vals : Option (List Word)
  due : Option Nat
  load : Option LoadReq
  deriving DecidableEq, Repr

/-- One condition of WAIT (R209). -/
structure WCond where
  kind : Nat
  addr : DWord
  val : Word
  ext : Bool
  sgn : Bool
  cmp : Nat
  deriving DecidableEq, Repr

/-- What holds a lane at its word until it clears; the word then issues again (R40, R104, R198, R207 and others). -/
inductive Block
  | results (rs : List Res)
  | lines (ls : List Nat)
  | members (home : Nat) (addr : DWord) (mask : Nat)
  | fence (scope : Nat)
  | acquire
  | bytes (glob : Bool) (loc n : Nat) (acquire remote : Bool)
  | chutePut (crew k seq : Nat)
  | chuteGet (crew k seq : Nat)
  | matrixFull (pair : Nat)
  | ramp (core : Nat)
  | hoistFull (core : Nat)
  | deliveries (core : Nat)
  | phase (key ph : Nat)
  | postFull (crew : Nat)
  | binFull (crew : Nat) (entry : DWord)
  | inferFull (die : Nat)
  | tileStarted (pair bank tile seq : Nat)
  | creation (r : Nat)
  | regs (rs : List (Nat × Nat))
  | await (ts : List Nat) (addr : DWord)
  | quad (kept : List Word)
  deriving DecidableEq, Repr

/-- Why a lane is parked (R21). A lane that waits for translations names the batch and the page of each (R375), and `kept`
holds what its quad gave the word that it issues again (R259). -/
inductive Park
  | retry (b : Block)
  | sleep (till : Nat)
  | wait (t0 limit : Nat) (all : Bool) (conds : List WCond) (scope : Nat) (result : Nat)
  | recon (regroup : Bool) (mask : Nat) (off : DWord) (addr : DWord)
  | barrier (key ph : Nat) (next : DWord)
  | collective (grow : Bool) (count : Nat) (next : DWord)
  | trapped
  | xlate (die : Nat) (waits : List (Nat × Nat)) (fetch : Bool) (kept : List Word)
  deriving DecidableEq, Repr

/-- One thread (R10, R20, R27). `refused` lists the pages that it waited for and that the host has refused (R392). `lastRead` is
how far in program order its reads have been performed: a load or read-modify-write still on its way with a lower number has been
overtaken by a later read (R308, R315). `polled` is the tick at which its WAIT was last evaluated (R210). -/
structure Thread where
  crew : Nat
  tid : Nat
  rate : Rate
  gang : Nat
  home : Nat
  lane : Nat
  pc : DWord
  regs : SMap Word
  preds : BitVec 7
  pend : List Pend
  live : Bool
  yielded : Bool
  park : Option Park
  cause : Nat
  epc : DWord
  eaddr : DWord
  elanes : Word
  inHandler : Bool
  viaTransfer : Bool
  elem : Option Nat
  released : Bool
  arrivals : SMap Nat
  passOnce : Bool
  refused : List Nat
  lastRead : Nat
  polled : Nat
  deriving DecidableEq, Repr

/-- A gang, or a sub-gang of trapped lanes with its cause and its lanes' fault addresses (R21, R376, R377). -/
structure Gang where
  crew : Nat
  rate : Rate
  pipe : Nat
  formed : Nat
  ready : Nat
  lastIssue : Nat
  parent : Option Nat
  promoted : Bool
  trapCause : Nat
  trapEas : List (Nat × DWord)
  deriving DecidableEq, Repr

/-- A chute (R206). `permits` counts engine operations that hold a permit until their token drops. -/
structure Chute where
  cap : Nat
  toks : List Word
  held : Nat
  permits : Nat
  deriving DecidableEq, Repr

/-- A posted receive (R212). -/
structure Post where
  src : Word
  tag : Word
  off : Nat
  len : Nat
  result : Nat
  deriving DecidableEq, Repr

/-- A message in flight or queued (R211). `place` is its place in the order in which messages were held back or entered an
overflow queue (R213). -/
structure Msg where
  launch : Nat
  src : Nat
  dst : Nat
  tag : Word
  data : List Byte
  result : Nat
  queued : Bool
  heldBack : Bool
  place : Nat
  deriving DecidableEq, Repr

/-- Where a crew stands (R27, R363, R381). -/
inductive CrewStatus | waiting | resident | saving | evicted | ended
  deriving DecidableEq, Repr

/-- A crew (R24, R38, R43). `words` and `reqs` count what it has issued since the last congestion sample, `saveAt` is the place of
its image in its context's save area, `congested` says
that congestion stops it (R373), and `stepping` names the gang and thread of a debugger's step (R400). `away` says that its room has been
returned and `saved` holds its scratchpad: from the end of its save until its restore (R381). -/
structure Crew where
  launch : Nat
  idx : Nat
  cluster : Nat
  status : CrewStatus
  core : Nat
  threads : Nat
  nreg : Nat
  sBase : Nat
  sSize : Nat
  regBase : Nat
  handler : DWord
  binTime : Word
  chutes : List Chute
  posted : List Post
  msgPending : Bool
  pairBound : Bool
  halted : Bool
  haltAsked : Bool
  growWant : Option (Nat × Nat)
  saved : List Byte
  saveAt : Nat
  away : Bool
  evictedAt : Nat
  words : Nat
  reqs : Nat
  congested : Bool
  stepping : Option (Nat × Nat)
  deriving DecidableEq, Repr

/-- A launch record as read (R351). -/
structure LRec where
  entry : DWord
  ncrew : Nat
  perCluster : Nat
  nreg : Nat
  threads : Nat
  scratch : Nat
  localSize : Nat
  quota : Nat
  ngrade : Nat
  indep : Bool
  resid : Bool
  layered : Bool
  check : Bool
  flush : Bool
  draw : Bool
  waitPrev : Bool
  deadline : DWord
  boundc : DWord
  boundb : DWord
  handler : DWord
  ext : DWord
  deriving DecidableEq, Repr

/-- The draw block and its tables as read (R353). -/
structure DrawRec where
  stall : Nat
  share : Nat
  reserves : List Nat
  nobj : Nat
  objTab : Nat
  clTab : Nat
  objects : List (Nat × Nat)
  clusters : List (Bool × Nat × Nat × Nat × Nat)
  indices : List (List Nat)
  deriving DecidableEq, Repr

/-- The render descriptor as read (R406). -/
structure RDesc where
  color : Nat
  depth : Nat
  metaAt : Nat
  width : Nat
  height : Nat
  nsLog : Nat
  half : Bool
  zfunc : Nat
  zwrite : Bool
  blend : Nat
  kw : Nat
  kh : Nat
  compress : Bool
  jitter : Bool
  motion : Bool
  seed : Nat
  vel : Nat
  lr : Word
  fw : Word
  deriving DecidableEq, Repr

/-- The extension block as read (R352). -/
structure ExtRec where
  consts : List Word
  chutes : List Nat
  bint : List (DWord × Nat)
  draw : Option DrawRec
  rdesc : Option RDesc
  deriving DecidableEq, Repr

/-- A primitive of a draw (R413): whether the sampler has begun and finished it, and the S quads it has asked for. -/
structure Prim where
  obj : Nat
  cluster : Nat
  idx : Nat
  verts : List Nat
  begun : Bool
  done : Bool
  squads : List Nat
  deriving DecidableEq, Repr

/-- One covered sample of a draw (R255, R413). `wantsS` while an S element is still to be made for it. -/
structure Sample where
  prim : Nat
  px : Nat
  py : Nat
  idx : Nat
  lam : List Word
  z : Word
  color : List Word
  written : Bool
  elem : Option Nat
  kelem : Option Nat
  wantsS : Bool
  resolved : Bool
  deriving DecidableEq, Repr

/-- State of one sample of the target while the draw runs (R413). -/
structure SampleState where
  color : List Word
  depth : Word
  passed : Bool
  zreplaced : Bool
  deriving DecidableEq, Repr

/-- A draw in progress (R241, R341). -/
structure Draw where
  inShared : SMap Nat
  dice : List (Nat × Nat × Nat × Nat × Nat × Nat)
  nextV : Nat
  nextK : Nat
  nextS : Nat
  nextY : Nat
  prims : SMap Prim
  samples : SMap Sample
  target : SMap SampleState
  written : Bool
  deriving DecidableEq, Repr

/-- Why and what a deferred word does at the commit (R283). -/
inductive Deferred
  | signal (addr : DWord) (val : Word) (irq : Option Nat)
  | launch (queue ticket : Nat)
  | flip (op : Nat)
  deriving DecidableEq, Repr

/-- Where a lot stands (R283, R288). -/
inductive LotStatus
  | pending
  | running
  | ready
  | committed
  | aborted (status cause code : Nat)
  deriving DecidableEq, Repr

/-- A launch and its lot (R283, R351). `shadow` holds the bytes the lot wrote, by location; `lines` the shadow lines
it holds; `resv` the calendar's reservations for it, by epoch. `ending` is the status, cause and code of a lot that has aborted and
whose completion entry waits for its engine operations (R286). -/
structure Launch where
  ctx : Nat
  queue : Nat
  ticket : Nat
  lrec : LRec
  ext : ExtRec
  grade : Nat
  lot : Word
  slot : Nat
  status : LotStatus
  attempt : Nat
  fallback : Bool
  prio : Nat
  dclass : Nat
  kill : Bool
  shadow : SMap Byte
  lines : List Nat
  reserved : Nat
  deferred : List Deferred
  charge : Nat
  chargeB : Nat
  resv : List (Nat × Nat × Nat)
  behind : Bool
  started : Option Nat
  committedAt : Nat
  admittedAt : Nat
  draw : Option Draw
  arrival : Option Nat
  recs : List LRec
  prevEpoch : Nat
  ending : Option (Nat × Nat × Nat)
  deriving DecidableEq, Repr

/-- An element of a draw (R30, R34). `quad` names the creation of its quad (R243). `copies` lists the other cores that hold a copy of it, each with the rate charged for
it (R342). -/
structure Elem where
  launch : Nat
  rate : Rate
  idx : Nat
  anc : List (Rate × Nat)
  verts : List Nat
  lam : List Word
  qs : List Word
  qpos : Nat
  quad : Nat
  helper : Bool
  px : Nat
  py : Nat
  sample : Nat
  prim : Nat
  clip : List Word
  held : SMap Word
  frozen : Bool
  killed : Bool
  emitted : Bool
  exited : Bool
  nohold : Bool
  barred : Bool
  core : Nat
  own : Bool
  pending : Bool
  readers : List Nat
  copies : List (Nat × Rate)
  released : Bool
  deriving DecidableEq, Repr

/-- Elements whose creation has been asked for and not yet made: one, or a quad of rate K or S (R243, R248, R343, R467).
`attempted` and `since` say since when it has waited, `turn` its place in the order of first attempts, `granted` that its
storage is charged while the lane that asks is still to issue again, `failed` that the stall limit passed, and `cause` the
lane that asks. -/
structure Creation where
  launch : Nat
  rate : Rate
  protos : List Elem
  regs : List Word
  crew : Nat
  attempted : Bool
  since : Nat
  turn : Nat
  fromRecord : Bool
  cause : Option Nat
  granted : Bool
  failed : Bool
  deriving DecidableEq, Repr

/-- A store that has been sent and not yet performed at the device (R195, R308). `core` is the core it was sent from and
`scope` its SCOPE. `after` lists the bytes (location and length) of releases at crew or cluster scope that have been performed
and that this store comes before (R311). -/
structure Store where
  thread : Nat
  launch : Nat
  core : Nat
  scope : Nat
  after : List (Nat × Nat)
  glob : Bool
  loc : Nat
  data : List Byte
  release : Bool
  irq : Option Nat
  seq : Nat
  deriving DecidableEq, Repr

/-- A read-modify-write on its way to its home (R187, R189, R331). -/
structure Rmw where
  thread : Nat
  launch : Nat
  core : Nat
  scope : Nat
  remote : Bool
  glob : Bool
  loc : Nat
  op : AOp
  ty : Ty
  b : DWord
  c : DWord
  release : Bool
  acquire : Bool
  reduction : Bool
  result : Option Nat
  window : Option (Nat × Nat)
  flush : Bool
  seq : Nat
  deriving DecidableEq, Repr

/-- What an engine operation does (R277, R291, R299). -/
inductive EKind
  | hcopy (sp : ESp) (src : Nat) (dp : ESp) (dst : Nat) (len : Nat)
  | hlayout (toMem : Bool) (mode base s0 s1 s2 : Nat) (mp : ESp) (addr : Nat) (e n0 n1 n2 p1 p2 : Nat)
  | hgather (sp : ESp) (idx dat base count rlen : Nat)
  | hscatter (dp : ESp) (idx dat base count rlen : Nat)
  | hcoll (op : COp) (sp : ESp) (src : Nat) (dp : ESp) (dst count : Nat) (ty : Ty) (grp rank size inst : Nat)
  | cboard (sp : ESp) (src name : Nat)
  | ccatch (off name : Nat)
  | creplace (src : Nat) (mask : Option Nat) (name : Nat)
  | calight (off : Option Nat) (name : Nat)
  | dflip (sp : ESp) (addr : Nat) (time : DWord) (out : Nat)
  deriving DecidableEq, Repr

/-- How far an engine operation has come: `undelivered` the units it has still to move, `staged` the bytes it has read,
`outcome` its status CODE and VERSION once applied (R274), `resv` the shadow lines that it holds in reserve and `touched`
those it has used (R290). `reach` is the cycle at which it reaches its station (R278), and `serving` says that its core serves
it (R403). -/
structure EOp where
  thread : Nat
  crew : Nat
  launch : Nat
  ctx : Nat
  core : Nat
  kind : EKind
  result : Option Nat
  word : Option DWord
  chute : Option (Nat × Nat)
  seq : Nat
  undelivered : List Nat
  staged : SMap Byte
  outcome : Option (Nat × Nat)
  committedAt : Option DWord
  applied : Bool
  resv : Nat
  touched : List Nat
  reach : Nat
  serving : Bool
  deriving DecidableEq, Repr

/-- What a member of a collective has sent (R292, R429): its context and place, and its source bytes. -/
structure CollPart where
  ctx : Nat
  grp : Nat
  inst : Nat
  rank : Nat
  count : Nat
  op : COp
  ty : Ty
  size : Nat
  data : List Byte
  deriving DecidableEq, Repr

/-- A matrix queue entry (R222, R228). -/
inductive MKind
  | mma (z scl : Bool) (ta tb : Ty) (tile ks : Nat) (mode base s0 s1 : Nat) (ptr : Nat) (sa sb : List Nat)
        (step : Nat) (flags : Nat)
  | mloadb (src dst len : Nat)
  | mst (ty : Ty) (rm : Rm) (pol : Pol) (rsel tile : Nat) (mode base s0 s1 : Nat)
  | mzero (mask : Nat)
  deriving DecidableEq, Repr

structure MEntry where
  thread : Nat
  crew : Nat
  launch : Nat
  ctx : Nat
  bank : Nat
  kind : MKind
  result : Option Nat
  started : Bool
  seq : Nat
  deriving DecidableEq, Repr

/-- Current states of an array (R402): a ramp-up ends at a cycle, a ramp-down began at one. -/
inductive Ramp
  | cold
  | up (till : Nat)
  | hot
  | down (since : Nat)
  deriving DecidableEq, Repr

/-- A matrix pair (R220, R402): which bank each of its two sets holds (context, bank, last matrix issue), the banks
spilled from it by context, its queue, its arrays' current state, the launch that its fillers are charged to, the
cycles from which its arrays have been idle, and the ramp length it has taken from RAMPCFG (R422). -/
structure Pair where
  sets : List (Option (Nat × Nat × Nat))
  spilled : List (Nat × Nat)
  queue : List MEntry
  ramp : List Ramp
  hold : Nat
  chargedTo : Nat
  idle : List Nat
  paused : Bool
  len : Nat
  deriving DecidableEq, Repr

/-- A carousel slot's tile (R276, R333). -/
structure Tile where
  ctx : Nat
  name : Nat
  version : Nat
  bytes : SMap Byte
  deriving DecidableEq, Repr

/-- An INFER entry in service (R268, R418): the layer it is at, since when it waits for that layer's tile, and the layer's inputs. -/
structure Serve where
  layer : Nat
  since : Nat
  x : List Word
  deriving DecidableEq, Repr

/-- An INFER entry (R267, R418). -/
structure IEntry where
  thread : Nat
  launch : Nat
  ctx : Nat
  die : Nat
  desc : Nat
  dbytes : List Byte
  inputs : List Word
  nout : Nat
  result : Nat
  flush : Bool
  seq : Nat
  serve : Option Serve
  deriving DecidableEq, Repr

/-- A bin of pending spawned threads (R215). `timer` is the cycle of its expiry, `left` what remained of it at an
eviction (R370). -/
structure Bin where
  crew : Nat
  entry : DWord
  core : Nat
  timer : Nat
  left : Nat
  expired : Bool
  threads : List Nat
  seq : Nat
  deriving DecidableEq, Repr

/-- A barrier's phase (R203). -/
structure Bar where
  phase : Nat
  arrived : List Nat
  deriving DecidableEq, Repr

/-- A completion entry (R349). -/
structure CplEntry where
  lot : Word
  status : Nat
  cause : Nat
  code : Nat
  attempt : Nat
  ticket : Nat
  grade : Nat
  kind : Nat
  fallback : Bool
  time : DWord
  spent : DWord
  deriving DecidableEq, Repr

/-- A hardware queue (R346, R347). -/
structure Queue where
  en : Bool
  kill : Bool
  prio : Nat
  dclass : Nat
  replay : Nat
  sublog : Nat
  cpllog : Nat
  sub : DWord
  cpl : DWord
  fall : DWord
  ctx : Nat
  door : Word
  head : Word
  ctail : Word
  chead : Word
  blocked : Bool
  cplerr : Bool
  fallRec : Option (LRec × ExtRec)
  held : List CplEntry
  lastEpoch : Nat
  lastDeadline : Option DWord
  deferred : SMap Nat
  asks : SMap Nat
  fallWant : List (DWord × Nat)
  deriving DecidableEq, Repr

/-- A stop waiting to be recorded in the mailbox (R398), with the threads that stopped. -/
structure Stop where
  cause : Nat
  index : Nat
  brkn : Nat
  lot : Word
  crew : Nat
  pc : DWord
  eaddr : DWord
  lanes : Word
  tid : Nat
  crewUid : Nat
  threads : List Nat
  deriving DecidableEq, Repr

/-- A context's register block and what the device holds for it (R390, R391). Of the stops on record, `recorded` is the last and
`earlier` holds those before it whose lanes have not gone on (R398, R399). -/
structure Ctx where
  exists_ : Bool
  dbgPriv : Bool
  ptroot : DWord
  saveBase : DWord
  saveSize : DWord
  invva : DWord
  invSize : Nat
  invDone : Bool
  dbgAttach : Bool
  mbox : Bool
  mboxInit : Bool
  attErr : Bool
  wpErr : Bool
  mbaddr : DWord
  bps : List DWord
  wps : List DWord
  wkey : Word
  cquota : Word
  wdog : Word
  featc : DWord
  localBase : DWord
  localStride : DWord
  stopped : Bool
  progress : Nat
  stopSeq : Word
  stops : List Stop
  recorded : Option Stop
  earlier : List Stop
  lastCmd : Word
  vector : Word
  history : List (Word × Nat)
  deriving DecidableEq, Repr

/-- What the loader tells the device of a code image (R63, R71, R77): its `entry` procedures with their `.shadow`
minimum, the addresses it covers, its held map and its liveness masks. -/
structure Image where
  ctx : Nat
  base : Nat
  size : Nat
  entries : List (DWord × Nat)
  held : List Nat
  live : List Nat
  rates : List Bool
  deriving DecidableEq, Repr

/-- Byte-addressed memory of every region (`Machine/Memory.lean`): the cells that differ from what an unlisted
location reads as, in rising order. `gen` counts the soundings that overwrote HBM. -/
structure Memory where
  gen : Nat
  cells : List Host.Cell
  deriving DecidableEq, Repr

/-- An image that CHECKPOINT has streamed to a tier (R455): to the ports or to host memory, the device it lies at, the HBM pages it
holds (address and size), their bytes as memory, and its header: the bytes written, the last committed lot, and the uncommitted lots
with their queue and ticket. `num` tells images apart: it says what the bytes are that a host image is made of. -/
structure Ckpt where
  num : Nat
  ports : Bool
  place : Nat
  pages : List (Nat × Nat)
  mem : Memory
  written : Nat
  last : Word
  lots : List (Word × Nat × Nat)
  deriving DecidableEq, Repr

/-- One residency batch (R375, R392). -/
structure Batch where
  die : Nat
  num : Nat
  first : Nat
  entries : List (Nat × Nat × Nat × Nat)
  sent : Bool
  written : Bool
  deriving DecidableEq, Repr

/-- Registers of a die's fault ring (R392). -/
structure FRing where
  base : DWord
  log : Nat
  vec : Nat
  en : Bool
  tail : Word
  head : Word
  mask : DWord
  nextBatch : Nat
  deriving DecidableEq, Repr

/-- A fabric port (R425). -/
structure Port where
  en : Bool
  ckpt : Bool
  up : Bool
  lanes : Nat
  rs : List Nat
  deriving DecidableEq, Repr

/-- A reduction window (R427). -/
structure Window where
  base : DWord
  size : DWord
  ctx : Nat
  wid : Nat
  home : Nat
  en : Bool
  deriving DecidableEq, Repr

/-- A collective group (R429). -/
structure CGroup where
  grp : Nat
  sizem1 : Nat
  en : Bool
  ctx : Nat
  members : DWord
  deriving DecidableEq, Repr

/-- Time lock states (R435). -/
inductive Lock | free | acquiring | locked | holdover
  deriving DecidableEq, Repr

/-- PTP registers and clock state (R437). `freq` is the locked frequency's excess over the reference clock in parts per 10^9
(R435), and `freqAcc` what of it has not made a nanosecond yet. -/
structure Ptp where
  tcfg : Word
  tip : Word
  tmask : Word
  tgw : Word
  tmac : DWord
  tuni : Word
  tint : Word
  lock : Lock
  master : Bool
  toff : DWord
  tgm : DWord
  tstep : Word
  good : Nat
  ahead : Nat
  slew : Int
  slewAcc : Nat
  freq : Int
  freqAcc : Int
  lostAt : Nat
  deriving DecidableEq, Repr

/-- A display output (R439). -/
structure Output where
  ocfg : Word
  osize : Word
  pnum : DWord
  pden : Word
  moff : Word
  ofs : Word
  tot : Word
  frame : DWord
  cur : DWord
  curCtx : Nat
  curSpace : Bool
  link : Bool
  xmiss : Bool
  badmeta : Bool
  deriving DecidableEq, Repr

/-- Device states (R445). -/
inductive DState | sounding | ready | safe | contained | checkpoint | restore
  deriving DecidableEq, Repr

/-- A mailbox command that runs (R443, R444): its operation, CSEQ and operands, and the state it started in. -/
structure Cmd where
  op : Nat
  seq : Word
  addr : DWord
  len : DWord
  arg : DWord
  came : DState
  deriving DecidableEq, Repr

/-- The command mailbox (R443). `surveys` counts the surveys asked for and not yet delivered. -/
structure Mbox where
  cmd : Word
  cseq : Word
  addr : DWord
  len : DWord
  arg : DWord
  rseq : Word
  rstat : Word
  saddr : DWord
  sseq : Word
  running : Option Cmd
  surveys : Nat
  deriving DecidableEq, Repr

/-- Signing algorithms (R424, R449). -/
inductive SigAlg | ed25519 | mlDsa65
  deriving DecidableEq, Repr

/-- An SPDM response (R424): its code and version (major and minor), the signing algorithm that it selects, its body, and the
Ed25519 and ML-DSA-65 signatures of a signed one. -/
structure Spdm where
  code : Nat
  major : Nat
  minor : Nat
  algorithm : Option SigAlg
  body : List Byte
  ed25519 : List Byte
  mlDsa65 : List Byte
  deriving DecidableEq, Repr

/-- What the device has sent outwards, oldest first: interrupts, fabric packets, responses and scanned frames. -/
inductive Out
  | msix (vec : Nat)
  | readData (bytes : List Byte)
  | completerAbort
  | config (w : Word)
  | spdm (m : Spdm)
  | fabric (port vc dst : Nat) (req : FabReq)
  | window (port vc dst wid off : Nat) (op : AOp) (ty : Ty) (count : Nat) (operand : DWord)
  | ptp (kind : Nat)
  | frame (out : Nat) (n : DWord) (surface : DWord) (pixels : List (List Nat))
  | stream (dev : Nat) (addr : Nat) (len : Nat)
  deriving DecidableEq, Repr

/-- The issue in progress (R21): which gang, the word's address and length in words, the lanes that execute, those whose
guard fails, which go past the word after it, and what held each lane at the word before; `faults` are those of the word that were found before it ran, and `faulted` counts the
lanes that faulted in it. -/
structure Issue where
  gang : Nat
  addr : DWord
  len : Nat
  lanes : List Nat
  passed : List Nat
  held : List (Nat × Block)
  faults : List (Nat × Cause × DWord)
  faulted : Nat
  ctl : Ctl
  deriving DecidableEq, Repr

/-- An error that strikes on the chip or on a link (R451, R452, R454): a corrected one in SRAM, a retry on a die-to-die or a fabric
link, or one in SRAM that cannot be corrected and that a thread's access or an engine operation consumes.
(DESIGN CHOICE, log 118: safe.) -/
inductive Mishap
  | sramCorrected
  | dieRetry
  | fabricRetry
  | laneSram (thread : Nat)
  | engineSram (op : Nat)
  deriving DecidableEq, Repr

/-- Who moves next, where the run's choice is written down: a gang's issue after a delay in cycles, an event, an image that the
loader tells the device of (R63), or an error. -/
inductive Pick
  | issue (gang delay : Nat)
  | event (i : Instr)
  | image (im : Image)
  | mishap (m : Mishap)
  deriving DecidableEq, Repr

/-- An engine that waits for a page: an engine operation, a launch's rendering, a queue's reads, the writing of its
completion entries, or a window packet (R350, R375, R388, R428, R471). -/
inductive Who
  | eop (n : Nat)
  | launch (l : Nat)
  | queue (q : Nat)
  | cpl (q : Nat)
  | packet (n : Nat)
  deriving DecidableEq, Repr

/-- A wait of an engine on a page of a residency batch; `refused` once the host has refused the page (R392). -/
structure Waiter where
  die : Nat
  batch : Nat
  ctx : Nat
  page : Nat
  who : Who
  refused : Bool
  deriving DecidableEq, Repr

/-- A window packet that has arrived and is still to be applied (R428). -/
structure Packet where
  wid : Nat
  off : Nat
  op : AOp
  ty : Ty
  operand : DWord
  deriving DecidableEq, Repr

/-- Registers of the device that the host programs, and the device's own condition (R421 to R445). -/
structure Device where
  form : Nat
  dstate : DState
  power : Bool
  sound : List Nat
  sdetail : Word
  rampcfg : Nat
  dshare : List Nat
  fabid : Nat
  ports : SMap Port
  routes : SMap Nat
  windows : SMap Window
  groups : SMap CGroup
  rings : SMap FRing
  msixTable : SMap Byte
  msixPending : List Nat
  ptp : Ptp
  outputs : SMap Output
  mbox : Mbox
  flash : List Byte
  running : List Byte
  counters : List Nat
  subnets : SMap Nat
  throttled : List Nat
  hotStacks : List Nat
  retired : List Nat
  spares : List Nat
  poolPages : Nat
  memCrews : List Nat
  deriving DecidableEq, Repr

/-- The machine. `phase` is where a tick boundary falls against core cycles, which R2 leaves open. -/
structure State where
  cycle : Nat
  rtime : DWord
  ptime : DWord
  phase : Nat
  fresh : Nat
  free : Nat
  dev : Device
  mem : Memory
  /-- Entries of the translation buffers (R389): the buffer (a core, or 128 plus a die), the context, the page, its address
  bits and the leaf; the newest comes first. -/
  tlb : List (Nat × Nat × Nat × Nat × DWord)
  absent : List Nat
  ctxs : SMap Ctx
  images : List Image
  ckpts : List Ckpt
  queues : SMap Queue
  calendar : SMap (Nat × Nat)
  launches : SMap Launch
  nextLot : Word
  commits : List Nat
  waiting : List Nat
  crews : SMap Crew
  threads : SMap Thread
  gangs : SMap Gang
  /-- Gangs formed on each core so far (R366). -/
  formings : SMap Nat
  bins : SMap Bin
  bars : SMap Bar
  msgs : SMap Msg
  results : SMap Result
  stores : SMap Store
  rmws : SMap Rmw
  /-- Stores that have been performed in the instance of a core (its number) or of a gallery (128 plus its number) and not
  yet in that of the device (R304, R306), in the order in which they were performed there. -/
  buffers : SMap (List Nat)
  eops : SMap EOp
  slots : SMap Tile
  pairs : SMap Pair
  acc : SMap Word
  tileStat : SMap Word
  infers : SMap IEntry
  collInst : SMap Nat
  collIn : List CollPart
  collIssued : List CollPart
  /-- Passages of the carousel until now: four for every four cycles, in the order of the dies (R333). -/
  rides : Nat
  packets : SMap Packet
  /-- Host reads of HBM of which some lines have still to be read (R320): the next address and the length that is left. -/
  hostReads : List (Nat × Nat)
  elems : SMap Elem
  creations : SMap Creation
  batches : List Batch
  engineWait : List Waiter
  iss : Issue
  outs : List Out
  agenda : List Pick
  deriving DecidableEq, Repr

/-- Why a step can stop. -/
inductive Fault
  /-- Raised by `step` alone: the package has no power (R450 POWER_LOSS) and the agenda's next event is not a
  fundamental reset, so nothing issues and nothing happens. Safe: the machine is off. -/
  | noPower
  deriving DecidableEq, Repr

/-- Why an instruction has no meaning. -/
inductive Refusal
  /-- Raised only by an arm of `exec` whose instruction has no meaning in this model. Safe: the run stops. -/
  | notModelled (mnemonic : String)
  deriving DecidableEq, Repr

/-- A port as it comes out of reset (R425, R446). -/
def Port.reset : Port := { en := false, ckpt := false, up := false, lanes := 0, rs := [0, 0, 0, 0, 0, 0, 0] }

/-- A queue as it comes out of reset (R347).
(DESIGN CHOICE, log 1: unsafe.) -/
def Queue.reset : Queue :=
  { en := false, kill := false, prio := 0, dclass := 0, replay := 0, sublog := 4, cpllog := 4, sub := 0, cpl := 0,
    fall := 0, ctx := 0, door := 0, head := 0, ctail := 0, chead := 0, blocked := false, cplerr := false,
    fallRec := none, held := [], lastEpoch := 0, lastDeadline := none, deferred := [], asks := [], fallWant := [] }

/-- A context block as it comes out of reset (R390, R394, R396).
(DESIGN CHOICE, log 1: unsafe.) -/
def Ctx.reset : Ctx :=
  { exists_ := false, dbgPriv := false, ptroot := 0, saveBase := 0, saveSize := 0, invva := 0, invSize := 0,
    invDone := true, dbgAttach := false, mbox := false, mboxInit := false, attErr := false, wpErr := false, mbaddr := 0,
    bps := [0, 0, 0, 0, 0, 0, 0, 0], wps := [0, 0, 0, 0], wkey := 0, cquota := 0, wdog := 10000000, featc := 0,
    localBase := 0, localStride := 0, stopped := false, progress := 0, stopSeq := 0, stops := [], recorded := none, earlier := [],
    lastCmd := 0, vector := 0, history := [] }

/-- A die's fault ring registers after reset (R392). -/
def FRing.reset : FRing :=
  { base := 0, log := 0, vec := 0, en := false, tail := 0, head := 0, mask := 0, nextBatch := 0 }

/-- PTP registers after reset (R437). -/
def Ptp.reset : Ptp :=
  { tcfg := 0xFFFF7F02, tip := 0, tmask := 0, tgw := 0, tmac := Config.factoryMac &&& 0xFFFFFFFFFFFF, tuni := 0, tint := 0x03FDFEFD, lock := .free,
    master := false, toff := 0, tgm := 0, tstep := 0, good := 0, ahead := 0, slew := 0, slewAcc := 0, freq := 0, freqAcc := 0, lostAt := 0 }

/-- A display output after reset (R439). -/
def Output.reset : Output :=
  { ocfg := 0, osize := 0, pnum := 0, pden := 0, moff := 0, ofs := 0, tot := 0, frame := 0, cur := 0, curCtx := 0,
    curSpace := false, link := false, xmiss := false, badmeta := false }

/-- The mailbox after reset (R443). -/
def Mbox.reset : Mbox :=
  { cmd := 0, cseq := 0, addr := 0, len := 0, arg := 0, rseq := 0, rstat := 0, saddr := 0, sseq := 0, running := none,
    surveys := 0 }

/-- A matrix pair after reset (R220, R402). -/
def Pair.reset : Pair :=
  { sets := [none, none], spilled := [], queue := [], ramp := [.cold, .cold], hold := 0, chargedTo := 0, idle := [0, 0],
    paused := false, len := 64 }

/-- A control field of zeros at rate N. -/
def Ctl.zero : Ctl := { stall := 0, rate := .N, elect := false, pred := 7, pneg := false }

/-- The device's registers when power comes on: sounding has just begun (R445, R447).
(DESIGN CHOICE, log 1: unsafe.)
(DESIGN CHOICE, log 6: unsafe.)
(DESIGN CHOICE, log 7: unsafe.) -/
def Device.reset : Device :=
  { form := 1, dstate := .sounding, power := true, sound := [0, 0, 0, 0, 0, 0, 0, 0], sdetail := 0, rampcfg := 1,
    dshare := [0, 0, 0, 0, 0, 0, 0], fabid := 0, ports := [], routes := [], windows := [], groups := [], rings := [],
    msixTable := [], msixPending := [], ptp := Ptp.reset, outputs := [], mbox := Mbox.reset, flash := Config.flashImage, running := Config.flashImage,
    counters := [0, 0, 0, 0, 0, 0, 0, 0, 0, 0, 0, 0, 0, 0, 0, 0], subnets := [], throttled := [],
    hotStacks := [], retired := [], spares := List.replicate 64 256, poolPages := 524288,
    memCrews := [512, 512, 512, 512] }

/-- The machine right after fundamental reset: sounding, with no context, no work and nothing stored (R445 to R447).
(DESIGN CHOICE, log 1: unsafe.)
(DESIGN CHOICE, log 8: safe.) -/
def State.reset : State :=
  { cycle := 0, rtime := 0, ptime := 0, phase := 0, fresh := 1, free := 0, dev := Device.reset,
    mem := { gen := 0, cells := [] }, tlb := [], absent := [], ctxs := [], images := [], ckpts := [], queues := [], calendar := [],
    launches := [], nextLot := 0, commits := [], waiting := [], crews := [], threads := [], gangs := [], formings := [], bins := [],
    bars := [], msgs := [], results := [], stores := [], rmws := [], buffers := [], eops := [], slots := [], pairs := [], acc := [],
    tileStat := [], infers := [], collInst := [], collIn := [], collIssued := [], rides := 0, packets := [], hostReads := [], elems := [], creations := [], batches := [], engineWait := [],
    iss := { gang := 0, addr := 0, len := 1, lanes := [], passed := [], held := [], faults := [], faulted := 0, ctl := Ctl.zero }, outs := [], agenda := [] }

end Sys2Proof.Machine
end

