-- ==== Sys2Proof/Machine/Memory.lean ====
section
/-! DEFINITION. Byte-addressed memory. Every store of the package and what it can reach outside is one memory, by
location: HBM by physical address (R330), host memory by bus address and peer memory by device and address (R387), the
scratchpad of each core (R325) and the weight buffer of each pair (R230, R232). -/

namespace Sys2Proof.Machine

/-- Bytes of HBM (R330).
(DESIGN CHOICE, log 32: safe.) -/
def hbmSize : Nat := 512000000000

/-- Location of a byte of host memory (R387 HOST).
(DESIGN CHOICE, log 5: unsafe.) -/
def locHost (addr : Nat) : Nat := 2 ^ 60 + addr

/-- Location of a byte of a peer's memory (R387 PEER).
(DESIGN CHOICE, log 5: unsafe.) -/
def locPeer (dev addr : Nat) : Nat := 2 ^ 64 + dev * 2 ^ 52 + addr

/-- Location of a scratchpad byte (R42, R325). -/
def locScratch (core off : Nat) : Nat := 2 ^ 80 + core * 2 ^ 23 + off

/-- Location of a weight-buffer byte; both buffers of a pair hold the same bytes (R232). -/
def locWeight (pair off : Nat) : Nat := 2 ^ 81 + pair * 2 ^ 21 + off

/-- What a location reads as where nothing is listed: HBM as `gen` says, on-chip stores 0, and memory that others
hold a free value.
(DESIGN CHOICE, log 2: unsafe.)
(DESIGN CHOICE, log 3: unsafe.)
(DESIGN CHOICE, log 4: safe.) -/
def Memory.unlisted (gen loc : Nat) : Byte :=
  if loc < 2 ^ 60 then (if gen = 0 then 0 else Config.coldByte gen loc)
  else if loc < 2 ^ 80 then Config.foreignByte loc
  else 0

/-- Read one byte.
(DESIGN CHOICE, log 5: unsafe.) -/
def Memory.read (m : Memory) (loc : Nat) : Byte := SMap.getD m.cells loc (Memory.unlisted m.gen loc)

/-- Write one byte; a byte that becomes what an unlisted location reads as is listed no more. -/
def Memory.write (m : Memory) (loc : Nat) (b : Byte) : Memory :=
  if b = Memory.unlisted m.gen loc then { m with cells := SMap.del m.cells loc }
  else { m with cells := SMap.put m.cells loc b }

/-- Read `n` bytes, lowest location first. -/
def Memory.readN (m : Memory) : Nat → Nat → List Byte
  | _, 0 => []
  | loc, n + 1 => m.read loc :: Memory.readN m (loc + 1) n

/-- Write bytes, lowest location first. -/
def Memory.writeN (m : Memory) (loc : Nat) : List Byte → Memory
  | [] => m
  | b :: bs => Memory.writeN (m.write loc b) (loc + 1) bs

/-- Read a little-endian value of `n` bytes (R4). -/
def Memory.readLE (m : Memory) (loc n : Nat) : Nat := ofBytes (m.readN loc n)

/-- Make `n` bytes from `loc` read as an unlisted location does: used for on-chip stores, which then read 0 (R38). -/
def Memory.clear (m : Memory) (loc n : Nat) : Memory :=
  { m with cells := SMap.keep m.cells fun k _ => decide (k < loc) || decide (loc + n ≤ k) }

/-- A sounding overwrote all of HBM (R447, R456).
(DESIGN CHOICE, log 2: unsafe.) -/
def Memory.scramble (m : Memory) : Memory :=
  { gen := m.gen + 1, cells := SMap.keep m.cells fun k _ => decide (2 ^ 60 ≤ k) }

/-- The canonical form: locations strictly rising, and no cell equal to what its location reads as unlisted. -/
def Memory.wf (m : Memory) : Bool :=
  SMap.sorted m.cells && m.cells.all fun c => decide (c.2 ≠ Memory.unlisted m.gen c.1)

end Sys2Proof.Machine
end

