-- ==== Sys2Proof/Machine/Translate.lean ====
section
/-! DEFINITION. Address translation: page table entries, the four-level walk, translation buffers and the outcomes of
an access (R386 to R389). -/

namespace Sys2Proof.Machine

/-- Address spaces by the SPACE tag of a page (R387): G, D, K, L and code. -/
inductive Sp | G | D | K | L | code
  deriving DecidableEq, Repr

/-- Code of a space in a page table entry (R387). -/
def Sp.tag : Sp → Nat
  | .G => 0 | .D => 1 | .K => 2 | .L => 3 | .code => 4

/-- Kinds of access (R388, R392 ACC). -/
inductive Acc | read | write | fetch | atomic
  deriving DecidableEq, Repr

/-- Code of an access kind in a fault-ring entry (R392). -/
def Acc.code : Acc → Nat
  | .read => 0 | .write => 1 | .fetch => 2 | .atomic => 3

/-- How a translation ends (R388): a location with what holds it, a replayable miss, or a cause. -/
inductive Tr
  | ok (loc : Nat) (host peer : Bool) (pte : DWord) (bits : Nat)
  | miss
  | bad (c : Cause)
  deriving DecidableEq, Repr

/-- True of an entry that breaks R386 or R387 at a level (0 to 3). -/
def pteMalformed (level : Nat) (p : Nat) : Bool :=
  let leaf := testN p 1
  fieldN p 9 3 != 0 ||
  (level == 0 && leaf) || (level == 3 && !leaf) ||
  (if leaf then
    (let bits := if level = 1 then 30 else if level = 2 then 21 else 16
     fieldN p 12 (bits - 12) != 0) ||
    decide (fieldN p 2 3 > 4) ||
    (testN p 7 && testN p 6) ||
    (testN p 7 && fieldN p 2 3 != 1) ||
    (testN p 6 && decide (fieldN p 2 3 > 1)) ||
    (!testN p 6 && fieldN p 52 12 != 0)
   else fieldN p 2 7 != 0 || fieldN p 52 12 != 0)

/-- The levels of a walk: level, low bit of its index, and bits of the index (R386). -/
def walkLevels : List (Nat × Nat × Nat) := [(0, 39, 13), (1, 30, 9), (2, 21, 9), (3, 16, 5)]

/-- How a walk of the tables ends (R388): a leaf with its page's address bits, a replayable miss, an entry that is not
valid, or one that breaks R386 or R387. -/
inductive Walk
  | leaf (p bits : Nat)
  | miss
  | invalid
  | malformed
  deriving DecidableEq, Repr

/-- Walk the tables from `table` down the listed levels (R386, R388). -/
def walkFrom (m : Memory) (va : Nat) : List (Nat × Nat × Nat) → Nat → Walk
  | [], _ => .malformed
  | (level, lo, n) :: rest, table =>
    let p := m.readLE (table + 8 * fieldN va lo n) 8
    if !testN p 0 then (if testN p 8 then .miss else .invalid)
    else if pteMalformed level p then .malformed
    else if testN p 1 then .leaf p lo
    else walkFrom m va rest (fieldN p 12 40 * 4096)

/-- Number of a die's shared translation buffer; that of a core has the core's number (R389). -/
def dieTlb (die : Nat) : Nat := 128 + die

/-- The shared buffer behind a translation buffer: its die's (R389). -/
def sharedTlb (unit : Nat) : Nat := if unit < 128 then dieTlb (unit / 32) else unit

/-- Entries that a translation buffer holds at most (R389). -/
def tlbRoom (unit : Nat) : Nat := if unit < 128 then 4096 else 65536

/-- What the translation buffer `unit`, or the shared one behind it, holds for an address (R389): a leaf and its page's
address bits. -/
def tlbFind (tlb : List (Nat × Nat × Nat × Nat × DWord)) (unit ctx va : Nat) : Option (Nat × Nat) :=
  let look (u : Nat) := tlb.find? fun e => e.1 == u && e.2.1 == ctx && e.2.2.1 == va / 2 ^ e.2.2.2.1
  match look unit, look (sharedTlb unit) with
  | some e, _ => some (e.2.2.2.2.toNat, e.2.2.2.1)
  | none, some e => some (e.2.2.2.2.toNat, e.2.2.2.1)
  | none, none => none

/-- What a leaf gives an access (R388). `fab` says whether the context may reach peers (R18 bit 6). -/
def leafOutcome (p bits va : Nat) (sp : Sp) (acc : Acc) (fab : Bool) : Tr :=
  let tag := fieldN p 2 3
  let pa := fieldN p 12 40 * 4096 + va % 2 ^ bits
  let host := testN p 7
  let peer := testN p 6
  if (tag == 4) != (acc == .fetch) then .bad .access
  else if tag ≠ sp.tag then .bad .xlate
  else if (acc == .write || acc == .atomic) && !testN p 5 then .bad .access
  else if peer && !fab then .bad .access
  else if peer then .ok (locPeer (fieldN p 52 12) pa) false true (BitVec.ofNat 64 p) bits
  else if host then .ok (locHost pa) true false (BitVec.ofNat 64 p) bits
  else if pa ≥ hbmSize then .bad .access
  else .ok pa false false (BitVec.ofNat 64 p) bits

/-- The port on which traffic to a device leaves: the lowest that is UP and set in the device's route mask (R426), and that
does not carry checkpoint streams only (R425).
(DEDUCED, log 78: safe.) -/
def State.portFor (s : State) (dst : Nat) : Option Nat :=
  (List.range 16).find? fun i =>
    let p := SMap.getD s.dev.ports i Port.reset
    testN (SMap.getD s.dev.routes dst 0) i && p.up && !p.ckpt

/-- A peer-mapped access needs a route (R426). -/
def State.routed (s : State) (t : Tr) : Tr :=
  match t with
  | .ok _ _ true pte _ => if (s.portFor (fieldN pte.toNat 52 12)).isSome then t else .bad .xlate
  | _ => t

/-- What the translation buffer `unit` or the page tables say of an address of a context (R386, R389). -/
def State.leafAt (s : State) (unit ctx va : Nat) : Walk :=
  match SMap.get? s.ctxs ctx with
  | none => .invalid
  | some c =>
    match tlbFind s.tlb unit ctx va with
    | some (p, bits) => .leaf p bits
    | none => walkFrom s.mem va walkLevels c.ptroot.toNat

/-- Translate an address of a context for an access through a translation buffer (R386 to R389).
(DESIGN CHOICE, log 32: safe.)
(DESIGN CHOICE, log 33: unsafe.) -/
def translate (s : State) (unit ctx va : Nat) (sp : Sp) (acc : Acc) : Tr :=
  match s.leafAt unit ctx va with
  | .leaf p bits => s.routed (leafOutcome p bits va sp acc ((SMap.getD s.ctxs ctx Ctx.reset).featc.getLsbD 6))
  | .miss => .miss
  | .invalid | .malformed => .bad .xlate

/-- Put a leaf in one translation buffer; a buffer that is full loses its oldest entry (R389).
(DESIGN CHOICE, log 33: unsafe.) -/
def putTlb (tlb : List (Nat × Nat × Nat × Nat × DWord)) (unit ctx va : Nat) (pte : DWord) (bits : Nat) :
    List (Nat × Nat × Nat × Nat × DWord) :=
  let mine := tlb.filter fun e => e.1 == unit
  if mine.any fun e => e.2.1 == ctx && e.2.2.1 == va / 2 ^ e.2.2.2.1 then tlb
  else
    let old := if mine.length < tlbRoom unit then none else mine.getLast?
    (unit, ctx, va / 2 ^ bits, bits, pte) :: match old with
      | some e => tlb.erase e
      | none => tlb

/-- Keep the leaf that served an access in the translation buffer and in the one behind it (R389).
(DESIGN CHOICE, log 33: unsafe.) -/
def fillTlb (s : State) (unit ctx va : Nat) (pte : DWord) (bits : Nat) : State :=
  { s with tlb := putTlb (putTlb s.tlb (sharedTlb unit) ctx va pte bits) unit ctx va pte bits }

/-- Bring a translation in without an access, as PREF does (R194): nothing happens on a miss. -/
def prefetchTlb (s : State) (unit ctx va : Nat) (sp : Sp) : State :=
  match translate s unit ctx va sp .read with
  | .ok _ _ _ pte bits => fillTlb s unit ctx va pte bits
  | _ => s

/-- Slice of an HBM address (R330).
(DEDUCED, log 34: safe.) -/
def sliceOf (loc : Nat) : Nat :=
  let g := loc / 256 % 768
  let stack := g % 8
  stack / 2 * 16 + (stack % 2 * 96 + g / 8) / 12

/-- The 128-byte line of a location (R330). -/
def lineOf (loc : Nat) : Nat := loc / 128

/-- True where a line of HBM has been retired (R452).
(DESIGN CHOICE, log 35: safe.) -/
def lineRetired (s : State) (loc : Nat) : Bool := decide (loc < hbmSize) && s.dev.retired.contains (lineOf loc)

/-- Remap a retired line to a spare row, if its slice has one (R452): a write covers all its bytes.
(DEDUCED, log 36: unsafe.) -/
def State.remapLine (s : State) (line : Nat) : State :=
  let k := sliceOf (128 * line)
  let n := s.dev.spares.getD k 0
  if !s.dev.retired.contains line || n = 0 then s
  else { s with dev := { s.dev with retired := s.dev.retired.filter (· ≠ line), spares := s.dev.spares.set k (n - 1) } }

end Sys2Proof.Machine
end

