-- ==== Sys2Proof/Machine/Base.lean ====
section
/-! DEFINITION. Looking things up in the state and changing one of them: threads, crews, launches, contexts, gangs,
elements, queues; time; thread registers with results in flight; tracked results; interrupts sent outwards. -/

namespace Sys2Proof.Machine

/-- A thread as it is created at rate N: registers and predicates 0 (R10).
(DESIGN CHOICE, log 10: safe.) -/
def Thread.zero : Thread :=
  { crew := 0, tid := 0, rate := .N, gang := 0, home := 0, lane := 0, pc := 0, regs := [], preds := 0, pend := [],
    live := false, yielded := false, park := none, cause := 0, epc := 0, eaddr := 0, elanes := 0, inHandler := false,
    viaTransfer := true, elem := none, released := false, arrivals := [], passOnce := false, refused := [], lastRead := 0, polled := 0 }

def Gang.zero : Gang :=
  { crew := 0, rate := .N, pipe := 0, formed := 0, ready := 0, lastIssue := 0, parent := none, promoted := false,
    trapCause := 0, trapEas := [] }

def Crew.zero : Crew :=
  { launch := 0, idx := 0, cluster := 0, status := .waiting, core := 0, threads := 0, nreg := 0, sBase := 0, sSize := 0,
    regBase := 0, handler := 0, binTime := 2000, chutes := [], posted := [], msgPending := false, pairBound := false,
    halted := false, haltAsked := false, growWant := none, saved := [], saveAt := 0, away := false, evictedAt := 0, words := 0, reqs := 0,
    congested := false, stepping := none }

def LRec.zero : LRec :=
  { entry := 0, ncrew := 0, perCluster := 1, nreg := 8, threads := 0, scratch := 0, localSize := 0, quota := 0,
    ngrade := 0, indep := false, resid := false, layered := false, check := false, flush := false, draw := false,
    waitPrev := false, deadline := 0, boundc := 0, boundb := 0, handler := 0, ext := 0 }

def ExtRec.zero : ExtRec := { consts := [], chutes := [], bint := [], draw := none, rdesc := none }

def Launch.zero : Launch :=
  { ctx := 0, queue := 0, ticket := 0, lrec := LRec.zero, ext := ExtRec.zero, grade := 0, lot := 0, slot := 0,
    status := .pending, attempt := 1, fallback := false, prio := 0, dclass := 0, kill := false, shadow := [],
    lines := [], reserved := 0, deferred := [], charge := 0, chargeB := 0, resv := [], behind := false,
    started := none, committedAt := 0, admittedAt := 0, draw := none, arrival := none, recs := [], prevEpoch := 0, ending := none }

def Elem.zero : Elem :=
  { launch := 0, rate := .F, idx := 0, anc := [], verts := [], lam := [], qs := [], qpos := 0, quad := 0, helper := false, px := 0,
    py := 0, sample := 0, prim := 0, clip := [], held := [], frozen := false, killed := false, emitted := false,
    exited := false, nohold := false, barred := false, core := 0, own := false, pending := false, readers := [], copies := [], released := false }

def Chute.zero : Chute := { cap := 0, toks := [], held := 0, permits := 0 }

/-- The thread of a number. -/
def State.thr (s : State) (t : Nat) : Thread := SMap.getD s.threads t Thread.zero

def State.modThr (s : State) (t : Nat) (f : Thread → Thread) : State := { s with threads := SMap.modify s.threads t f }

def State.crewAt (s : State) (c : Nat) : Crew := SMap.getD s.crews c Crew.zero

def State.modCrew (s : State) (c : Nat) (f : Crew → Crew) : State := { s with crews := SMap.modify s.crews c f }

def State.launchAt (s : State) (l : Nat) : Launch := SMap.getD s.launches l Launch.zero

def State.modLaunch (s : State) (l : Nat) (f : Launch → Launch) : State :=
  { s with launches := SMap.modify s.launches l f }

def State.gangAt (s : State) (g : Nat) : Gang := SMap.getD s.gangs g Gang.zero

def State.modGang (s : State) (g : Nat) (f : Gang → Gang) : State := { s with gangs := SMap.modify s.gangs g f }

def State.ctxAt (s : State) (c : Nat) : Ctx := SMap.getD s.ctxs c Ctx.reset

/-- Change a context's block; a block that was never written is the reset block (R390). -/
def State.modCtx (s : State) (c : Nat) (f : Ctx → Ctx) : State :=
  { s with ctxs := SMap.put s.ctxs c (f (s.ctxAt c)) }

def State.queueAt (s : State) (q : Nat) : Queue := SMap.getD s.queues q Queue.reset

def State.modQueue (s : State) (q : Nat) (f : Queue → Queue) : State :=
  { s with queues := SMap.put s.queues q (f (s.queueAt q)) }

def State.elemAt (s : State) (e : Nat) : Elem := SMap.getD s.elems e Elem.zero

def State.modElem (s : State) (e : Nat) (f : Elem → Elem) : State := { s with elems := SMap.modify s.elems e f }

def State.pairAt (s : State) (p : Nat) : Pair := SMap.getD s.pairs p Pair.reset

def State.modPair (s : State) (p : Nat) (f : Pair → Pair) : State :=
  { s with pairs := SMap.put s.pairs p (f (s.pairAt p)) }

def State.modDev (s : State) (f : Device → Device) : State := { s with dev := f s.dev }

/-- A number never given before. -/
def State.take (s : State) : Nat × State := (s.fresh, { s with fresh := s.fresh + 1 })

/-- A value the spec does not state, and the state that has used it. -/
def State.freeWord (s : State) : Word × State := (Config.freeWord s.free, { s with free := s.free + 1 })

def State.crewOf (s : State) (t : Nat) : Crew := s.crewAt (s.thr t).crew
def State.launchIdOf (s : State) (t : Nat) : Nat := (s.crewOf t).launch
def State.launchOf (s : State) (t : Nat) : Launch := s.launchAt (s.launchIdOf t)
def State.ctxIdOf (s : State) (t : Nat) : Nat := (s.launchOf t).ctx
def State.ctxOf (s : State) (t : Nat) : Ctx := s.ctxAt (s.ctxIdOf t)
def State.coreOf (s : State) (t : Nat) : Nat := (s.crewOf t).core

/-- FLUSH of the thread's launch (R114). -/
def State.flush (s : State) (t : Nat) : Bool := (s.launchOf t).lrec.flush

/-- Feature contract bit of the thread's context (R18). -/
def State.feat (s : State) (t : Nat) (i : Nat) : Bool := (s.ctxOf t).featc.getLsbD i

/-- Die of a core (R15, R42). -/
def dieOf (core : Nat) : Nat := core / 32

/-- Matrix pair of a core: cores 2p and 2p + 1 (R3). -/
def pairOf (core : Nat) : Nat := core / 2

/-- The leader core of a pair is the even one (R3). -/
def isLeader (core : Nat) : Bool := core % 2 == 0

/-- Features of the device (R18): the L7-MX has the display and the PTP port, the other forms lack both.
(DESIGN CHOICE, log 6: unsafe.) -/
def State.devFeat (s : State) : DWord := if s.dev.form = 2 then 0x7FF else 0x67F

/-- The nanoseconds that a locked or held-over clock counts in `ns` of the reference clock, at the last locked frequency
(R435). -/
def Ptp.count (p : Ptp) (ns : Nat) : Nat × Ptp :=
  if p.lock = .locked ∨ p.lock = .holdover then
    let x := Int.ofNat ns * p.freq + p.freqAcc
    ((Int.ofNat ns + x / 1000000000).toNat, { p with freqAcc := x % 1000000000 })
  else (ns, p)

/-- The PTP clock after `ns` nanoseconds of its own rate (R436): it holds while the correct time lies behind, and a slew moves
it so that no more than 200 ppm lie between it and the reference clock. -/
def Ptp.slewed (p : Ptp) (now : DWord) (ns : Nat) : DWord × Ptp :=
  if ns ≤ p.ahead then (now, { p with ahead := p.ahead - ns })
  else
    let n := ns - p.ahead
    let acc := if p.slew = 0 then 0 else p.slewAcc + (200000 - p.freq.natAbs) * n
    let k := Int.ofNat (min (acc / 1000000000) p.slew.natAbs)
    let d := if p.slew < 0 then -k else k
    (now + BitVec.ofInt 64 (Int.ofNat n + d), { p with ahead := 0, slew := p.slew - d, slewAcc := acc % 1000000000 })

/-- The PTP clock after `ns` nanoseconds of the reference clock (R435, R436).
(DESIGN CHOICE, log 68: unsafe.) -/
def Ptp.run (p : Ptp) (now : DWord) (ns : Nat) : DWord × Ptp := (p.count ns).2.slewed now (p.count ns).1

/-- Move time on (R2, R19): `%rtime` counts ticks of 24 cycles, which fall against core cycles as `phase` says, and `%ptime`
10 ns each; neither runs while sounding or
without power. Ticks of a throttled die are counted (R457).
(DESIGN CHOICE, log 9: safe.)
(DESIGN CHOICE, log 70: unsafe.) -/
def State.advance (s : State) (cycles : Nat) : State :=
  let c := s.cycle + cycles
  let ticks := (c + s.phase) / 24 - (s.cycle + s.phase) / 24
  if s.dev.dstate = .sounding then { s with cycle := c }
  else
    let r := s.dev.ptp.run s.ptime (10 * ticks)
    let slow := s.dev.counters.getD 11 0 + ticks * s.dev.throttled.length
    { s with cycle := c, rtime := s.rtime + BitVec.ofNat 64 ticks, ptime := r.1,
             dev := { s.dev with ptp := r.2, counters := s.dev.counters.set 11 slow } }

/-- Send something outwards.
(DESIGN CHOICE, log 75: safe.) -/
def State.send (s : State) (o : Out) : State := { s with outs := s.outs ++ [o] }

/-- Whether the vector's entry of the MSI-X table masks it (R420): bit 0 of its vector control, 1 until the host writes it. -/
def State.masked (s : State) (vec : Nat) : Bool := (SMap.getD s.dev.msixTable (16 * vec + 12) 1).getLsbD 0

/-- Raise an MSI-X vector (R423): a masked one is pending until its mask is cleared (R420).
(PRESUMED, log 74: unsafe.) -/
def State.raise (s : State) (vec : Nat) : State :=
  if s.masked vec then
    s.modDev fun d => { d with msixPending := if d.msixPending.contains vec then d.msixPending else vec :: d.msixPending }
  else s.send (.msix vec)

/-- Raise one of a context's vectors, if its table entry enables them (R423). -/
def State.raiseCtx (s : State) (ctx : Nat) (debug : Bool) : State :=
  let e := (s.ctxAt ctx).vector.toNat
  if testN e 31 then s.raise (if debug then fieldN e 16 11 else fieldN e 0 11) else s

/-- SURVEY counters of errors (R454): HBM, SRAM and carousel errors, and retries of links.
(DESIGN CHOICE, log 66: safe.) -/
def errorCounters : List Nat := [0, 1, 2, 3, 5, 6, 7]

/-- A SURVEY counter comes to hold a count (R454); vector 0 announces it where it crosses its threshold (R423).
(DESIGN CHOICE, log 66: safe.) -/
def State.setCount (s : State) (i n : Nat) : State :=
  let t := s.modDev fun d => { d with counters := d.counters.set i n }
  if errorCounters.contains i && Config.counterCrosses i n then t.raise 0 else t

/-- Count an error or event in SURVEY counter `i` (R454). -/
def State.count (s : State) (i : Nat) : State := s.setCount i (s.dev.counters.getD i 0 + 1)

/-- A thread register (R10). -/
def State.rd (s : State) (t n : Nat) : Word := SMap.getD (s.thr t).regs n 0

/-- The 64-bit value of a register pair (R12). -/
def State.rd64 (s : State) (t n : Nat) : DWord := (s.rd t (n + 1)) ++ (s.rd t n)

/-- A predicate; p7 reads 1 (R13). -/
def State.pr (s : State) (t n : Nat) : Bool := n == 7 || (s.thr t).preds.getLsbD n

/-- A predicate after optional negation. -/
def State.prx (s : State) (t : Nat) (n : BitVec 3) (neg : Bool) : Bool := s.pr t n.toNat != neg

/-- Put a value where a result goes, at once; p7 discards (R13). A held register goes to the thread's element (R33). -/
def State.putRes (s : State) (t : Nat) (r : Res) (v : Word) : State :=
  match r with
  | .v n => s.modThr t fun x => { x with regs := SMap.put x.regs n v }
  | .p n => if n = 7 then s
      else s.modThr t fun x => { x with preds := BitVec.ofNat 7 (setFieldN x.preds.toNat n 1 (v.toNat % 2)) }
  | .h n =>
    match (s.thr t).elem with
    | some e => s.modElem e fun x => { x with held := SMap.put x.held n v }
    | none => s

/-- Put several values. -/
def State.putAll (s : State) (t : Nat) : List (Res × Word) → State
  | [] => s
  | (r, v) :: rest => State.putAll (s.putRes t r v) t rest

/-- Drop the results in flight to one register that a later write overtakes (R105). -/
def dropPend (l : List Pend) (r : Res) (due : Nat) : List Pend := l.filter fun p => p.res != r || decide (p.due < due)

/-- Start a fixed-latency result (R102, R105).
(DESIGN CHOICE, log 21: safe.) -/
def State.later (s : State) (t lat : Nat) (r : Res) (v : Word) : State :=
  let due := s.cycle + lat
  s.modThr t fun x => { x with pend := dropPend x.pend r due ++ [{ due := due, res := r, val := v }] }

/-- Start the fixed-latency results of one word. -/
def State.laterAll (s : State) (t lat : Nat) : List (Res × Word) → State
  | [] => s
  | (r, v) :: rest => State.laterAll (s.later t lat r v) t lat rest

/-- Apply results in flight, oldest issue first. -/
def State.applyPend (s : State) (t : Nat) : List Pend → State
  | [] => s
  | p :: rest => State.applyPend (s.putRes t p.res p.val) t rest

/-- Complete the thread's results that are due by now (R102).
(DESIGN CHOICE, log 21: safe.) -/
def State.settle (s : State) (t : Nat) : State :=
  let l := (s.thr t).pend
  let now := s.cycle
  let s := s.applyPend t (l.filter fun p => decide (p.due ≤ now))
  s.modThr t fun x => { x with pend := l.filter fun p => decide (now < p.due) }

/-- Complete every result in flight of the thread, as a park, trap, yield or eviction does (R107, R33). -/
def State.settleAll (s : State) (t : Nat) : State :=
  let l := (s.thr t).pend
  let s := s.applyPend t l
  s.modThr t fun x => { x with pend := [] }

/-- Track a result (R104): its number, and the state. Values that are known wait for their return. -/
def State.track (s : State) (t : Nat) (regs : List Res) (vals : Option (List Word)) (within : Option Nat) : Nat × State :=
  let (i, s) := s.take
  let due := within.map fun w => s.cycle + w
  (i, { s with results := SMap.put s.results i { thread := t, regs := regs, vals := vals, due := due, load := none } })

/-- Track a result whose values are known. -/
def State.trackVals (s : State) (t : Nat) (ws : List (Res × Word)) (within : Option Nat) : State :=
  if ws.isEmpty then s else (s.track t (ws.map Prod.fst) (some (ws.map Prod.snd)) within).2

/-- The producer has the values of a tracked result. A result that was discarded takes none (R134). -/
def State.deliver (s : State) (r : Nat) (vals : List Word) : State :=
  { s with results := SMap.modify s.results r fun x => { x with vals := some vals } }

/-- Deliver to a result if there is one. -/
def State.deliverOpt (s : State) (r : Option Nat) (vals : List Word) : State :=
  match r with
  | some r => s.deliver r vals
  | none => s

/-- Write a tracked result whose values are known, clearing its entry (R104, R105). -/
def State.returnResult (s : State) (r : Nat) : State :=
  match SMap.get? s.results r with
  | none => s
  | some x =>
    match x.vals with
    | none => s
    | some vs =>
      let s := s.modThr x.thread fun y => { y with pend := y.pend.filter fun p => !x.regs.contains p.res }
      let s := s.putAll x.thread (x.regs.zip vs)
      { s with results := SMap.del s.results r }

/-- Registers of a thread with a tracked result outstanding (R104). -/
def State.tracked (s : State) (t : Nat) : List Res :=
  (SMap.vals s.results).flatMap fun x => if x.thread = t then x.regs else []

/-- Return the results of a thread that R470 says are written by now. -/
def State.returnDue (s : State) (t : Nat) : State :=
  (SMap.keys s.results).foldl (fun s r =>
    match SMap.get? s.results r with
    | some x => if x.thread = t && (match x.due with
        | some d => decide (d ≤ s.cycle)
        | none => false) then s.returnResult r else s
    | none => s) s

/-- Numbers of the threads of a gang, in ascending lane order. -/
def State.gangThreads (s : State) (g : Nat) : List Nat :=
  (List.range 32).filterMap fun lane => (SMap.find s.threads fun _ x => x.gang == g && x.lane == lane).map Prod.fst

/-- The thread that a position of a gang holds, split lanes included (R376); a sub-gang has its own lanes only. -/
def State.posThread (s : State) (g pos : Nat) : Option Nat :=
  (SMap.find s.threads fun _ x => (x.home == g || x.gang == g) && x.lane == pos).map Prod.fst

/-- Threads of a crew. -/
def State.crewThreads (s : State) (c : Nat) : List Nat := SMap.keys (SMap.keep s.threads fun _ x => x.crew == c)

/-- Live threads of a crew, those pending in a bin included (R27). -/
def State.liveThreads (s : State) (c : Nat) : List Nat :=
  SMap.keys (SMap.keep s.threads fun _ x => x.crew == c && x.live)

/-- Threads of a crew that hold a thread slot: live and not pending in a bin (R215). -/
def State.slotted (s : State) (c : Nat) : List Nat :=
  SMap.keys (SMap.keep s.threads fun _ x => x.crew == c && x.live && x.gang != 0)

/-- Free thread slots of a crew, lowest first (R215). -/
def State.freeSlots (s : State) (c : Nat) : List Nat :=
  let used := (s.slotted c).map fun t => (s.thr t).tid
  (List.range (s.crewAt c).threads).filter fun i => !used.contains i

/-- Whether all the threads of a bin could launch at once (R215). -/
def State.binFits (s : State) (b : Bin) : Bool :=
  !b.threads.isEmpty && decide (b.threads.length ≤ (s.freeSlots b.crew).length)

/-- Crews of a launch, in `%crew` order of their creation. -/
def State.launchCrews (s : State) (l : Nat) : List Nat := SMap.keys (SMap.keep s.crews fun _ x => x.launch == l)

/-- Where a lane stands as a member of gang `g` (R198, R253): a lane split from it stands at EPC (R376). -/
def State.posPc (s : State) (g t : Nat) : DWord :=
  let x := s.thr t
  if x.gang ≠ g && x.inHandler then x.epc else x.pc

/-- A mask of 32 positions. -/
def laneMask (lanes : List Nat) : Word := BitVec.ofNat 32 (maskOf lanes)

/-- The current tick as a number. -/
def State.now (s : State) : Nat := s.rtime.toNat

/-- Park a thread: its fixed-latency results complete before it issues again (R107). -/
def State.setPark (s : State) (t : Nat) (p : Park) : State :=
  (s.settleAll t).modThr t fun x => { x with park := some p }

/-- A crew's own core and its cluster's gallery (R42, R206): the core of position `pos` of the crew's gallery. -/
def galleryCore (core pos : Nat) : Nat := core / 4 * 4 + pos

/-- A crew of the same cluster at a gallery position (R206).
(DESIGN CHOICE, log 94: unsafe.) -/
def State.clusterCrew (s : State) (c pos : Nat) : Option Nat :=
  let me := s.crewAt c
  (SMap.find s.crews fun _ x => x.launch == me.launch && x.cluster == me.cluster && x.status != .ended &&
    x.core == galleryCore me.core pos).map Prod.fst

end Sys2Proof.Machine
end

