-- ==== Sys2Proof/Machine/Plan.lean ====
section
/-! DEFINITION. The reservation calendar and the pool (R338, R355, R357, R358): the plan of a record, the choice of a
grade, reserving a plan, and giving a launch its lot and its crews (R283, R359). Taking a record and replaying a lot (R466)
both use it. -/

namespace Sys2Proof.Machine

/-- A lot that has not ended (R338). -/
def LotStatus.open_ : LotStatus → Bool
  | .pending | .running | .ready => true
  | _ => false

/-- Pool pages a lot's shadow lines use (R337). -/
def Launch.pages (l : Launch) : Nat := ceilDiv l.lines.length 512

/-- Costs of the fallbacks of the enabled queues of a class (R355). -/
def State.fallCost (s : State) (d : Nat) : Nat × Nat :=
  (SMap.vals s.queues).foldl (fun a q => match q.fallRec with
    | some (r, _) => if q.en && q.dclass == d then (a.1 + r.boundc.toNat, a.2 + r.boundb.toNat) else a
    | none => a) (0, 0)

/-- CAPc and CAPb of a class in every epoch (R355); a negative capacity counts as 0. -/
def State.capacity (s : State) (d : Nat) : Nat × Nat :=
  let share := s.dev.dshare.getD (d - 1) 0
  let fb := s.fallCost d
  (3145728 * share / 100 - fb.1, 314572800 * share / 100 - fb.2)

/-- What is left of an epoch's capacities for a class (R357). -/
def State.freeIn (s : State) (d k : Nat) : Nat × Nat :=
  let r := SMap.getD s.calendar (k * 8 + d) (0, 0)
  ((s.capacity d).1 - r.1, (s.capacity d).2 - r.2)

/-- The loop of R357 from an epoch on. Amounts are parts of `unit` = Cc × max(Cb, 1), so that every quotient of the rule is
exact; `fuel` is the number of epochs. -/
def State.planFrom (s : State) (d w cc cb unit : Nat) : Nat → Nat → Nat → Option (List (Nat × Nat))
  | fuel, k, left =>
    if left = 0 then some []
    else match fuel with
    | 0 => none
    | f + 1 =>
      let free := s.freeIn d k
      let m := max cb 1
      let x := min left (min (w * 24576 * m) (free.1 * m))
      let x := if cb = 0 then x else min x (free.2 * cc)
      if x = 0 then State.planFrom s d w cc cb unit f (k + 1) left
      else match State.planFrom s d w cc cb unit f (k + 1) (left - x) with
        | some p => some ((k, x) :: p)
        | none => none

/-- Epochs after which a plan is complete if it ever is (R358): behind the last epoch that holds a reservation, every
epoch takes the same amount. -/
def State.planSpan (s : State) (d w cc cb ks : Nat) : Nat :=
  let cap := s.capacity d
  let per := min (w * 24576 * max cb 1) (if cb = 0 then cap.1 else min (cap.1 * cb) (cap.2 * cc))
  if per = 0 then 0 else (maxList ((SMap.keys s.calendar).map fun k => k / 8 + 1) - ks) + cc * max cb 1 / per + 1

/-- The plan of R357 for a grade within `epochs` epochs from `ks`, in core-cycles and bytes per epoch. -/
def State.plan (s : State) (d : Nat) (r : LRec) (ks epochs : Nat) : Option (List (Nat × Nat × Nat)) :=
  let cc := r.boundc.toNat
  let cb := r.boundb.toNat
  let w := min r.ncrew 128
  let unit := cc * max cb 1
  let n := min epochs (s.planSpan d w cc cb ks)
  (s.planFrom d w cc cb unit n ks unit).map fun p =>
    p.map fun e => (e.1, ceilDiv (e.2 * cc) unit, if cb = 0 then 0 else ceilDiv (e.2 * cb) unit)

/-- Shadow pages that lots hold of the pool (R338): the quota of an admitted lot, and what a committed one has still to
fold. -/
def State.pagesHeld (s : State) : Nat :=
  sumList ((SMap.vals s.launches).map fun x =>
    if x.lot ≠ 0 && x.status.open_ then x.lrec.quota
    else if x.status = .committed then x.pages else 0)

/-- Whether a quota fits in the pool's unreserved pages (R338). -/
def State.poolFits (s : State) (quota : Nat) : Bool := decide (s.pagesHeld + quota ≤ s.dev.poolPages)

/-- The lowest free lot slot (R338). -/
def State.freeSlot (s : State) : Option Nat :=
  (List.range 256).find? fun i => (SMap.vals s.launches).all fun x => x.lot = 0 || !x.status.open_ || x.slot != i

/-- The first epoch that a record may use (R357). -/
def State.firstEpoch (s : State) (r : LRec) (last : Nat) : Nat :=
  let ks := ceilDiv (s.now + 2048) 1024
  if r.waitPrev then max ks (1 + last) else ks

/-- How a record is decided (R357, R358). -/
inductive Decision
  | accept (grade slot : Nat) (plan : List (Nat × Nat × Nat))
  | reject (earliest : DWord)

/-- The earliest deadline of a rejected record (R358). -/
def State.earliest (s : State) (d : Nat) (r : LRec) (ks : Nat) : DWord :=
  match s.plan d r ks (s.planSpan d (min r.ncrew 128) r.boundc.toNat r.boundb.toNat ks) with
  | some p => BitVec.ofNat 64 (1024 * (maxList (p.map Prod.fst) + 1) + 1024)
  | none => 0xFFFFFFFFFFFFFFFF

/-- Try the grades in order (R357); the last one gives the earliest deadline of a rejection (R358). -/
def State.tryGrades (s : State) (d ks epochs : Nat) : Nat → List LRec → LRec → Decision
  | _, [], last => .reject (s.earliest d last ks)
  | g, r :: rs, _ =>
    match s.plan d r ks epochs, s.freeSlot with
    | some p, some slot => if s.poolFits r.quota then .accept g slot p else s.tryGrades d ks epochs (g + 1) rs r
    | _, _ => s.tryGrades d ks epochs (g + 1) rs r

/-- The next lot number; 0 is never given (R283). -/
def State.lotNumber (s : State) : Word × State :=
  let n := if s.nextLot + 1 = 0 then 1 else s.nextLot + 1
  (n, { s with nextLot := n })

/-- The crews of a launch as it is admitted (R24, R25): all wait for placement. -/
def State.makeCrews (s : State) (l : Nat) : Nat → Nat → State
  | _, 0 => s
  | i, n + 1 =>
    let x := s.launchAt l
    let (c, s) := s.take
    let crew : Crew :=
      { Crew.zero with
        launch := l, idx := i, cluster := i / x.lrec.perCluster, threads := x.lrec.threads, nreg := x.lrec.nreg,
        sSize := x.lrec.scratch, handler := x.lrec.handler,
        chutes := (List.range 16).map fun k => { Chute.zero with cap := x.ext.chutes.getD k 0 } }
    State.makeCrews { s with crews := SMap.put s.crews c crew } l (i + 1) n

/-- Admit a launch with a lot slot (R283, R338, R359). -/
def State.admitLot (s : State) (l slot : Nat) : State :=
  let (lot, s) := s.lotNumber
  let (n, s) := s.take
  let s := s.modLaunch l fun x => { x with lot := lot, slot := slot, status := .running, admittedAt := n }
  { s with waiting := s.waiting.filter (· ≠ l) }.makeCrews l 0 (s.launchAt l).lrec.ncrew

/-- Reserve an accepted plan (R357). -/
def State.reserve (s : State) (l d : Nat) (plan : List (Nat × Nat × Nat)) : State :=
  let cal := plan.foldl (fun m e =>
    let v := SMap.getD m (e.1 * 8 + d) (0, 0)
    SMap.put m (e.1 * 8 + d) (v.1 + e.2.1, v.2 + e.2.2)) s.calendar
  { s with calendar := cal }.modLaunch l fun x => { x with resv := plan }

end Sys2Proof.Machine
end

