-- ==== Sys2Proof/Machine/Lots.lean ====
section
/-! DEFINITION. Residency batches, completion entries, and how lots and crews end: readiness, aborts, replay, charges and
cuts (R283 to R286, R349, R350, R356, R361, R375). Meanings and the taking of faults call these. -/

namespace Sys2Proof.Machine

/-- Fault ring of a die (R392). -/
def State.ringAt (s : State) (die : Nat) : FRing := SMap.getD s.dev.rings die FRing.reset

def State.modRing (s : State) (die : Nat) (f : FRing → FRing) : State :=
  s.modDev fun d => { d with rings := SMap.put d.rings die (f (SMap.getD d.rings die FRing.reset)) }

/-- One fault-ring entry (R392). -/
def ringEntry (b : Batch) (index : Nat) (e : Nat × Nat × Nat × Nat) : List Byte :=
  let last := if index + 1 = b.entries.length then 0x80 else 0
  bytesOf 8 (e.1 * 65536) ++ bytesOf 4 e.2.1 ++ bytesOf 1 e.2.2.1 ++ bytesOf 1 (index + last) ++ bytesOf 2 b.num ++
  bytesOf 4 e.2.2.2 ++ bytesOf 1 b.die ++ bytesOf 3 0 ++ bytesOf 8 b.first

/-- Write a batch's entries into the ring, from a tail count (R392). -/
def writeRing (m : Memory) (base log : Nat) (b : Batch) : Nat → Nat → List (Nat × Nat × Nat × Nat) → Memory
  | _, _, [] => m
  | tail, i, e :: es =>
    writeRing (m.writeN (locHost (base + 32 * (tail % 2 ^ log))) (ringEntry b i e)) base log b (tail + 1) (i + 1) es

/-- Change one batch of a list. -/
def modBatch (l : List Batch) (die num : Nat) (f : Batch → Batch) : List Batch :=
  l.map fun x => if x.die = die ∧ x.num = num then f x else x

/-- Write the closed batches of a die that fit, in order; the first that does not fit holds the others (R392). -/
def State.writeBatches (s : State) (die : Nat) : List Batch → State
  | [] => s
  | b :: bs =>
    if b.die != die || !b.sent || b.written then State.writeBatches s die bs
    else
      let r := s.ringAt die
      let used := (r.tail - r.head).toNat
      if r.en && decide (used + b.entries.length ≤ 2 ^ r.log) then
        let s := { s with mem := writeRing s.mem r.base.toNat r.log b r.tail.toNat 0 b.entries,
                          
                          batches := modBatch s.batches die b.num fun x => { x with written := true } }
        let s := s.modRing die fun r => { r with tail := r.tail + BitVec.ofNat 32 b.entries.length }
        State.writeBatches (s.raise r.vec) die bs
      else s

/-- Join the residency batch of a die (R375, R392): the batch's number. The 64th page closes it. -/
def State.joinBatch (s : State) (die ctx va : Nat) (acc : Acc) (sp : Sp) : State × Nat :=
  let page := va / 65536
  let code := acc.code + 4 * sp.tag
  match s.batches.find? fun b => b.die == die && !b.sent with
  | some b =>
    let es := if b.entries.any fun e => e.1 == page && e.2.1 == ctx
      then b.entries.map fun e => if e.1 = page ∧ e.2.1 = ctx then (e.1, e.2.1, e.2.2.1, e.2.2.2 + 1) else e
      else b.entries ++ [(page, ctx, code, 1)]
    let b' := { b with entries := es, sent := decide (64 ≤ es.length) }
    let s := { s with batches := modBatch s.batches die b.num fun _ => b' }
    (s.writeBatches die s.batches, b.num)
  | none =>
    let n := (s.ringAt die).nextBatch
    let b : Batch := { die := die, num := n, first := s.now, entries := [(page, ctx, code, 1)], sent := false, written := false }
    let s := s.modRing die fun r => { r with nextBatch := (r.nextBatch + 1) % 65536 }
    ({ s with batches := s.batches ++ [b] }, n)

/-- How an engine's translation ends. -/
inductive EngTr
  | ok (s : State) (loc : Nat) (host peer : Bool)
  | waits (s : State)
  | bad (c : Cause)

/-- Translation for an engine (R290, R388, R392): a replayable miss joins the batch of a die and makes the engine wait
until the host answers; a page that the host refused is XLATE, and a retired line MACHINE_CHECK (R452). -/
def State.engineTr (s : State) (who : Who) (die ctx va : Nat) (sp : Sp) (acc : Acc) : EngTr :=
  match s.engineWait.find? fun w => w.who == who && w.ctx == ctx && w.page == va / 65536 with
  | some w => if w.refused then .bad .xlate else .waits s
  | none =>
    if fieldN va 52 12 ≠ 0 then .bad .access
    else
      match translate s (dieTlb die) ctx va sp acc with
      | .ok loc host peer pte bits =>
        if lineRetired s loc then .bad .machineCheck else .ok (fillTlb s (dieTlb die) ctx va pte bits) loc host peer
      | .miss =>
        let (s, n) := s.joinBatch die ctx va acc sp
        let w : Waiter := { die := die, batch := n, ctx := ctx, page := va / 65536, who := who, refused := false }
        .waits { s with engineWait := s.engineWait ++ [w] }
      | .bad c => .bad c

/-- An engine waits for nothing any more. -/
def State.dropWaits (s : State) (who : Who) : State := { s with engineWait := s.engineWait.filter fun w => w.who ≠ who }

/-- Whether HBM may be written and the fabric used (R445). A checkpoint of a contained device leaves them closed.
(DEDUCED, log 67: unsafe.) -/
def State.writesOpen (s : State) : Bool :=
  match s.dev.dstate with
  | .ready => true
  | .checkpoint | .restore => s.dev.mbox.running.any fun c => c.came == .ready
  | _ => false

/-- Whether a byte of a lot's shadow (`glob`) or of a location may be written in the device's state: host memory always, and
HBM and peers where the device state lets them be (R445). -/
def State.mayWrite (s : State) (glob : Bool) (loc : Nat) : Bool :=
  s.writesOpen || (!glob && decide (2 ^ 60 ≤ loc) && decide (loc < 2 ^ 64))

/-- The peer and the address there of a location of a peer's memory (R387). -/
def peerOf (loc : Nat) : Option (Nat × Nat) :=
  if 2 ^ 64 ≤ loc ∧ loc < 2 ^ 80 then some ((loc - 2 ^ 64) / 2 ^ 52, (loc - 2 ^ 64) % 2 ^ 52) else none

/-- Virtual channel of a launch's requests (R425, R430): VC2 with a deadline class, else VC0.
(DEDUCED, log 78: safe.) -/
def State.vcOf (s : State) (l : Nat) : Nat := if (s.launchAt l).dclass = 0 then 0 else 2

/-- An access to a peer's memory goes out on the port of its route (R426). -/
def State.peerSend (s : State) (l loc : Nat) (req : Nat → FabReq) : State :=
  match peerOf loc with
  | none => s
  | some (dev, addr) =>
    match s.portFor dev with
    | some p => s.send (.fabric p (s.vcOf l) dev (req addr))
    | none => s

/-- How a write that the device makes through a context's page table ends. -/
inductive DevWrite
  | done (s : State)
  | waits (s : State)
  | bad (c : Cause)

/-- A D-space write at system scope by the scheduler or an engine for a launch (R350, R218): all its bytes lie in one page. It waits
while the device's state lets HBM or the fabric not be written (R445), and one to a peer's memory goes out on its port (R426). -/
def State.devWriteFor (s : State) (l : Nat) (who : Who) (die ctx va : Nat) (bytes : List Byte) : DevWrite :=
  match s.engineTr who die ctx va .D .write with
  | .ok s loc _ _ =>
    if !s.mayWrite false loc then .waits s
    else .done ({ s with mem := s.mem.writeN loc bytes }.peerSend l loc fun a => .write a bytes)
  | .waits s => .waits s
  | .bad c => .bad c

/-- A D-space write by the scheduler for no launch. -/
def State.devWrite (s : State) (who : Who) (die ctx va : Nat) (bytes : List Byte) : DevWrite := s.devWriteFor 0 who die ctx va bytes

/-- The bytes of a completion entry (R349). -/
def cplBytes (e : CplEntry) (phase : Nat) : List Byte :=
  bytesOf 4 e.lot.toNat ++ bytesOf 1 e.status ++ bytesOf 1 e.cause ++ bytesOf 1 e.code ++
  bytesOf 1 (e.attempt % 128 + 128 * phase) ++ bytesOf 4 e.ticket ++ bytesOf 1 e.grade ++
  bytesOf 1 (e.kind + (if e.fallback then 4 else 0)) ++ bytesOf 2 0 ++ bytesOf 8 e.time.toNat ++ bytesOf 8 e.spent.toNat

/-- Entries written less entries consumed (R350). -/
def Queue.cplUsed (q : Queue) : Nat := (q.ctail - q.chead).toNat

/-- QSTAT.CPLFULL (R346, R350). -/
def Queue.cplFull (q : Queue) : Bool := q.cplUsed == 2 ^ q.cpllog

/-- Write the held entries of a queue in order while there is room and writes succeed (R350). -/
def State.flushEntries (s : State) (qi : Nat) : List CplEntry → State
  | [] => s.modQueue qi fun q => { q with held := [] }
  | e :: es =>
    let q := s.queueAt qi
    let stop (s : State) : State := s.modQueue qi fun q => { q with held := e :: es }
    if q.cplFull || q.cplerr then stop s
    else
      let n := q.ctail.toNat
      let va := q.cpl.toNat + 32 * (n % 2 ^ q.cpllog)
      match s.devWrite (.cpl qi) 0 q.ctx va (cplBytes e ((n / 2 ^ q.cpllog + 1) % 2)) with
      | .done s => State.flushEntries (s.modQueue qi fun q => { q with ctail := q.ctail + 1 }) qi es
      | .waits s => stop s
      | .bad _ => (stop ((s.dropWaits (.cpl qi)).modQueue qi fun q => { q with cplerr := true })).raiseCtx q.ctx false

/-- Post a completion entry to a queue (R349, R350). -/
def State.postEntry (s : State) (qi : Nat) (e : CplEntry) : State :=
  let held := (s.queueAt qi).held ++ [e]
  s.flushEntries qi held

/-- The charge in whole core-cycles (R356 SPENT); `charge` counts sixteenths. -/
def Launch.spent (l : Launch) : DWord := BitVec.ofNat 64 (l.charge / 16)

/-- The completion entry of a lot's end (R285, R349). -/
def State.lotEntry (s : State) (l : Launch) (status cause code : Nat) : CplEntry :=
  { lot := l.lot, status := status, cause := cause, code := code, attempt := l.attempt, ticket := l.ticket,
    grade := l.grade, kind := 0, fallback := l.fallback, time := s.rtime, spent := l.spent }

/-- The history of ended lots that LOTQ reads: the last 1,024 of a context (R288). A launch that was never admitted has no lot. -/
def State.remember (s : State) (l : Launch) (status : Nat) : State :=
  if l.lot = 0 then s else s.modCtx l.ctx fun c => { c with history := ((l.lot, status) :: c.history).take 1024 }

/-- Return a launch's reservations in epochs that have not begun (R361).
(DEDUCED, log 41: unsafe.) -/
def State.returnResv (s : State) (l : Nat) : State :=
  let x := s.launchAt l
  let k := s.now / 1024
  let cal := x.resv.foldl (fun m r =>
    if r.1 > k then
      let key := r.1 * 8 + x.dclass
      let v := SMap.getD m key (0, 0)
      SMap.put m key (v.1 - r.2.1, v.2 - r.2.2)
    else m) s.calendar
  { s with calendar := cal }.modLaunch l fun x => { x with resv := x.resv.filter fun r => decide (r.1 ≤ k) }

/-- Complete the status of an engine operation to its register, if it has one (R273, R274). -/
def statusWord (code version : Nat) : Word := BitVec.ofNat 32 (2 ^ 31 + code * 2 ^ 24 + version)

/-- An operation's outcome is fixed; ENGINE_COMPLETION then delivers it. -/
def State.finishEop (s : State) (o : Nat) (code version : Nat) : State :=
  { s with eops := SMap.modify s.eops o fun x => { x with outcome := some (code, version), applied := true, undelivered := [] } }

/-- Engine operations that a deferred DFLIP names are dropped at an abort (R299). -/
def State.dropDeferred (s : State) : List Deferred → State
  | [] => s
  | .flip o :: rest => State.dropDeferred (s.finishEop o 0x0E 0) rest
  | _ :: rest => State.dropDeferred s rest

/-- Every crew of a launch ends and none of its threads issues again (R27, R286, R377).
(DESIGN CHOICE, log 112: unsafe.) -/
def State.stopLaunch (s : State) (l : Nat) : State :=
  let crews := s.launchCrews l
  let dead (t : Nat) : Bool := crews.contains (s.thr t).crew
  { s with
    crews := SMap.mapVals (fun _ c => if c.launch = l then { c with status := .ended, halted := false } else c) s.crews,
    absent := s.absent.filter fun ln => (SMap.vals s.crews).all fun c => c.launch != l ||
      (c.status != .resident && c.status != .saving) || decide (ln < locScratch c.core c.sBase / 128) ||
      decide (locScratch c.core (c.sBase + c.sSize) / 128 ≤ ln),
    threads := SMap.mapVals (fun _ t => if crews.contains t.crew then { t with live := false, park := none } else t) s.threads,
    results := SMap.keep s.results fun _ r => !dead r.thread,
    bins := SMap.keep s.bins fun _ b => !crews.contains b.crew,
    creations := SMap.keep s.creations fun _ c => c.launch != l,
    elems := SMap.keep s.elems fun _ e => e.launch != l,
    stores := SMap.keep s.stores fun _ st => !(st.launch == l && st.glob),
    buffers := SMap.mapVals (fun _ b => b.filter fun i => (SMap.get? s.stores i).any fun st => !(st.launch == l && st.glob)) s.buffers }

/-- Statuses that a queue's replay count re-submits (R285). -/
def replayable (status : Nat) : Bool := status == 0x02 || status == 0x03 || status == 0x06

/-- Whether one ticket of a queue comes before another: tickets count modulo 2^32, and those in use together lie close
(R348).
(DEDUCED, log 41: unsafe.) -/
def ticketBefore (a b : Nat) : Bool := a != b && decide ((b + 2 ^ 32 - a) % 2 ^ 32 < 2 ^ 31)

/-- Whether a lot that is ready waits for no earlier record of its own queue (R283). -/
def State.freeToCommit (s : State) (l : Nat) : Bool :=
  let x := s.launchAt l
  x.lrec.indep || s.launches.all fun kv => kv.1 == l || kv.2.queue != x.queue || kv.2.lrec.indep || !kv.2.status.open_ ||
    ticketBefore x.ticket kv.2.ticket

/-- Ready lots that have become free to commit take their places at the sequencer (R283). -/
def State.arriveAll (s : State) : State :=
  (SMap.keys s.launches).foldl (fun s l =>
    let x := s.launchAt l
    if x.status = .ready && x.arrival.isNone && s.freeToCommit l then
      let (n, s) := s.take
      s.modLaunch l fun y => { y with arrival := some n }
    else s) s

/-- An extension block whose tables and render descriptor are to be read anew (R464, R471). -/
def ExtRec.unread (e : ExtRec) : ExtRec := { e with rdesc := none }

/-- The next attempt of a launch, before it is admitted (R285, R286, R464): a fresh lot of the same record and extension block,
which reads its tables and its render descriptor anew. -/
def Launch.again (x : Launch) : Launch :=
  { x with
    ext := x.ext.unread, status := .pending, attempt := x.attempt + 1, shadow := [], lines := [], deferred := [], reserved := 0, charge := 0,
    chargeB := 0, started := none, draw := none, lot := 0, admittedAt := 0, arrival := none }

/-- A replay has a plan that ends in an epoch (R357, R466): a later record of its queue with WAITPREV that comes next after it
starts behind that epoch. -/
def State.replanned (s : State) (x : Launch) (epoch : Nat) : State :=
  let later := (SMap.vals s.launches).filter fun y => y.queue == x.queue && ticketBefore x.ticket y.ticket
  match later.find? fun y => later.all fun z => z.ticket == y.ticket || ticketBefore y.ticket z.ticket with
  | none => s.modQueue x.queue fun q => { q with lastEpoch := epoch }
  | some y => { s with launches := SMap.mapVals (fun _ z =>
      if z.queue = x.queue ∧ z.ticket = y.ticket then { z with prevEpoch := epoch } else z) s.launches }

/-- How a replay is decided (R466): a launch of a queue with DCLASS = 0 goes to the front of its queue's admission order
(R465); one of a deadline class is decided anew under R357 against the record's own DEADLINE, and is admitted at once or,
where no grade is accepted, not run (`none`).
(DEDUCED, log 41: unsafe.) -/
def State.replayLot (s : State) (x : Launch) : Option State :=
  if x.dclass = 0 then
    let (n, s) := s.take
    some ({ s with launches := SMap.put s.launches n x.again, waiting := n :: s.waiting }.modQueue x.queue fun q =>
      { q with blocked := true })
  else
    let own := x.recs.headD x.lrec
    let ks := s.firstEpoch own x.prevEpoch
    match s.tryGrades x.dclass ks ((own.deadline.toNat - 1024) / 1024 - ks) 0 x.recs own with
    | .reject _ => none
    | .accept g slot plan =>
      let (n, s) := s.take
      let s := { s with launches := SMap.put s.launches n { x.again with lrec := x.recs.getD g own, grade := g } }
      let s := s.replanned x (maxList (plan.map Prod.fst))
      some ((s.reserve n x.dclass plan).admitLot n slot)

/-- Whether an engine operation of a launch is still in flight: an engine's, an INFER or a matrix queue's (R283, R286). -/
def State.enginesBusy (s : State) (l : Nat) : Bool :=
  (SMap.vals s.eops).any (fun o => o.launch == l && (match o.kind with
    | .dflip _ _ _ _ => false
    | _ => true)) ||
  (SMap.vals s.infers).any (fun i => i.launch == l) ||
  (SMap.vals s.pairs).any fun p => p.queue.any fun e => e.launch == l

/-- After a cut the fallback is to run (R362). -/
def State.wantFallback (s : State) (x : Launch) (status : Nat) : State :=
  if status = 0x05 && !x.fallback && (s.queueAt x.queue).fallRec.isSome then
    s.modQueue x.queue fun q => { q with fallWant := q.fallWant ++ [(s.rtime + 3072, x.ticket)] }
  else s

/-- The completion entry of a lot that is not run again is written (R285, R349). -/
def State.writeEnd (s : State) (l status cause code : Nat) : State :=
  let x := s.launchAt l
  (s.modLaunch l fun x => { x with ending := none }).postEntry x.queue (s.lotEntry x status cause code)

/-- The end of a lot that is not run again: its completion entry is written, now or once its engine operations still in
flight have completed (R286). -/
def State.endLot (s : State) (l status cause code : Nat) : State :=
  if s.enginesBusy l then s.modLaunch l fun x => { x with ending := some (status, cause, code) } else s.writeEnd l status cause code

/-- A launch waits for admission no more (R346, R359): its queue is blocked while another of its launches waits, or while the
record at its head does. -/
def State.unwait (s : State) (l : Nat) : State :=
  if !s.waiting.contains l then s
  else
    let s := { s with waiting := s.waiting.filter (· ≠ l) }
    let q := (s.launchAt l).queue
    s.modQueue q fun x => { x with blocked := s.waiting.any fun k => (s.launchAt k).queue == q }

/-- A lot ends without committing (R286): shadow and deferred words are discarded, its crews stop, its pages return, a cut
returns its reservations (R361), and it is replayed or its completion entry is written (R285, R466).
(DEDUCED, log 41: unsafe.) -/
def State.abortLot (s : State) (l status cause code : Nat) (replay : Bool) : State :=
  let x := s.launchAt l
  if !x.status.open_ then s
  else
    let s := if status = 0x05 then s.returnResv l else s
    let s := (s.dropDeferred x.deferred).stopLaunch l
    let s := s.modLaunch l fun x =>
      { x with status := .aborted status cause code, shadow := [], lines := [], reserved := 0, deferred := [], draw := none }
    let s := s.remember x status
    let s := s.unwait l
    let s := if status = 0x03 then s.count 10 else s
    if replay && replayable status && decide (x.attempt ≤ (s.queueAt x.queue).replay) then
      match s.replayLot x with
      | some s => s.arriveAll
      | none => (s.endLot l status cause code).arriveAll
    else ((s.endLot l status cause code).arriveAll).wantFallback x status

/-- Everything a launch's threads and engines started has been performed (R283, R316). -/
def State.quiet (s : State) (l : Nat) : Bool :=
  (SMap.vals s.crews).all (fun c => c.launch != l || c.status == .ended) &&
  !s.enginesBusy l &&
  (SMap.vals s.stores).all (fun st => st.launch != l) &&
  (SMap.vals s.rmws).all (fun r => r.launch != l)

/-- All ones: no bound (R351). -/
def unbounded (d : DWord) : Bool := d == 0xFFFFFFFFFFFFFFFF

/-- Whether a launch is to be cut at its deadline (R361): one of a deadline class at D − 1,024 unless it is ready by then, one
of class 0 at D.
(DEDUCED, log 45: unsafe.) -/
def Launch.overdue (x : Launch) (now : Nat) : Bool :=
  let d := x.lrec.deadline.toNat
  !unbounded x.lrec.deadline && x.status.open_ &&
  (if x.dclass = 0 then decide (d ≤ now) else x.status != .ready && decide (d ≤ now + 1024))

/-- A running lot becomes ready to commit when R283's conditions first hold, unless its deadline has been reached (R361); the
completion entry of one that has aborted is written when its engine operations have completed (R286).
(DEDUCED, log 45: unsafe.) -/
def State.checkReady (s : State) (l : Nat) : State :=
  let x := s.launchAt l
  match x.ending with
  | some (status, cause, code) => s.endLot l status cause code
  | none =>
  if x.status = .running && !x.overdue s.now && s.quiet l && (SMap.vals s.crews).any (fun c => c.launch == l) then
    (s.modLaunch l fun x => { x with status := .ready }).arriveAll
  else s

/-- A crew ends when its last thread has exited (R27); its lines are present for the next allocation (R39). The crews of
a draw end with the draw (R414). -/
def State.checkCrewEnd (s : State) (c : Nat) : State :=
  let x := s.crewAt c
  if x.status = .resident && (s.launchAt x.launch).draw.isNone && (s.liveThreads c).isEmpty then
    let lo := locScratch x.core x.sBase / 128
    let hi := locScratch x.core (x.sBase + x.sSize) / 128
    let s := s.modCrew c fun y => { y with status := .ended, halted := false }
    let s := { s with absent := s.absent.filter fun ln => decide (ln < lo) || decide (hi ≤ ln),
                      bins := SMap.keep s.bins fun _ b => b.crew != c }
    s.checkReady x.launch
  else s

/-- Charge sixteenths of a core-cycle, and cut a launch that passes its bound (R356, R361). -/
def State.chargeC (s : State) (l n : Nat) : State :=
  let s := s.modLaunch l fun x => { x with charge := x.charge + n }
  let x := s.launchAt l
  if x.status.open_ && !unbounded x.lrec.boundc && decide (x.charge > 16 * x.lrec.boundc.toNat)
  then s.abortLot l 0x05 0 0 false else s

/-- Charge bytes, and cut a launch that passes its bound (R356, R361). -/
def State.chargeBytes (s : State) (l n : Nat) : State :=
  let s := s.modLaunch l fun x => { x with chargeB := x.chargeB + n }
  let x := s.launchAt l
  if x.status.open_ && !unbounded x.lrec.boundb && decide (x.chargeB > x.lrec.boundb.toNat)
  then s.abortLot l 0x05 0 0 false else s

/-- The whole crew halts for the debugger and its stop waits to be recorded (R397, R398). -/
def State.haltCrew (s : State) (c : Nat) (st : Stop) : State :=
  let s := s.modCrew c fun x => { x with halted := true, haltAsked := false, stepping := none }
  s.modCtx (s.launchAt (s.crewAt c).launch).ctx fun x => { x with stops := x.stops ++ [st] }

end Sys2Proof.Machine
end

