-- ==== Sys2Proof/Machine/Ops.lean ====
section
/-! DEFINITION. The operations that instructions share: checking a branch target, taking a fault, entering a handler and
returning from it, the conditions that hold a lane at its word, and running a word in the lanes of an issue (R21, R98,
R100, R130, R295, R296, R376, R377). -/

namespace Sys2Proof.Machine

/-- Where a fetch of a context goes (R101): a word in a retired line is a MACHINE_CHECK (R452). -/
def State.fetchAt (s : State) (core ctx : Nat) (addr : DWord) : Tr :=
  match translate s core ctx addr.toNat .code .fetch with
  | .ok loc host peer pte bits => if lineRetired s loc then .bad .machineCheck else .ok loc host peer pte bits
  | r => r

/-- KIND of the word at an address, where the address can be fetched (R85, R100). -/
def State.kindAt (s : State) (core ctx : Nat) (addr : DWord) : Option Nat :=
  match s.fetchAt core ctx addr with
  | .ok loc _ _ _ _ => some (fieldN (s.mem.read (loc + 15)).toNat 6 2)
  | _ => none

/-- The check of a target that an instruction sets a lane's pc to (R100, R130): a cause with its EADDR (R377). A target
that cannot be fetched is not known to be a continuation word; its own fetch faults. -/
def State.checkTarget (s : State) (t : Nat) (target : DWord) : Option (Cause × DWord) :=
  if fieldN target.toNat 52 12 ≠ 0 then some (.access, 0)
  else if fieldN target.toNat 0 4 ≠ 0 then some (.targetAlign, target)
  else if s.kindAt (s.coreOf t) (s.ctxIdOf t) target = some 3 then some (.targetCont, target)
  else none

/-- Who takes a cause (R296). -/
inductive Taker | abortMchk | abortFault | debuggerElseHandler | debuggerOnly | handler
  deriving DecidableEq, Repr

def Cause.taker : Cause → Taker
  | .machineCheck => .abortMchk
  | .shadowQuota => .abortFault
  | .haltReq | .step => .debuggerOnly
  | .watch _ | .brk => .debuggerElseHandler
  | _ => .handler

/-- The lowest code among faulting lanes (R295, R296). -/
def lowestCause : List (Nat × Cause × DWord) → Cause → Cause
  | [], c => c
  | (_, c', _) :: rest, c => lowestCause rest (if c'.code < c.code then c' else c)

/-- The stop record of a debugger cause (R398).
(DEDUCED, log 73: unsafe.) -/
def State.stopOf (s : State) (c : Nat) (code index brkn : Nat) (lanes : List Nat) (ea : DWord) : Stop :=
  let x := s.crewAt c
  let t := lanes.headD 0
  { cause := code, index := index, brkn := brkn, lot := (s.launchAt x.launch).lot, crew := x.idx, pc := (s.thr t).pc,
    eaddr := ea, lanes := laneMask (lanes.map fun t => (s.thr t).lane), tid := (s.thr t).tid, crewUid := c,
    threads := lanes }

/-- Lanes that fault leave their gang and form a parked sub-gang of their own (R376, R377).
(DEDUCED, log 80: unsafe.) -/
def State.formSubGang (s : State) (g : Nat) (cause : Nat) (faults : List (Nat × Cause × DWord)) : State :=
  let (n, s) := s.take
  let p := s.gangAt g
  let s := { s with gangs := SMap.put s.gangs n { p with
    formed := n, ready := s.cycle, lastIssue := s.cycle, parent := some g, promoted := false, trapCause := cause,
    trapEas := faults.map fun f => (f.1, f.2.2) } }
  faults.foldl (fun s f => (s.settleAll f.1).modThr f.1 fun x =>
    { x with gang := n, park := some .trapped, refused := [], passOnce := false }) s

/-- TAKING A FAULT (R98, R295, R296, R376): the lanes that faulted in one word, each with its cause and EADDR. Every
faulting lane's pc stays at its word. `index` and `brkn` go to the stop record of a debugger cause; a watchpoint's
index comes with its cause. -/
def State.takeFault (s : State) (g : Nat) (index brkn : Nat) (faults : List (Nat × Cause × DWord)) : State :=
  match faults with
  | [] => s
  | (t0, c0, ea0) :: rest =>
    let cause := lowestCause rest c0
    let crew := (s.thr t0).crew
    let l := (s.crewAt crew).launch
    let attached := (s.ctxAt (s.launchAt l).ctx).dbgAttach
    let index := match cause with
      | .watch n => n
      | _ => index
    let toHandler : State :=
      if (faults.any fun f => (s.thr f.1).inHandler) || (s.crewAt crew).handler = 0 then s.abortLot l 0x01 cause.code 0 false
      else s.formSubGang g cause.code faults
    let halt : State := s.haltCrew crew (s.stopOf crew cause.code index brkn (faults.map Prod.fst) ea0)
    match cause.taker with
    | .abortMchk => s.abortLot l 0x03 0x01 0 true
    | .abortFault => s.abortLot l 0x01 cause.code 0 false
    | .debuggerOnly => if attached then halt else s
    | .debuggerElseHandler => if attached then halt else toHandler
    | .handler => toHandler

/-- The EADDR a parked sub-gang keeps for a lane. -/
def easOf (eas : List (Nat × DWord)) (t : Nat) : DWord :=
  match eas.find? fun e => e.1 == t with
  | some e => e.2
  | none => 0

/-- A lane enters its handler (R295, R377). -/
def Thread.enterHandler (x : Thread) (handler ea : DWord) (cause : Nat) (lanes : Word) : Thread :=
  { x with epc := x.pc, eaddr := ea, elanes := lanes, cause := cause, pc := handler, park := none, inHandler := true,
           viaTransfer := true }

/-- Entry of a parked sub-gang into its handler (R295): EPC, EADDR, ELANES and %cause are set and every lane's pc is
HANDLER; a HANDLER that fails its check or cannot be fetched aborts the lot, and one that is 0 by now is no handler, so that
the lot aborts with the trap's cause (R296, R378). -/
def State.enterHandler (s : State) (g : Nat) : State :=
  let lanes := s.gangThreads g
  let gg := s.gangAt g
  match lanes with
  | [] => s
  | t :: _ =>
    let l := s.launchIdOf t
    let h := (s.crewOf t).handler
    let fail (c : Cause) : State := s.abortLot l 0x01 c.code 0 false
    if h = 0 then s.abortLot l 0x01 gg.trapCause 0 false
    else match s.checkTarget t h with
    | some (c, _) => fail c
    | none =>
      match s.fetchAt (s.coreOf t) (s.ctxIdOf t) h with
      | .bad c => fail c
      | _ =>
        let mask := laneMask (lanes.map fun t => (s.thr t).lane)
        lanes.foldl (fun s t => s.modThr t fun x => x.enterHandler h (easOf gg.trapEas t) gg.trapCause mask) s

/-- A lane returns from its handler to a pc and to the gang it left (R295). -/
def Thread.leaveHandler (x : Thread) (pc : DWord) : Thread :=
  { x with pc := pc, cause := 0, inHandler := false, gang := x.home, viaTransfer := true, passOnce := false }

/-- Where TRET goes (R295): EPC, or past the word there; a head takes its continuation with it. -/
def State.tretTarget (s : State) (t : Nat) (skip : Bool) : DWord :=
  let x := s.thr t
  if !skip then x.epc
  else if s.kindAt (s.coreOf t) (s.ctxIdOf t) x.epc = some 2 then x.epc + 32 else x.epc + 16

/-- How a word ends in one lane. -/
inductive LaneRes
  /-- The lane goes on to the next word. -/
  | done (s : State)
  /-- The lane transfers control (R100). -/
  | jump (s : State) (pc : DWord)
  /-- The lane's pc is already what it must be. -/
  | stay (s : State)
  /-- The lane faults: nothing of the word is kept in it (R98). -/
  | fault (c : Cause) (ea : DWord)
  /-- The lane is held at the word, which issues again when the condition clears. -/
  | park (b : Block)

/-- Move a lane past the word in issue. -/
def State.past (s : State) (t : Nat) : State :=
  let n := s.iss.len
  s.modThr t fun x =>
    { x with pc := x.pc + BitVec.ofNat 64 (16 * n), viaTransfer := false, passOnce := false, refused := [] }

/-- Move a lane to a target (R130). -/
def State.goto_ (s : State) (t : Nat) (pc : DWord) : State :=
  s.modThr t fun x => { x with pc := pc, viaTransfer := true, passOnce := false, refused := [] }

/-- Run a word in the listed lanes, in ascending lane order; the faults are collected (R98). -/
def runLanes (body : State → Nat → LaneRes) :
    List Nat → State → List (Nat × Cause × DWord) → State × List (Nat × Cause × DWord)
  | [], s, fs => (s, fs)
  | t :: ts, s, fs =>
    match body s t with
    | .done s' => runLanes body ts (s'.past t) fs
    | .jump s' pc => runLanes body ts (s'.goto_ t pc) fs
    | .stay s' => runLanes body ts s' fs
    | .fault c ea => runLanes body ts s (fs ++ [(t, c, ea)])
    | .park b => runLanes body ts (s.setPark t (.retry b)) fs

/-- Outcome of an instruction: always a next state. -/
abbrev Out' := Host.Outcome State Fault Refusal

/-- The word in issue has faulted in these lanes. -/
def State.noteFaults (s : State) (n : Nat) : State := { s with iss := { s.iss with faults := [], faulted := n } }

/-- Run the word in issue in its executing lanes and take the faults it raises, with those found before it ran (R21, R98). -/
def forLanes (s : State) (body : State → Nat → LaneRes) : Out' :=
  let r := runLanes body s.iss.lanes s s.iss.faults
  .next ((r.1.noteFaults r.2.length).takeFault s.iss.gang 0xFF 0 r.2)

/-- Every executing lane faults alike. -/
def faultAll (s : State) (c : Cause) : Out' :=
  let fs := s.iss.faults ++ s.iss.lanes.map fun t => (t, c, 0)
  .next ((s.noteFaults fs.length).takeFault s.iss.gang 0xFF 0 fs)

/-- Every executing lane is held at the word. -/
def parkAll (s : State) (b : Block) : Out' :=
  .next (s.iss.lanes.foldl (fun s t => s.setPark t (.retry b)) s)

/-- Permits or tokens a chute can give now (R206). -/
def Chute.free (c : Chute) : Nat := c.cap - c.toks.length - c.held - c.permits

def Crew.chute (c : Crew) (k : Nat) : Chute := c.chutes.getD k Chute.zero

def Crew.setChute (c : Crew) (k : Nat) (f : Chute → Chute) : Crew := { c with chutes := c.chutes.set k (f (c.chute k)) }

/-- A lane parked on a chute waits behind those that parked before it (R207). -/
def State.chuteFirst (s : State) (crew k seq : Nat) (put : Bool) : Bool :=
  (SMap.vals s.threads).all fun x =>
    match x.park with
    | some (.retry (.chutePut c j n)) => !(put && c == crew && j == k && decide (n < seq))
    | some (.retry (.chuteGet c j n)) => !(!put && c == crew && j == k && decide (n < seq))
    | _ => true

/-- Hoist operations outstanding on a core (R403). -/
def State.hoists (s : State) (core : Nat) : Nat :=
  ((SMap.vals s.eops).filter fun o => o.core == core && (match o.kind with
    | .hcopy _ _ _ _ _ | .hlayout _ _ _ _ _ _ _ _ _ _ _ _ _ _ | .hgather _ _ _ _ _ _ | .hscatter _ _ _ _ _ _
    | .hcoll _ _ _ _ _ _ _ _ _ _ _ => true
    | _ => false)).length

/-- Carousel deliveries outstanding on a core (R334). -/
def State.deliveries (s : State) (core : Nat) : Nat :=
  ((SMap.vals s.eops).filter fun o => o.core == core && (match o.kind with
    | .ccatch _ _ => true
    | .calight (some _) _ => true
    | _ => false)).length

/-- Whether a matrix queue entry acts on a tile of its bank. -/
def MEntry.onTile (e : MEntry) (tile : Nat) : Bool :=
  match e.kind with
  | .mma _ _ _ _ n _ _ _ _ _ _ _ _ _ _ => n == tile
  | .mst _ _ _ _ n _ _ _ _ => n == tile
  | .mzero m => testN m tile
  | .mloadb _ _ _ => false

/-- Key of a barrier: level, what owns it (crew, cluster's first crew, launch), and number (R203). -/
def barKey (level owner id : Nat) : Nat := (owner * 4 + level) * 16 + id

/-- Stores that a thread on a core sees before they are performed at the device (R304, R306): those of its gallery, then those
of its core, each in the order in which they were performed there. -/
def State.seen (s : State) (core : Nat) : List Nat :=
  SMap.getD s.buffers (128 + core / 4) [] ++ SMap.getD s.buffers core []

/-- Whether two byte ranges meet. -/
def overlap (a n b m : Nat) : Bool := decide (a < b + m) && decide (b < a + n)

/-- Whether a store touches bytes of a view (R308, same address): one to memory touches them in a lot's view too. -/
def Store.touches (st : Store) (glob : Bool) (loc n : Nat) : Bool := (!st.glob || glob) && overlap st.loc st.data.length loc n

/-- Whether a read-modify-write touches bytes of a view. -/
def Rmw.touches (r : Rmw) (glob : Bool) (loc n : Nat) : Bool := (!r.glob || glob) && overlap r.loc (tyBits r.ty / 8) loc n

/-- Whether the thread's own stores on their way touch bytes. -/
def State.storeOver (s : State) (t : Nat) (glob : Bool) (loc n : Nat) : Bool :=
  (SMap.vals s.stores).any fun st => st.thread == t && st.touches glob loc n

/-- Whether the thread's own read-modify-writes on their way touch bytes. -/
def State.rmwOver (s : State) (t : Nat) (glob : Bool) (loc n : Nat) : Bool :=
  (SMap.vals s.rmws).any fun r => r.thread == t && r.touches glob loc n

/-- Whether stores that a core sees, and the device does not yet, touch bytes. -/
def State.seenOver (s : State) (core : Nat) (glob : Bool) (loc n : Nat) : Bool :=
  (s.seen core).any fun i => (SMap.get? s.stores i).any fun st => st.touches glob loc n

/-- Whether a store on its way comes before a release to these bytes that has been performed (R311). -/
def State.behindRelease (s : State) (loc n : Nat) : Bool :=
  (SMap.vals s.stores).any fun st => st.after.any fun r => overlap r.1 r.2 loc n

/-- Whether the thread's own loads on their way touch bytes, in either view. -/
def State.loadOver (s : State) (t loc n : Nat) : Bool :=
  (SMap.vals s.results).any fun r => r.thread == t && r.load.any fun q => overlap q.loc q.n loc n

/-- Whether a thread has a load on its way. -/
def State.hasLoad (s : State) (t : Nat) : Bool := (SMap.vals s.results).any fun r => r.thread == t && r.load.isSome

/-- Whether a thread has a read-modify-write on its way. -/
def State.hasRmw (s : State) (t : Nat) : Bool := (SMap.vals s.rmws).any fun r => r.thread == t

/-- Whether a thread has nothing on its way that reads: what comes before a release at crew or cluster scope, beside its stores
(R308, R323). -/
def State.hasRead (s : State) (t : Nat) : Bool := s.hasRmw t || s.hasLoad t

/-- Whether everything that a thread has done or seen is performed at the device: its own loads, stores and read-modify-writes,
and the stores of its core and gallery that it sees (R309, R312). -/
def State.flushed (s : State) (t : Nat) : Bool :=
  (SMap.vals s.stores).all (fun x => x.thread != t) && !s.hasRead t && (s.seen (s.coreOf t)).isEmpty

/-- Whether an access to bytes that is performed at issue has what it must come after (R307, R308, R323): the thread's own
loads, stores and read-modify-writes to them, for an acquire the stores to them that its core sees early, and for a `.remote` access what comes before a release to
them (R311). -/
def State.bytesClear (s : State) (t : Nat) (glob : Bool) (loc n : Nat) (acquire remote : Bool) : Bool :=
  !s.storeOver t glob loc n && !s.rmwOver t glob loc n && !s.loadOver t loc n && !(acquire && s.seenOver (s.coreOf t) glob loc n) &&
  !(remote && s.behindRelease loc n)

/-- Whether a thread has an acquiring load or read-modify-write on its way: its later accesses wait (R323). -/
def State.acquiring (s : State) (t : Nat) : Bool :=
  ((SMap.vals s.rmws).any fun r => r.thread == t && r.acquire) ||
  (SMap.vals s.results).any fun r => r.thread == t && r.load.any fun q => q.acquire

/-- Whether a lane that other lanes of a word wait for can run the word with them: it has left the word, or nothing holds it
there but the wait itself (R233, R253). -/
def State.joins (s : State) (addr : DWord) (u : Nat) : Bool :=
  let x := s.thr u
  !x.live || x.pc != addr || (!s.acquiring u && (match x.park with
    | none | some (.retry (.await _ _)) | some (.retry (.quad _)) => true
    | some (.retry (.results rs)) => (s.tracked u).all fun r => !rs.contains r
    | _ => false))

/-- Whether what holds a lane at its word has cleared. -/
def State.clear (s : State) (t : Nat) : Block → Bool
  | .results rs => (s.tracked t).all fun r => !rs.contains r
  | .lines ls => ls.all fun ln => !s.absent.contains ln
  | .members home addr mask => (List.range 32).all fun i =>
      !testN mask i || (match s.posThread home i with
        | some u => !((s.thr u).live && decide (s.posPc home u < addr))
        | none => true)
  | .fence scope => if scope < 2 then !s.hasRead t else s.flushed t
  | .acquire => !s.acquiring t
  | .bytes glob loc n acquire remote => s.bytesClear t glob loc n acquire remote
  | .chutePut crew k seq => decide (0 < ((s.crewAt crew).chute k).free) && s.chuteFirst crew k seq true
  | .chuteGet crew k seq => decide (0 < ((s.crewAt crew).chute k).toks.length) && s.chuteFirst crew k seq false
  | .matrixFull p => decide ((s.pairAt p).queue.length < 8)
  | .ramp core => (match (s.pairAt (pairOf core)).ramp.getD (core % 2) .cold with
      | .hot => true
      | _ => false)
  | .hoistFull core => decide (s.hoists core < 32)
  | .deliveries core => decide (s.deliveries core < 4)
  | .phase key ph => (match SMap.get? s.bars key with
      | some b => decide (ph < b.phase)
      | none => false)
  | .postFull crew => decide ((s.crewAt crew).posted.length < 64)
  | .binFull crew entry =>
      let core := (s.crewAt crew).core
      (match SMap.find s.bins fun _ b => b.crew == crew && b.entry == entry with
       | some (_, b) => decide (b.threads.length < 32)
       | none => decide ((SMap.keep s.bins fun _ b => b.core == core).length < 16) ||
           (SMap.vals s.bins).any fun b => b.core == core && s.binFits b)
  | .inferFull die => decide ((SMap.keep s.infers fun _ i => i.die == die).length < 256)
  | .tileStarted p bank tile seq => (s.pairAt p).queue.all fun e =>
      e.started || e.bank != bank || decide (seq ≤ e.seq) || !e.onTile tile
  | .creation r => (match SMap.get? s.creations r with
      | some c => c.failed || c.granted
      | none => true)
  | .regs rs => rs.all fun r => !(s.tracked r.1).contains (.v r.2)
  | .await ts addr => ts.all (s.joins addr)
  | .quad _ => true

/-- Whether a lane is held back at its word by the order of its own word alone, and not by something that it is parked on. -/
def Block.ordering : Block → Bool
  | .results _ | .fence _ | .acquire | .bytes _ _ _ _ _ | .members _ _ _ | .await _ _ | .quad _ | .regs _ => true
  | .lines _ | .chutePut _ _ _ | .chuteGet _ _ _ | .matrixFull _ | .ramp _ | .hoistFull _ | .deliveries _ | .phase _ _
  | .postFull _ | .binFull _ _ | .inferFull _ | .tileStarted _ _ _ _ | .creation _ => false

/-- A live lane that is not parked, or is held at a word whose condition has cleared (R21). The parks of a halted crew stay as they
are until it is resumed (R397). -/
def State.unparked (s : State) (t : Nat) : Bool :=
  let x := s.thr t
  x.live && (match x.park with
    | none => true
    | some (.retry b) => (b.ordering || !(s.crewAt x.crew).halted) && s.clear t b
    | some _ => false)

/-- A lane that may issue (R21): not parked and not yielded. -/
def State.eligible (s : State) (t : Nat) : Bool := s.unparked t && !(s.thr t).yielded

end Sys2Proof.Machine
end

