-- ==== Sys2Proof/Machine/Operands.lean ====
section
/-! DEFINITION. Operands: special registers, held registers and interpolation, element references, sources and
destinations of every width, and effective addresses (R12, R15, R16, R30 to R34, R139, R140, R142, R179, R244 to R247). -/

namespace Sys2Proof.Machine

/-- The code image of a context that holds an address (R31, R71).
(DESIGN CHOICE, log 61: unsafe.) -/
def State.imageAt (s : State) (ctx : Nat) (addr : DWord) : Option Image :=
  s.images.find? fun i => i.ctx == ctx && decide (i.base ≤ addr.toNat ∧ addr.toNat < i.base + i.size)

/-- Rate that owns a held register in the image of an address: a rate code, 0 for none (R31, R71). -/
def State.heldOwner (s : State) (ctx : Nat) (addr : DWord) (n : Nat) : Nat :=
  match s.imageAt ctx addr with
  | some i => i.held.getD n 0
  | none => 0

/-- L[X][Y] of the liveness table (R68, R71). -/
def Image.liveMask (i : Image) (x y : Nat) : Nat := i.live.getD (7 * (x - 1) + (y - 1)) 0

/-- The ancestor of an element at a rate (R30). -/
def Elem.ancestor (e : Elem) (r : Rate) : Option Nat :=
  match e.anc.find? fun a => a.1 == r with
  | some a => some a.2
  | none => none

/-- Index of an ancestor, all ones where there is none (R15). -/
def State.ancIdx (s : State) (t : Nat) (r : Rate) : Nat :=
  match (s.thr t).elem with
  | none => 0xFFFFFFFF
  | some e =>
    match (s.elemAt e).ancestor r with
    | some a => (s.elemAt a).idx
    | none => 0xFFFFFFFF

/-- Special registers, 64 bits wide or zero-extended (R15).
(DESIGN CHOICE, log 24: unsafe.) -/
def State.special (s : State) (t n : Nat) : Nat :=
  let x := s.thr t
  let c := s.crewOf t
  let l := s.launchOf t
  if n < 0x20 then (l.ext.consts.getD n 0).toNat
  else match n with
  | 0x20 => x.tid
  | 0x21 => x.lane
  | 0x22 => c.idx
  | 0x23 => l.lrec.ncrew
  | 0x24 => c.core % 32
  | 0x25 => c.core % 32 / 4
  | 0x26 => dieOf c.core
  | 0x27 => fieldN x.pc.toNat 0 52
  | 0x28 => x.cause
  | 0x29 => l.lot.toNat
  | 0x2A => s.rtime.toNat
  | 0x2B => s.ptime.toNat
  | 0x2C => (match x.elem with
      | some e => (s.elemAt e).idx
      | none => 0xFFFFFFFF)
  | 0x2D => s.ancIdx t .O
  | 0x2E => s.ancIdx t .C
  | 0x2F => l.grade
  | 0x30 => (s.ctxOf t).featc.toNat
  | _ => 0

/-- The perspective weights of a position (R245), NaN where their common denominator is zero, or its λ in linear mode. -/
def weights (flush : Bool) (lam qs : List Word) (linear : Bool) (m : Nat) : List Word :=
  if linear then (List.range m).map fun i => lam.getD i 0
  else
    let p := (List.range m).map fun i => FVal.mul (val32 flush (lam.getD i 0)) (val32 flush (qs.getD i 0))
    let den := FVal.sum p
    p.map fun x => rne32 flush (if den.isZero then .nan else FVal.div x den)

/-- Interpolate (R245): modes 0 perspective, 1 flat, 2 linear. -/
def State.interpolate (s : State) (flush : Bool) (e : Elem) (n mode : Nat) : Word :=
  let h := e.verts.map fun v => SMap.getD (s.elemAt v).held n 0
  let m := h.length
  if m = 1 || mode = 1 then h.headD 0
  else
    let w := weights flush e.lam e.qs (mode == 2) m
    let terms := (List.range m).map fun i => FVal.mul (val32 flush (w.getD i 0)) (val32 flush (h.getD i 0))
    rne32 flush (FVal.sum terms)

/-- Rates by code (R28). -/
def rateAt : Nat → Rate
  | 0 => .N | 1 => .F | 2 => .O | 3 => .C | 4 => .V | 5 => .K | 6 => .S | _ => .Y

def rateCode : Rate → Nat
  | .N => 0 | .F => 1 | .O => 2 | .C => 3 | .V => 4 | .K => 5 | .S => 6 | .Y => 7

/-- Held (R32, R33, R246): the value of hn for a thread, or its fault. -/
def State.heldRead (s : State) (t n mode : Nat) : Except Cause Word :=
  let x := s.thr t
  let y := s.heldOwner (s.ctxIdOf t) s.iss.addr n
  match x.elem with
  | none => .error .access
  | some ei =>
    let e := s.elemAt ei
    let r := rateCode x.rate
    if y = 0 || x.released then .error .access
    else if y > r then .error .rateOrder
    else if y = r then .ok (SMap.getD e.held n 0)
    else if e.barred then .error .access
    else if y = 4 && r ≥ 5 then
      if e.verts.isEmpty then .error .access else .ok (s.interpolate (s.flush t) e n mode)
    else
      match e.ancestor (rateAt y) with
      | some a => .ok (SMap.getD (s.elemAt a).held n 0)
      | none => .error .access

/-- Whether a thread may write hn (R32): at the owning rate, before the freeze, and not after HREL (R246). -/
def State.heldWritable (s : State) (t n : Nat) : Bool :=
  let x := s.thr t
  match x.elem with
  | none => false
  | some ei =>
    s.heldOwner (s.ctxIdOf t) s.iss.addr n == rateCode x.rate && !x.released && !(s.elemAt ei).frozen

/-- A source of `w` bits (R140, R142): the low `w` bits of what the operand names. -/
def State.src (s : State) (t w : Nat) (o : Opd) : Except Cause Nat :=
  match o with
  | .none => .ok 0
  | .c n => .ok (s.special t n.toNat % 2 ^ w)
  | .h n m =>
    match s.heldRead t n.toNat m.toNat with
    | .ok v => .ok (v.toNat % 2 ^ w)
    | .error c => .error c
  | .v n =>
    let n := n.toNat
    if w ≤ 32 then .ok ((s.rd t n).toNat % 2 ^ w)
    else if w = 64 then .ok (s.rd64 t n).toNat
    else .ok ((s.rd64 t (n + 2)).toNat * 2 ^ 64 + (s.rd64 t n).toNat)

/-- A last source that may be an immediate (R139). -/
def State.srcI (s : State) (t w : Nat) (sgn : Bool) (o : SrcI) : Except Cause Nat :=
  match o with
  | .reg o => s.src t w o
  | .imm v => .ok (if w ≤ 32 then v.toNat % 2 ^ w else if sgn then (sext64 32 v.toNat).toNat else v.toNat)

/-- A 32-bit source as a word. -/
def State.src32 (s : State) (t : Nat) (o : Opd) : Except Cause Word :=
  match s.src t 32 o with
  | .ok v => .ok (BitVec.ofNat 32 v)
  | .error c => .error c

/-- The fault of a destination that may not be written (R32). -/
def State.dstFault (s : State) (t : Nat) (o : Opd) : Option Cause :=
  match o with
  | .h n _ => if s.heldWritable t n.toNat then none else some .access
  | _ => none

/-- What a destination of `w` bits receives, low register first (R12). -/
def dstWords (w : Nat) (o : Opd) (v : Nat) : List (Res × Word) :=
  match o with
  | .v n =>
    (List.range (if w ≤ 32 then 1 else w / 32)).map fun k => (Res.v (n.toNat + k), BitVec.ofNat 32 (v / 2 ^ (32 * k)))
  | .h n _ => [(Res.h n.toNat, BitVec.ofNat 32 v)]
  | _ => []

/-- ReadInt (R142). -/
def readInt (w : Nat) (sgn : Bool) (x : Nat) : Int := if sgn then signedOf w x else Int.ofNat (x % 2 ^ w)

/-- WriteInt (R142): the register value of an integer of a type. -/
def writeIntCode (w : Nat) (sgn : Bool) (x : Int) : Nat :=
  let y := wrapI w x
  if w < 32 then (if sgn then wrapI 32 (signedOf w y) else y) else y

/-- WriteInt into a destination (R142). -/
def writeInt (w : Nat) (sgn : Bool) (o : Opd) (x : Int) : List (Res × Word) :=
  dstWords w o (writeIntCode w sgn x)

/-- Registers `n`, `n + 1`, … hold the listed words. -/
def seqWords (n : Nat) : List Word → List (Res × Word)
  | [] => []
  | v :: vs => (.v n, v) :: seqWords (n + 1) vs

/-- Register number of a class v operand. -/
def regNum : Opd → Nat
  | .v n => n.toNat
  | _ => 0

/-- A predicate destination; 7 discards (R13). -/
def predWord (p : BitVec 3) (b : Bool) : List (Res × Word) :=
  if p = 7 then [] else [(.p p.toNat, if b then 1 else 0)]

/-- A word whose lanes compute results of one fixed latency (R103): sources are read at issue, destinations checked. -/
def alu (s : State) (lat : Nat) (dst : Opd) (f : State → Nat → Except Cause (List (Res × Word))) : Out' :=
  forLanes s fun s t =>
    match s.dstFault t dst with
    | some c => .fault c 0
    | none =>
      match f s t with
      | .ok ws => .done (s.laterAll t lat ws)
      | .error c => .fault c 0

/-- A word whose lanes compute results that the scoreboard tracks (R104), written within the cycles R470 gives. -/
def tracked (s : State) (within : Option Nat) (f : State → Nat → Except (Cause × DWord) (List (Res × Word))) : Out' :=
  forLanes s fun s t =>
    match f s t with
    | .ok ws => .done (s.trackVals t ws within)
    | .error (c, ea) => .fault c ea

/-- EffAddr for S, L and W (R179). -/
def State.ea32 (s : State) (t : Nat) (a : Opd) (disp : BitVec 24) : Except Cause Nat :=
  match s.src t 32 a with
  | .ok base => .ok (wrapI 32 (Int.ofNat base + signedOf 24 disp.toNat))
  | .error c => .error c

/-- EffAddr for G, D and K before its range check (R179). -/
def State.ea64 (s : State) (t : Nat) (a : Opd) (disp : BitVec 24) : DWord :=
  let base := match a with
    | .v n => s.rd64 t n.toNat
    | _ => 0
  base + BitVec.ofInt 64 (signedOf 24 disp.toNat)

/-- An element without one of its readers; a copy goes with the last reader on its core (R344). -/
def State.withoutReader (s : State) (e : Nat) (x : Elem) : Elem :=
  let rs := x.readers.filter (· ≠ e)
  { x with readers := rs, copies := x.copies.filter fun c => rs.any fun r => (s.elemAt r).core == c.1 }

/-- Drop an element from the references of every other (R34, R247). -/
def State.dropReader (s : State) (e : Nat) : State :=
  { s with elems := SMap.mapVals (fun _ x => s.withoutReader e x) s.elems }

/-- True when nothing refers to the element (R34). -/
def Elem.unreferenced (e : Elem) : Bool := !e.own && !e.pending && e.readers.isEmpty && !e.released

/-- Release every element whose count is 0; its own references on its ancestors go with it (R247). -/
def State.sweepRefs : Nat → State → State
  | 0, s => s
  | n + 1, s =>
    match SMap.find s.elems fun _ x => x.unreferenced with
    | none => s
    | some (e, _) => State.sweepRefs n ((s.modElem e fun x => { x with released := true, held := [] }).dropReader e)

/-- True of a descendant of an element, by its ancestor list. -/
def Elem.under (d : Elem) (e : Nat) : Bool := d.anc.any (fun a => a.2 == e) || d.verts.contains e

/-- Whether a creation is to make a descendant of an element. A creation of the draw record names its ancestors by rate
and number until it has its bytes. -/
def Creation.under (c : Creation) (x : Elem) (e : Nat) : Bool :=
  c.rate != .Y && c.protos.any fun p => if c.fromRecord && !c.granted then p.anc.contains (x.rate, x.idx) else p.under e

/-- Whether the S quad of a sample has a position in a coarse pixel (R243, R412). -/
def Sample.quadIn (q : Sample) (kw kh px py : Nat) : Bool :=
  (List.range 4).any fun n => (q.px / 2 * 2 + n % 2) / kw == px && (q.py / 2 * 2 + n / 2) / kh == py

/-- Whether the sampler has still to make an element below `x` (R468): primitives it has not finished, and for a K element
the S elements of its coarse pixel, helpers among them. -/
def Draw.owes (d : Draw) (kw kh : Nat) (x : Elem) : Bool :=
  (SMap.vals d.prims).any (fun p => !p.done && (match x.rate with
      | .F => true
      | .O => p.obj == x.idx
      | .C => p.cluster == x.idx
      | .V => p.verts.contains x.idx
      | _ => false)) ||
  (x.rate == .K && (SMap.vals d.samples).any fun q => q.prim == x.prim && q.wantsS && q.quadIn kw kh x.px x.py)

/-- Whether R468 lets an element's pending reference go: all its V, K and S descendants exist and have exited. -/
def State.pendingOver (s : State) (e : Nat) : Bool :=
  let x := s.elemAt e
  x.frozen &&
  (SMap.vals s.creations).all (fun c => c.launch != x.launch || !c.under x e) &&
  (SMap.vals s.elems).all (fun d => !d.under e || d.rate == .Y || (d.frozen && (d.exited || rateCode d.rate < 4))) &&
  (match (s.launchAt x.launch).draw with
   | none => true
   | some d =>
     let rd := (s.launchAt x.launch).ext.rdesc
     !d.owes ((rd.map RDesc.kw).getD 1) ((rd.map RDesc.kh).getD 1) x)

/-- Drop the pending references that are over, and release what nothing refers to (R34, R247, R468). -/
def State.refresh (s : State) : State :=
  let s := (SMap.keys s.elems).foldl (fun s e =>
    if (s.elemAt e).pending && s.pendingOver e then s.modElem e fun x => { x with pending := false } else s) s
  s.sweepRefs (s.elems.length + 1)

/-- Freeze the element of a thread (R33): its held-register writes in flight are part of the frozen value. -/
def State.freeze (s : State) (t : Nat) : State :=
  match (s.thr t).elem with
  | none => s
  | some e => ((s.settleAll t).modElem e fun x => { x with frozen := true })

/-- The thread of an element has exited: the thread's own reference goes, and what the element holds on its ancestors stays
until its count is 0 (R34, R247). -/
def State.dropThread (s : State) (t : Nat) : State :=
  match (s.thr t).elem with
  | none => s
  | some e => s.modElem e fun x => { x with own := false }

/-- HREL: the thread's own reference goes, with the references that its element holds on its ancestors (R34, R251). -/
def State.dropOwn (s : State) (t : Nat) : State :=
  match (s.thr t).elem with
  | none => s
  | some e =>
    if (s.thr t).released then s
    else
      let s := s.modElem e fun x => { x with own := false }
      ((s.modThr t fun x => { x with released := true }).dropReader e)

end Sys2Proof.Machine
end

