-- ==== Sys2Proof/Machine/Flags.lean ====
section
/-! DEFINITION. The condition results the spec computes beside a value: carries and borrows, saturation, comparisons,
combination with a predicate, predicate tables, and the status bits of an accumulator tile (R144, R150, R151, R159,
R234). The package has no flag register: conditions go to predicates. -/

namespace Sys2Proof.Machine

/-- Carry-out of an addition with a carry in, on unsigned views (R144 ADD, ADDC). -/
def carryOut (w au bu ci : Nat) : Bool := decide (au + bu + ci ≥ 2 ^ w)

/-- Borrow-out of a subtraction with a borrow in (R144 SUB, SUBB). -/
def borrowOut (au bu bi : Nat) : Bool := decide (au < bu + bi)

/-- Least value of an integer type (R144 minT). -/
def minT (w : Nat) (sgn : Bool) : Int := if sgn then -(2 ^ (w - 1) : Int) else 0

/-- Greatest value of an integer type (R144 maxT). -/
def maxT (w : Nat) (sgn : Bool) : Int := if sgn then 2 ^ (w - 1) - 1 else 2 ^ w - 1

/-- Saturation to a type's range, where asked for (R144 SAT). -/
def saturate (sat : Bool) (w : Nat) (sgn : Bool) (x : Int) : Int :=
  if sat then (if x < minT w sgn then minT w sgn else if maxT w sgn < x then maxT w sgn else x) else x

/-- The relation of CMP between two integers (R150). -/
def condHolds (c : Cond) (a b : Int) : Bool :=
  match c with
  | .eq => decide (a = b)
  | .ne => decide (a ≠ b)
  | .lt => decide (a < b)
  | .le => decide (a ≤ b)
  | .gt => decide (b < a)
  | .ge => decide (b ≤ a)

/-- Combination of a relation with a predicate (R150). -/
def bopApply (o : Bop) (t s : Bool) : Bool :=
  match o with
  | .none => t
  | .and => t && s
  | .or => t || s
  | .xor => t != s

/-- PLOP's table lookup (R151). -/
def plopBit (table a b c : Nat) : Bool := testN table (4 * a + 2 * b + c)

/-- The ordered relations of FCMP (R159). -/
def fcmpOrdered (cond : Nat) (a b : FVal) : Bool :=
  match cond with
  | 0 => FVal.eqv a b
  | 1 => FVal.lt a b || FVal.lt b a
  | 2 => FVal.lt a b
  | 3 => FVal.le a b
  | 4 => FVal.lt b a
  | 5 => FVal.le b a
  | _ => false

/-- The relation of FCMP by its condition code (R159): 0 to 5 are false with a NaN, 6 and 7 test for one, and 8 to 13
are 0 to 5 but true with a NaN. -/
def fcmpHolds (cond : Nat) (a b : FVal) : Bool :=
  let either := a.isNan || b.isNan
  if cond = 6 then !either
  else if cond = 7 then either
  else if cond < 6 then fcmpOrdered cond a b
  else either || fcmpOrdered (cond - 8) a b

end Sys2Proof.Machine
end

