-- ==== Sys2Proof/Machine/Special.lean ====
section
/-! DEFINITION. The special functions (R162 to R164). The spec names the exact cases and the special inputs and bounds the
error everywhere else; which value within the bound the hardware gives is open, so it is a free value of `Config`, taken
where it keeps the bound. Bounds are checked in fixed point with 200 fraction bits, against an enclosure of the exact value that
is narrower than 2^-79 of its scale. -/

namespace Sys2Proof.Machine

/-- The fixed-point unit. -/
def one200 : Int := 2 ^ 200

/-- A finite value in fixed point. -/
def fix (v : FVal) : Int :=
  match v with
  | .fin s m e _ => sgnMul s (if 200 + e ≥ 0 then m * 2 ^ (200 + e).toNat else m / 2 ^ (-(200 + e)).toNat)
  | _ => 0

/-- A fixed-point number as an exact value. -/
def unfix (x : Int) : FVal := .fin (decide (x < 0)) x.natAbs (-200) false

/-- Product in fixed point. -/
def fmulx (a b : Int) : Int := (a * b).tdiv one200

/-- Sum of a series whose next term is the last one times `x` over `d n`, from term number `n`. -/
def series (x : Int) (d : Nat → Int) : Nat → Nat → Int → Int
  | 0, _, _ => 0
  | fuel + 1, n, t => t + series x d fuel (n + 1) ((fmulx t x).tdiv (d n))

/-- Sum over k of t × z^k / (2k + 1), where each power is the last one times `z`. -/
def oddSeries (z : Int) : Nat → Nat → Int → Int
  | 0, _, _ => 0
  | fuel + 1, k, t => t.tdiv (2 * Int.ofNat k + 1) + oddSeries z fuel (k + 1) (fmulx t z)

/-- Natural logarithm of num/den, which lies from 1 to 2. -/
def lnx (num den : Int) : Int :=
  let z := ((num - den) * one200).tdiv (num + den)
  2 * oddSeries (fmulx z z) 70 0 z

/-- Natural logarithm of 2. -/
def ln2x : Int := lnx 2 1

/-- The arc tangent of 1/n. -/
def atanInv (n : Int) : Int := oddSeries (-(one200.tdiv (n * n))) 50 0 (one200.tdiv n)

/-- 2π, from Machin's formula. -/
def twoPi : Int := 2 * (16 * atanInv 5 - 4 * atanInv 239)

/-- 2^x for a fixed-point x, as an exact value close to it; none where it lies far outside FP32's range. -/
def exp2Near (x : Int) : Option FVal :=
  let n := x.fdiv one200
  if 300 < n then none
  else
    let r := series (fmulx (x - n * one200) ln2x) (fun k => Int.ofNat (k + 1)) 60 0 one200
    some (.fin false r.natAbs ((if n < -400 then -400 else n) - 200) false)

/-- sin(2πr) for a fixed-point r from −1/2 to 1/2. -/
def sinTurn (r : Int) : Int :=
  let x := fmulx r twoPi
  series (-(fmulx x x)) (fun k => (2 * Int.ofNat k + 2) * (2 * Int.ofNat k + 3)) 40 0 x

/-- cos(2πr) for a fixed-point r from −1/2 to 1/2. -/
def cosTurn (r : Int) : Int :=
  let x := fmulx r twoPi
  series (-(fmulx x x)) (fun k => (2 * Int.ofNat k + 1) * (2 * Int.ofNat k + 2)) 40 0 one200

/-- ulp of a result, in fixed point (R162). -/
def ulpx (y : FVal) : Int :=
  match y with
  | .fin _ m e _ =>
    let l : Int := if m = 0 then -126 else Int.ofNat (Nat.log2 m) + e
    2 ^ (200 + (if l < -126 then -126 else l) - 23).toNat
  | _ => 0

/-- An enclosure of an exact value: a number within `w` of it, cut to the limits that the function has.
(DESIGN CHOICE, log 25: safe.) -/
def around (f w least most : Int) : Int × Int := (max least (f - w), min most (f + w))

/-- The limits of a function bounded by 1 that has the sign of `x`. -/
def signLimits (x : Int) : Int × Int := if 0 < x then (0, one200) else if x < 0 then (-one200, 0) else (0, 0)

/-- Whether a finite value keeps an error bound of `ulps` ulp or `absolute`, whichever allows more, from everything in an
enclosure of the exact value.
(DESIGN CHOICE, log 25: safe.) -/
def keepsBound (y : FVal) (r : Int × Int) (ulps absolute : Int) : Bool :=
  let bound := max (ulps * ulpx y) absolute
  let near (x : Int) : Bool := decide (Int.ofNat (fix y - x).natAbs ≤ bound)
  y.isFin && near r.1 && near r.2

/-- The free value where it keeps the bound; otherwise the FP32 value nearest to the enclosure. Under FLUSH a subnormal result is a
zero of its sign (R162).
(DESIGN CHOICE, log 25: safe.) -/
def withinBound (flush : Bool) (candidate : Word) (r : Int × Int) (ulps absolute : Int) : Word :=
  let y := valueOf .f32 candidate.toNat
  if keepsBound y r ulps absolute then rne32 flush y else rne32 flush (unfix ((r.1 + r.2).fdiv 2))

/-- Canonical NaN. -/
def nan32 : Word := 0x7FC00000

/-- Infinity of a sign. -/
def inf32 (neg : Bool) : Word := if neg then 0xFF800000 else 0x7F800000

/-- Zero of a sign. -/
def zero32 (neg : Bool) : Word := if neg then 0x80000000 else 0

/-- 1.0 of a sign. -/
def one32 (neg : Bool) : Word := if neg then 0xBF800000 else 0x3F800000

/-- The code of a value after Operand, by which the free values are chosen. -/
def codeOf (a : FVal) : Word := rne32 false a

/-- A free value where the spec states no result: a NaN is the canonical one, and FLUSH applies (R112, R162). -/
def freeResult (flush : Bool) (candidate : Word) : Word := rne32 flush (val32 flush candidate)

/-- A power of two: its exponent, if the magnitude is one. -/
def powerOfTwo (m : Nat) (e : Int) : Option Int :=
  if m = 2 ^ Nat.log2 m then some (Int.ofNat (Nat.log2 m) + e) else none

/-- True where a magnitude rounds to a finite FP32 value. -/
def finite32 (v : FVal) : Bool :=
  match v with
  | .fin _ m e _ => FVal.cmp (.fin false m e false) (.fin false 0xFFFFFF 104 false) != .gt
  | _ => false

/-- An enclosure of 1/(m·2^e), times the sign: exact where the quotient is a number of the fixed point.
(DESIGN CHOICE, log 25: safe.) -/
def rcpNear (s : Bool) (m : Nat) (e : Int) : Int × Int :=
  let p := 2 ^ (200 - e).toNat
  let n := p / m
  let up := if n * m = p then n else n + 1
  if s then (-(Int.ofNat up), -(Int.ofNat n)) else (Int.ofNat n, Int.ofNat up)

/-- RCP: where the reciprocal lies outside the finite range the spec states no result. -/
def rcp32 (flush : Bool) (a : FVal) : Word :=
  match a with
  | .nan => nan32
  | .inf s => zero32 s
  | .fin s m e _ =>
    if m = 0 then inf32 s
    else
      let r := rcpNear s m e
      if finite32 (unfix r.1) && finite32 (unfix r.2) then withinBound flush (Config.rcp (codeOf a)) r 1 0
      else freeResult flush (Config.rcp (codeOf a))

/-- An enclosure of 1/√(m·2^e): exact where the root is a number of the fixed point. -/
def rsqNear (m : Nat) (e : Int) : Int × Int :=
  let p := 2 ^ (400 - e).toNat
  let n := p / m
  let r := isqrt (Nat.log2 n / 2 + 1) n
  (Int.ofNat r, Int.ofNat (if r * r * m = p then r else r + 1))

/-- RSQ. -/
def rsq32 (flush : Bool) (a : FVal) : Word :=
  match a with
  | .nan => nan32
  | .inf s => if s then nan32 else 0
  | .fin s m e _ =>
    if m = 0 then inf32 s
    else if s then nan32
    else withinBound flush (Config.rsq (codeOf a)) (rsqNear m e) 1 0

/-- EXP2: where the power lies above the finite range the spec states no result. -/
def exp232 (flush : Bool) (a : FVal) : Word :=
  match a with
  | .nan => nan32
  | .inf s => if s then 0 else inf32 false
  | .fin s m e st =>
    let x := fix (.fin s m (if e > 20 then 20 else e) st)
    let n := x.fdiv one200
    if x = n * one200 && decide (-126 ≤ n) && decide (n ≤ 127) then rne32 flush (.fin false 1 n false)
    else
      match exp2Near x with
      | none => freeResult flush (Config.exp2 (codeOf a))
      | some v =>
        if finite32 v then
          let w := (fix v).tdiv (2 ^ 80) + 1
          withinBound flush (Config.exp2 (codeOf a)) (around (fix v) w 0 (fix v + w)) 2 0
        else freeResult flush (Config.exp2 (codeOf a))

/-- LOG2. The sign of the zero that 1 gives the spec leaves open: it is a free value.
(DESIGN CHOICE, log 106: safe.) -/
def log232 (flush : Bool) (a : FVal) : Word :=
  match a with
  | .nan => nan32
  | .inf s => if s then nan32 else inf32 false
  | .fin s m e _ =>
    if m = 0 then inf32 true
    else if s then nan32
    else
      match powerOfTwo m e with
      | some k => if k = 0 then zero32 (Config.log2 (codeOf a)).msb else rne32 flush (.ofInt k)
      | none =>
        let l := Nat.log2 m
        let f := (lnx (Int.ofNat m) (2 ^ l) * one200).tdiv ln2x
        let x := (Int.ofNat l + e) * one200 + f
        let near := Int.ofNat l + e = -1 || Int.ofNat l + e = 0
        withinBound flush (Config.log2 (codeOf a)) (x - 2 ^ 120, x + 2 ^ 120) (if near then 0 else 2) (if near then 2 ^ 178 else 0)

/-- The argument of SINR and COSR less its nearest integer, in fixed point; exact (R162). -/
def turn (a : FVal) : Int :=
  match a with
  | .fin s m e _ =>
    if e ≥ 0 then 0 else fix (.fin s m e false) - rneInt (.fin s m e false) * one200
  | _ => 0

/-- A zero result of SINR or COSR is +0. -/
def plusZero (w : Word) : Word := if w = 0x80000000 then 0 else w

/-- SINR. -/
def sinr32 (flush : Bool) (a : FVal) : Word :=
  match a with
  | .nan | .inf _ => nan32
  | .fin s m _ _ =>
    if m = 0 then zero32 s
    else
      let r := turn a
      if r = 0 || 2 * r = one200 || 2 * r = -one200 then 0
      else if 4 * r = one200 then one32 false
      else if 4 * r = -one200 then one32 true
      else plusZero (withinBound flush (Config.sinr (codeOf a))
        (around (sinTurn r) (2 ^ 120) (signLimits r).1 (signLimits r).2) 0 (2 ^ 178))

/-- COSR. -/
def cosr32 (flush : Bool) (a : FVal) : Word :=
  match a with
  | .nan | .inf _ => nan32
  | .fin _ _ _ _ =>
    let r := turn a
    if r = 0 then one32 false
    else if 2 * r = one200 || 2 * r = -one200 then one32 true
    else if 4 * r = one200 || 4 * r = -one200 then 0
    else plusZero (withinBound flush (Config.cosr (codeOf a)) (around (cosTurn r) (2 ^ 120) (-one200) one200) 0 (2 ^ 178))

/-- tanh of a fixed-point number from −40 to 40. -/
def tanhx (x : Int) : Int :=
  match exp2Near ((2 * x * one200).tdiv ln2x) with
  | none => one200
  | some v => ((fix v - one200) * one200).tdiv (fix v + one200)

/-- TANH. -/
def tanh32 (flush : Bool) (a : FVal) : Word :=
  match a with
  | .nan => nan32
  | .inf s => one32 s
  | .fin s m e st =>
    if m = 0 then zero32 s
    else
      let x := fix (.fin s m (if e > 20 then 20 else e) st)
      let x := if x > 40 * one200 then 40 * one200 else if x < -40 * one200 then -40 * one200 else x
      withinBound flush (Config.tanh (codeOf a)) (around (tanhx x) (2 ^ 120) (signLimits x).1 (signLimits x).2) 2 (2 ^ 178)

end Sys2Proof.Machine
end

