-- ==== Sys2Proof/Machine/Float.lean ====
section
/-! DEFINITION. Floating-point, special-function, packed and dot-product instructions (R153 to R167). -/

namespace Sys2Proof.Machine

/-- Operand (R155): source `i` (0 is A, 1 is B, 2 is C) of a format, with ABS and then NEG. -/
def operandF (flush : Bool) (f : Fmt) (m : FMods) (i x : Nat) : FVal :=
  let v := widenExact flush f x none
  let v := if testN m.abs.toNat (2 - i) then v.abs else v
  if testN m.neg.toNat (2 - i) then v.neg else v

/-- A format for a type, FP32 where the type has none. -/
def fmtD (t : Ty) : Fmt :=
  match fmtOf t with
  | some f => f
  | none => .f32

/-- A word with one FP32 source: `f` gives the 32-bit result from FLUSH and the source's code. -/
def flt1 (s : State) (lat : Nat) (d a : Opd) (f : Bool → Nat → Word) : Out' :=
  alu s lat d fun s t => do
    let x ← s.src t 32 a
    return dstWords 32 d (f (s.flush t) x).toNat

/-- A word with two 32-bit sources. -/
def flt2 (s : State) (lat : Nat) (d a b : Opd) (f : Bool → Nat → Nat → Word) : Out' :=
  alu s lat d fun s t => do
    let x ← s.src t 32 a
    let y ← s.src t 32 b
    return dstWords 32 d (f (s.flush t) x y).toNat

/-- A word with three 32-bit sources. -/
def flt3 (s : State) (lat : Nat) (d a b c : Opd) (f : Bool → Nat → Nat → Nat → Word) : Out' :=
  alu s lat d fun s t => do
    let x ← s.src t 32 a
    let y ← s.src t 32 b
    let z ← s.src t 32 c
    return dstWords 32 d (f (s.flush t) x y z).toNat

/-- Round to FP32 in a mode under the implied policy IEEE. -/
def rnd32 (flush : Bool) (rm : Rm) (x : FVal) : Word := BitVec.ofNat 32 (roundIeee flush x .f32 rm)

/-- RDN decides the sign of an exact zero sum (R156). -/
def isRdn : Rm → Bool
  | .rdn => true
  | _ => false

def faddV (rm : Rm) (m : FMods) (flush : Bool) (x y : Nat) : Word :=
  rnd32 flush rm (FVal.add (isRdn rm) (operandF flush .f32 m 0 x) (operandF flush .f32 m 1 y))

def fsubV (rm : Rm) (m : FMods) (flush : Bool) (x y : Nat) : Word :=
  rnd32 flush rm (FVal.add (isRdn rm) (operandF flush .f32 m 0 x) (operandF flush .f32 m 1 y).neg)

def fmulV (rm : Rm) (m : FMods) (flush : Bool) (x y : Nat) : Word :=
  rnd32 flush rm (FVal.mul (operandF flush .f32 m 0 x) (operandF flush .f32 m 1 y))

def ffmaV (rm : Rm) (m : FMods) (flush : Bool) (x y z : Nat) : Word :=
  rnd32 flush rm (FVal.add (isRdn rm) (FVal.mul (operandF flush .f32 m 0 x) (operandF flush .f32 m 1 y))
    (operandF flush .f32 m 2 z))

def fdivV (rm : Rm) (m : FMods) (flush : Bool) (x y : Nat) : Word :=
  rnd32 flush rm (FVal.div (operandF flush .f32 m 0 x) (operandF flush .f32 m 1 y))

def fsqrtV (rm : Rm) (m : FMods) (flush : Bool) (x : Nat) : Word :=
  rnd32 flush rm (FVal.sqrt (operandF flush .f32 m 0 x))

def fminmaxV (isMax : Bool) (m : FMods) (flush : Bool) (x y : Nat) : Word :=
  rnd32 flush .rne (fminmax isMax (operandF flush .f32 m 0 x) (operandF flush .f32 m 1 y))

/-- FADD (R157). -/
def execFadd (rm : Rm) (m : FMods) (d a b : Opd) (s : State) : Out' := flt2 s 6 d a b (faddV rm m)

/-- FSUB (R157). -/
def execFsub (rm : Rm) (m : FMods) (d a b : Opd) (s : State) : Out' := flt2 s 6 d a b (fsubV rm m)

/-- FMUL (R157). -/
def execFmul (rm : Rm) (m : FMods) (d a b : Opd) (s : State) : Out' := flt2 s 6 d a b (fmulV rm m)

/-- FFMA (R157). -/
def execFfma (rm : Rm) (m : FMods) (d a b c : Opd) (s : State) : Out' := flt3 s 6 d a b c (ffmaV rm m)

/-- FDIV (R157). -/
def execFdiv (rm : Rm) (m : FMods) (d a b : Opd) (s : State) : Out' := flt2 s 24 d a b (fdivV rm m)

/-- FSQRT (R157). -/
def execFsqrt (rm : Rm) (m : FMods) (d a : Opd) (s : State) : Out' := flt1 s 20 d a (fsqrtV rm m)

/-- FMIN (R158). -/
def execFmin (m : FMods) (d a b : Opd) (s : State) : Out' := flt2 s 6 d a b (fminmaxV false m)

/-- FMAX (R158). -/
def execFmax (m : FMods) (d a b : Opd) (s : State) : Out' := flt2 s 6 d a b (fminmaxV true m)

/-- FCMP (R159). -/
def execFcmp (cond : BitVec 4) (bop : Bop) (pd ps : BitVec 3) (psn : Bool) (m : FMods) (a b : Opd) (s : State) : Out' :=
  alu s 6 .none fun s t => do
    let x ← s.src t 32 a
    let y ← s.src t 32 b
    let fl := s.flush t
    let r := fcmpHolds cond.toNat (operandF fl .f32 m 0 x) (operandF fl .f32 m 1 y)
    return predWord pd (bopApply bop r (s.prx t ps psn))

/-- The class of an FP32 code as a bit number (R160). -/
def fclassBit (x : Nat) : Nat :=
  let neg := testN x 31
  let e := fieldN x 23 8
  let f := fieldN x 0 23
  if e = 255 then (if f ≠ 0 then 8 else if neg then 0 else 7)
  else if e = 0 then (if f = 0 then (if neg then 3 else 4) else if neg then 2 else 5)
  else if neg then 1 else 6

/-- FCLASS (R160): FLUSH does not apply. -/
def execFclass (d a : Opd) (s : State) : Out' := flt1 s 6 d a fun _ x => BitVec.ofNat 32 (2 ^ fclassBit x)

/-- FRND (R161). -/
def execFrnd (rm : Rm) (m : FMods) (d a : Opd) (s : State) : Out' :=
  flt1 s 6 d a fun fl x => rnd32 fl .rne (roundIntegral rm (operandF fl .f32 m 0 x))

/-- FFRAC's result (R161): a less its floor, exactly; 1.0 becomes the value below it, and an infinity gives NaN. -/
def ffracV (flush : Bool) (v : FVal) : Word :=
  match v with
  | .fin _ _ _ _ =>
    let f := FVal.floorI v
    let g := if f = 0 then (if v.isZero then v else .zero) else .ofInt f
    let r := rnd32 flush .rne (FVal.add false v g.neg)
    if r = 0x3F800000 then 0x3F7FFFFF else r
  | _ => nan32

/-- FFRAC (R161). -/
def execFfrac (m : FMods) (d a : Opd) (s : State) : Out' :=
  flt1 s 6 d a fun fl x => ffracV fl (operandF fl .f32 m 0 x)

/-- A special function of one source (R162). -/
def specialV (f : Bool → FVal → Word) (m : FMods) (flush : Bool) (x : Nat) : Word :=
  f flush (operandF flush .f32 m 0 x)

/-- RCP (R162, R163). -/
def execRcp (m : FMods) (d a : Opd) (s : State) : Out' := flt1 s 12 d a (specialV rcp32 m)

/-- RSQ (R162, R163). -/
def execRsq (m : FMods) (d a : Opd) (s : State) : Out' := flt1 s 12 d a (specialV rsq32 m)

/-- EXP2 (R162, R163). -/
def execExp2 (m : FMods) (d a : Opd) (s : State) : Out' := flt1 s 12 d a (specialV exp232 m)

/-- LOG2 (R162, R163). -/
def execLog2 (m : FMods) (d a : Opd) (s : State) : Out' := flt1 s 12 d a (specialV log232 m)

/-- SINR (R162, R163). -/
def execSinr (m : FMods) (d a : Opd) (s : State) : Out' := flt1 s 12 d a (specialV sinr32 m)

/-- COSR (R162, R163). -/
def execCosr (m : FMods) (d a : Opd) (s : State) : Out' := flt1 s 12 d a (specialV cosr32 m)

/-- TANH (R162, R163). -/
def execTanh (m : FMods) (d a : Opd) (s : State) : Out' := flt1 s 12 d a (specialV tanh32 m)

/-- Both 16-bit elements of a packed result (R165). -/
def packed (ty : Ty) (rm : Rm) (flush : Bool) (f : Nat → FVal) : Word :=
  BitVec.ofNat 32 (roundIeee flush (f 0) (fmtD ty) rm + 2 ^ 16 * roundIeee flush (f 1) (fmtD ty) rm)

/-- Element `i` of a packed source with its modifiers (R165). -/
def pkOpd (ty : Ty) (flush : Bool) (m : FMods) (k x i : Nat) : FVal := operandF flush (fmtD ty) m k (fieldN x (16 * i) 16)

def pkaddV (ty : Ty) (rm : Rm) (m : FMods) (flush : Bool) (x y : Nat) : Word :=
  packed ty rm flush fun i => FVal.add (isRdn rm) (pkOpd ty flush m 0 x i) (pkOpd ty flush m 1 y i)

def pkmulV (ty : Ty) (rm : Rm) (m : FMods) (flush : Bool) (x y : Nat) : Word :=
  packed ty rm flush fun i => FVal.mul (pkOpd ty flush m 0 x i) (pkOpd ty flush m 1 y i)

def pkfmaV (ty : Ty) (rm : Rm) (m : FMods) (flush : Bool) (x y z : Nat) : Word :=
  packed ty rm flush fun i =>
    FVal.add (isRdn rm) (FVal.mul (pkOpd ty flush m 0 x i) (pkOpd ty flush m 1 y i)) (pkOpd ty flush m 2 z i)

/-- DOT2H's exact sum and its one rounding (R166). -/
def dot2hV (sty : Ty) (rm : Rm) (m : FMods) (flush : Bool) (x y z : Nat) : Word :=
  let p (i : Nat) : FVal := FVal.mul (pkOpd sty flush m 0 x i) (pkOpd sty flush m 1 y i)
  rnd32 flush rm (FVal.add (isRdn rm) (FVal.add (isRdn rm) (p 0) (p 1)) (operandF flush .f32 m 2 z))

/-- DOT4B8's exact sum and its one rounding (R167). -/
def dot4b8V (sty : Ty) (rm : Rm) (m : FMods) (flush : Bool) (x y z : Nat) : Word :=
  let p (i : Nat) : FVal := FVal.mul (widenExact flush (fmtD sty) (fieldN x (8 * i) 8) none)
    (widenExact flush (fmtD sty) (fieldN y (8 * i) 8) none)
  let add := FVal.add (isRdn rm)
  rnd32 flush rm (add (add (add (add (p 0) (p 1)) (p 2)) (p 3)) (operandF flush .f32 m 2 z))

/-- PKADD (R165). -/
def execPkadd (ty : Ty) (rm : Rm) (m : FMods) (d a b : Opd) (s : State) : Out' := flt2 s 6 d a b (pkaddV ty rm m)

/-- PKMUL (R165). -/
def execPkmul (ty : Ty) (rm : Rm) (m : FMods) (d a b : Opd) (s : State) : Out' := flt2 s 6 d a b (pkmulV ty rm m)

/-- PKFMA (R165). -/
def execPkfma (ty : Ty) (rm : Rm) (m : FMods) (d a b c : Opd) (s : State) : Out' := flt3 s 6 d a b c (pkfmaV ty rm m)

/-- DOT2H (R166). -/
def execDot2h (sty : Ty) (rm : Rm) (m : FMods) (d a b c : Opd) (s : State) : Out' := flt3 s 6 d a b c (dot2hV sty rm m)

/-- DOT4B8 (R167). -/
def execDot4b8 (sty : Ty) (rm : Rm) (m : FMods) (d a b c : Opd) (s : State) : Out' := flt3 s 6 d a b c (dot4b8V sty rm m)

end Sys2Proof.Machine
end

