-- ==== Sys2Proof/Machine/Lanes.lean ====
section
/-! DEFINITION. Cross-lane instructions (R196 to R201). Every participant reads its sources in the state at issue. -/

namespace Sys2Proof.Machine

/-- Lane number of a thread. -/
def State.laneOf (s : State) (t : Nat) : Nat := (s.thr t).lane

/-- The participant in a lane. -/
def State.inLane (s : State) (i : Nat) : Option Nat := s.iss.lanes.find? fun t => s.laneOf t == i

/-- What the member check of R198 decides. -/
inductive Members | absent | behind | all
  deriving DecidableEq, Repr

/-- A member mask in a lane, 0 where it cannot be read. -/
def State.maskIn (s : State) (t : Nat) (m : Opd) : Nat :=
  match s.src t 32 m with
  | .ok v => v
  | .error _ => 0

/-- Whether a position makes the word fault: no thread, an exited one, or one that has passed the address (R198). -/
def State.memberGone (s : State) (g i : Nat) (addr : DWord) : Bool :=
  match s.posThread g i with
  | none => true
  | some u => !(s.thr u).live || decide (addr < s.posPc g u)

/-- Whether a member has yet to reach the address (R198). -/
def State.memberBehind (s : State) (g i : Nat) (addr : DWord) : Bool :=
  match s.posThread g i with
  | none => false
  | some u => decide (s.posPc g u < addr)

/-- Members of a gang that stand at the word in issue and do not run it yet, though their guard may hold: the others wait for
them (R233, R253).
(DEDUCED, log 99: unsafe.) -/
def State.notYet (s : State) (ps : List Nat) : List Nat :=
  (ps.filterMap (s.posThread s.iss.gang)).filter fun u =>
    let x := s.thr u
    x.live && x.gang == s.iss.gang && x.pc == s.iss.addr && !s.iss.passed.contains u &&
    (!s.iss.lanes.contains u || s.acquiring u) && !(s.iss.faults.any fun f => f.1 == u)

/-- The member check (R198): every member is checked before any lane parks. -/
def State.members (s : State) (m : Opd) : Members :=
  let g := s.iss.gang
  let mask := s.maskIn (s.iss.lanes.headD 0) m
  let ms := (List.range 32).filter fun i => testN mask i
  if s.iss.lanes.any fun t => s.maskIn t m != mask || !testN mask (s.laneOf t) then .absent
  else if ms.any fun i => s.memberGone g i s.iss.addr then .absent
  else if ms.any fun i => s.memberBehind g i s.iss.addr then .behind
  else .all

/-- Run a cross-lane word once its members are there: latency 8 (R103, R198). -/
def crossLane (s : State) (m : Opd) (f : Nat → Except Cause (List (Res × Word))) : Out' :=
  match s.members m with
  | .absent => faultAll s .memberAbsent
  | .behind => parkAll s (.members s.iss.gang s.iss.addr (s.maskIn (s.iss.lanes.headD 0) m))
  | .all => alu s 8 .none fun _ t => f t

/-- Lanes of a SHFL segment (R196). -/
def segWidth (seg : Nat) : Nat := if seg = 0 then 32 else 2 ^ seg

/-- Source lane of SHFL for a lane, where it is in range (R199). -/
def shflSource (mode : ShMode) (w lane b : Nat) : Option Nat :=
  let sigma := lane / w * w
  match mode with
  | .pick => some (sigma + b % w)
  | .back => if b ≤ lane ∧ sigma ≤ lane - b then some (lane - b) else none
  | .fwd => if lane + b < sigma + w then some (lane + b) else none
  | .mirr => some (sigma + xorN 5 (lane - sigma) (b % w))

/-- SHFL (R199). -/
def execShfl (mode : ShMode) (seg : BitVec 3) (ty : Ty) (pd : BitVec 3) (d a : Opd) (b : SrcI) (m : Opd) (s : State) : Out' :=
  let w := tyBits ty
  crossLane s m fun t => do
    let n ← s.srcI t 32 false b
    let own ← s.src t w a
    match (shflSource mode (segWidth seg.toNat) (s.laneOf t) n).bind s.inLane with
    | some u =>
      let v ← s.src u w a
      return dstWords w d v ++ predWord pd true
    | none => return dstWords w d own ++ predWord pd false

/-- VOTE (R200). -/
def execVote (op : VOp) (ps : BitVec 3) (psn : Bool) (pd : BitVec 3) (d m : Opd) (s : State) : Out' :=
  let qs := s.iss.lanes.map fun t => (s.laneOf t, s.prx t ps psn)
  crossLane s m fun _ =>
    .ok (match op with
      | .all => predWord pd (qs.all fun q => q.2)
      | .any => predWord pd (qs.any fun q => q.2)
      | .eq => predWord pd ((qs.all fun q => q.2) || !(qs.any fun q => q.2))
      | .ballot => dstWords 32 d (maskOf ((qs.filter fun q => q.2).map Prod.fst)))

/-- Whether two keys match (R201): `.f32` keys by value after Operand, others by their bits. -/
def keysMatch (flush : Bool) (ty : Ty) (x y : Nat) : Bool :=
  match ty with
  | .f32 => FVal.eqv (widenExact flush .f32 x none) (widenExact flush .f32 y none)
  | _ => x == y

/-- Keys of the participants with their threads and lanes.
(DESIGN CHOICE, log 91: unsafe.) -/
def State.keys (s : State) (w : Nat) (a : Opd) : List (Nat × Nat × Nat) :=
  s.iss.lanes.map fun t => (t, s.laneOf t, match s.src t w a with
    | .ok v => v
    | .error _ => 0)

/-- MATCH (R201): a NaN lane matches itself alone under `.any`.
(DESIGN CHOICE, log 90: unsafe.) -/
def execMatchKeys (all : Bool) (ty : Ty) (pd : BitVec 3) (d a m : Opd) (s : State) : Out' :=
  let w := tyBits ty
  let ks := s.keys w a
  crossLane s m fun t => do
    let x ← s.src t w a
    let fl := s.flush t
    if all then
      let ok := ks.all fun p => ks.all fun q => p.1 == q.1 || keysMatch fl ty p.2.2 q.2.2
      return dstWords 32 d (if ok then maskOf (ks.map fun k => k.2.1) else 0) ++ predWord pd ok
    else
      return dstWords 32 d (maskOf ((ks.filter fun k => k.1 == t || keysMatch fl ty x k.2.2).map fun k => k.2.1))

/-- Identity of an accumulation (R201). -/
def ropIdentity (op : ROp) (ty : Ty) : Nat :=
  match op with
  | .add | .or | .xor => 0
  | .min => if tySigned ty then 0x7FFFFFFF else 0xFFFFFFFF
  | .max => if tySigned ty then 0x80000000 else 0
  | .and => 0xFFFFFFFF
  | .fadd => 0x80000000
  | .fmin => 0x7F800000
  | .fmax => 0xFF800000

/-- One step of an accumulation (R201). -/
def ropApply (flush : Bool) (op : ROp) (ty : Ty) (acc x : Nat) : Nat :=
  let g := tySigned ty
  match op with
  | .add => (acc + x) % 2 ^ 32
  | .min => if readInt 32 g acc ≤ readInt 32 g x then acc else x
  | .max => if readInt 32 g acc ≤ readInt 32 g x then x else acc
  | .and => andN 32 acc x
  | .or => orN 32 acc x
  | .xor => xorN 32 acc x
  | .fadd => (rne32 flush (FVal.add false (valueOf .f32 acc) (widenExact flush .f32 x none))).toNat
  | .fmin => (rne32 flush (fminmax false (valueOf .f32 acc) (widenExact flush .f32 x none))).toNat
  | .fmax => (rne32 flush (fminmax true (valueOf .f32 acc) (widenExact flush .f32 x none))).toNat

/-- Accumulate the keys in ascending lane order (R201): each thread with the values before and after it, and the total. -/
def accumulate (f : Nat → Nat → Nat) : Nat → List (Nat × Nat × Nat) → List (Nat × Nat × Nat) × Nat
  | acc, [] => ([], acc)
  | acc, (t, _, x) :: rest =>
    let r := accumulate f (f acc x) rest
    ((t, acc, f acc x) :: r.1, r.2)

/-- FLUSH of the launch whose lanes execute. -/
def State.issFlush (s : State) : Bool := s.flush (s.iss.lanes.headD 0)

/-- REDUX (R201). -/
def execRedux (op : ROp) (ty : Ty) (d a m : Opd) (s : State) : Out' :=
  let r := accumulate (ropApply s.issFlush op ty) (ropIdentity op ty) (s.keys 32 a)
  crossLane s m fun t => do
    let _ ← s.src t 32 a
    return dstWords 32 d r.2

/-- SCAN (R201). -/
def execScan (op : ROp) (incl : Bool) (ty : Ty) (d a m : Opd) (s : State) : Out' :=
  let r := accumulate (ropApply s.issFlush op ty) (ropIdentity op ty) (s.keys 32 a)
  crossLane s m fun t => do
    let _ ← s.src t 32 a
    match r.1.find? fun e => e.1 == t with
    | some e => return dstWords 32 d (if incl then e.2.2 else e.2.1)
    | none => return []

end Sys2Proof.Machine
end

