-- ==== Sys2Proof/Machine/Life.lean ====
section
/-! DEFINITION. How lanes are gathered, synchronised and ended: gangs and bins (R215, R366), RECONV's release (R132),
barrier phases (R203), crew-collective register requests (R217), and the end of a thread (R134). -/

namespace Sys2Proof.Machine

/-- A new gang of a crew (R366): its number among the gangs formed on its core decides its pipe.
(DEDUCED, log 80: unsafe.) -/
def State.formGang (s : State) (c : Nat) (r : Rate) : Nat × State :=
  let (n, s) := s.take
  let core := (s.crewAt c).core
  let k := SMap.getD s.formings core 0
  let g : Gang := { Gang.zero with crew := c, rate := r, pipe := k % 16, formed := n, ready := s.cycle, lastIssue := s.cycle }
  (n, { s with gangs := SMap.put s.gangs n g, formings := SMap.put s.formings core (k + 1) })

/-- A thread takes a slot and a lane of a gang. -/
def State.seat (s : State) (t g tid lane : Nat) : State :=
  s.modThr t fun x => { x with gang := g, home := g, tid := tid, lane := lane }

/-- Give the listed threads the listed slots, in lanes from `lane` on. -/
def State.seatAll (s : State) (g : Nat) : Nat → List Nat → List Nat → State
  | lane, t :: ts, i :: is => State.seatAll (s.seat t g i lane) g (lane + 1) ts is
  | _, _, _ => s

/-- Launch a bin into the free slots of its crew as one gang; threads that find no slot wait in it (R215). -/
def State.launchBin (s : State) (b : Nat) : State :=
  match SMap.get? s.bins b with
  | none => s
  | some bin =>
    let slots := s.freeSlots bin.crew
    let now := bin.threads.take slots.length
    match now with
    | [] => { s with bins := SMap.put s.bins b { bin with expired := true } }
    | t :: _ =>
      let (g, s) := s.formGang bin.crew (s.thr t).rate
      let s := s.seatAll g 0 now slots
      let rest := bin.threads.drop now.length
      if rest.isEmpty then { s with bins := SMap.del s.bins b }
      else { s with bins := SMap.put s.bins b { bin with threads := rest, expired := true } }

/-- Launch what waits for a thread slot of a crew: bins that are full, expired or flushed (R215, R370). -/
def State.pumpBins (s : State) (c : Nat) : State :=
  (SMap.keys s.bins).foldl (fun s b =>
    match SMap.get? s.bins b with
    | some bin => if bin.crew = c && (bin.expired || decide (32 ≤ bin.threads.length)) then s.launchBin b else s
    | none => s) s

/-- Whether a position lets a lane held at `addr` in gang `g` go (R132). -/
def State.reconOk (s : State) (g pos : Nat) (addr : DWord) : Bool :=
  match s.posThread g pos with
  | none => true
  | some u =>
    let x := s.thr u
    !x.live || (x.gang == g && (match x.park with
      | some (.recon _ _ _ a) => a == addr
      | _ => false))

/-- Whether a thread is a held lane of the gang whose mask has gathered (R132). -/
def State.reconDone (s : State) (g t : Nat) : Bool :=
  match (s.thr t).park with
  | some (.recon _ mask _ addr) => (List.range 32).all fun i => !testN mask i || s.reconOk g i addr
  | _ => false

/-- Release one held lane to its target; a target that is not the next word is checked here (R132). -/
def State.reconGo (s : State) (t : Nat) (fs : List (Nat × Cause × DWord)) : State × List (Nat × Cause × DWord) :=
  match (s.thr t).park with
  | some (.recon _ _ off addr) =>
    if off = 16 then
      (s.modThr t fun x => { x with pc := addr + 16, park := none, viaTransfer := false, passOnce := false }, fs)
    else
      match s.checkTarget t (addr + off) with
      | none => (s.modThr t fun x => { x with pc := addr + off, park := none, viaTransfer := true, passOnce := false }, fs)
      | some (c, ea) => (s.modThr t fun x => { x with park := none, passOnce := false }, fs ++ [(t, c, ea)])
  | _ => (s, fs)

/-- Release the held lanes of a gang that have gathered, all at once (R132). With `.regroup` the model leaves every
thread in its gang and lane, which R133 and R367 allow. -/
def State.releaseRecon (s : State) (g : Nat) : State :=
  let go := (s.gangThreads g).filter fun t => s.reconDone g t
  let r := go.foldl (fun a t => a.1.reconGo t a.2) (s, [])
  r.1.takeFault g 0xFF 0 r.2

/-- Crews whose threads are members of a barrier (R25). -/
def State.barCrews (s : State) (level owner : Nat) : List Nat :=
  if level = 0 then [owner]
  else if level = 1 then
    let o := s.crewAt owner
    SMap.keys (SMap.keep s.crews fun _ c => c.launch == o.launch && c.cluster == o.cluster)
  else s.launchCrews owner

/-- What owns a barrier of a level for a thread: its crew, the first crew of its cluster, or its launch. -/
def State.barOwner (s : State) (t level : Nat) : Nat :=
  let c := (s.thr t).crew
  if level = 0 then c
  else if level = 1 then (s.barCrews 1 c).headD c
  else s.launchIdOf t

/-- A barrier's record. -/
def State.barAt (s : State) (key : Nat) : Bar := SMap.getD s.bars key { phase := 0, arrived := [] }

/-- A lane leaves a completed phase. -/
def Thread.leaveBar (x : Thread) (key ph : Nat) : Thread :=
  match x.park with
  | some (.barrier k p next) => if k = key ∧ p = ph then { x with park := none, pc := next, viaTransfer := false, passOnce := false } else x
  | _ => x

/-- Complete a barrier's phase if every member thread has arrived or exited (R203, R204): the lanes parked on it go on, those of a
halted crew when it is resumed (R397). -/
def State.completeBar (s : State) (key : Nat) : State :=
  let b := s.barAt key
  let crews := s.barCrews (key / 16 % 4) (key / 64)
  let missing := crews.any fun c => (s.crewAt c).status == .waiting || (s.liveThreads c).any fun t => !b.arrived.contains t
  if b.arrived.isEmpty || missing then s
  else
    { s with bars := SMap.put s.bars key { phase := b.phase + 1, arrived := [] },
             threads := SMap.mapVals (fun _ x => if (s.crewAt x.crew).halted then x else x.leaveBar key b.phase) s.threads }

/-- Complete every phase that can complete. -/
def State.completeBars (s : State) : State := (SMap.keys s.bars).foldl State.completeBar s

/-- A thread's request in a crew-collective word. -/
def State.collectiveOf (s : State) (t : Nat) : Option (Bool × Nat) :=
  match (s.thr t).park with
  | some (.collective grow n _) => some (grow, n)
  | _ => none

/-- A lane goes on after GROW or SHRINK. -/
def Thread.leaveCollective (x : Thread) : Thread :=
  match x.park with
  | some (.collective _ _ next) => { x with park := none, pc := next, viaTransfer := false, passOnce := false }
  | _ => x

/-- A thread without its registers from `n` on (R217). -/
def Thread.cutRegs (x : Thread) (n : Nat) : Thread := { x with regs := SMap.keep x.regs fun i _ => decide (i < n) }

/-- Where a result for a register goes once the crew has `n`: one that it has no more discards it, as p7 does (R13, R217). -/
def Res.within (n : Nat) : Res → Res
  | .v i => if i < n then .v i else .p 7
  | r => r

/-- Set a crew's register count and let its threads go on (R217): what SHRINK discards stays discarded, results still on
their way to it too, so that registers that GROW adds read 0. -/
def State.setRegs (s : State) (c n : Nat) : State :=
  let keep := min n (s.crewAt c).nreg
  let mine (t : Nat) : Bool := (s.thr t).crew == c
  let results := SMap.mapVals (fun _ r => if mine r.thread then { r with regs := r.regs.map (Res.within keep) } else r) s.results
  let s := s.modCrew c fun y => { y with nreg := n, growWant := none }
  { s with results := results,
           threads := SMap.mapVals (fun _ x => if x.crew = c then x.leaveCollective.cutRegs keep else x) s.threads }

/-- Complete a crew-collective request when every live thread has made it (R217): SHRINK at once, GROW to fewer or as
many registers at once, GROW to more when the core grants it (`growGrant`); for a halted crew when it is resumed (R397). -/
def State.completeCollective (s : State) (c : Nat) : State :=
  if (s.crewAt c).halted then s
  else
  match (s.liveThreads c).map s.collectiveOf with
  | some (grow, n) :: rest =>
    if rest.all fun r => r == some (grow, n) then
      let old := (s.crewAt c).nreg
      if grow && decide (old < n) then
        (match (s.crewAt c).growWant with
         | some _ => s
         | none => s.modCrew c fun y => { y with growWant := some (n, s.cycle) })
      else s.setRegs c (if grow then old else if n < old then n else old)
    else s
  | _ => s

/-- A thread ends (R134): its element freezes and loses the thread's reference, its tracked results are discarded, and it is no
longer live. -/
def State.endThread (s : State) (t : Nat) : State :=
  let s := s.freeze t
  let s := match (s.thr t).elem with
    | some e => s.modElem e fun x => { x with exited := true }
    | none => s
  let s := s.dropThread t
  let s := { s with results := SMap.keep s.results fun _ r => r.thread != t }
  s.modThr t fun x => { x with live := false, park := none, pend := [] }

/-- What the end of lanes of a gang can bring about: releases, phases, requests, bin launches and the crew's end. -/
def State.afterEnd (s : State) (g home c : Nat) : State :=
  let s := s.refresh
  let s := s.releaseRecon g
  let s := if home = g then s else s.releaseRecon home
  let s := s.completeBars
  let s := s.completeCollective c
  let s := s.pumpBins c
  s.checkCrewEnd c

/-- End the executing lanes of the word in issue. -/
def State.endLanes (s : State) (ts : List Nat) : State :=
  match ts with
  | [] => s
  | t :: _ =>
    let x := s.thr t
    (ts.foldl State.endThread s).afterEnd x.gang x.home x.crew

end Sys2Proof.Machine
end

