-- ==== Sys2Proof/Machine/Control.lean ====
section
/-! DEFINITION. Control-flow instructions (R129 to R137). -/

namespace Sys2Proof.Machine

/-- NOP (R137). -/
def execNop (s : State) : Out' := forLanes s fun s _ => .done s

/-- Transfer control to a target (R130). -/
def transfer (s : State) (t : Nat) (target : DWord) : LaneRes :=
  match s.checkTarget t target with
  | some (c, ea) => .fault c ea
  | none => .jump s target

/-- Transfer control and write the link pair, within 8 cycles (R130, R131, R470). -/
def transferLink (s : State) (t : Nat) (d : Opd) (target : DWord) : LaneRes :=
  match s.checkTarget t target with
  | some (c, ea) => .fault c ea
  | none => .jump (s.trackVals t (dstWords 64 d ((s.thr t).pc + 16).toNat) (some 8)) target

/-- The target of a relative transfer (R130). -/
def State.relative (s : State) (t : Nat) (off : BitVec 32) : DWord := (s.thr t).pc + sext64 32 off.toNat

/-- BRA (R130). -/
def execBra (off : BitVec 32) (s : State) : Out' := forLanes s fun s t => transfer s t (s.relative t off)

/-- JMP (R130). -/
def execJmp (a : Opd) (s : State) : Out' := forLanes s fun s t => transfer s t (s.rd64 t (regNum a))

/-- CALL (R130). -/
def execCall (d : Opd) (off : BitVec 32) (s : State) : Out' :=
  forLanes s fun s t => transferLink s t d (s.relative t off)

/-- CALLR: the target is read before the link is written (R130). -/
def execCallr (d a : Opd) (s : State) : Out' := forLanes s fun s t => transferLink s t d (s.rd64 t (regNum a))

/-- RET (R130). -/
def execRet (a : Opd) (s : State) : Out' := forLanes s fun s t => transfer s t (s.rd64 t (regNum a))

/-- RECONV (R132): the executing lanes are held; those whose masks have gathered are released. -/
def execReconv (regroup : Bool) (a : Opd) (off : BitVec 32) (s : State) : Out' :=
  let r := forLanes s fun s t =>
    match (if a = .none then .ok 0xFFFFFFFF else s.src t 32 a) with
    | .error c => .fault c 0
    | .ok mask => .stay (s.setPark t (.recon regroup mask (sext64 32 off.toNat) (s.thr t).pc))
  match r with
  | .next s' => .next (s'.releaseRecon s.iss.gang)
  | other => other

/-- EXIT (R134). -/
def execExit (s : State) : Out' := .next (s.endLanes s.iss.lanes)

/-- YIELD (R135): the mark stays until another lane of the gang issues. -/
def execYield (s : State) : Out' :=
  forLanes s fun s t => .done ((s.settleAll t).modThr t fun x => { x with yielded := true })

/-- SLEEP (R136). -/
def execSleep (n : SrcI) (s : State) : Out' :=
  forLanes s fun s t =>
    match s.srcI t 32 false n with
    | .error c => .fault c 0
    | .ok v => .done (s.setPark t (.sleep (s.now + v)))

/-- Whether a parked lane's park can end: its crew is on a core and no debugger holds it there (R383, R397). -/
def State.parkRuns (s : State) (t : Nat) : Bool := (s.crewOf t).status == .resident && !(s.crewOf t).halted

/-- SLEEP_EXPIRY (R136): a sleeping lane whose time has come may issue; not while its crew is evicted or halted (R383, R397). -/
def execSleepExpiry (t : Nat) (s : State) : Out' :=
  match (s.thr t).park with
  | some (.sleep till) =>
    .next (if decide (till ≤ s.now) && s.parkRuns t then s.modThr t fun x => { x with park := none } else s)
  | _ => .next s

end Sys2Proof.Machine
end

