-- ==== Sys2Proof/Machine/Space.lean ====
section
/-! DEFINITION. The address spaces as instructions reach them: the checks of an access in their order (R37, R185), the
window map (R42 to R44), watchpoints (R396), the lot's view and the bytes a thread sees (R41, R183), shadow lines (R337),
stores and read-modify-writes on their way (R187, R195), and the charge in bytes (R356). -/

namespace Sys2Proof.Machine

/-- How the checks of an access end in a lane. -/
inductive Reach
  /-- The access may be performed at a location. -/
  | ok (s : State) (loc : Nat) (host peer : Bool)
  | fault (c : Cause) (ea : DWord)
  /-- The lane is held at the word. -/
  | park (b : Block)
  /-- The lane is parked on a translation. -/
  | stay (s : State)

/-- Location of a byte of a core's register file or accumulator storage as W space shows it. -/
def locWindow (core off : Nat) : Nat := 2 ^ 82 + core * 2 ^ 24 + off

/-- Key of an accumulator element: bank set, tile, row of the whole tile, column (R14). -/
def accKey (bank tile row col : Nat) : Nat := ((bank * 8 + tile) * 256 + row) * 128 + col

/-- The watchpoint that an access to a core's scratchpad meets, while the debugger is attached (R393, R396). `kind` is 1
for a read, 2 for a write and 3 for both. -/
def State.watchHit (s : State) (t core off n kind : Nat) : Option Nat :=
  let c := s.ctxOf t
  if !c.dbgAttach || (s.thr t).passOnce || s.coreOf t ≠ core then none
  else (List.range 4).find? fun i =>
    let w := (c.wps.getD i 0).toNat
    fieldN w 57 7 == core && andN 2 (fieldN w 55 2) kind != 0 &&
    decide (off ≤ fieldN w 0 23 + fieldN w 23 20) && decide (fieldN w 0 23 < off + n)

/-- Absent scratchpad lines among the `n` bytes at a location (R39). -/
def State.absentIn (s : State) (loc n : Nat) : List Nat :=
  s.absent.filter fun ln => decide (lineOf loc ≤ ln) && decide (ln ≤ lineOf (loc + n - 1))

/-- The end of an S or W access to scratchpad: presence, then watchpoints. -/
def State.reachScratch (s : State) (t core off n kind : Nat) (ea : DWord) : Reach :=
  let loc := locScratch core off
  match s.absentIn loc n with
  | ln :: lns => .park (.lines (ln :: lns))
  | [] =>
    match s.watchHit t core off n kind with
    | some i => .fault (.watch i) ea
    | none => .ok s loc false false

/-- MemS's checks (R38, R40, R185). -/
def State.reachS (s : State) (t ea n kind : Nat) : Reach :=
  let c := s.crewOf t
  let e := BitVec.ofNat 64 ea
  if ea % n ≠ 0 then .fault .align e
  else if ea + n > c.sSize then .fault .access e
  else s.reachScratch t c.core (c.sBase + ea) n kind e

/-- A crew on a core whose range a predicate accepts. -/
def State.crewOnCore (s : State) (core : Nat) (p : Crew → Bool) : Option (Nat × Crew) :=
  SMap.find s.crews fun _ c => c.core == core && (c.status == .resident || c.status == .saving) && p c

/-- The crew whose register range holds an offset of a core's register file (R43). -/
def State.regOwner (s : State) (core b : Nat) : Option (Nat × Crew) :=
  s.crewOnCore core fun c => decide (c.regBase ≤ b) && decide (b < c.regBase + 4 * c.threads * c.nreg)

/-- The bank set that a set number of a pair holds: its number and its context. -/
def State.setOf (s : State) (pair set : Nat) : Option (Nat × Nat) :=
  match (s.pairAt pair).sets.getD set none with
  | some (ctx, uid, _) => some (ctx, uid)
  | none => none

/-- Whether storage of a context may be reached through W space by a thread (R44). -/
def State.keyOk (s : State) (t ctx : Nat) : Bool :=
  (s.ctxOf t).dbgPriv || (s.ctxAt ctx).wkey == (s.ctxOf t).wkey

/-- A bank set is halted when a crew of its context on the pair is halted and none there runs (R184); of several crews there the spec
does not speak.
(DESIGN CHOICE, log 107: safe.) -/
def State.bankHalted (s : State) (pair ctx : Nat) : Bool :=
  let here (c : Crew) : Bool := pairOf c.core == pair && c.status == .resident && (s.launchAt c.launch).ctx == ctx
  (SMap.vals s.crews).any (fun c => here c && c.halted) && (SMap.vals s.crews).all fun c => !here c || c.halted

/-- The checks of a W access (R42, R44, R184, R185).
(DESIGN CHOICE, log 85: unsafe.) -/
def State.reachW (s : State) (t ea n : Nat) (write : Bool) : Reach :=
  let e := BitVec.ofNat 64 ea
  let core := ea / 2 ^ 24
  let off := ea % 2 ^ 24
  let no : Reach := .fault .access e
  if ea % n ≠ 0 then .fault .align e
  else if ea ≥ 2 ^ 31 then no
  else if off < 0x800000 then
    match s.crewOnCore core fun c => decide (c.sBase ≤ off) && decide (off + n ≤ c.sBase + c.sSize) with
    | some (_, c) =>
      if s.keyOk t (s.launchAt c.launch).ctx then s.reachScratch t core off n (if write then 2 else 1) e else no
    | none => no
  else if off < 0xA00000 then
    match s.regOwner core (off - 0x800000) with
    | some (_, c) =>
      if s.keyOk t (s.launchAt c.launch).ctx && c.halted then .ok s (locWindow core off) false false else no
    | none => no
  else if off < 0xC00000 then
    if write then no else .ok s (locWeight (pairOf core) (off - 0xA00000)) false false
  else if off < 0xD00000 then
    match s.setOf (pairOf core) ((off - 0xC00000) / 0x80000) with
    | some (ctx, _) =>
      if s.keyOk t ctx && s.bankHalted (pairOf core) ctx then .ok s (locWindow core off) false false else no
    | none => no
  else no

/-- Park a lane on a replayable miss: it joins its die's batch (R375, R388). -/
def State.parkMiss (s : State) (t : Nat) (va : Nat) (acc : Acc) (sp : Sp) (fetch : Bool) : State :=
  let die := dieOf (s.coreOf t)
  let (s, n) := s.joinBatch die (s.ctxIdOf t) va acc sp
  s.setPark t (.xlate die [(n, va / 65536)] fetch [])

/-- Whether the host has refused the page of an address that the lane waited for (R392). -/
def State.pageRefused (s : State) (t va : Nat) : Bool := (s.thr t).refused.contains (va / 65536)

/-- Whether the leaf that maps an address breaks a rule of the instruction on where it may act: `ok` takes HOST and PEER
(R190). -/
def State.leafBreach (s : State) (t va : Nat) (ok : Bool → Bool → Bool) : Bool :=
  match s.leafAt (s.coreOf t) (s.ctxIdOf t) va with
  | .leaf p _ => !ok (testN p 7) (testN p 6)
  | _ => false

/-- The checks of a translated access (R179, R185, R388, R452): ALIGN; the range, and what the instruction forbids of its
address (`bad`) or of the memory that it maps (`ok`); translation, where a lane whose page the host refused faults XLATE
(R392); and a retired line. -/
def State.reachOk (s : State) (t : Nat) (ea : DWord) (n : Nat) (sp : Sp) (acc : Acc) (bad : Bool) (ok : Bool → Bool → Bool) :
    Reach :=
  let va := ea.toNat
  if va % n ≠ 0 then .fault .align ea
  else if fieldN va 52 12 ≠ 0 || bad || s.leafBreach t va ok then .fault .access ea
  else if s.pageRefused t va then .fault .xlate ea
  else
    match translate s (s.coreOf t) (s.ctxIdOf t) va sp acc with
    | .bad c => .fault c ea
    | .ok loc host peer pte bits =>
      if lineRetired s loc then .fault .machineCheck ea
      else .ok (fillTlb s (s.coreOf t) (s.ctxIdOf t) va pte bits) loc host peer
    | .miss => .stay (s.parkMiss t va acc sp false)

/-- The checks of a translated access whose instruction forbids nothing more. -/
def State.reachVirt (s : State) (t : Nat) (ea : DWord) (n : Nat) (sp : Sp) (acc : Acc) : Reach :=
  s.reachOk t ea n sp acc false fun _ _ => true

/-- Address of a byte of a thread's local area (R391). -/
def State.localAddr (s : State) (t off : Nat) : DWord :=
  let x := s.thr t
  let c := s.crewOf t
  let l := s.launchOf t
  let k := s.ctxOf t
  k.localBase + BitVec.ofNat 64 l.slot * k.localStride +
    BitVec.ofNat 64 ((c.idx * l.lrec.threads + x.tid) * l.lrec.localSize) + BitVec.ofNat 64 off

/-- The checks of an L access (R36, R183). The fault address is the offset. -/
def State.reachL (s : State) (t ea n : Nat) (acc : Acc) : Reach :=
  let e := BitVec.ofNat 64 ea
  if ea % n ≠ 0 then .fault .align e
  else if ea + n > (s.launchOf t).lrec.localSize then .fault .access e
  else
    match s.reachVirt t (s.localAddr t ea) n .L acc with
    | .fault c _ => .fault c e
    | r => r

/-- The scope rule of synchronising accesses to other memories (R190). -/
def scopeOk (host peer : Bool) (scope : Nat) : Bool := (!host || scope == 4) && (!peer || decide (3 ≤ scope))

/-- A byte of a core's register file, as W space shows it (R43).
(DESIGN CHOICE, log 84: unsafe.) -/
def State.regByte (s : State) (core b : Nat) : Byte :=
  match s.regOwner core b with
  | none => 0
  | some (ci, c) =>
    let i := (b - c.regBase) / 4
    match SMap.find s.threads fun _ x => x.crew == ci && x.live && x.gang != 0 && x.tid == i / c.nreg with
    | some (_, x) => BitVec.ofNat 8 ((SMap.getD x.regs (i % c.nreg) 0).toNat / 2 ^ (8 * (b % 4)))
    | none => 0

/-- Key of the accumulator element that holds an offset of a core's accumulator storage (R43). -/
def State.accAt (s : State) (core b : Nat) : Option Nat :=
  match s.setOf (pairOf core) (b / 0x80000) with
  | some (_, uid) =>
    some (accKey uid (b % 0x80000 / 0x10000) (b % 0x10000 / 512 + 128 * (core % 2)) (b % 512 / 4))
  | none => none

/-- A byte of a window location. -/
def State.windowByte (s : State) (loc : Nat) : Byte :=
  let core := (loc - 2 ^ 82) / 2 ^ 24
  let off := (loc - 2 ^ 82) % 2 ^ 24
  if off < 0xC00000 then s.regByte core (off - 0x800000)
  else match s.accAt core (off - 0xC00000) with
    | some k => BitVec.ofNat 8 ((SMap.getD s.acc k 0).toNat / 2 ^ (8 * (off % 4)))
    | none => 0

/-- A word with one byte replaced. -/
def setByte (w : Word) (i : Nat) (b : Byte) : Word := BitVec.ofNat 32 (setFieldN w.toNat (8 * i) 8 b.toNat)

/-- Write a byte of a window location.
(DESIGN CHOICE, log 84: unsafe.) -/
def State.putWindow (s : State) (loc : Nat) (v : Byte) : State :=
  let core := (loc - 2 ^ 82) / 2 ^ 24
  let off := (loc - 2 ^ 82) % 2 ^ 24
  if off < 0xC00000 then
    let b := off - 0x800000
    match s.regOwner core b with
    | none => s
    | some (ci, c) =>
      let i := (b - c.regBase) / 4
      match SMap.find s.threads fun _ x => x.crew == ci && x.live && x.gang != 0 && x.tid == i / c.nreg with
      | some (t, x) =>
        s.modThr t fun y => { y with regs := SMap.put y.regs (i % c.nreg) (setByte (SMap.getD x.regs (i % c.nreg) 0) (b % 4) v) }
      | none => s
  else match s.accAt core (off - 0xC00000) with
    | some k => { s with acc := SMap.put s.acc k (setByte (SMap.getD s.acc k 0) (off % 4) v) }
    | none => s

/-- The byte that a store puts at a location of a view: of memory, or of a lot's. -/
def Store.byteAt (st : Store) (l : Nat) (glob : Bool) (loc : Nat) : Option Byte :=
  if st.glob == glob && (!glob || st.launch == l) && decide (st.loc ≤ loc) then st.data[loc - st.loc]? else none

/-- The byte that a core's threads see before it is performed at the device, the latest first (R306).
(DEDUCED, log 92: unsafe.) -/
def State.seenByte (s : State) (core l : Nat) (glob : Bool) (loc : Nat) : Option Byte :=
  (s.seen core).foldl (fun acc i =>
    match (SMap.get? s.stores i).bind fun st => st.byteAt l glob loc with
    | some b => some b
    | none => acc) none

/-- A byte in a lot's view: its shadow where it has written, else the committed byte (R41). -/
def State.lotByte (s : State) (l loc : Nat) : Byte :=
  match SMap.get? (s.launchAt l).shadow loc with
  | some b => b
  | none => s.mem.read loc

/-- A byte as a thread sees it (R41, R306): in the lot's view what the lot has written, with what its core's or gallery's threads
have made visible; else memory with what they have made visible.
(DEDUCED, log 92: unsafe.) -/
def State.viewByte (s : State) (t : Nat) (glob : Bool) (loc : Nat) : Byte :=
  let (core, l) := (s.coreOf t, s.launchIdOf t)
  if loc ≥ 2 ^ 82 then s.windowByte loc
  else match if glob then (s.seenByte core l true loc).or (SMap.get? (s.launchAt l).shadow loc) else none with
    | some b => b
    | none => (s.seenByte core l false loc).getD (s.mem.read loc)

/-- Whether a lot has written all of some bytes itself (R41). -/
def State.ownBytes (s : State) (l loc n : Nat) : Bool :=
  (List.range n).all fun i => (SMap.get? (s.launchAt l).shadow (loc + i)).isSome

/-- A read for a launch goes out on its port where it reads a peer's memory (R426); in a lot's view (`glob`) what the lot has written
itself is not read there. -/
def State.peerRead (s : State) (l : Nat) (glob : Bool) (loc n : Nat) : State :=
  if glob && s.ownBytes l loc n then s else s.peerSend l loc fun a => .read a n

/-- The value of `n` bytes as a thread sees them. -/
def State.viewN (s : State) (t : Nat) (glob : Bool) (loc n : Nat) : Nat :=
  ofBytes ((List.range n).map fun i => s.viewByte t glob (loc + i))

/-- Write bytes to a window or memory location at once. -/
def State.putBytes (s : State) (loc : Nat) : List Byte → State
  | [] => s
  | b :: bs =>
    let s := if loc ≥ 2 ^ 82 then s.putWindow loc b else { s with mem := s.mem.write loc b }
    State.putBytes s (loc + 1) bs

/-- Write bytes into a lot's shadow: their mask bits are then set (R41). -/
def putShadow (m : SMap Byte) (loc : Nat) : List Byte → SMap Byte
  | [] => m
  | b :: bs => putShadow (SMap.put m loc b) (loc + 1) bs

/-- Take the shadow line of a location for a lot, within its quota and past what its hoists have reserved (R290, R337);
none where the quota would be passed. -/
def State.takeLine (s : State) (l loc : Nat) : Option State :=
  let x := s.launchAt l
  let ln := lineOf loc
  if x.lines.contains ln then some s
  else if 512 * x.lrec.quota < x.lines.length + x.reserved + 1 then none
  else some (s.modLaunch l fun x => { x with lines := ln :: x.lines })

/-- Charge bytes without a cut; the cut is made once the word is done (R356, R361). -/
def State.addBytes (s : State) (t n : Nat) : State :=
  s.modLaunch (s.launchIdOf t) fun x => { x with chargeB := x.chargeB + n }

/-- Cut a launch whose charge has passed a bound (R361). -/
def State.cut (s : State) (l : Nat) : State := (s.chargeBytes l 0).chargeC l 0

/-- The launch of the lanes in issue. -/
def State.issLaunch (s : State) : Nat := s.launchIdOf (s.iss.lanes.headD 0)

/-- Run a word that moves bytes, then cut its launch if a bound was passed. -/
def memLanes (s : State) (body : State → Nat → LaneRes) : Out' :=
  match forLanes s body with
  | .next s' => .next (s'.cut s.issLaunch)
  | other => other

/-- The stores of a thread up to a number are performed in the instance of its core, in program order (R304, R306).
(DEDUCED, log 92: unsafe.) -/
def State.toCore (s : State) (t core upto : Nat) : State :=
  let mine := SMap.keys (SMap.keep s.stores fun i st => st.thread == t && decide (i ≤ upto) && !(s.seen core).contains i)
  if mine.isEmpty then s else { s with buffers := SMap.put s.buffers core (SMap.getD s.buffers core [] ++ mine) }

/-- What has been performed in the instance of a core is performed in that of its gallery, in the same order.
(DEDUCED, log 92: unsafe.) -/
def State.toGallery (s : State) (core : Nat) : State :=
  let mine := SMap.getD s.buffers core []
  if mine.isEmpty then s
  else { s with buffers := SMap.put (SMap.del s.buffers core) (128 + core / 4) (SMap.getD s.buffers (128 + core / 4) [] ++ mine) }

/-- The stores of a thread up to a number are performed in the instance of crew (0) or cluster (1) scope. -/
def State.publish (s : State) (t core scope upto : Nat) : State :=
  if scope = 0 then s.toCore t core upto else (s.toCore t core upto).toGallery core

/-- A release of a thread at a scope (R305, R308, R309): the state in which everything before it has been performed in the
instance of that scope; none where the lane has to wait for it. At crew and cluster scope what the thread has stored becomes
visible there, and other agents may see it later than the release.
(DEDUCED, log 31: unsafe.) -/
def State.releaseAt (s : State) (t scope : Nat) : Option State :=
  if scope < 2 then (if s.hasRead t then none else some (s.publish t (s.coreOf t) scope s.fresh))
  else if s.flushed t then some s else none

/-- Whether a thread, or what it sees, has anything still to be performed at the device: what a fork waits for (R312). -/
def State.busy (s : State) (t : Nat) : Bool := !s.flushed t

/-- Release stores of a thread on their way whose scope, with an acquire's, includes an instance in which they have still to be
performed (R323 note 7): with a wider instance than the gallery they wait for the device. -/
def State.acquireWaits (s : State) (t scope : Nat) : Bool :=
  (SMap.vals s.stores).any fun st => st.thread == t && st.release && decide (2 ≤ min st.scope scope)

/-- Whether a thread has something on its way that reads and comes before a number in program order. -/
def State.readBefore (s : State) (t i : Nat) : Bool :=
  ((SMap.vals s.rmws).any fun r => r.thread == t && decide (r.seq < i)) ||
  s.results.any fun kv => kv.2.thread == t && kv.2.load.isSome && decide (kv.1 < i)

/-- An acquire after release stores of the thread: those are performed first in every instance that both scopes include (R323
note 7); none where the lane has to wait.
(DEDUCED, log 31: unsafe.) -/
def State.acquireAt (s : State) (t scope : Nat) : Option State :=
  let rels := SMap.keep s.stores fun _ st => st.thread == t && st.release
  if s.acquireWaits t scope then none
  else match rels.getLast? with
    | none => some s
    | some (i, st) =>
      if s.readBefore t i then none else some (s.publish t st.core (maxList ((SMap.vals rels).map fun x => min x.scope scope)) i)

/-- A read or observation that is performed at issue waits for the thread's acquires on their way (R302, R323). -/
def afterAcquire (s : State) (t : Nat) (k : LaneRes) : LaneRes := if s.acquiring t then .park .acquire else k

/-- A thread has performed a read of its word in issue: its reads still on their way have been overtaken (R308, R315). -/
def State.performedRead (s : State) (t : Nat) : State := s.modThr t fun x => { x with lastRead := s.fresh }

/-- A read of memory that is performed at issue comes after what its thread has on its way to the same bytes (R307, R308). -/
def afterBytes (s : State) (t : Nat) (rs : List (Nat × Nat)) (k : LaneRes) : LaneRes :=
  match rs.find? fun r => !s.bytesClear t false r.1 r.2 false false with
  | some r => .park (.bytes false r.1 r.2 false false)
  | none => k

/-- A thread has read bytes at issue: each part of them goes out where a peer's memory holds it (R426). -/
def State.noteReads (s : State) (t : Nat) (rs : List (Nat × Nat)) : State :=
  (rs.foldl (fun s r => s.peerRead (s.launchIdOf t) false r.1 r.2) s).performedRead t

/-- Send a store to its home (R183, R195). -/
def State.queueStore (s : State) (t : Nat) (glob : Bool) (loc : Nat) (data : List Byte) (release : Bool) (scope : Nat)
    (irq : Option Nat) : State :=
  let (n, s) := s.take
  let st : Store := { thread := t, launch := s.launchIdOf t, core := s.coreOf t, scope := scope, after := [], glob := glob, loc := loc, data := data, release := release,
                      irq := irq, seq := n }
  { s with stores := SMap.put s.stores n st }

end Sys2Proof.Machine
end

