-- ==== Sys2Proof/Machine/Mem.lean ====
section
/-! DEFINITION. Loads, stores, atomics, reductions, PRES, FENCE and PREF (R176 to R195), and the events that perform what
they send (R183, R187, R321). S, L and W stores and S read-modify-writes are performed at issue; loads, D and G stores and D and G
read-modify-writes are sent, and performed by `trackedResultReturn`, `storePerformed` and `homeRmwPerform`. -/

namespace Sys2Proof.Machine

/-- Bytes of an access of a type. -/
def tyBytes (ty : Ty) : Nat := tyBits ty / 8

/-- A loaded value's words (R178). -/
def loadWords (ty : Ty) (d : Opd) (v : Nat) : List (Res × Word) :=
  let w := tyBits ty
  let g := tySigned ty
  if w ≤ 32 then writeInt w g d (readInt w g v) else dstWords w d v

/-- The state in which an access of a thread may go on (R323): every access after an acquiring read-modify-write waits for it,
and an acquire follows the thread's release stores as their scopes say; none where the lane has to wait.
(DEDUCED, log 31: unsafe.) -/
def State.mayGo (s : State) (t : Nat) (ord : BitVec 2) (scope : Nat) : Option State :=
  if s.acquiring t then none else if ord.getLsbD 0 then s.acquireAt t scope else some s

/-- What holds a lane whose access may not go on. -/
def State.mayGoHold (s : State) (t : Nat) : Block := if s.acquiring t then .acquire else .fence 2

/-- Go on with an access that its checks allow, or end the lane as they say. -/
def reached (s : State) (t : Nat) (mm : MemMods) (r : Reach) (k : State → Nat → Bool → Bool → LaneRes) : LaneRes :=
  match r with
  | .fault c ea => .fault c ea
  | .park b => if (s.mayGo t mm.ord mm.scope.toNat).isNone then .park (s.mayGoHold t) else .park b
  | .stay s' => if (s.mayGo t mm.ord mm.scope.toNat).isNone then .park (s.mayGoHold t) else .stay s'
  | .ok s' loc host peer =>
    match s'.mayGo t mm.ord mm.scope.toNat with
    | none => .park (s'.mayGoHold t)
    | some s' => k s' loc host peer

/-- ALIGN comes before every other fault that the access can raise in its lane (R37, R185). -/
def aligned (ea : DWord) (n : Nat) (k : LaneRes) : LaneRes := if ea.toNat % n ≠ 0 then .fault .align ea else k

/-- Send a load (R183, R306): its registers wait until it has been performed and its value returns. -/
def State.queueLoad (s : State) (t : Nat) (q : LoadReq) : State :=
  let (i, s) := s.track t ((loadWords q.ty q.dst 0).map Prod.fst) none none
  { s with results := SMap.modify s.results i fun r => { r with load := some q } }

/-- A load once its location is known: `glob` for the lot's view. One of a peer's memory goes out on its port (R426).
(DEDUCED, log 30: unsafe.) -/
def loadAt (t n : Nat) (mm : MemMods) (ty : Ty) (d : Opd) (glob : Bool) (charged : Bool) (s : State) (loc : Nat) : LaneRes :=
  let q : LoadReq := { glob := glob, loc := loc, n := n, ty := ty, dst := d, acquire := mm.ord.getLsbD 0, remote := mm.remote }
  let s' := (s.queueLoad t q).peerRead (s.launchIdOf t) glob loc n
  .done (if charged then s'.addBytes t n else s')

/-- Whether a synchronising access keeps the scope rule (R190). -/
def orderedOk (mm : MemMods) (host peer : Bool) : Bool := mm.ord == 0 || scopeOk host peer mm.scope.toNat

/-- LDS (R183). -/
def execLds (mm : MemMods) (ty : Ty) (d a : Opd) (s : State) : Out' :=
  forLanes s fun s t =>
    match s.ea32 t a mm.disp with
    | .error c => .fault c 0
    | .ok ea => reached s t mm (s.reachS t ea (tyBytes ty) 1) fun s loc _ _ =>
        loadAt t (tyBytes ty) mm ty d false false s loc

/-- LDG: the lot's view (R41, R183). -/
def execLdg (mm : MemMods) (ty : Ty) (d a : Opd) (s : State) : Out' :=
  memLanes s fun s t =>
    reached s t mm (s.reachVirt t (s.ea64 t a mm.disp) (tyBytes ty) .G .read) fun s loc _ _ =>
      loadAt t (tyBytes ty) mm ty d true true s loc

/-- LDD (R183, R190). -/
def execLdd (mm : MemMods) (ty : Ty) (d a : Opd) (s : State) : Out' :=
  memLanes s fun s t =>
    reached s t mm (s.reachOk t (s.ea64 t a mm.disp) (tyBytes ty) .D .read false (orderedOk mm)) fun s loc _ _ =>
      loadAt t (tyBytes ty) mm ty d false true s loc

/-- LDL (R183, R391). -/
def execLdl (mm : MemMods) (ty : Ty) (d a : Opd) (s : State) : Out' :=
  memLanes s fun s t =>
    match s.ea32 t a mm.disp with
    | .error c => .fault c 0
    | .ok ea => reached s t mm (s.reachL t ea (tyBytes ty) .read) fun s loc _ _ =>
        loadAt t (tyBytes ty) mm ty d false true s loc

/-- LDK: constant memory, which no lot versions (R183). -/
def execLdk (mm : MemMods) (ty : Ty) (d a : Opd) (s : State) : Out' :=
  memLanes s fun s t =>
    reached s t mm (s.reachVirt t (s.ea64 t a mm.disp) (tyBytes ty) .K .read) fun s loc _ _ =>
      loadAt t (tyBytes ty) mm ty d false true s loc

/-- LDW (R183, R184). -/
def execLdw (mm : MemMods) (ty : Ty) (d a : Opd) (s : State) : Out' :=
  forLanes s fun s t =>
    match s.ea32 t a mm.disp with
    | .error c => .fault c 0
    | .ok ea => reached s t mm (s.reachW t ea (tyBytes ty) false) fun s loc _ _ =>
        loadAt t (tyBytes ty) mm ty d false false s loc

/-- The data of a store, or its fault (R178). -/
def State.storeData (s : State) (t : Nat) (ty : Ty) (b : Opd) : Except Cause (List Byte) :=
  match s.src t (tyBits ty) b with
  | .ok v => .ok (bytesOf (tyBytes ty) v)
  | .error c => .error c

/-- A release that is performed at issue: what it follows is performed in its scope's instance first (R323). -/
def State.released (s : State) (t : Nat) (mm : MemMods) : Option State :=
  if mm.ord.getLsbD 1 then s.releaseAt t mm.scope.toNat else some s

/-- A store or read-modify-write that is performed at issue follows the thread's loads of its bytes (R183, R308). -/
def afterLoads (s : State) (t loc n : Nat) (k : LaneRes) : LaneRes :=
  if s.loadOver t loc n then .park (.bytes false loc n false false) else k

/-- A store that is performed at issue. -/
def storeNow (t : Nat) (mm : MemMods) (data : List Byte) (s : State) (loc : Nat) : LaneRes :=
  afterLoads s t loc data.length
    (match s.released t mm with
     | none => .park (.fence mm.scope.toNat)
     | some s => .done (s.putBytes loc data))

/-- The data of a store to an aligned address, then the access itself (R37, R183). -/
def withData (s : State) (t : Nat) (ty : Ty) (b : Opd) (ea : DWord) (k : List Byte → LaneRes) : LaneRes :=
  aligned ea (tyBytes ty)
    (match s.storeData t ty b with
     | .ok data => k data
     | .error c => .fault c 0)

/-- STS (R183). -/
def execSts (mm : MemMods) (ty : Ty) (a b : Opd) (s : State) : Out' :=
  forLanes s fun s t =>
    match s.ea32 t a mm.disp with
    | .error c => .fault c 0
    | .ok ea => withData s t ty b (BitVec.ofNat 64 ea) fun data =>
        reached s t mm (s.reachS t ea (tyBytes ty) 2) fun s loc _ _ => storeNow t mm data s loc

/-- STG: a line of the lot's shadow is taken at issue (R41, R337). -/
def execStg (mm : MemMods) (ty : Ty) (a b : Opd) (s : State) : Out' :=
  memLanes s fun s t =>
    withData s t ty b (s.ea64 t a mm.disp) fun data =>
      reached s t mm (s.reachVirt t (s.ea64 t a mm.disp) (tyBytes ty) .G .write) fun s loc _ _ =>
        match s.takeLine (s.launchIdOf t) loc with
        | none => .fault .shadowQuota 0
        | some s => .done ((s.queueStore t true loc data (mm.ord.getLsbD 1) mm.scope.toNat none).addBytes t (tyBytes ty))

/-- STD (R183, R190). -/
def execStd (mm : MemMods) (ty : Ty) (a b : Opd) (s : State) : Out' :=
  memLanes s fun s t =>
    withData s t ty b (s.ea64 t a mm.disp) fun data =>
      reached s t mm (s.reachOk t (s.ea64 t a mm.disp) (tyBytes ty) .D .write false (orderedOk mm)) fun s loc _ _ =>
        .done ((s.queueStore t false loc data (mm.ord.getLsbD 1) mm.scope.toNat none).addBytes t (tyBytes ty))

/-- STL (R183, R391). -/
def execStl (mm : MemMods) (ty : Ty) (a b : Opd) (s : State) : Out' :=
  memLanes s fun s t =>
    match s.ea32 t a mm.disp with
    | .error c => .fault c 0
    | .ok ea => withData s t ty b (BitVec.ofNat 64 ea) fun data =>
        reached s t mm (s.reachL t ea (tyBytes ty) .write) fun s loc _ _ =>
          afterLoads s t loc (tyBytes ty) (.done ((s.putBytes loc data).addBytes t (tyBytes ty)))

/-- STW (R183, R184). -/
def execStw (mm : MemMods) (ty : Ty) (a b : Opd) (s : State) : Out' :=
  forLanes s fun s t =>
    match s.ea32 t a mm.disp with
    | .error c => .fault c 0
    | .ok ea => withData s t ty b (BitVec.ofNat 64 ea) fun data =>
        reached s t mm (s.reachW t ea (tyBytes ty) true) fun s loc _ _ => storeNow t mm data s loc

/-- The presence mask that PRES reads: a line at or beyond the allocation reads 0 (R193). -/
def State.presence (s : State) (t ea : Nat) : Nat :=
  let c := s.crewOf t
  maskOf ((List.range 32).filter fun i =>
    decide (ea + 128 * i + 128 ≤ c.sSize) && !s.absent.contains (lineOf (locScratch c.core (c.sBase + ea + 128 * i))))

/-- PRES (R193): it never parks. -/
def execPres (mm : MemMods) (d a : Opd) (s : State) : Out' :=
  forLanes s fun s t =>
    match s.ea32 t a mm.disp with
    | .error c => .fault c 0
    | .ok ea =>
      if ea % 128 ≠ 0 then .fault .align (BitVec.ofNat 64 ea)
      else .done (s.trackVals t (dstWords 32 d (s.presence t ea)) (some 16))

/-- The new value of an atomic (R186). -/
def atomicNew (flush : Bool) (op : AOp) (ty : Ty) (old b c : Nat) : Nat :=
  let w := tyBits ty
  let g := tySigned ty
  match op with
  | .add => (old + b) % 2 ^ w
  | .min => if readInt w g old ≤ readInt w g b then old else b
  | .max => if readInt w g old ≤ readInt w g b then b else old
  | .and => andN w old b
  | .or => orN w old b
  | .xor => xorN w old b
  | .exch => b
  | .cas => if old = c then b else old
  | .inc => if old ≥ b then 0 else old + 1
  | .dec => if old = 0 ∨ old > b then b else old - 1
  | .fadd => (rne32 flush (FVal.add false (widenExact flush .f32 old none) (widenExact flush .f32 b none))).toNat
  | .fmin => (rne32 flush (fminmax false (widenExact flush .f32 old none) (widenExact flush .f32 b none))).toNat
  | .fmax => (rne32 flush (fminmax true (widenExact flush .f32 old none) (widenExact flush .f32 b none))).toNat

/-- Whether an atomic writes (R187): a failed CAS does not. -/
def atomicWrites (op : AOp) (old c : Nat) : Bool := op != .cas || old == c

/-- The operands of an atomic in a lane. -/
def State.atomSrc (s : State) (t : Nat) (ty : Ty) (b c : Opd) : Except Cause (Nat × Nat) := do
  let x ← s.src t (tyBits ty) b
  let y ← s.src t (tyBits ty) c
  return (x, y)

/-- The operands of an atomic at an aligned address, then the access itself (R37, R187). -/
def withAtom (s : State) (t : Nat) (ty : Ty) (b c : Opd) (ea : DWord) (k : Nat → Nat → LaneRes) : LaneRes :=
  aligned ea (tyBytes ty)
    (match s.atomSrc t ty b c with
     | .ok (x, y) => k x y
     | .error e => .fault e 0)

/-- ATOMS: indivisible in the scratchpad, performed at issue (R187). -/
def execAtoms (op : AOp) (mm : MemMods) (ty : Ty) (d a b c : Opd) (s : State) : Out' :=
  forLanes s fun s t =>
    match s.ea32 t a mm.disp with
    | .error e => .fault e 0
    | .ok ea => withAtom s t ty b c (BitVec.ofNat 64 ea) fun x y =>
        reached s t mm (s.reachS t ea (tyBytes ty) 3) fun s loc _ _ =>
          afterLoads s t loc (tyBytes ty)
            (match s.released t mm with
             | none => .park (.fence mm.scope.toNat)
             | some s =>
               let old := s.viewN t false loc (tyBytes ty)
               let s := if atomicWrites op old y
                 then s.putBytes loc (bytesOf (tyBytes ty) (atomicNew (s.flush t) op ty old x y)) else s
               .done (s.trackVals t (dstWords (tyBits ty) d old) none))

/-- Send a read-modify-write to its home (R187). -/
def State.queueRmw (s : State) (t : Nat) (glob : Bool) (loc : Nat) (op : AOp) (ty : Ty) (x y : Nat) (mm : MemMods)
    (d : Opd) (reduction : Bool) (window : Option (Nat × Nat)) : State :=
  let regs := (dstWords (tyBits ty) d 0).map Prod.fst
  let (res, s) := if regs.isEmpty then (none, s) else
    let (r, s) := s.track t regs none none
    (some r, s)
  let (n, s) := s.take
  let r : Rmw :=
    { thread := t, launch := s.launchIdOf t, core := s.coreOf t, scope := mm.scope.toNat, remote := mm.remote, glob := glob,
      loc := loc, op := op, ty := ty, b := BitVec.ofNat 64 x, c := BitVec.ofNat 64 y, release := mm.ord.getLsbD 1,
      acquire := mm.ord.getLsbD 0, reduction := reduction, result := res,
      window := window, flush := s.flush t, seq := n }
  { s with rmws := SMap.put s.rmws n r }

/-- Host memory takes FetchAdd, Swap and CAS only (R187). -/
def hostAtomic (op : AOp) : Bool := op == .add || op == .exch || op == .cas

/-- The enabled reduction window of a context that holds an address, with the offset in it (R190, R427). A context without
R18's bit 6 acts as on a device that has no windows.
(DEDUCED, log 97: unsafe.) -/
def State.windowOf (s : State) (ctx va : Nat) : Option (Nat × Nat) :=
  match SMap.find s.dev.windows fun _ w =>
    (s.ctxAt ctx).featc.getLsbD 6 && w.en && w.ctx == ctx && decide (w.base.toNat ≤ va) && decide (va < w.base.toNat + w.size.toNat) with
  | some (i, w) => some (i, va - w.base.toNat)
  | none => none

/-- Operations that a reduction window accepts (R190). -/
def windowOp (op : AOp) : Bool :=
  op == .add || op == .min || op == .max || op == .and || op == .or || op == .xor || op == .fadd

/-- Whether an operation is one that the reduction window at its address does not accept (R190): ACCESS. -/
def State.windowBad (s : State) (t : Nat) (op : AOp) (ea : DWord) : Bool :=
  (s.windowOf (s.ctxIdOf t) ea.toNat).isSome && !windowOp op

/-- Where a D-space read-modify-write may act (R187, R190). -/
def rmwOk (op : AOp) (mm : MemMods) (host peer : Bool) : Bool := scopeOk host peer mm.scope.toNat && (!host || hostAtomic op)

/-- The checks of a D-space read-modify-write (R185, R187, R190). -/
def State.reachRmw (s : State) (t : Nat) (op : AOp) (mm : MemMods) (ty : Ty) (ea : DWord) : Reach :=
  s.reachOk t ea (tyBytes ty) .D .atomic (s.windowBad t op ea) (rmwOk op mm)

/-- A D-space read-modify-write once it is translated (R187, R190): a reduction at fabric scope into a window whose home is
another device becomes a window packet, which needs a route. -/
def rmwD (t : Nat) (op : AOp) (mm : MemMods) (ty : Ty) (d : Opd) (x y : Nat) (ea : DWord) (reduction : Bool)
    (s : State) (loc : Nat) : LaneRes :=
  let win := if reduction && mm.scope = 3 then s.windowOf (s.ctxIdOf t) ea.toNat else none
  let away := win.filter fun w => (SMap.get? s.dev.windows w.1).any fun x => x.home != s.dev.fabid
  if away.any fun w => (SMap.get? s.dev.windows w.1).any fun x => (s.portFor x.home).isNone then .fault .xlate ea
  else .done ((s.queueRmw t false loc op ty x y mm d reduction away).addBytes t (tyBytes ty))

/-- A G-space read-modify-write once it is translated: it takes its shadow line at issue (R188, R337). -/
def rmwG (t : Nat) (op : AOp) (mm : MemMods) (ty : Ty) (d : Opd) (x y : Nat) (reduction : Bool) (s : State) (loc : Nat) :
    LaneRes :=
  match s.takeLine (s.launchIdOf t) loc with
  | none => .fault .shadowQuota 0
  | some s => .done ((s.queueRmw t true loc op ty x y mm d reduction none).addBytes t (tyBytes ty))

/-- ATOMD (R187, R190). -/
def execAtomd (op : AOp) (mm : MemMods) (ty : Ty) (d a b c : Opd) (s : State) : Out' :=
  memLanes s fun s t =>
    withAtom s t ty b c (s.ea64 t a mm.disp) fun x y =>
      reached s t { mm with ord := 0 } (s.reachRmw t op mm ty (s.ea64 t a mm.disp)) fun s loc _ _ =>
        rmwD t op mm ty d x y (s.ea64 t a mm.disp) false s loc

/-- ATOMG (R187, R188). -/
def execAtomg (op : AOp) (mm : MemMods) (ty : Ty) (d a b c : Opd) (s : State) : Out' :=
  memLanes s fun s t =>
    withAtom s t ty b c (s.ea64 t a mm.disp) fun x y =>
      reached s t { mm with ord := 0 } (s.reachVirt t (s.ea64 t a mm.disp) (tyBytes ty) .G .atomic) fun s loc _ _ =>
        rmwG t op mm ty d x y false s loc

/-- REDG (R188, R189). -/
def execRedg (op : AOp) (mm : MemMods) (ty : Ty) (a b : Opd) (s : State) : Out' :=
  memLanes s fun s t =>
    withAtom s t ty b .none (s.ea64 t a mm.disp) fun x y =>
      reached s t { mm with ord := 0 } (s.reachVirt t (s.ea64 t a mm.disp) (tyBytes ty) .G .atomic) fun s loc _ _ =>
        rmwG t op mm ty .none x y true s loc

/-- REDD (R189, R190). -/
def execRedd (op : AOp) (mm : MemMods) (ty : Ty) (a b : Opd) (s : State) : Out' :=
  memLanes s fun s t =>
    withAtom s t ty b .none (s.ea64 t a mm.disp) fun x y =>
      reached s t { mm with ord := 0 } (s.reachRmw t op mm ty (s.ea64 t a mm.disp)) fun s loc _ _ =>
        rmwD t op mm ty .none x y (s.ea64 t a mm.disp) true s loc

/-- FENCE (R195, R305): the lane is held until its earlier accesses have been performed at the scope. -/
def execFence (_ord : BitVec 2) (scope : BitVec 3) (s : State) : Out' :=
  forLanes s fun s t =>
    match s.releaseAt t scope.toNat with
    | none => .park (.fence scope.toNat)
    | some s => .done s

/-- PREF (R194): a translation, and nothing else that a program can observe; SPACE 3 makes it a NOP. -/
def execPref (space : BitVec 2) (_tlb : Bool) (disp : BitVec 24) (a : Opd) (s : State) : Out' :=
  let sp : Sp := if space = 0 then .G else if space = 1 then .D else .K
  forLanes s fun s t =>
    let ea := s.ea64 t a disp
    .done (if space = 3 ∨ fieldN ea.toNat 52 12 ≠ 0 then s else prefetchTlb s (s.coreOf t) (s.ctxIdOf t) ea.toNat sp)

/-- Whether the stores that a core saw before store `i` hold nothing at the device back from it (R306, R307): none of them
touches the bytes. -/
def State.inOrder (s : State) (core i : Nat) (glob : Bool) (loc n : Nat) : Bool :=
  ((s.seen core).takeWhile (· != i)).all fun j => (SMap.get? s.stores j).all fun x => !x.touches glob loc n

/-- Whether a release at device scope or wider has at the device what its thread had seen of its core and gallery when it was
issued (R309, R310). -/
def State.seenLanded (s : State) (core i : Nat) : Bool := ((s.seen core).takeWhile (· != i)).all fun j => decide (i ≤ j)

/-- Whether none of a thread's loads on their way with a lower number keeps an access behind it: none at all for a release, else
none of its bytes (R308, R323). -/
def State.loadsBefore (s : State) (t i : Nat) (release : Bool) (loc n : Nat) : Bool :=
  s.results.all fun kv => kv.2.thread != t || decide (i ≤ kv.1) ||
    kv.2.load.all fun q => !(release || overlap q.loc q.n loc n)

/-- Whether a store may be performed at the device now: after the thread's earlier loads, stores and read-modify-writes of its
bytes, after an earlier acquiring one, after what its core saw of its bytes before, and, for a release, after everything earlier in
the instances of its scope; reductions to its bytes do not hold it (R189, R305, R323).
(DEDUCED, log 31: unsafe.) -/
def State.storeReady (s : State) (st : Store) : Bool :=
  s.mayWrite st.glob st.loc && s.inOrder st.core st.seq st.glob st.loc st.data.length &&
  s.loadsBefore st.thread st.seq st.release st.loc st.data.length &&
  (SMap.vals s.stores).all (fun x => x.thread != st.thread || decide (st.seq ≤ x.seq) ||
    !((st.release && decide (2 ≤ st.scope)) || (x.glob == st.glob && overlap x.loc x.data.length st.loc st.data.length))) &&
  (SMap.vals s.rmws).all (fun r => r.thread != st.thread || decide (st.seq ≤ r.seq) ||
    !(st.release || r.acquire ||
      (!r.reduction && r.glob == st.glob && overlap r.loc (tyBytes r.ty) st.loc st.data.length))) &&
  (!st.release || decide (st.scope < 2) || s.seenLanded st.core st.seq)

/-- A release at crew or cluster scope to `n` bytes is performed (R305, R311): what comes before it has been performed in the
instance of its scope, and the stores among it that the device does not have yet are marked as coming before it. -/
def State.narrowRelease (s : State) (t core scope i loc n : Nat) : State :=
  let s := s.publish t core scope (i - 1)
  let before := (s.seen core).filter fun j => decide (j < i)
  { s with stores := SMap.mapVals (fun j x => if before.contains j then { x with after := (loc, n) :: x.after } else x) s.stores }

/-- Write a location for the lot's view or at once. -/
def State.perform (s : State) (l : Nat) (glob : Bool) (loc : Nat) (data : List Byte) : State :=
  if glob then s.modLaunch l fun x => { x with shadow := putShadow x.shadow loc data }
  else s.putBytes loc data

/-- An access sent by a launch is no longer on its way, and its line is or is not retired: one to a line retired since then aborts
the lot (R452).
(DESIGN CHOICE, log 35: safe.) -/
def State.unlessRetired (s : State) (l : Nat) (glob : Bool) (loc : Nat) (k : State) : State :=
  if !glob && lineRetired s loc then s.abortLot l 0x03 0x01 0 true else k

/-- Perform a store on its way, if it may be now; a SIGNAL's interrupt follows its write (R306, R318). One to a peer's memory
leaves on its port; one to the lot's view leaves with the commit (R426). -/
def State.landStore (s : State) (i : Nat) : State :=
  match SMap.get? s.stores i with
  | none => s
  | some st =>
    if !s.storeReady st then s
    else
      let s := if st.release && decide (st.scope < 2)
        then s.narrowRelease st.thread st.core st.scope i st.loc st.data.length else s
      let s := { s with stores := SMap.del s.stores i, buffers := SMap.mapVals (fun _ b => b.filter (· ≠ i)) s.buffers }
      s.unlessRetired st.launch st.glob st.loc
        (let s := s.perform st.launch st.glob st.loc st.data
         let s := if st.glob then s else s.peerSend st.launch st.loc fun a => .write a st.data
         let s := match st.irq with
           | some v => s.raise v
           | none => s
         s.checkReady st.launch)

/-- STORE_PERFORMED (R306, R318). -/
def execStorePerformed (i : Nat) (s : State) : Out' := .next (s.landStore i)

/-- Whether a read-modify-write may be performed now: after the thread's earlier ones to its line, after its earlier loads of its
bytes, after its earlier stores to its bytes unless it is a reduction, after what its core sees of its bytes, for a release after everything earlier
in the instances of its scope, and for a `.remote` one after what comes before the releases to its bytes (R189, R305, R311,
R321, R323).
(DEDUCED, log 93: safe.) -/
def State.rmwReady (s : State) (r : Rmw) : Bool :=
  s.mayWrite r.glob r.loc && s.inOrder r.core r.seq r.glob r.loc (tyBytes r.ty) &&
  s.loadsBefore r.thread r.seq r.release r.loc (tyBytes r.ty) &&
  !(r.remote && s.behindRelease r.loc (tyBytes r.ty)) &&
  (!r.release || decide (r.scope < 2) || s.seenLanded r.core r.seq) &&
  (SMap.vals s.rmws).all (fun x => x.thread != r.thread || decide (r.seq ≤ x.seq) ||
    !(r.release || x.acquire || (x.glob == r.glob && lineOf x.loc == lineOf r.loc))) &&
  (SMap.vals s.stores).all (fun x => x.thread != r.thread || decide (r.seq ≤ x.seq) ||
    !((r.release && decide (2 ≤ r.scope)) ||
      (!r.reduction && x.glob == r.glob && overlap x.loc x.data.length r.loc (tyBytes r.ty))))

/-- A byte at the home, in the view of a read-modify-write. -/
def State.homeN (s : State) (r : Rmw) : Nat :=
  ofBytes ((List.range (tyBytes r.ty)).map fun i =>
    if r.glob then s.lotByte r.launch (r.loc + i) else s.mem.read (r.loc + i))

/-- The window packet of a reduction that goes to another home (R190, R428), on VC3 (R425). -/
def State.windowPacket (s : State) (r : Rmw) (w off : Nat) : State :=
  let home := SMap.getD s.dev.windows w { base := 0, size := 0, ctx := 0, wid := 0, home := 0, en := false }
  match s.portFor home.home with
  | some port => s.send (.window port 3 home.home home.wid off r.op r.ty 1 r.b)
  | none => s

/-- A read-modify-write leaves for the memory it acts on: another device's home as a window packet, a peer as a request. In the
lot's view it reads there what the lot has not written, and writes at the commit (R188, R426). -/
def State.rmwSend (s : State) (r : Rmw) : State :=
  match r.window with
  | some (w, off) => s.windowPacket r w off
  | none =>
    if r.glob then s.peerRead r.launch true r.loc (tyBytes r.ty)
    else s.peerSend r.launch r.loc fun a => .atomic a r.op r.ty r.b r.c

/-- Whether a read-modify-write changes what this device's own reads of its location give: not where its window's home is
another device while its page lies in this one's HBM (R190, R428). -/
def Rmw.actsHere (r : Rmw) : Bool := r.window.isNone || (peerOf r.loc).isSome

/-- Perform a read-modify-write on its way, if it may be now: one indivisible step, once; its old value returns (R187 to
R191). One to a peer's memory, or to a window with another home, leaves on its port.
(DEDUCED, log 93: safe.) -/
def State.landRmw (s : State) (i : Nat) : State :=
  match SMap.get? s.rmws i with
  | none => s
  | some r =>
    if !s.rmwReady r then s
    else
      let s := if r.release && decide (r.scope < 2) then s.narrowRelease r.thread r.core r.scope i r.loc (tyBytes r.ty) else s
      let s := { s with rmws := SMap.del s.rmws i }
      s.unlessRetired r.launch false r.loc
        (let s := s.rmwSend r
         let old := s.homeN r
         let new := atomicNew r.flush r.op r.ty old r.b.toNat r.c.toNat
         let writes := atomicWrites r.op old r.c.toNat && r.actsHere && (!r.glob || (s.launchAt r.launch).status.open_)
         let s := if writes then s.perform r.launch r.glob r.loc (bytesOf (tyBytes r.ty) new) else s
         let vals := if tyBits r.ty = 64 then [BitVec.ofNat 32 old, BitVec.ofNat 32 (old / 2 ^ 32)] else [BitVec.ofNat 32 old]
         let s := if r.result.isSome then s.modThr r.thread fun x => { x with lastRead := max x.lastRead r.seq } else s
         (s.deliverOpt r.result vals).checkReady r.launch)

/-- Whether a load may be performed now (R307, R308, R311, R323): after the thread's earlier loads, stores and read-modify-writes
of its bytes, for an acquire after the stores to them that its core sees early, and for a `.remote` one after what comes before
a release to them.
(DEDUCED, log 30: unsafe.) -/
def State.loadReady (s : State) (t i : Nat) (q : LoadReq) : Bool :=
  s.loadsBefore t i false q.loc q.n &&
  (SMap.vals s.stores).all (fun x => x.thread != t || decide (i ≤ x.seq) || !x.touches q.glob q.loc q.n) &&
  (SMap.vals s.rmws).all (fun x => x.thread != t || decide (i ≤ x.seq) ||
    !x.touches q.glob q.loc q.n) &&
  !(q.acquire && s.seenOver (s.coreOf t) q.glob q.loc q.n) && !(q.remote && s.behindRelease q.loc q.n)

/-- Perform a load on its way, if it may be now: its value is fixed (R306). A line retired since its issue aborts its lot
(R452).
(DEDUCED, log 30: unsafe.) -/
def State.landLoad (s : State) (i : Nat) : State :=
  match SMap.get? s.results i with
  | none => s
  | some r =>
    match r.load with
    | none => s
    | some q =>
      if !s.loadReady r.thread i q then s
      else if lineRetired s q.loc then s.abortLot (s.launchIdOf r.thread) 0x03 0x01 0 true
      else
        let vals := (loadWords q.ty q.dst (s.viewN r.thread q.glob q.loc q.n)).map Prod.snd
        ({ s with results := SMap.put s.results i { r with vals := some vals, load := none } }).modThr r.thread fun x =>
          { x with lastRead := max x.lastRead i }

/-- Perform the loads on their way from a core's scratchpad, registers and accumulators, before what those hold leaves the core
or runs on. -/
def State.landNear (s : State) (core : Nat) : State :=
  let here (loc : Nat) : Bool :=
    (decide (2 ^ 80 ≤ loc) && decide (loc < 2 ^ 81) && (loc - 2 ^ 80) / 2 ^ 23 == core) ||
    (decide (2 ^ 82 ≤ loc) && (loc - 2 ^ 82) / 2 ^ 24 == core)
  (SMap.keys (SMap.keep s.results fun _ r => r.load.any fun q => here q.loc)).foldl State.landLoad s

/-- HOME_RMW_PERFORM (R187 to R191). -/
def execHomeRmwPerform (i : Nat) (s : State) : Out' := .next (s.landRmw i)

/-- Perform at the device what galleries, then cores, see already, in its order there; then everything on its way of the
threads (thread and launch) that a test accepts, in the order in which it was sent (R303, R390 DONE, R455). -/
def State.drain (s : State) (p : Nat → Nat → Bool) : State :=
  let near := (SMap.keep s.buffers fun k _ => decide (128 ≤ k)) ++ SMap.keep s.buffers fun k _ => decide (k < 128)
  let s := (near.flatMap Prod.snd).foldl State.landStore s
  let ks := SMap.keys ((SMap.keys (SMap.keep s.stores fun _ x => p x.thread x.launch) ++
    SMap.keys (SMap.keep s.rmws fun _ x => p x.thread x.launch) ++
    SMap.keys (SMap.keep s.results fun _ x => x.load.isSome && p x.thread (s.launchIdOf x.thread))).foldl
      (fun m k => SMap.put m k ()) [])
  ks.foldl (fun s k => ((s.landStore k).landRmw k).landLoad k) s

/-- The bytes that a lot is about to commit come after every read of them that a later read of its thread has overtaken (R315).
(DEDUCED, log 30: unsafe.) -/
def State.landOvertaken (s : State) (l : Nat) : State :=
  let w := (s.launchAt l).shadow
  let meets (loc n : Nat) : Bool := (List.range n).any fun i => (SMap.get? w (loc + i)).isSome
  let late (t i : Nat) : Bool := decide (i < (s.thr t).lastRead)
  let ts := ((s.results.filter fun kv => late kv.2.thread kv.1 && kv.2.load.any fun q => meets q.loc q.n).map fun kv => kv.2.thread) ++
    ((SMap.vals s.rmws).filter fun r => late r.thread r.seq && meets r.loc (tyBytes r.ty)).map fun r => r.thread
  s.drain fun t _ => ts.contains t

/-- TRACKED_RESULT_RETURN (R104): a load still on its way is performed, and a tracked result whose value is known is written. -/
def execTrackedResultReturn (r : Nat) (s : State) : Out' := .next ((s.landLoad r).returnResult r)

end Sys2Proof.Machine
end

