-- ==== Sys2Proof/Machine/Stockpile.lean ====
section
/-! DEFINITION. Elements and the stockpile: footprints, copies, charges and who is served (R34, R248, R341 to R344, R467),
and making an element with its thread (R30, R241, R409). -/

namespace Sys2Proof.Machine

/-- The image of a launch's entry procedure. -/
def State.launchImage (s : State) (l : Nat) : Option Image :=
  let x := s.launchAt l
  s.imageAt x.ctx x.lrec.entry

/-- Registers that the held map gives a rate (R248). -/
def Image.owned (i : Image) (r : Rate) : Nat := (i.held.filter fun y => y == rateCode r).length

/-- An element's footprint, rounded up to 16 bytes (R342). -/
def State.footprint (s : State) (l : Nat) (r : Rate) : Nat :=
  match s.launchImage l with
  | some i => alignUp (4 * i.owned r) 16
  | none => 0

/-- Whether threads of rate `y` read registers that rate `x` owns (R34, R68). -/
def State.reads (s : State) (l : Nat) (x y : Rate) : Bool :=
  match s.launchImage l with
  | some i => i.liveMask (rateCode x) (rateCode y) != 0
  | none => false

/-- Whether the entry procedure has a word at a rate (R241). -/
def State.hasRate (s : State) (l : Nat) (r : Rate) : Bool :=
  match s.launchImage l with
  | some i => i.rates.getD (rateCode r) false
  | none => false

/-- All the ancestors of an element, its vertices among them (R30). -/
def Elem.ancestors (e : Elem) : List Nat := e.anc.map Prod.snd ++ e.verts

/-- Ancestors whose registers the element's rate reads, for which it counts (R34): none for a ray spawned `.nohold`. -/
def State.readAncestors (s : State) (e : Elem) : List Nat :=
  if e.nohold then [] else e.ancestors.filter fun a => s.reads e.launch (s.elemAt a).rate e.rate

/-- Ancestors of which an element on a core needs a copy that is not there yet (R342): none for a ray that may read none of
them (R246). -/
def State.newCopies (s : State) (e : Elem) : List Nat :=
  if e.barred then [] else (s.readAncestors e).filter fun a => (s.elemAt a).core != e.core && !((s.elemAt a).copies.any fun c => c.1 == e.core)

/-- Bytes that creating elements charges: their footprints and the copies that are not there yet (R342). -/
def State.chargeOf (s : State) (ps : List Elem) : Nat :=
  let own := sumList (ps.map fun p => s.footprint p.launch p.rate)
  let cs := (ps.flatMap s.newCopies).dedup
  own + sumList (cs.map fun a => s.footprint (s.elemAt a).launch (s.elemAt a).rate)

/-- Rates of a draw, coarse to fine. -/
def drawRates : List Rate := [.F, .O, .C, .V, .K, .S, .Y]

/-- The draw block of a launch. -/
def State.drawRec (s : State) (l : Nat) : DrawRec :=
  match (s.launchAt l).ext.draw with
  | some d => d
  | none => { stall := 0, share := 0, reserves := [], nobj := 0, objTab := 0, clTab := 0, objects := [], clusters := [], indices := [] }

/-- RES of a rate (R341). -/
def DrawRec.reserve (d : DrawRec) (r : Rate) : Nat := d.reserves.getD (rateCode r - 1) 0

/-- The shared part of the share, in bytes (R341). -/
def DrawRec.shared (d : DrawRec) : Nat := 4096 * d.share - sumList d.reserves

/-- Bytes of a draw charged to a rate on a core, creations that were granted among them (R343).
(DESIGN CHOICE, log 43: safe.) -/
def State.usedBy (s : State) (l core : Nat) (r : Rate) : Nat :=
  let own := sumList ((SMap.vals s.elems).map fun e =>
    if e.launch = l && e.core == core && e.rate == r && !e.released then s.footprint l r else 0)
  let cps := sumList ((SMap.vals s.elems).map fun e =>
    if e.launch = l && e.copies.contains (core, r) then s.footprint l e.rate else 0)
  let gr := sumList ((SMap.vals s.creations).map fun c =>
    if c.launch = l && c.granted && c.rate == r && (c.protos.headD Elem.zero).core == core then s.chargeOf c.protos else 0)
  own + cps + gr

/-- The key of a rate's bytes on a core. -/
def shareKey (core : Nat) (r : Rate) : Nat := 8 * core + rateCode r

/-- Bytes of the shared part that a rate holds on a core (R343): what it took there, less what it has freed since and its reserve
had no more room for. -/
def State.sharedBy (s : State) (l core : Nat) (r : Rate) : Nat :=
  let used := s.usedBy l core r
  let took := match (s.launchAt l).draw with
    | some d => SMap.getD d.inShared (shareKey core r) 0
    | none => 0
  max (used - (s.drawRec l).reserve r) (min took used)

/-- What `n` more bytes for a rate take from the shared part: what its reserve has no room for (R343). -/
def State.beyond (s : State) (l core : Nat) (r : Rate) (n : Nat) : Nat :=
  n - ((s.drawRec l).reserve r - (s.usedBy l core r - s.sharedBy l core r))

/-- Whether `n` more bytes for a rate fit on a core (R343). -/
def State.fits (s : State) (l core : Nat) (r : Rate) (n : Nat) : Bool :=
  s.beyond l core r n == 0 ||
  decide (sumList (drawRates.map fun q => s.sharedBy l core q) + s.beyond l core r n ≤ (s.drawRec l).shared)

/-- The elements of a creation that take their storage together. A K or S quad takes it all at once where there is room or its
reserve holds it, and else one element at a time, so that none waits for a finer rate (R345); the grid of a DICE takes it one
element at a time only where all of it could never have it.
(DEDUCED, log 98: unsafe.) -/
def State.together (s : State) (c : Creation) : List Elem :=
  let d := s.drawRec c.launch
  let n := s.chargeOf c.protos
  let core := (c.protos.headD Elem.zero).core
  let all := if c.rate == .K || c.rate == .S then decide (n ≤ d.reserve c.rate) || s.fits c.launch core c.rate n
    else decide (n ≤ d.reserve c.rate + d.shared)
  if all then c.protos else c.protos.take 1

/-- Whether creating elements would take shared bytes. -/
def State.takesShared (s : State) (l core : Nat) (r : Rate) (n : Nat) : Bool := decide (0 < s.beyond l core r n)

/-- The core that a creation is for. -/
def Creation.core (c : Creation) : Nat := (c.protos.headD Elem.zero).core

/-- The number of its first element in the draw record, for the order of record creations (R467). -/
def Creation.firstIdx (c : Creation) : Nat := (c.protos.headD Elem.zero).idx

/-- Whether all ancestors of the elements are frozen (R241). -/
def State.ancestorsFrozen (s : State) (ps : List Elem) : Bool :=
  ps.all fun p => p.ancestors.all fun a => (s.elemAt a).frozen || (SMap.get? s.elems a).isNone

/-- Whether the creation waits for bytes: it was attempted and has not been made. -/
def Creation.stalled (c : Creation) : Bool := c.attempted && !c.granted && !c.failed

/-- The place of a creation in the order of first attempts (R467); one that is attempted for the first time comes last. -/
def State.turnOf (s : State) (c : Creation) : Nat := if c.turn = 0 then s.fresh else c.turn

/-- Whether a record creation is held back: an earlier one of its rate that the record defines has not got its bytes (R467). -/
def State.heldBack (s : State) (r : Nat) (c : Creation) : Bool :=
  c.fromRecord && s.creations.any fun kv =>
    let o := kv.2
    kv.1 != r && o.launch == c.launch && !o.granted && !o.failed && o.fromRecord && o.rate == c.rate &&
    decide (o.firstIdx < c.firstIdx)

/-- Whether another stalled creation of the same draw and core comes before this one (R343, R467): an older one of its
rate; and where it would take shared bytes, any of a finer rate. -/
def State.servedBefore (s : State) (r : Nat) (c : Creation) : Bool :=
  let shared := s.takesShared c.launch c.core c.rate (s.chargeOf (s.together c))
  s.creations.any fun kv =>
    let o := kv.2
    kv.1 != r && o.launch == c.launch && !o.granted && !o.failed &&
    ((o.stalled && o.core == c.core && o.rate == c.rate && decide (s.turnOf o < s.turnOf c)) ||
     (shared && o.stalled && o.core == c.core && decide (rateCode c.rate < rateCode o.rate)))

/-- Whether a creation can have its bytes now. -/
def State.creationFits (s : State) (r : Nat) (c : Creation) : Bool :=
  s.fits c.launch c.core c.rate (s.chargeOf (s.together c)) && !s.servedBefore r c

/-- A rate holds so many bytes of the shared part on a core. -/
def Draw.holds (d : Draw) (k n : Nat) : Draw := { d with inShared := SMap.put d.inShared k n }

/-- The elements of a creation that take their storage together take it: from their rate's reserve, and what it has no room for
from the shared part (R343). -/
def State.takeBytes (s : State) (c : Creation) : State :=
  let n := s.sharedBy c.launch c.core c.rate + s.beyond c.launch c.core c.rate (s.chargeOf (s.together c))
  let k := shareKey c.core c.rate
  s.modLaunch c.launch fun x => { x with draw := x.draw.map fun d => d.holds k n }

/-- What is left of a creation once its first elements have their storage asks anew.
(DEDUCED, log 98: unsafe.) -/
def State.askRest (s : State) (c : Creation) (k : Nat) : State :=
  let ps := c.protos.drop k
  if ps.isEmpty then s
  else
    let (n, s) := s.take
    let rest : Creation := { c with protos := ps, attempted := false, since := 0, turn := 0, granted := false, cause := none }
    { s with creations := SMap.put s.creations n rest }

/-- A creation gets its bytes (R343). Where a lane has asked for it, the lane goes on with what has them; else the rest asks
anew.
(DEDUCED, log 98: unsafe.) -/
def State.grant (s : State) (r : Nat) (c : Creation) : State :=
  let now := s.together c
  let s := s.takeBytes c
  let s := { s with creations := SMap.put s.creations r { c with protos := now, granted := true } }
  if c.cause.isSome then s else s.askRest c now.length

/-- Put an element into the machine: it counts as a reader of its ancestors, and the copies it needs are made (R34,
R342). -/
def State.addElem (s : State) (p : Elem) : Nat × State :=
  let (n, s) := s.take
  let cs := s.newCopies p
  let rs := s.readAncestors p
  let s := cs.foldl (fun s a => s.modElem a fun x => { x with copies := (p.core, p.rate) :: x.copies }) s
  let s := rs.foldl (fun s a => s.modElem a fun x => { x with readers := n :: x.readers }) s
  (n, { s with elems := SMap.put s.elems n p })

/-- A new thread of a crew at a rate, at the entry address of its launch or another, with its first registers (R10).
(DESIGN CHOICE, log 10: safe.) -/
def State.addThread (s : State) (crew : Nat) (r : Rate) (pc : DWord) (regs : List Word) (elem : Option Nat) : Nat × State :=
  let (n, s) := s.take
  let rg : SMap Word := (List.range regs.length).map fun i => (i, regs.getD i 0)
  let x : Thread := { Thread.zero with crew := crew, rate := r, pc := pc, regs := rg, live := true, elem := elem }
  (n, { s with threads := SMap.put s.threads n x })

/-- The next `%elem` of a rate in a draw (R242). -/
def Draw.next (d : Draw) (r : Rate) : Nat :=
  match r with
  | .K => d.nextK
  | .S => d.nextS
  | .Y => d.nextY
  | _ => d.nextV

/-- Count a new element of a rate (R242). -/
def Draw.step (d : Draw) (r : Rate) : Draw :=
  match r with
  | .K => { d with nextK := d.nextK + 1 }
  | .S => { d with nextS := d.nextS + 1 }
  | .Y => { d with nextY := d.nextY + 1 }
  | _ => d

/-- Change the draw of a launch. -/
def State.modDraw (s : State) (l : Nat) (f : Draw → Draw) : State :=
  s.modLaunch l fun x => { x with draw := x.draw.map f }

/-- The draw of a launch, empty where it has none. -/
def State.drawOf (s : State) (l : Nat) : Draw :=
  match (s.launchAt l).draw with
  | some d => d
  | none => { inShared := [], dice := [], nextV := 0, nextK := 0, nextS := 0, nextY := 0, prims := [], samples := [], target := [], written := false }

/-- Number an element as it is created: K, S and Y elements in creation order, the others as their record or grid says
(R242). -/
def State.numberElem (s : State) (p : Elem) : Elem × State :=
  match p.rate with
  | .K | .S | .Y => ({ p with idx := (s.drawOf p.launch).next p.rate }, s.modDraw p.launch fun d => d.step p.rate)
  | _ => (p, s)

/-- Create the elements of a creation with one thread each, in one gang's lanes in order (R243, R366, R409). -/
def State.makeElems (s : State) (crew g : Nat) (pc : DWord) (regs : List Word) : Nat → List Elem → State × List Nat
  | _, [] => (s, [])
  | lane, p :: ps =>
    let (p, s) := s.numberElem p
    let (e, s) := s.addElem p
    let (t, s) := s.addThread crew p.rate pc regs (some e)
    let s := s.seat t g ((s.freeSlots crew).headD 0) lane
    let r := State.makeElems s crew g pc regs (lane + 1) ps
    (r.1, e :: r.2)

end Sys2Proof.Machine
end

