-- ==== Sys2Proof/Machine/Sync.lean ====
section
/-! DEFINITION. Barriers, chutes, WAIT, messages, spawning, work splitting, register requests and SIGNAL (R202 to R219),
and the events that complete them. LAUNCH stands with the queues. -/

namespace Sys2Proof.Machine

/-- BAR (R203, R205): arriving is a release at the level's scope. -/
def execBar (level op : BitVec 2) (id : BitVec 4) (s : State) : Out' :=
  let r := forLanes s fun s t =>
    if level = 2 && !(s.launchOf t).lrec.resid then .fault .access 0
    else
      let key := barKey level.toNat (s.barOwner t level.toNat) id.toNat
      let b := s.barAt key
      let next := (s.thr t).pc + 16
      if op = 2 then
        (match SMap.get? (s.thr t).arrivals key with
         | some p => if p = b.phase then .stay (s.setPark t (.barrier key p next)) else .done s
         | none => .done s)
      else
      match s.releaseAt t level.toNat with
      | none => .park (.fence level.toNat)
      | some s =>
      if b.arrived.contains t then .park (.phase key b.phase)
      else
        let s := { s with bars := SMap.put s.bars key { b with arrived := b.arrived ++ [t] } }
        let s := s.modThr t fun x => { x with arrivals := SMap.put x.arrivals key b.phase }
        if op = 0 then .stay (s.setPark t (.barrier key b.phase next)) else .done s
  match r with
  | .next s' => .next s'.completeBars
  | other => other

/-- Position in the gallery of a chute selector (R202 SEL). -/
def selPos (sel : BitVec 6) : Nat := sel.toNat / 16

/-- Number of a chute in a selector (R202 SEL). -/
def selChute (sel : BitVec 6) : Nat := sel.toNat % 16

/-- The crew and the chute that a selector names for a thread; none faults ACCESS (R206).
(DESIGN CHOICE, log 94: unsafe.) -/
def State.chuteFor (s : State) (t : Nat) (sel : BitVec 6) : Option (Nat × Nat) :=
  match s.clusterCrew (s.thr t).crew (selPos sel) with
  | some c => if ((s.crewAt c).chute (selChute sel)).cap = 0 then none else some (c, selChute sel)
  | none => none

/-- Change a chute of a crew. -/
def State.modChute (s : State) (c k : Nat) (f : Chute → Chute) : State := s.modCrew c fun x => x.setChute k f

/-- What held a lane at the word that now issues. -/
def State.heldBy (s : State) (t : Nat) : Option Block :=
  match s.iss.held.find? fun h => h.1 == t with
  | some h => some h.2
  | none => none

/-- The place of a lane in the order of those that wait to put (R207): its own, or one behind all. -/
def State.putSeq (s : State) (t c k : Nat) : Nat :=
  match s.heldBy t with
  | some (.chutePut c' k' n) => if c' = c ∧ k' = k then n else s.fresh
  | _ => s.fresh

/-- The place of a lane in the order of those that wait to take (R207). -/
def State.getSeq (s : State) (t c k : Nat) : Nat :=
  match s.heldBy t with
  | some (.chuteGet c' k' n) => if c' = c ∧ k' = k then n else s.fresh
  | _ => s.fresh

/-- Use up the number that a new place in an order took. -/
def State.bump (s : State) : State := { s with fresh := s.fresh + 1 }

/-- CHDROP (R207, R208): a release at cluster scope.
(DEDUCED, log 14: unsafe.) -/
def execChdrop (try_ : Bool) (pd : BitVec 3) (sel : BitVec 6) (a : Opd) (s : State) : Out' :=
  forLanes s fun s t =>
    match s.src32 t a, s.chuteFor t sel with
    | .error c, _ => .fault c 0
    | _, none => .fault .access 0
    | .ok v, some (c, k) =>
      match s.releaseAt t 1 with
      | none => .park (.fence 1)
      | some s =>
        let n := s.putSeq t c k
        let room := decide (0 < ((s.crewAt c).chute k).free)
        if room && (try_ || s.chuteFirst c k n true) then
          let s := s.modChute c k fun x => { x with toks := x.toks ++ [v] }
          .done (if try_ then s.trackVals t (predWord pd true) none else s)
        else if try_ then .done (s.trackVals t (predWord pd false) none)
        else .stay ((s.setPark t (.retry (.chutePut c k n))).bump)

/-- CHTAKE (R207).
(DEDUCED, log 14: unsafe.) -/
def execChtake (try_ : Bool) (pd : BitVec 3) (sel : BitVec 6) (d : Opd) (s : State) : Out' :=
  forLanes s fun s t =>
    match s.chuteFor t sel with
    | none => .fault .access 0
    | some (c, k) =>
      let n := s.getSeq t c k
      afterAcquire s t <| match ((s.crewAt c).chute k).toks with
      | v :: rest =>
        if try_ || s.chuteFirst c k n false then
          let s := s.modChute c k fun x => { x with toks := rest, held := x.held + 1 }
          .done (s.trackVals t (dstWords 32 d v.toNat ++ (if try_ then predWord pd true else [])) none)
        else .stay ((s.setPark t (.retry (.chuteGet c k n))).bump)
      | [] =>
        if try_ then .done (s.trackVals t (predWord pd false) none)
        else .stay ((s.setPark t (.retry (.chuteGet c k n))).bump)

/-- CHFREE (R207, R208): a release at cluster scope. -/
def execChfree (sel : BitVec 6) (s : State) : Out' :=
  forLanes s fun s t =>
    match s.chuteFor t sel with
    | none => .fault .access 0
    | some (c, k) =>
      if ((s.crewAt c).chute k).held = 0 then .fault .access 0
      else
        match s.releaseAt t 1 with
        | none => .park (.fence 1)
        | some s => .done (s.modChute c k fun x => { x with held := x.held - 1 })

/-- A condition block as the registers hold it (R209). -/
def State.condAt (s : State) (t n : Nat) : WCond :=
  let f := (s.rd t (n + 3)).toNat
  { kind := fieldN f 0 4, addr := s.rd64 t n, val := s.rd t (n + 2), ext := testN f 8, sgn := testN f 7, cmp := fieldN f 4 3 }

/-- The checks on a block's own values (R209): true of a bad one. Bits of ARG0 above a register number and above a selector are
ignored: the spec does not say that they are bad.
(DESIGN CHOICE, log 108: unsafe.) -/
def State.condBad (s : State) (t n scope : Nat) : Bool :=
  let c := s.condAt t n
  fieldN (s.rd t (n + 3)).toNat 9 23 != 0 || decide (5 < c.kind) || (c.ext && c.kind != 0) ||
  (decide (2 ≤ c.kind) && fieldN c.addr.toNat 32 32 != 0) ||
  (decide (c.kind ≤ 2) && c.cmp == 7) || (c.kind == 1 && decide (2 < scope)) ||
  (c.kind == 4 && decide ((s.crewOf t).nreg ≤ fieldN c.addr.toNat 0 8)) ||
  (c.kind == 5 && (s.chuteFor t (BitVec.ofNat 6 c.addr.toNat)).isNone)

/-- How a condition's access is checked at issue (R209): as a load of its space. -/
def State.condReach (s : State) (t scope : Nat) (c : WCond) : Reach :=
  let ea := c.addr.toNat
  let size := (s.crewOf t).sSize
  let core := s.coreOf t
  let sLoc := locScratch core ((s.crewOf t).sBase + ea)
  if c.kind = 0 then
    s.reachOk t c.addr 4 .D .read false fun host peer => scopeOk host peer scope
  else if c.kind = 1 then s.reachVirt t c.addr 4 .G .read
  else if c.kind = 2 then
    if ea % 4 ≠ 0 then .fault .align c.addr
    else if ea + 4 > size then .fault .access c.addr
    else match s.watchHit t core ((s.crewOf t).sBase + ea) 4 1 with
      | some i => .fault (.watch i) c.addr
      | none => .ok s sLoc false false
  else if c.kind = 3 then (if size ≤ ea then .fault .access c.addr else .ok s sLoc false false)
  else .ok s 0 false false

/-- The comparison of a condition (R209 CMP). -/
def condCmp (c : WCond) (v : Nat) : Bool :=
  let a := readInt 32 c.sgn v
  let b := readInt 32 c.sgn c.val.toNat
  match c.cmp with
  | 0 => decide (a = b)
  | 1 => decide (a ≠ b)
  | 2 => decide (a < b)
  | 3 => decide (a ≤ b)
  | 4 => decide (b < a)
  | 5 => decide (b ≤ a)
  | _ => andN 32 v c.val.toNat != 0

/-- Whether a condition holds now (R209). A word that cannot be translated at a later evaluation reads as false, and so does one
that the acquire may not read yet (R302, R307, R323): accesses of the thread to it are on their way. -/
def State.condHolds (s : State) (t : Nat) (c : WCond) : Bool :=
  let word (sp : Sp) (glob : Bool) : Bool :=
    match translate s (s.coreOf t) (s.ctxIdOf t) c.addr.toNat sp .read with
    | .ok loc _ _ _ _ => s.bytesClear t glob loc 4 true false && condCmp c (s.viewN t glob loc 4)
    | _ => false
  let sLoc := locScratch (s.coreOf t) ((s.crewOf t).sBase + c.addr.toNat)
  match c.kind with
  | 0 => word .D false
  | 1 => word .G true
  | 2 => !s.absent.contains (lineOf sLoc) && s.bytesClear t false sLoc 4 false false && condCmp c (s.viewN t false sLoc 4)
  | 3 => !s.absent.contains (lineOf sLoc)
  | 4 => !(s.tracked t).contains (.v (fieldN c.addr.toNat 0 8))
  | _ =>
    match s.chuteFor t (BitVec.ofNat 6 c.addr.toNat) with
    | some (cr, k) => !((s.crewAt cr).chute k).toks.isEmpty
    | none => false

/-- WAIT's result if it leaves its loop now (R210). -/
def State.waitValue (s : State) (t t0 limit : Nat) (all : Bool) (cs : List WCond) : Option Word :=
  let hs := cs.map fun c => s.condHolds t c
  let met := if all then hs.all id else hs.any id
  let mask := maskOf ((List.range hs.length).filter fun i => hs.getD i false)
  if met then some (BitVec.ofNat 32 mask)
  else if limit ≠ 0xFFFFFFFF && decide (t0 + limit ≤ s.now) then some (BitVec.ofNat 32 (mask + 2 ^ 31))
  else none

/-- Check the accesses of the conditions in turn; the first that does not pass decides. -/
def State.waitReach (s : State) (t scope : Nat) : List WCond → Reach
  | [] => .ok s 0 false false
  | c :: cs =>
    match s.condReach t scope c with
    | .ok s' _ _ _ => State.waitReach s' t scope cs
    | r => r

/-- An evaluation of a condition on a D or G word reads it: its bytes are charged (R356), and a peer's word is asked for on its
port (R426). -/
def State.waitRead (s : State) (t : Nat) (c : WCond) : State :=
  if 1 < c.kind then s
  else
    let s := s.addBytes t 4
    match translate s (s.coreOf t) (s.ctxIdOf t) c.addr.toNat (if c.kind = 0 then .D else .G) .read with
    | .ok loc _ _ _ _ => s.peerRead (s.launchIdOf t) (c.kind == 1) loc 4
    | _ => s

/-- The reads of an evaluation. -/
def State.waitReads (s : State) (t : Nat) (cs : List WCond) : State := cs.foldl (fun s c => s.waitRead t c) s

/-- WAIT (R209, R210). -/
def execWait (all : Bool) (nc : BitVec 2) (scope : BitVec 3) (d w : Opd) (b : SrcI) (s : State) : Out' :=
  memLanes s fun s t =>
    let ns := (List.range (nc.toNat + 1)).map fun k => regNum w + 4 * k
    match s.srcI t 32 false b with
    | .error c => .fault c 0
    | .ok limit =>
      if ns.any fun n => s.condBad t n scope.toNat then .fault .access 0
      else
        let cs := ns.map fun n => s.condAt t n
        match s.waitReach t scope.toNat cs with
        | .fault c ea => .fault c ea
        | .park bl => .park bl
        | .stay s' => .stay s'
        | .ok s _ _ _ =>
          match s.mayGo t 1 scope.toNat with
          | none => .park (s.mayGoHold t)
          | some s =>
            let s := s.waitReads t cs
            match s.waitValue t s.now limit all cs with
            | some v => .done ((s.trackVals t (dstWords 32 d v.toNat) none).performedRead t)
            | none =>
              let (r, s) := s.track t ((dstWords 32 d 0).map Prod.fst) none none
              .done ((s.setPark t (.wait s.now limit all cs scope.toNat r)).modThr t fun x => { x with polled := s.now })

/-- WAIT_EVALUATION (R210): not while the crew is evicted or halted (R383, R397). -/
def execWaitEvaluation (t : Nat) (s : State) : Out' :=
  if !s.parkRuns t then .next s
  else
  match (s.thr t).park with
  | some (.wait t0 limit all cs _ r) =>
    let l := s.launchIdOf t
    let s := s.waitReads t cs
    (match s.waitValue t t0 limit all cs with
     | some v => .next ((((s.deliver r [v]).modThr t fun x => { x with park := none }).performedRead t).cut l)
     | none => .next ((s.modThr t fun x => { x with polled := s.now }).cut l))
  | _ => .next s

/-- Any source or tag (R211). -/
def anyWord : Nat := 0xFFFFFFFF

/-- The checks of a message buffer (R211, R212): ALIGN, the allocation, then its lines, and for a payload that is read the
watchpoints (R396). -/
def State.bufferReach (s : State) (t off len : Nat) (read : Bool) : Reach :=
  let c := s.crewOf t
  let e := BitVec.ofNat 64 off
  if off % 16 ≠ 0 then .fault .align e
  else if off + len > c.sSize then .fault .access e
  else
    match s.absentIn (locScratch c.core (c.sBase + off)) len with
    | ln :: lns => .park (.lines (ln :: lns))
    | [] =>
      match (if read && len != 0 then s.watchHit t c.core (c.sBase + off) len 1 else none) with
      | some i => .fault (.watch i) e
      | none => .ok s (locScratch c.core (c.sBase + off)) false false

/-- MSEND (R211): the payload is read at issue; the status is written at delivery. -/
def execMsend (len : BitVec 9) (d a b c : Opd) (s : State) : Out' :=
  forLanes s fun s t =>
    match s.src t 32 a, s.src t 32 b, s.src32 t c with
    | .ok off, .ok dst, .ok tag =>
      (match s.bufferReach t off (16 * len.toNat) true with
       | .fault c ea => .fault c ea
       | .stay s' => .stay s'
       | .park bl => if dst > 0xFFFF then .fault .access 0 else .park bl
       | .ok s loc _ _ =>
         if dst > 0xFFFF then .fault .access 0
         else if s.busy t then .park (.fence 2)
         else
           let (r, s) := s.track t ((dstWords 32 d 0).map Prod.fst) none none
           let (n, s) := s.take
           let m : Msg := { launch := s.launchIdOf t, src := (s.crewOf t).idx, dst := dst, tag := tag,
                            data := s.mem.readN loc (16 * len.toNat), result := r, queued := false, heldBack := false, place := 0 }
           .done { s with msgs := SMap.put s.msgs n m })
    | .error e, _, _ => .fault e 0
    | _, .error e, _ => .fault e 0
    | _, _, .error e => .fault e 0

/-- Whether a message meets a receive's source and tag (R212). -/
def msgMatches (m : Msg) (src tag : Word) : Bool :=
  (src.toNat == anyWord || src.toNat == m.src) && (tag.toNat == anyWord || tag == m.tag)

/-- The status word of a receive (R212): TRUNC where the message is longer than the buffer. -/
def recvStatus (m : Msg) (trunc : Bool) : Word :=
  BitVec.ofNat 32 (m.src % 2 ^ 16 + 2 ^ 16 * m.data.length + (if trunc then 2 ^ 29 else 0) + 2 ^ 30)

/-- Lines of `n` bytes at a location. -/
def linesOf (loc n : Nat) : List Nat :=
  if n = 0 then [] else (List.range (lineOf (loc + n - 1) - lineOf loc + 1)).map fun i => lineOf loc + i

/-- Deliver a message to a receive of a crew: data, presence, then status (R212). -/
def State.deliverMsg (s : State) (crew off len result : Nat) (m : Msg) : State :=
  let c := s.crewAt crew
  let loc := locScratch c.core (c.sBase + off)
  let s := { s with mem := s.mem.writeN loc (m.data.take len),
                    absent := s.absent.filter fun ln => !(linesOf loc len).contains ln }
  s.deliver result [m.tag, recvStatus m (decide (len < m.data.length))]

/-- The message of the lowest place. -/
def firstPlaced : List (Nat × Msg) → Option (Nat × Msg)
  | [] => none
  | x :: xs => match firstPlaced xs with
    | some y => if y.2.place < x.2.place then some y else some x
    | none => some x

/-- The earliest message in a crew's overflow queue that matches (R212).
(DEDUCED, log 82: unsafe.) -/
def State.queuedFor (s : State) (crew : Nat) (src tag : Word) : Option (Nat × Msg) :=
  let c := s.crewAt crew
  firstPlaced (SMap.keep s.msgs fun _ m => m.queued && m.launch == c.launch && m.dst == c.idx && msgMatches m src tag)

/-- The first receive or probe after a message found no room faults, once (R213). -/
def overflowCheck (s : State) (k : Unit → Out') : Out' :=
  let c := (s.thr (s.iss.lanes.headD 0)).crew
  if (s.crewAt c).msgPending then faultAll (s.modCrew c fun x => { x with msgPending := false }) .msgOverflow else k ()

/-- MRECV (R212, R213). -/
def execMrecv (len : BitVec 9) (d a b c : Opd) (s : State) : Out' :=
  overflowCheck s fun _ =>
    forLanes s fun s t =>
      match s.src t 32 a, s.src32 t b, s.src32 t c with
      | .ok off, .ok src, .ok tag =>
        let n := 16 * len.toNat
        let bad := src.toNat > 0xFFFF ∧ src.toNat ≠ anyWord
        let crew := (s.thr t).crew
        (match s.bufferReach t off n false with
         | .fault c ea => .fault c ea
         | .stay s' => .stay s'
         | .park bl => if bad then .fault .access 0 else .park bl
         | .ok s loc _ _ =>
           if bad then .fault .access 0
           else if s.acquiring t then .park .acquire
           else if s.loadOver t loc n then .park (.bytes false loc n false false)
           else
             match s.queuedFor crew src tag with
             | some (m, msg) =>
               let (r, s) := s.track t ((dstWords 64 d 0).map Prod.fst) none none
               .done ({ s with msgs := SMap.del s.msgs m }.deliverMsg crew off n r msg)
             | none =>
               if 64 ≤ (s.crewAt crew).posted.length then .park (.postFull crew)
               else
                 let (r, s) := s.track t ((dstWords 64 d 0).map Prod.fst) none none
                 let s := { s with absent := linesOf loc n ++ s.absent }
                 .done (s.modCrew crew fun x =>
                   { x with posted := x.posted ++ [{ src := src, tag := tag, off := off, len := n, result := r }] }))
      | .error e, _, _ => .fault e 0
      | _, .error e, _ => .fault e 0
      | _, _, .error e => .fault e 0

/-- MPROBE (R212, R213): it never parks. -/
def execMprobe (d b c : Opd) (s : State) : Out' :=
  overflowCheck s fun _ =>
    forLanes s fun s t =>
      match s.src32 t b, s.src32 t c with
      | .ok src, .ok tag =>
        let v : Nat := match s.queuedFor (s.thr t).crew src tag with
          | some (_, m) => m.tag.toNat + 2 ^ 32 * (recvStatus m false).toNat
          | none => 0
        .done (s.trackVals t (dstWords 64 d v) none)
      | .error e, _ => .fault e 0
      | _, .error e => .fault e 0

/-- Bytes of the overflow queue in use on a core (R213). -/
def State.queueBytes (s : State) (core : Nat) : Nat :=
  sumList ((SMap.vals s.msgs).map fun m =>
    if m.queued && (SMap.vals s.crews).any (fun c => c.launch == m.launch && c.idx == m.dst && c.core == core && c.status == .resident)
    then m.data.length + 16 else 0)

/-- Whether a message that does not fit the core of a resident crew is held back ahead of this one (R213).
(DEDUCED, log 82: unsafe.) -/
def State.heldAhead (s : State) (core : Nat) (m : Msg) : Bool :=
  s.msgs.any fun kv => kv.2.heldBack && !kv.2.queued && (!m.heldBack || decide (kv.2.place < m.place)) &&
    (SMap.vals s.crews).any fun c => c.launch == kv.2.launch && c.idx == kv.2.dst && c.core == core && c.status == .resident

/-- Hold a message back at its sender (R213): the receiving crew learns of the first of an episode.
(DEDUCED, log 82: unsafe.) -/
def State.holdBack (s : State) (i crew : Nat) (m : Msg) : State :=
  if m.heldBack then s
  else
    let first := !(s.msgs.any fun kv => kv.2.heldBack && !kv.2.queued && kv.2.launch == m.launch && kv.2.dst == m.dst)
    let (n, s) := s.take
    let s := { s with msgs := SMap.put s.msgs i { m with heldBack := true, place := n } }
    if first then s.modCrew crew fun x => { x with msgPending := true } else s

/-- Put a message that found no receive into the queue of the core, or hold it back (R213). -/
def State.queueMsg (s : State) (i crew : Nat) (m : Msg) : State :=
  if s.queueBytes (s.crewAt crew).core + m.data.length + 16 ≤ 65536 then
    let (n, s) := s.take
    { s with msgs := SMap.put s.msgs i { m with queued := true, heldBack := false, place := n } }.deliver m.result [0]
  else s.holdBack i crew m

/-- MESSAGE_DELIVERY (R211 to R213): messages of one crew to another arrive in sending order, and behind one that is held
back every later arrival for the core is held back too. -/
def execMessageDelivery (i : Nat) (s : State) : Out' :=
  match SMap.get? s.msgs i with
  | none => .next s
  | some m =>
    let earlier := s.msgs.any fun kv => decide (kv.1 < i) && !kv.2.queued && kv.2.launch == m.launch && kv.2.src == m.src &&
      kv.2.dst == m.dst
    if m.queued || earlier then .next s
    else
      match SMap.find s.crews fun _ c => c.launch == m.launch && c.idx == m.dst with
      | none => .next ({ s with msgs := SMap.del s.msgs i }.deliver m.result [1])
      | some (crew, c) =>
        (match c.status with
         | .waiting | .ended => .next ({ s with msgs := SMap.del s.msgs i }.deliver m.result [1])
         | .saving | .evicted => .next s
         | .resident =>
           if s.heldAhead c.core m then .next (s.holdBack i crew m)
           else (match c.posted.find? fun p => msgMatches m p.src p.tag with
            | some p =>
              let s := { s with msgs := SMap.del s.msgs i }
              let s := s.modCrew crew fun x => { x with posted := x.posted.filter fun q => q.result != p.result }
              .next ((s.deliverMsg crew p.off p.len p.result m).deliver m.result [0])
            | none => .next (s.queueMsg i crew m)))

/-- Cycles of a bin's timer (R215, R370). -/
def State.binCycles (s : State) (crew : Nat) (entry : DWord) : Nat :=
  let c := s.crewAt crew
  match (s.launchAt c.launch).ext.bint.find? fun b => b.1 == entry with
  | some b => b.2
  | none => c.binTime.toNat

/-- A new bin (R215). -/
def State.newBin (s : State) (crew : Nat) (entry : DWord) : Nat × State :=
  let (n, s) := s.take
  let b : Bin := { crew := crew, entry := entry, core := (s.crewAt crew).core, timer := s.cycle + s.binCycles crew entry,
                   left := 0, expired := false, threads := [], seq := n }
  (n, { s with bins := SMap.put s.bins n b })

/-- The bin that a SPAWN enters, if there is one (R215). -/
def State.binFor (s : State) (crew : Nat) (entry : DWord) : Option (Nat × State) :=
  let core := (s.crewAt crew).core
  match SMap.find s.bins fun _ b => b.crew == crew && b.entry == entry with
  | some (b, bin) => if bin.threads.length < 32 then some (b, s) else none
  | none =>
    if (SMap.keep s.bins fun _ b => b.core == core).length < 16 then some (s.newBin crew entry)
    else
      match SMap.find s.bins fun _ b => b.core == core && s.binFits b with
      | some (b, _) => some ((s.launchBin b).newBin crew entry)
      | none => none

/-- A thread enters a bin, which launches when it holds 32 (R215). -/
def State.enterBin (s : State) (b t : Nat) : State :=
  let bin := SMap.getD s.bins b { crew := 0, entry := 0, core := 0, timer := 0, left := 0, expired := false, threads := [], seq := 0 }
  let s := { s with bins := SMap.put s.bins b { bin with threads := bin.threads ++ [t] } }
  if 32 ≤ bin.threads.length + 1 then s.launchBin b else s

/-- The ray that a SPAWN makes (R30, R244): it inherits the spawning ray's ancestors, or takes the spawner as one. One that
descends from a `.nohold` ray reads none of them but counts for them all the same (R214, R246). -/
def State.rayProto (s : State) (t e : Nat) (nohold : Bool) : Elem :=
  let x := s.elemAt e
  let base : Elem :=
    { Elem.zero with
      launch := x.launch, rate := .Y, core := s.coreOf t, own := true, helper := x.helper,
      nohold := nohold, barred := nohold || x.barred, px := x.px, py := x.py, sample := x.sample, prim := x.prim, qpos := x.qpos,
      quad := x.quad }
  match x.rate with
  | .Y => { base with anc := x.anc, verts := x.verts, lam := x.lam, qs := x.qs }
  | .V => { base with anc := x.anc, verts := [e], lam := [0x3F800000, 0, 0], qs := [0x3F800000] }
  | r => { base with anc := x.anc ++ [(r, e)], verts := x.verts, lam := x.lam, qs := x.qs }

/-- Finish a SPAWN in a lane: the thread is created and enters its bin (R214). -/
def State.spawnInto (s : State) (t b : Nat) (entry : DWord) (regs : List Word) (ray : Option Elem) (nohold : Bool) : State :=
  let crew := (s.thr t).crew
  let s := if nohold then s else s.freeze t
  match ray with
  | none =>
    let (n, s) := s.addThread crew .N entry regs none
    s.enterBin b n
  | some p =>
    let (p, s) := s.numberElem p
    let (e, s) := s.addElem p
    let (n, s) := s.addThread crew .Y entry regs (some e)
    s.enterBin b n

/-- A SPAWN whose ray has to wait for bytes asks for its creation (R248). -/
def State.askRay (s : State) (t : Nat) (p : Elem) : State :=
  let (n, s) := s.take
  let c : Creation := { launch := p.launch, rate := .Y, protos := [p], regs := [], crew := (s.thr t).crew, attempted := true,
                        since := s.now, turn := n, fromRecord := false, cause := some t, granted := false, failed := false }
  { s with creations := SMap.put s.creations n c }.setPark t (.retry (.creation n))

/-- The creation that a lane has asked for at its word (R248). -/
def State.askedBy (s : State) (t : Nat) : Option (Nat × Creation) := SMap.find s.creations fun _ c => c.cause == some t

/-- Whether a lane's creation has reached the stall limit (R248). -/
def State.spawnStalled (s : State) (t : Nat) : Bool := (s.askedBy t).any fun c => c.2.failed

/-- SPAWN at a draw rate once its bin is known: the ray takes its bytes, waits for them, or faults (R248). -/
def spawnRay (t b : Nat) (entry : DWord) (regs : List Word) (p : Elem) (nohold : Bool) (s0 s : State) : LaneRes :=
  match s0.askedBy t with
  | some (r, c) =>
    if !c.granted then .stay (s0.setPark t (.retry (.creation r)))
    else .done ({ s with creations := SMap.del s.creations r }.spawnInto t b entry regs (some p) nohold)
  | none =>
    let c : Creation := { launch := p.launch, rate := .Y, protos := [p], regs := [], crew := (s.thr t).crew, attempted := true,
                          since := s.now, turn := 0, fromRecord := false, cause := none, granted := false, failed := false }
    if s0.creationFits 0 c then .done ((s.takeBytes c).spawnInto t b entry regs (some p) nohold) else .stay (s0.askRay t p)

/-- Creations of lanes in issue that wait at the word no longer are dropped: their lanes have faulted. -/
def State.dropAsked (s : State) (lanes : List Nat) : State :=
  { s with creations := SMap.keep s.creations fun _ c => match c.cause with
      | some t => !lanes.contains t || (match (s.thr t).park with
          | some (.retry _) => true
          | _ => false)
      | none => true }

/-- SPAWN (R214, R215): a fork, which waits for the thread's earlier accesses (R309, R312). -/
def execSpawn (nohold : Bool) (a b : Opd) (s : State) : Out' :=
  let r := forLanes s fun s t =>
    let entry := s.rd64 t (regNum a)
    let crew := (s.thr t).crew
    match s.checkTarget t entry with
    | some (c, ea) => .fault c ea
    | none =>
      if s.spawnStalled t then .fault .stockpileStall 0
      else if s.busy t then .park (.fence 2)
      else
      let regs := (List.range 8).map fun i => s.rd t (regNum b + i)
      match s.binFor crew entry with
      | none => .park (.binFull crew entry)
      | some (bin, s') =>
        match (s.thr t).elem with
        | none => .done (s'.spawnInto t bin entry regs none nohold)
        | some e => spawnRay t bin entry regs (s.rayProto t e nohold) nohold s s'
  match r with
  | .next s' => .next (s'.dropAsked s.iss.lanes)
  | other => other

/-- BIN_TIMER_EXPIRY (R215, R370): the timer counts only while the crew is resident. -/
def execBinTimerExpiry (b : Nat) (s : State) : Out' :=
  match SMap.get? s.bins b with
  | none => .next s
  | some bin =>
    if bin.timer ≤ s.cycle && (s.crewAt bin.crew).status == .resident && !bin.expired then .next (s.launchBin b) else .next s

/-- BINFLUSH (R215). -/
def execBinflush (a : Opd) (s : State) : Out' :=
  forLanes s fun s t =>
    let crew := (s.thr t).crew
    let entry := s.rd64 t (regNum a)
    let bs := SMap.keys (SMap.keep s.bins fun _ b => b.crew == crew && (a == .none || b.entry == entry))
    .done (bs.foldl State.launchBin s)

/-- WSPLIT's four results (R216); none where P is 0. -/
def wsplit (T P n c : Nat) : Option (List Word) :=
  if P = 0 then none
  else
    let first := c * T / n
    let last := (c + 1) * T / n
    let head := if first < last ∧ first % P ≠ 0 then 1 else 0
    let tail := if first < last ∧ last % P ≠ 0 ∧ last < T then 2 else 0
    some [BitVec.ofNat 32 first, BitVec.ofNat 32 (last - first), BitVec.ofNat 32 (head + tail), BitVec.ofNat 32 (first / P)]

/-- WSPLIT (R216). -/
def execWsplit (d a b : Opd) (s : State) : Out' :=
  tracked s (some 16) fun s t =>
    match s.src t 32 a, s.src t 32 b with
    | .ok T, .ok P =>
      (match wsplit T P (s.launchOf t).lrec.ncrew (s.crewOf t).idx with
       | some ws => .ok (seqWords (regNum d) ws)
       | none => .error (.arith, 0))
    | .error c, _ => .error (c, 0)
    | _, .error c => .error (c, 0)

/-- A lane makes a crew-collective request (R217): a different COUNT than another thread's faults ACCESS. -/
def collective (s : State) (grow : Bool) (n : Nat) : Out' :=
  let r := forLanes s fun s t =>
    let clash := (s.liveThreads (s.thr t).crew).any fun u => match s.collectiveOf u with
      | some (_, m) => m != n
      | none => false
    if clash then .fault .access 0 else .stay (s.setPark t (.collective grow n ((s.thr t).pc + 16)))
  match r with
  | .next s' => .next (s'.completeCollective (s.thr (s.iss.lanes.headD 0)).crew)
  | other => other

/-- GROW (R217). -/
def execGrow (count : BitVec 6) (s : State) : Out' := collective s true (8 * count.toNat)

/-- SHRINK (R217). -/
def execShrink (count : BitVec 6) (s : State) : Out' := collective s false (8 * count.toNat)

/-- The modifiers of the store that SIGNAL is: a release at system scope (R181, R219). -/
def signalMods : MemMods := { ord := 2, scope := 4, remote := false, disp := 0 }

/-- SIGNAL (R219): as a release store at system scope, at once or at the commit. -/
def execSignal (defer irq : Bool) (vec : BitVec 11) (a b : Opd) (s : State) : Out' :=
  memLanes s fun s t =>
    let ea := s.rd64 t (regNum a)
    let v := if irq then some vec.toNat else none
    withData s t .b32 b ea fun data =>
      reached s t signalMods (s.reachOk t ea 4 .D .write false (orderedOk signalMods)) fun s loc _ _ =>
        if defer then
          .done (s.modLaunch (s.launchIdOf t) fun x =>
            { x with deferred := x.deferred ++ [.signal ea (BitVec.ofNat 32 (ofBytes data)) v] })
        else .done ((s.queueStore t false loc data true 4 v).addBytes t 4)

end Sys2Proof.Machine
end

