-- ==== Sys2Proof/Machine/Matrix.lean ====
section
/-! DEFINITION. Matrix instructions, the matrix queue and the arrays' current states (R220 to R240, R401, R402). An entry
is started or performed by `matrixQueueEntry`, an MMA advances by `mmaStep`; a step is never split, so every sample of a
tile falls on a step boundary. -/

namespace Sys2Proof.Machine

/-- Placement of a layout element's address (R46). -/
def layoutXor (mode a : Nat) : Nat :=
  if mode = 0 then a
  else
    let w := 1 + (mode - 1) % 3
    let sh := 7 + (mode - 1) / 3
    xorN 32 a (a / 2 ^ sh % 2 ^ w * 16)

/-- The 96 bits of a layout word (R45). -/
def State.layoutWord (s : State) (t n : Nat) : Nat := (s.rd64 t n).toNat + 2 ^ 64 * (s.rd t (n + 2)).toNat

/-- BASE, STRIDE0, STRIDE1, STRIDE2 and MODE of a layout word (R45). -/
def layoutFields (w : Nat) : Nat × Nat × Nat × Nat × Nat :=
  (fieldN w 0 32, fieldN w 32 20, fieldN w 52 20, fieldN w 72 20, fieldN w 92 4)

/-- The bank set that a matrix instruction of a context acts on (R220): owned, restored, or taken; where neither set is
free, the other context's set with the older matrix issue is spilled. A spill moves no value that a program can see, and the entries
of the spilled set that are queued run on.
(DEDUCED, log 57: safe.)
(DESIGN CHOICE, log 111: unsafe.) -/
def State.claimBank (s : State) (pair ctx : Nat) : Nat × State :=
  let p := s.pairAt pair
  let (now, s) := s.take
  match p.sets.findIdx? fun x => match x with
      | some (c, _, _) => c == ctx
      | none => false with
  | some i =>
    match p.sets.getD i none with
    | some (_, uid, _) => (uid, s.modPair pair fun p => { p with sets := p.sets.set i (some (ctx, uid, now)) })
    | none => (now, s)
  | none =>
    let uid := match p.spilled.find? fun x => x.1 == ctx with
      | some x => x.2
      | none => now
    let age (i : Nat) : Nat := match p.sets.getD i none with
      | some (_, _, u) => u + 1
      | none => 0
    let i := if age 0 ≤ age 1 then 0 else 1
    let out := match p.sets.getD i none with
      | some (c, u, _) => [(c, u)]
      | none => []
    let rest := p.spilled.filter fun x => x.1 ≠ ctx
    (uid, s.modPair pair fun p => { p with sets := p.sets.set i (some (ctx, uid, now)), spilled := out ++ rest })

/-- Ramp length L of a pair (R402): it takes a new value of RAMPCFG in the COLD state (R422). -/
def State.rampLen (s : State) (pair : Nat) : Nat :=
  let p := s.pairAt pair
  if p.ramp.all (· == .cold) then 32 * 2 ^ (s.dev.rampcfg % 4) else p.len

/-- An array's state when something asks for current, the filler cycles that this adds, and those of a ramp-down that it cuts
short (R402). -/
def rampStart (cycle len : Nat) : Ramp → Ramp × Nat × Nat
  | .cold => (.up (cycle + len), len, 0)
  | .down since => (.up (cycle + (cycle - since)), cycle - since, cycle - since)
  | r => (r, 0, 0)

/-- Ramp the listed arrays of a pair up for a launch, which is charged the filler cycles; those of a ramp-down that ends here
go to the launch that started them (R402).
(DEDUCED, log 58: unsafe.) -/
def State.rampUp (s : State) (pair l : Nat) (arrays : List Nat) : State :=
  let p := s.pairAt pair
  let res (i : Nat) : Ramp × Nat × Nat :=
    if arrays.contains i then rampStart s.cycle (s.rampLen pair) (p.ramp.getD i .cold) else (p.ramp.getD i .cold, 0, 0)
  let fill := (res 0).2.1 + (res 1).2.1
  let len := s.rampLen pair
  let s := s.chargeC p.chargedTo (16 * ((res 0).2.2 + (res 1).2.2))
  let s := s.modPair pair fun p =>
    { p with ramp := [(res 0).1, (res 1).1], chargedTo := if fill = 0 then p.chargedTo else l, len := len }
  s.chargeC l (16 * fill)

/-- True of an array at full current. -/
def State.arrayHot (s : State) (core : Nat) : Bool :=
  match (s.pairAt (pairOf core)).ramp.getD (core % 2) .cold with
  | .hot => true
  | _ => false

/-- The listed arrays stop being idle now, or are idle from now on: the fillers of those that were at full current are charged
to the launch that started them (R402).
(DEDUCED, log 58: unsafe.) -/
def State.endIdle (s : State) (pair : Nat) (arrays : List Nat) : State :=
  let p := s.pairAt pair
  let fill (i : Nat) : Nat := if p.ramp.getD i .cold = .hot then s.cycle - p.idle.getD i 0 else 0
  let s := s.modPair pair fun p => { p with idle := arrays.foldl (fun l i => l.set i s.cycle) p.idle, paused := false }
  s.chargeC p.chargedTo (16 * sumList (arrays.map fill))

/-- Whether an entry has to wait for its crew: it was evicted, and the scratchpad the entry uses with it (R238, R239). Once the
crew's lot has ended there is no restore to wait for. Entries of a spilled set are not held.
(DESIGN CHOICE, log 96: unsafe.)
(DESIGN CHOICE, log 111: unsafe.)
(DESIGN CHOICE, log 112: unsafe.) -/
def State.entryHeld (s : State) (e : MEntry) : Bool :=
  match e.kind with
  | .mzero _ => false
  | _ => (s.crewAt e.crew).status == .saving || (s.crewAt e.crew).status == .evicted

def MEntry.isMma (e : MEntry) : Bool :=
  match e.kind with
  | .mma _ _ _ _ _ _ _ _ _ _ _ _ _ _ _ => true
  | _ => false

def MEntry.isLoad (e : MEntry) : Bool :=
  match e.kind with
  | .mloadb _ _ _ => true
  | _ => false

/-- Tiles an entry acts on, each with its bank. -/
def MEntry.tiles (e : MEntry) : List (Nat × Nat) := ((List.range 8).filter e.onTile).map fun n => (e.bank, n)

/-- The first entry that may be performed (R222, R239): one that is held lets entries on other tiles go ahead; an MLOADB
waits behind a waiting MMA, and an MMA or MLOADB behind a waiting MLOADB.
(DESIGN CHOICE, log 96: unsafe.) -/
def readyScan (held : MEntry → Bool) : List MEntry → List (Nat × Nat) → Bool → Bool → Option MEntry
  | [], _, _, _ => none
  | e :: es, tiles, mmaWaits, loadWaits =>
    let waits := held e || e.tiles.any tiles.contains || (e.isMma && loadWaits) || (e.isLoad && (mmaWaits || loadWaits))
    if !waits then some e
    else readyScan held es (tiles ++ e.tiles) (mmaWaits || e.isMma) (loadWaits || e.isLoad)

/-- The entry at work on a pair. -/
def State.entryReady (s : State) (pair : Nat) : Option MEntry := readyScan s.entryHeld (s.pairAt pair).queue [] false false

/-- An entry of a pair's queue was at work and none is now: its arrays are idle from now on (R239, R402). -/
def State.pausePair (s : State) (before : State) (pair : Nat) : State :=
  if (before.entryReady pair).isSome && (s.entryReady pair).isNone then
    s.modPair pair fun p => { p with idle := [s.cycle, s.cycle], paused := true }
  else s

/-- An entry is at work again: the fillers that its arrays ran meanwhile are charged (R402). -/
def State.unpausePair (s : State) (pair : Nat) : State := if (s.pairAt pair).paused then s.endIdle pair [0, 1] else s

/-- Put an entry into the queue (R222). -/
def State.enqueueMatrix (s : State) (t bank : Nat) (kind : MKind) (d : Opd) : State :=
  let pair := pairOf (s.coreOf t)
  let (r, s) := match d with
    | .v n => let (r, s) := s.track t [.v n.toNat] none none; (some r, s)
    | _ => (none, s)
  let (n, s) := s.take
  let e : MEntry := { thread := t, crew := (s.thr t).crew, launch := s.launchIdOf t, ctx := s.ctxIdOf t, bank := bank,
                      kind := kind, result := r, started := false, seq := n }
  let s := if (s.entryReady pair).isNone then s.endIdle pair [0, 1] else s
  let s := s.modPair pair fun p => { p with queue := p.queue ++ [e] }
  s.rampUp pair e.launch [0, 1]

/-- An elected matrix word (R222, R224, R227): the leader core alone, then the word's own checks, then, for one that reads memory,
the fork's wait for the thread's earlier accesses (R309, R312), then the queue. -/
def matrixIssue (s : State) (fork : Bool) (d : Opd) (body : State → Nat → Except Cause MKind) : Out' :=
  forLanes s fun s t =>
    let core := s.coreOf t
    if !isLeader core then .fault .access 0
    else
      match body s t with
      | .error c => .fault c 0
      | .ok kind =>
        if fork && s.busy t then .park (.fence 2)
        else if 8 ≤ (s.pairAt (pairOf core)).queue.length then .park (.matrixFull (pairOf core))
        else
          let (bank, s) := s.claimBank (pairOf core) (s.ctxIdOf t)
          .done (s.enqueueMatrix t bank kind d)

/-- Registers that a scale vector of `n` bytes reaches (R120). -/
def scaleReach (base bsel n : Nat) : Nat := base + (bsel + (n - 1) / 32) / 4

/-- A register of a thread as it reads now, results that are due included. -/
def State.readNow (s : State) (t n : Nat) : Word := (s.settle t).rd t n

/-- Byte `b` of a gang-form scale vector (R120). -/
def State.scaleAt (s : State) (g base bsel b : Nat) : Option Nat :=
  let q := bsel + b / 32
  match s.posThread g (b % 32) with
  | some u => if (s.thr u).live then some (fieldN (s.readNow u (base + q / 4)).toNat (8 * (q % 4)) 8) else none
  | none => none

/-- A whole scale vector, or none where a position holds no thread (R227). -/
def State.scaleVector (s : State) (g base bsel n : Nat) : Option (List Nat) := (List.range n).mapM fun b => s.scaleAt g base bsel b

/-- The layout checks of R227: alignment, then range, for rows and columns of `e`-byte elements. -/
def layoutCheck (base s0 s1 e rows cols size : Nat) : Option Cause :=
  if base % e ≠ 0 ∨ s0 % e ≠ 0 ∨ s1 % e ≠ 0 then some .align
  else if fieldN base 23 9 ≠ 0 ∨ base + (rows - 1) * s0 + (cols - 1) * s1 + e > size then some .access
  else none

/-- MMA's checks and what it queues (R227). MEMBER_ABSENT of a scale read, to which the rule gives no place, comes after its check 3
and before the parks.
(DESIGN CHOICE, log 110: unsafe.) -/
def State.mmaKind (s : State) (t : Nat) (z scl : Bool) (ta tb : Ty) (ka kb tile ks vw : Nat) (l sa sb : Opd) : Except Cause MKind :=
  let (base, s0, s1, _, mode) := layoutFields (s.layoutWord t (regNum l))
  let ptr := (s.rd t vw).toNat
  let e := tyBits ta / 8
  let c := s.crewOf t
  let reach := scl && (decide (c.nreg ≤ scaleReach (regNum sa) ka (512 * ks)) || decide (c.nreg ≤ scaleReach (regNum sb) kb (256 * ks)))
  let lay := layoutCheck base s0 s1 e 256 (64 * ks) c.sSize
  if ptr % 16 ≠ 0 ∨ lay = some .align then .error .align
  else if 2097152 ≤ ptr ∨ lay = some .access ∨ reach then .error .access
  else
    let g := s.iss.gang
    match (if scl then s.scaleVector g (regNum sa) ka (512 * ks) else some []),
          (if scl then s.scaleVector g (regNum sb) kb (256 * ks) else some []) with
    | some va, some vb => .ok (.mma z scl ta tb tile ks mode base s0 s1 ptr va vb 0 0)
    | _, _ => .error .memberAbsent

/-- Registers of the lanes of a gang that a scale vector of `n` bytes reads, where a tracked result is still to be written there
(R104, R240). -/
def State.scaleWaits (s : State) (g base bsel n : Nat) : List (Nat × Nat) :=
  (List.range (scaleReach base bsel n - base + 1)).flatMap fun k => ((List.range 32).filterMap (s.posThread g)).filterMap fun u =>
    if (s.tracked u).contains (.v (base + k)) then some (u, base + k) else none

/-- MMA (R226, R227): it waits for results on their way to the scale registers of any lane. -/
def execMma (z scl : Bool) (ta tb : Ty) (ka kb : BitVec 2) (tile : BitVec 3) (ksm1 : BitVec 5) (vw : BitVec 8)
    (d l sa sb : Opd) (s : State) : Out' :=
  let waits := if !scl then [] else
    s.scaleWaits s.iss.gang (regNum sa) ka.toNat (512 * (ksm1.toNat + 1)) ++
      s.scaleWaits s.iss.gang (regNum sb) kb.toNat (256 * (ksm1.toNat + 1))
  if !waits.isEmpty then parkAll s (.regs waits)
  else matrixIssue s true d fun s t => s.mmaKind t z scl ta tb ka.toNat kb.toNat tile.toNat (ksm1.toNat + 1) vw.toNat l sa sb

/-- MLOADB (R232). -/
def execMloadb (d a b c : Opd) (s : State) : Out' :=
  matrixIssue s true d fun s t =>
    let src := (s.rd t (regNum a)).toNat
    let dst := (s.rd t (regNum b)).toNat
    let len := (s.rd t (regNum c)).toNat
    if src % 16 ≠ 0 ∨ dst % 16 ≠ 0 ∨ len % 16 ≠ 0 then .error .align
    else if len = 0 ∨ src + len > (s.crewOf t).sSize ∨ dst + len > 2097152 then .error .access
    else .ok (.mloadb src dst len)

/-- First row and number of rows that RSEL selects (R225). -/
def mstRows (rsel : Nat) : Nat × Nat := if rsel = 0 then (0, 256) else if rsel = 1 then (0, 128) else (128, 128)

/-- Location of a layout element of a crew. -/
def State.layoutLoc (s : State) (crew mode base s0 s1 i j : Nat) : Nat :=
  let c := s.crewAt crew
  locScratch c.core (c.sBase + layoutXor mode (base + i * s0 + j * s1))

/-- Lines of a rectangle of layout elements. -/
def State.layoutLines (s : State) (crew mode base s0 s1 rows cols : Nat) : List Nat :=
  (List.range rows).foldl (fun acc i =>
    (List.range cols).foldl (fun acc j =>
      let ln := lineOf (s.layoutLoc crew mode base s0 s1 i j)
      if acc.contains ln then acc else ln :: acc) acc) []

/-- MST (R235): its destination lines become absent at issue; a line that is absent already holds the lane (R40). -/
def execMst (ty : Ty) (rm : Rm) (pol : Pol) (rsel : BitVec 2) (tile : BitVec 3) (d l : Opd) (s : State) : Out' :=
  forLanes s fun s t =>
    let core := s.coreOf t
    let crew := (s.thr t).crew
    let (base, s0, s1, _, mode) := layoutFields (s.layoutWord t (regNum l))
    let rows := (mstRows rsel.toNat).2
    if !isLeader core then .fault .access 0
    else
      match layoutCheck base s0 s1 (tyBits ty / 8) rows 128 (s.crewAt crew).sSize with
      | some c => .fault c 0
      | none =>
        let lines := s.layoutLines crew mode base s0 s1 rows 128
        let out := lines.filter s.absent.contains
        if s.busy t then .park (.fence 2)
        else if 8 ≤ (s.pairAt (pairOf core)).queue.length then .park (.matrixFull (pairOf core))
        else if !out.isEmpty then .park (.lines out)
        else
          let s := { s with absent := lines ++ s.absent }
          let (bank, s) := s.claimBank (pairOf core) (s.ctxIdOf t)
          .done (s.enqueueMatrix t bank (.mst ty rm pol rsel.toNat tile.toNat mode base s0 s1) d)

/-- MZERO (R236). -/
def execMzero (mask : BitVec 8) (s : State) : Out' := matrixIssue s false .none fun _ _ => .ok (.mzero mask.toNat)

/-- The steps that the entry owning a tile has completed, with bit 8 set, or 0 where no entry owns it (R234). -/
def State.ownerSteps (s : State) (pair bank tile : Nat) : Nat :=
  match (s.pairAt pair).queue.find? fun e => e.started && e.bank == bank && e.onTile tile with
  | some e => (match e.kind with
      | .mma _ _ _ _ _ _ _ _ _ _ _ _ _ step _ => 256 + step
      | _ => 256)
  | none => 0

/-- The place in the queue's order at which an MRD asks for its sample. -/
def State.sampleSeq (s : State) (t pair bank tile : Nat) : Nat :=
  match s.heldBy t with
  | some (.tileStarted p b n seq) => if p = pair ∧ b = bank ∧ n = tile then seq else s.fresh
  | _ => s.fresh

/-- MRD in its lanes (R234): `f` gives the value read in a lane. -/
def mrdWith (s : State) (tile : Nat) (d : Opd) (f : State → Nat → Nat → Except Cause Word) : Out' :=
  forLanes s fun s t =>
    let pair := pairOf (s.coreOf t)
    let (bank, s) := s.claimBank pair (s.ctxIdOf t)
    match f s t bank with
    | .error c => .fault c 0
    | .ok v =>
      let seq := s.sampleSeq t pair bank tile
      if s.clear t (.tileStarted pair bank tile seq) then
        .done (s.trackVals t (seqWords (regNum d) [v, BitVec.ofNat 32 (s.ownerSteps pair bank tile)]) none)
      else .stay ((s.setPark t (.retry (.tileStarted pair bank tile seq))).bump)

/-- MRD (R234). -/
def execMrd (tile : BitVec 3) (d a b : Opd) (s : State) : Out' :=
  mrdWith s tile.toNat d fun s t bank => do
    let row ← s.src t 32 a
    let col ← s.src t 32 b
    if 255 < row ∨ 127 < col then .error .access
    else return SMap.getD s.acc (accKey bank tile.toNat row col) 0

/-- MRD.st (R234). -/
def execMrdSt (tile : BitVec 3) (d : Opd) (s : State) : Out' :=
  mrdWith s tile.toNat d fun s _ bank => .ok (SMap.getD s.tileStat (bank * 8 + tile.toNat) 0)

/-- Code of a fragment element (R233): `t` of the registers from `r`. -/
def State.fragment (s : State) (ty : Ty) (u r t : Nat) : Nat :=
  let w := tyBits ty
  fieldN (s.rd u (r + t * w / 32)).toNat (t * w % 32) w

/-- A block sum times its scales; a NaN scale makes it NaN (R228, R233). -/
def scaled (scl : Bool) (x : FVal) (p q : Nat) : FVal :=
  if !scl then x
  else if p = 0xFF ∨ q = 0xFF then .nan
  else x.scale (Int.ofNat p + Int.ofNat q - 254)

/-- The exact sum of products of two lists of codes (R128). -/
def dotCodes (flush : Bool) (fa fb : Fmt) (as bs : List Nat) : FVal :=
  FVal.sum (List.zipWith (fun x y => FVal.mul (widenExact flush fa x none) (widenExact flush fb y none)) as bs)

/-- MMAG's element (i, j) (R233). A member that does not execute the word gives zeros: one whose guard fails, that is trapped, or that
faults in it.
(DEDUCED, log 99: unsafe.) -/
def State.mmagElem (s : State) (scl : Bool) (ta tb : Ty) (ka kb sa sb a b c i j : Nat) : Word :=
  let lane (n : Nat) : Nat := (s.inLane n).getD 0
  let as := (List.range 32).map fun k => s.fragment ta (lane (2 * i + k / 16)) a (k % 16)
  let bs := (List.range 32).map fun k => s.fragment tb (lane (2 * j + k / 16)) b (k % 16)
  let x := dotCodes s.issFlush (fmtD ta) (fmtD tb) as bs
  let p := fieldN (s.rd (lane i) sa).toNat (8 * ka) 8
  let q := fieldN (s.rd (lane j) sb).toNat (8 * kb) 8
  rne32 s.issFlush (FVal.add false (val32 s.issFlush (s.rd (lane (2 * i + j / 8)) (c + j % 8))) (scaled scl x p q))

/-- MMAG (R220, R233, R401, R402): every position is a member; a cold array is ramped, and the lanes wait for it.
(DEDUCED, log 99: unsafe.) -/
def execMmag (scl : Bool) (ta tb : Ty) (ka kb : BitVec 2) (sa sb : BitVec 8) (d a b c : Opd) (s : State) : Out' :=
  let g := s.iss.gang
  let core := s.coreOf (s.iss.lanes.headD 0)
  if (List.range 32).any fun i => s.memberGone g i s.iss.addr then faultAll s .memberAbsent
  else if (List.range 32).any fun i => s.memberBehind g i s.iss.addr then parkAll s (.members g s.iss.addr 0xFFFFFFFF)
  else if !(s.notYet (List.range 32)).isEmpty then parkAll s (.await (s.notYet (List.range 32)) s.iss.addr)
  else if !s.arrayHot core then parkAll (s.rampUp (pairOf core) s.issLaunch [core % 2]) (.ramp core)
  else
    let elem (i j : Nat) : Word :=
      s.mmagElem scl ta tb ka.toNat kb.toNat sa.toNat sb.toNat (regNum a) (regNum b) (regNum c) i j
    let s := (s.claimBank (pairOf core) (s.ctxIdOf (s.iss.lanes.headD 0))).2
    forLanes (if (s.entryReady (pairOf core)).isNone then s.endIdle (pairOf core) [core % 2] else s) fun s t =>
      let lane := s.laneOf t
      .done (s.trackVals t (seqWords (regNum d) ((List.range 8).map fun k => elem (lane / 2) (8 * (lane % 2) + k))) none)

/-- MBURST (R237, R402): the pair's arrays ramp up and stay hot until the hold passes; LEN 0 ends the hold. -/
def execMburst (len : BitVec 16) (s : State) : Out' :=
  forLanes s fun s t =>
    let pair := pairOf (s.coreOf t)
    if len = 0 then .done (s.modPair pair fun p => { p with hold := s.cycle })
    else
      let h := s.cycle + s.rampLen pair + 64 * len.toNat
      let s := if (s.entryReady pair).isNone then s.endIdle pair [0, 1] else s
      let s := s.modPair pair fun p => { p with hold := max p.hold h }
      let s := s.rampUp pair (s.launchIdOf t) [0, 1]
      .done (s.modPair pair fun p => { p with chargedTo := s.launchIdOf t })

/-- One block of a B chunk (R230): its 64 codes and the offset behind it; none where it passes the buffer's end (R231). -/
def State.decodeBlock (s : State) (pair e ptr : Nat) : Option (List Nat × Nat) :=
  if 2097152 < ptr + 8 then none
  else
    let bits := s.mem.readLE (locWeight pair ptr) 8
    let next := ptr + 8 + e * popN 64 bits
    if 2097152 < next then none
    else some ((List.range 64).map (fun t =>
      if testN bits t then s.mem.readLE (locWeight pair (ptr + 8 + e * popN t bits)) e else 0), next)

/-- DecodeChunk (R231): `n` blocks from an offset, one column of 64 codes each. -/
def State.decodeChunk (s : State) (pair e : Nat) : Nat → Nat → Option (List (List Nat) × Nat)
  | 0, ptr => some ([], ptr)
  | n + 1, ptr =>
    match s.decodeBlock pair e ptr with
    | none => none
    | some (col, ptr) =>
      match State.decodeChunk s pair e n ptr with
      | none => none
      | some (cols, ptr) => some (col :: cols, ptr)

/-- One block rounded into one element (R228): the new code and the flags it raises. -/
def mmaRound (flush scl : Bool) (old : Word) (x : FVal) (p q : Nat) : Word × Nat :=
  let t := FVal.add false (val32 flush old) (scaled scl x p q)
  let y := rne32 flush t
  let v := valueOf .f32 y.toNat
  let inf := match v with
    | .inf _ => true
    | _ => false
  (y, (if inf && t.isFin then 1 else 0) + (if v.isNan then 2 else 0) + (if scl && (p == 0xFF || q == 0xFF) then 4 else 0))

/-- What a step needs of an MMA in progress (R228). -/
structure MmaStep where
  pair : Nat
  crew : Nat
  bank : Nat
  tile : Nat
  scl : Bool
  ta : Ty
  tb : Ty
  mode : Nat
  base : Nat
  s0 : Nat
  s1 : Nat
  sa : List Nat
  sb : List Nat
  step : Nat
  flush : Bool
  deriving DecidableEq, Repr

/-- Bytes of a crew's scratchpad, by their offset in its allocation (R38): where its room has been returned, those saved.
(DEDUCED, log 101: safe.)
(DEDUCED, log 103: safe.) -/
def State.crewBytes (s : State) (crew off n : Nat) : List Byte :=
  let c := s.crewAt crew
  if c.away then (List.range n).map fun i => c.saved.getD (off + i) 0 else s.mem.readN (locScratch c.core (c.sBase + off)) n

/-- A list with some of its places replaced from one on. -/
def putList (l : List Byte) (off : Nat) (bs : List Byte) : List Byte := l.take off ++ bs ++ l.drop (off + bs.length)

/-- Write bytes of a crew's scratchpad (R38): where its room has been returned, those saved.
(DEDUCED, log 101: safe.)
(DEDUCED, log 103: safe.) -/
def State.putCrewBytes (s : State) (crew off : Nat) (bs : List Byte) : State :=
  let c := s.crewAt crew
  if c.away then s.modCrew crew fun x => { x with saved := putList x.saved off bs }
  else { s with mem := s.mem.writeN (locScratch c.core (c.sBase + off)) bs }

/-- Absent lines among bytes of a crew's scratchpad; none where its room has been returned. -/
def State.crewAbsent (s : State) (crew off n : Nat) : List Nat :=
  let c := s.crewAt crew
  if c.away then [] else s.absentIn (locScratch c.core (c.sBase + off)) n

/-- Codes of row `i` of A in block `b` (R226). -/
def State.mmaRow (s : State) (m : MmaStep) (b i : Nat) : List Nat :=
  (List.range 32).map fun k =>
    ofBytes (s.crewBytes m.crew (layoutXor m.mode (m.base + i * m.s0 + (32 * b + k) * m.s1)) (tyBits m.ta / 8))

/-- A whole row of the tile in block `b` (R228): the accumulators and the flags. -/
def mmaRowRound (m : MmaStep) (cols : List (List Nat)) (b i : Nat) (row : List Nat) (acc : SMap Word) (fl : Nat) : SMap Word × Nat :=
  (List.range 128).foldl (fun r j =>
    let key := accKey m.bank m.tile i j
    let bs := ((cols.getD j []).drop (32 * (b % 2))).take 32
    let x := dotCodes m.flush (fmtD m.ta) (fmtD m.tb) row bs
    let y := mmaRound m.flush m.scl (SMap.getD r.1 key 0) x (m.sa.getD (256 * b + i) 0) (m.sb.getD (128 * b + j) 0)
    (SMap.put r.1 key y.1, orN 4 r.2 y.2)) (acc, fl)

/-- One block of the step over the whole tile. -/
def State.mmaBlock (s : State) (m : MmaStep) (cols : List (List Nat)) (b : Nat) (r : SMap Word × Nat) : SMap Word × Nat :=
  (List.range 256).foldl (fun r i => mmaRowRound m cols b i (s.mmaRow m b i) r.1 r.2) r

/-- Change the entry of a number. -/
def State.modEntry (s : State) (pair seq : Nat) (f : MEntry → MEntry) : State :=
  s.modPair pair fun p => { p with queue := p.queue.map fun e => if e.seq = seq then f e else e }

/-- An entry retires: its status register is written and its launch may become ready to commit (R222, R228). -/
def State.retire (s : State) (pair : Nat) (e : MEntry) (v : Word) : State :=
  let s := s.modPair pair fun p => { p with queue := p.queue.filter (fun x => x.seq ≠ e.seq), idle := [s.cycle, s.cycle] }
  (s.deliverOpt e.result [v]).checkReady e.launch

/-- Every element of a tile to +0.0 and its status word to 0 (R228, R236). -/
def State.zeroTile (s : State) (bank tile : Nat) : State :=
  { s with
    acc := SMap.keep s.acc fun k _ => k / (128 * 256) != bank * 8 + tile,
    tileStat := SMap.del s.tileStat (bank * 8 + tile) }

/-- MLOADB is performed (R232), once its source lines are present. -/
def State.performLoad (s : State) (pair : Nat) (e : MEntry) (src dst len : Nat) : State :=
  if !(s.crewAbsent e.crew src len).isEmpty then s
  else
    let s := { s with mem := s.mem.writeN (locWeight pair dst) (s.crewBytes e.crew src len) }
    s.retire pair e 0

/-- One element that MST stores (R235). -/
def State.mstCode (s : State) (flush : Bool) (ty : Ty) (rm : Rm) (pol : Pol) (key : Nat) : Nat :=
  match roundToFormat flush (val32 flush (SMap.getD s.acc key 0)) (fmtD ty) rm (polOf pol) 0 with
  | some c => c
  | none => 0

/-- One row that MST stores (R235): 128 elements from the accumulators' row `row`, at the places of the layout's row `i`. -/
def State.storeRow (s : State) (e : MEntry) (ty : Ty) (rm : Rm) (pol : Pol) (tile mode base s0 s1 row i : Nat) : State :=
  let flush := (s.launchAt e.launch).lrec.flush
  (List.range 128).foldl (fun s j =>
    s.putCrewBytes e.crew (layoutXor mode (base + i * s0 + j * s1))
      (bytesOf (tyBits ty / 8) (s.mstCode flush ty rm pol (accKey e.bank tile row j)))) s

/-- MST is performed (R235): the rows of RSEL are written, their lines are present, then the status word is. -/
def State.performStore (s : State) (pair : Nat) (e : MEntry) (ty : Ty) (rm : Rm) (pol : Pol)
    (rsel tile mode base s0 s1 : Nat) : State :=
  let (lo, rows) := mstRows rsel
  let lines := if (s.crewAt e.crew).away then [] else s.layoutLines e.crew mode base s0 s1 rows 128
  let st := SMap.getD s.tileStat (e.bank * 8 + tile) 0
  let s := (List.range rows).foldl (fun s i => s.storeRow e ty rm pol tile mode base s0 s1 (lo + i) i) s
  { s with absent := s.absent.filter fun ln => !lines.contains ln }.retire pair e st

/-- MATRIX_QUEUE_ENTRY (R222, R228, R232, R235, R236): the entry at work starts, an MMA's tile being cleared under Z, or
is performed whole; for a started MMA the arrays are ramped up again where they have gone down since (R402). -/
def execMatrixQueueEntry (pair : Nat) (s : State) : Out' :=
  match s.entryReady pair with
  | none => .next s
  | some e =>
    let s := s.unpausePair pair
    match e.kind with
    | .mma z _ _ _ tile _ _ _ _ _ _ _ _ _ _ =>
      if e.started then .next (s.rampUp pair e.launch [0, 1])
      else
        let s := if z then s.zeroTile e.bank tile else s
        .next ((s.modEntry pair e.seq fun x => { x with started := true }).rampUp pair e.launch [0, 1])
    | .mloadb src dst len => .next (s.performLoad pair e src dst len)
    | .mst ty rm pol rsel tile mode base s0 s1 => .next (s.performStore pair e ty rm pol rsel tile mode base s0 s1)
    | .mzero mask =>
      .next ((((List.range 8).filter fun n => testN mask n).foldl (fun s n => s.zeroTile e.bank n) s).retire pair e 0)

/-- Cycles that one step occupies the arrays (R222). -/
def stepCycles (ta : Ty) : Nat := if tyBits ta = 8 then 64 else 128

/-- An MMA retires (R228): the tile's status word takes its flags, vD the flags and the steps. -/
def State.retireMma (s : State) (pair : Nat) (e : MEntry) (tile flags steps : Nat) : State :=
  let key := e.bank * 8 + tile
  let st := orN 4 (SMap.getD s.tileStat key 0).toNat flags
  { s with tileStat := SMap.put s.tileStat key (BitVec.ofNat 32 st) }.retire pair e (BitVec.ofNat 32 (flags + steps * 256))

/-- MMA_STEP (R222, R228, R231): one K step of the entry at work, with both arrays hot and the A lines present. -/
def execMmaStep (pair : Nat) (s : State) : Out' :=
  match s.entryReady pair with
  | none => .next s
  | some e =>
    match e.kind with
    | .mma z scl ta tb tile ks mode base s0 s1 ptr sa sb step flags =>
      let s := s.unpausePair pair
      let lines := if (s.crewAt e.crew).away then [] else s.layoutLines e.crew mode (base + 64 * step * s1) s0 s1 256 64
      if !e.started || !s.arrayHot (2 * pair) || !s.arrayHot (2 * pair + 1) || lines.any s.absent.contains then .next s
      else
        match s.decodeChunk pair (tyBits tb / 8) 128 ptr with
        | none => .next (s.retireMma pair e tile (orN 4 flags 8) step)
        | some (cols, next) =>
          let m : MmaStep :=
            { pair := pair, crew := e.crew, bank := e.bank, tile := tile, scl := scl, ta := ta, tb := tb, mode := mode,
              base := base, s0 := s0, s1 := s1, sa := sa, sb := sb, step := step,
              flush := (s.launchAt e.launch).lrec.flush }
          let r := s.mmaBlock m cols (2 * step + 1) (s.mmaBlock m cols (2 * step) (s.acc, flags))
          let s := { s with acc := r.1 }
          let s := s.modEntry pair e.seq fun x =>
            { x with kind := .mma z scl ta tb tile ks mode base s0 s1 next sa sb (step + 1) r.2 }
          let s := if step + 1 = ks then s.retireMma pair e tile r.2 ks else s
          .next (s.chargeC e.launch (2 * 16 * stepCycles ta))
    | _ => .next s

/-- RAMP_FILLERS_DONE (R402): an array whose fillers are done is hot, or cold after a ramp-down. -/
def execRampFillersDone (core : Nat) (s : State) : Out' :=
  let pair := pairOf core
  let set (r : Ramp) (s : State) : State :=
    s.modPair pair fun p => { p with ramp := p.ramp.set (core % 2) r, idle := p.idle.set (core % 2) s.cycle }
  match (s.pairAt pair).ramp.getD (core % 2) .cold with
  | .up till => .next (if till ≤ s.cycle then set .hot s else s)
  | .down since =>
    if since + s.rampLen pair ≤ s.cycle then .next ((set .cold s).chargeC (s.pairAt pair).chargedTo (16 * s.rampLen pair))
    else .next s
  | _ => .next s

/-- BURST_HOLD_EXPIRY (R402): with the hold passed, no entry ready and no MMAG waiting, a hot array ramps down; the
fillers it ran since it was last at work are charged. -/
def execBurstHoldExpiry (core : Nat) (s : State) : Out' :=
  let pair := pairOf core
  let p := s.pairAt pair
  let waits := (SMap.vals s.threads).any fun x => x.live && x.park == some (.retry (.ramp core))
  if p.ramp.getD (core % 2) .cold = .hot ∧ p.hold ≤ s.cycle ∧ (s.entryReady pair).isNone ∧ !waits then
    .next ((s.endIdle pair [core % 2]).modPair pair fun p => { p with ramp := p.ramp.set (core % 2) (.down s.cycle) })
  else .next s

end Sys2Proof.Machine
end

