-- ==== Sys2Proof/Machine/Engine.lean ====
section
/-! DEFINITION. Engine operations: the checks and waits at issue, reading and writing for an operation, its units, its
errors, and its completion (R271 to R275, R290, R293, R356, R403). Carousel and hoist words call these. -/

namespace Sys2Proof.Machine

/-- The address that an operand gives in a space (R272). -/
def State.engAddr (s : State) (t : Nat) (sp : ESp) (o : Opd) : Nat :=
  match sp with
  | .S | .W => (s.rd t (regNum o)).toNat
  | _ => (s.rd64 t (regNum o)).toNat

/-- Whether a W range passes its limits for a thread (R42, R44, R184).
(DESIGN CHOICE, log 85: unsafe.) -/
def State.rangeW (s : State) (t a n : Nat) (write : Bool) : Bool :=
  let core := a / 2 ^ 24
  let off := a % 2 ^ 24
  if 2 ^ 31 < a + n || 2 ^ 24 < off + n then false
  else if off < 0x800000 then
    (match s.crewOnCore core fun c => decide (c.sBase ≤ off) && decide (off + n ≤ c.sBase + c.sSize) with
     | some (_, c) => s.keyOk t (s.launchAt c.launch).ctx
     | none => false)
  else if off < 0xA00000 then
    (match s.regOwner core (off - 0x800000) with
     | some (_, c) => s.keyOk t (s.launchAt c.launch).ctx && c.halted &&
         decide (off - 0x800000 + n ≤ c.regBase + 4 * c.threads * c.nreg)
     | none => false)
  else if off < 0xC00000 then !write && decide (off + n ≤ 0xC00000)
  else if off + n ≤ 0xD00000 && (off - 0xC00000) / 0x80000 == (off + n - 1 - 0xC00000) / 0x80000 then
    (match s.setOf (pairOf core) ((off - 0xC00000) / 0x80000) with
     | some (ctx, _) => s.keyOk t ctx && s.bankHalted (pairOf core) ctx
     | none => false)
  else false

/-- Whether a range of a space passes the checks of an issue (R290). -/
def State.engRange (s : State) (t : Nat) (sp : ESp) (a n : Nat) (write : Bool) : Bool :=
  match sp with
  | .S => decide (a + n ≤ (s.crewOf t).sSize)
  | .W => s.rangeW t a n write
  | _ => fieldN a 52 12 == 0

/-- The check of what the completion fields name: the chute, and the word of CPL 2 (R273).
(DEDUCED, log 56: unsafe.) -/
def State.engWord (s : State) (t : Nat) (e : EngMods) (d : Opd) : Reach :=
  if e.che && (s.chuteFor t e.sel).isNone then .fault .access 0
  else if e.cpl = 2 then s.reachVirt t (s.rd64 t (regNum d)) 4 .D .write
  else .ok s 0 false false

/-- The waits of an engine word after all its checks: the page of its completion word, its own earlier accesses (its
issue is a release, R275), what `hold` names, and a chute permit. -/
def engGo (t : Nat) (e : EngMods) (w : Reach) (hold : State → Option Block) (go : State → LaneRes) : LaneRes :=
  match w with
  | .fault c ea => .fault c ea
  | .park b => .park b
  | .stay s => .stay s
  | .ok s _ _ _ =>
    if s.busy t then .park (.fence 2)
    else
      match hold s with
      | some b => .park b
      | none =>
        if !e.che then go s
        else
          match s.chuteFor t e.sel with
          | none => .fault .access 0
          | some (c, k) =>
            let n := s.putSeq t c k
            if decide (0 < ((s.crewAt c).chute k).free) && s.chuteFirst c k n true then go s
            else .stay ((s.setPark t (.retry (.chutePut c k n))).bump)

/-- An engine word in a lane: ALIGN, of its completion word too, then ACCESS, then the word's own late check, then the waits, then the issue (R277,
R290).
(DEDUCED, log 53: unsafe.) -/
def engLane (t : Nat) (e : EngMods) (d : Opd) (align access : Bool) (late : Option Cause) (hold : State → Option Block)
    (go : State → LaneRes) (s : State) : LaneRes :=
  if align then .fault .align 0
  else
    let w := s.engWord t e d
    match w with
    | .fault .align ea => .fault .align ea
    | _ =>
      if access then .fault .access 0
      else
        match w with
        | .fault c ea => .fault c ea
        | _ =>
          match late with
          | some c => .fault c 0
          | none => engGo t e w hold go

/-- Whether an engine operation waits for its tile to pass (R278). -/
def EKind.rides : EKind → Bool
  | .cboard _ _ _ | .ccatch _ _ | .creplace _ _ _ | .calight _ _ => true
  | _ => false

/-- Issue an engine operation of a lane: its status register is tracked and its permit taken (R273). One of the carousel reaches
its station within 128 cycles, when the spec leaves open (R278).
(DESIGN CHOICE, log 49: safe.) -/
def State.addEop (s : State) (t : Nat) (e : EngMods) (d : Opd) (kind : EKind) : Nat × State :=
  let va := s.rd64 t (regNum d)
  let ch := if e.che then s.chuteFor t e.sel else none
  let (r, s) := if e.cpl = 0 then
      (let (r, s) := s.track t ((dstWords 32 d 0).map Prod.fst) none none
       (some r, s))
    else (none, s)
  let (w, s) := if kind.rides then s.freeWord else (0, s)
  let (n, s) := s.take
  let o : EOp :=
    { thread := t, crew := (s.thr t).crew, launch := s.launchIdOf t, ctx := s.ctxIdOf t, core := s.coreOf t, kind := kind,
      result := r, word := if e.cpl = 2 then some va else none, chute := ch, seq := n, undelivered := [], staged := [],
      outcome := none, committedAt := none, applied := false, resv := 0,
      touched := [], reach := s.cycle + w.toNat % 129, serving := false }
  let s := { s with eops := SMap.put s.eops n o }
  (n, match ch with
      | some (c, k) => s.modChute c k fun x => { x with permits := x.permits + 1 }
      | none => s)

/-- Change an engine operation. -/
def State.modEop (s : State) (n : Nat) (f : EOp → EOp) : State := { s with eops := SMap.modify s.eops n f }

/-- The lines become absent: an engine operation will deliver them (R39). -/
def State.clearLines (s : State) (ls : List Nat) : State := { s with absent := ls ++ s.absent }

/-- The lines become present (R39). -/
def State.setLines (s : State) (ls : List Nat) : State := { s with absent := s.absent.filter fun ln => !ls.contains ln }

/-- Which of the lines are absent: a second engine write waits for them (R40). -/
def State.absentOf (s : State) (ls : List Nat) : Option Block :=
  match ls.filter s.absent.contains with
  | [] => none
  | ln :: lns => some (.lines (ln :: lns))

/-- Lines of a crew's scratchpad range. -/
def State.sLines (s : State) (crew off n : Nat) : List Nat :=
  let c := s.crewAt crew
  linesOf (locScratch c.core (c.sBase + off)) n

/-- Die of the slice that owns a line of HBM (R330).
(DEDUCED, log 34: safe.) -/
def sliceDie (loc : Nat) : Nat := loc / 256 % 768 % 8 / 2

/-- Bytes that an engine's access is charged: those between core and slice, and again those that cross a die-to-die link
or the fabric (R356).
(DEDUCED, log 55: unsafe.) -/
def engBytes (core loc n : Nat) (host peer : Bool) : Nat := if peer || (!host && sliceDie loc != dieOf core) then 2 * n else n

/-- Status CODE of a transfer error (R274). -/
def engCode : Cause → Nat
  | .machineCheck => 0x0A
  | .access => 0x09
  | _ => 0x08

/-- How a read for an engine operation ends: the bytes with the charge, a wait, or an error. -/
inductive EngRead
  | ok (s : State) (data : List Byte) (charge : Nat)
  | waits (s : State)
  | bad (code : Nat)

/-- The space of a page for an engine's space (R387). -/
def espSpace : ESp → Sp
  | .G => .G
  | .K => .K
  | _ => .D

/-- Location of a window address (R42, R43). -/
def wLoc (a : Nat) : Nat :=
  let core := a / 2 ^ 24
  let off := a % 2 ^ 24
  if off < 0x800000 then locScratch core off
  else if 0xA00000 ≤ off ∧ off < 0xC00000 then locWeight (pairOf core) (off - 0xA00000)
  else locWindow core off

/-- A byte of a window or memory location as it stands. -/
def State.plainByte (s : State) (loc : Nat) : Byte := if loc ≥ 2 ^ 82 then s.windowByte loc else s.mem.read loc

/-- Bytes that a W access of an engine is charged: those that cross a die-to-die link (R356).
(DEDUCED, log 55: unsafe.) -/
def windowCharge (core addr n : Nat) : Nat := if dieOf (addr / 2 ^ 24) = dieOf core then 0 else n

/-- Read for an engine operation (R290): an S source waits on absent lines that are not the operation's own, and of an evicted
crew it is read as the eviction has saved it (R275, R286); G is read in the lot's view, and a read of a peer goes out on its port
(R426).
(DEDUCED, log 103: safe.) -/
def State.engRead (s : State) (n : Nat) (o : EOp) (sp : ESp) (addr len : Nat) (own : List Nat) : EngRead :=
  let waitsOn (loc : Nat) : Bool := (s.absentIn loc len).any fun ln => !own.contains ln
  match sp with
  | .S =>
    let c := s.crewAt o.crew
    let loc := locScratch c.core (c.sBase + addr)
    if c.away then .ok s (s.crewBytes o.crew addr len) 0
    else if waitsOn loc then .waits s else .ok s (s.mem.readN loc len) 0
  | .W =>
    if waitsOn (wLoc addr) then .waits s
    else .ok s ((List.range len).map fun i => s.plainByte (wLoc addr + i)) (windowCharge o.core addr len)
  | _ =>
    match s.engineTr (.eop n) (dieOf o.core) o.ctx addr (espSpace sp) .read with
    | .ok s loc host peer =>
      let at_ (i : Nat) : Byte := match sp with
        | .G => s.lotByte o.launch (loc + i)
        | _ => s.mem.read (loc + i)
      .ok (s.peerRead o.launch (sp == .G) loc len) ((List.range len).map at_) (engBytes o.core loc len host peer)
    | .waits s => .waits s
    | .bad c => .bad (engCode c)

/-- Bytes of the destination of an HCOLL member (R292). -/
def collDest (op : COp) (count size : Nat) : Nat := match op with
  | .allgat => 4 * count * size
  | _ => 4 * count

/-- Bytes of the source of an HCOLL member (R292). -/
def collSrc (op : COp) (count size : Nat) : Nat := match op with
  | .redsct => 4 * count * size
  | _ => 4 * count

/-- How a write for an engine operation ends. -/
inductive EngWrite
  | ok (s : State) (charge : Nat)
  | waits (s : State)
  | bad (code : Nat)

/-- A G write of an engine operation: the reservation of its line is returned, and the bytes go to the lot's shadow,
unless the lot has ended (R286, R290). -/
def State.engShadow (s : State) (n : Nat) (o : EOp) (va loc : Nat) (data : List Byte) : State :=
  let s := if o.touched.contains (va / 128) then s else
    (s.modEop n fun x => { x with resv := x.resv - 1, touched := va / 128 :: x.touched }).modLaunch o.launch fun x =>
      { x with reserved := x.reserved - 1 }
  if !(s.launchAt o.launch).status.open_ then s
  else s.modLaunch o.launch fun x =>
    { x with lines := if x.lines.contains (lineOf loc) then x.lines else lineOf loc :: x.lines,
             shadow := putShadow x.shadow loc data }

/-- The range of memory that a copy or a member of a collective writes (R291, R292). -/
def EKind.dest : EKind → Nat × Nat
  | .hcopy _ _ _ dst len => (dst, len)
  | .hcoll op _ _ _ dst count _ _ _ size _ => (dst, collDest op count size)
  | _ => (0, 0)

/-- A retired line of HBM that an operation writes whole is remapped first (R452).
(DEDUCED, log 36: unsafe.) -/
def State.remapFor (s : State) (o : EOp) (sp : ESp) (addr : Nat) : State :=
  let d := o.kind.dest
  if s.writesOpen ∧ d.1 ≤ addr / 128 * 128 ∧ addr / 128 * 128 + 128 ≤ d.1 + d.2 then
    match translate s (dieTlb (dieOf o.core)) o.ctx addr (espSpace sp) .write with
    | .ok loc _ _ _ _ => if loc < hbmSize then s.remapLine (lineOf loc) else s
    | _ => s
  else s

/-- Write for an engine operation: it waits while the device's state closes HBM or the fabric (R445), and one to a peer goes out
on its port (R426), with the lot's commit where it writes the lot's view.
(DEDUCED, log 103: safe.) -/
def State.engWrite (s : State) (n : Nat) (o : EOp) (sp : ESp) (addr : Nat) (data : List Byte) : EngWrite :=
  match sp with
  | .S => .ok (s.putCrewBytes o.crew addr data) 0
  | .W => .ok (s.putBytes (wLoc addr) data) (windowCharge o.core addr data.length)
  | _ =>
    match (s.remapFor o sp addr).engineTr (.eop n) (dieOf o.core) o.ctx addr (espSpace sp) .write with
    | .ok s loc host peer =>
      if !s.mayWrite (sp == .G) loc then .waits s
      else
        let s := match sp with
          | .G => s.engShadow n o addr loc data
          | _ => { s with mem := s.mem.writeN loc data }.peerSend o.launch loc fun a => .write a data
        .ok s (engBytes o.core loc data.length host peer)
    | .waits s => .waits s
    | .bad c => .bad (engCode c)

/-- Element (i, j, k) of an HLAYOUT by its unit number. -/
def layoutUnit (n0 n1 u : Nat) : Nat × Nat × Nat := (u % n0, u / n0 % n1, u / n0 / n1)

/-- Units of the destination of an HCOLL or HLAYOUT are numbered from here, those of its source from 0. -/
def collOut : Nat := 2 ^ 64

/-- An HLAYOUT's elements by the addresses of their source and destination (R291), `toMem` where the scratchpad is the
source. -/
def layoutMoves (toMem : Bool) (mode base s0 s1 s2 addr e n0 n1 n2 p1 p2 : Nat) : List (Nat × Nat) :=
  (List.range (n0 * n1 * n2)).map fun u =>
    let (i, j, k) := layoutUnit n0 n1 u
    let off := layoutXor mode (base + i * s0 + j * s1 + k * s2)
    let m := addr + i * e + j * p1 + k * p2
    if toMem then (off, m) else (m, off)

/-- Units of an HLAYOUT: the 16-byte chunks that its source and its destination touch (R291). -/
def layoutUnits (ms : List (Nat × Nat)) : List Nat :=
  (ms.map fun x => x.1 / 16).dedup ++ (ms.map fun x => collOut + x.2 / 16).dedup

/-- Scratchpad lines that an operation's destination covers (R39). -/
def State.destLines (s : State) (crew : Nat) (k : EKind) : List Nat :=
  match k with
  | .hcopy _ _ .S dst len => s.sLines crew dst len
  | .hlayout false mode base s0 s1 s2 _ addr e n0 n1 n2 p1 p2 =>
    ((layoutMoves false mode base s0 s1 s2 addr e n0 n1 n2 p1 p2).flatMap fun x => s.sLines crew x.2 e).dedup
  | .hgather _ _ dat _ count rlen => s.sLines crew dat (count * rlen)
  | .hcoll op _ _ .S dst count _ _ _ size _ => s.sLines crew dst (collDest op count size)
  | .ccatch off _ => s.sLines crew off 16384
  | .calight (some off) _ => s.sLines crew off 16384
  | _ => []

/-- Scratchpad lines that one unit of an operation delivers to. -/
def State.unitLines (s : State) (o : EOp) (u : Nat) : List Nat :=
  match o.kind with
  | .hcopy _ _ .S dst _ => s.sLines o.crew (dst + 16 * u) 16
  | .hlayout false _ _ _ _ _ _ _ _ _ _ _ _ _ => if collOut ≤ u then s.sLines o.crew (16 * (u - collOut)) 16 else []
  | .hgather _ _ dat _ _ _ => s.sLines o.crew (dat + 16 * u) 16
  | .hcoll _ _ _ .S dst _ _ _ _ _ _ => if collOut ≤ u then s.sLines o.crew (dst + 16 * (u - collOut)) 4 else []
  | .ccatch off _ => s.sLines o.crew (off + 128 * u) 128
  | .calight (some off) _ => s.sLines o.crew (off + 128 * u) 128
  | _ => []

/-- Lines of an operation that it has still to deliver: all of them until its units are known. -/
def State.openLines (s : State) (o : EOp) : List Nat :=
  match o.kind with
  | .hcoll _ _ _ _ _ _ _ _ _ _ _ => if o.applied then o.undelivered.flatMap (s.unitLines o) else s.destLines o.crew o.kind
  | .ccatch _ _ | .calight _ _ =>
    if o.outcome.isSome then o.undelivered.flatMap (s.unitLines o) else s.destLines o.crew o.kind
  | _ => o.undelivered.flatMap (s.unitLines o)

/-- Whether an operation writes G space. -/
def EKind.toG : EKind → Bool
  | .hcopy _ _ .G _ _ => true
  | .hlayout true _ _ _ _ _ .G _ _ _ _ _ _ _ => true
  | .hscatter .G _ _ _ _ _ => true
  | .hcoll _ _ _ .G _ _ _ _ _ _ _ => true
  | _ => false

/-- An operation holds no shadow line in reserve any more. -/
def State.dropResv (s : State) (n : Nat) (o : EOp) : State :=
  (s.modEop n fun x => { x with resv := 0 }).modLaunch o.launch fun x => { x with reserved := x.reserved - o.resv }

/-- An operation ends with a CODE: lines it has not delivered are present with what they held (R39). -/
def State.endEop (s : State) (n code version : Nat) : State :=
  match SMap.get? s.eops n with
  | none => s
  | some o => (((s.setLines (s.openLines o)).dropWaits (.eop n)).dropResv n o).finishEop n code version

/-- A transfer error (R293): with a G destination the lot aborts too. -/
def State.engFail (s : State) (n code : Nat) : State :=
  match SMap.get? s.eops n with
  | none => s
  | some o =>
    let s := s.endEop n code 0
    if !o.kind.toG then s
    else if code = 0x0A then s.abortLot o.launch 0x03 0x01 0 true
    else s.abortLot o.launch 0x01 (if code = 0x09 then 0x11 else 0x10) 0 false

/-- A unit has been moved: its lines are present once no unit of theirs is left, and the last one ends the operation. -/
def State.unitDone (s : State) (n u : Nat) (ends : Bool) : State :=
  match SMap.get? s.eops n with
  | none => s
  | some o =>
    let o' := { o with undelivered := o.undelivered.filter (· ≠ u) }
    let left := o'.undelivered.flatMap (s.unitLines o)
    let s := { s with eops := SMap.put s.eops n o' }
    let s := s.setLines ((s.unitLines o u).filter fun ln => !left.contains ln)
    if o'.undelivered.isEmpty && ends then s.endEop n 0 0 else s

/-- Something of a context has moved on: its watchdog counts anew (R374). -/
def State.progressed (s : State) (ctx : Nat) : State :=
  { s with ctxs := SMap.modify s.ctxs ctx fun c => { c with progress := s.now } }

/-- Drop the token of a completion into its chute: the permit becomes the token (R273). -/
def State.dropToken (s : State) (o : EOp) (w : Word) : State :=
  match o.chute with
  | some (c, k) => s.modChute c k fun x => { x with permits := x.permits - 1, toks := x.toks ++ [w] }
  | none => s

/-- An operation is gone: its lot may become ready, and its context has moved on (R283, R374). -/
def State.dropEop (s : State) (n : Nat) (o : EOp) : State :=
  (({ s with eops := SMap.del s.eops n }.dropWaits (.eop n)).progressed o.ctx).checkReady o.launch

/-- ENGINE_COMPLETION (R273): the data and presence stand, then the status is written, then the token; the bytes of a completion word
are charged (R356). A completion word that can no longer be written is not.
(DEDUCED, log 56: unsafe.) -/
def execEngineCompletion (n : Nat) (s : State) : Out' :=
  match SMap.get? s.eops n with
  | none => .next s
  | some o =>
    match o.outcome with
    | none => .next s
    | some (code, version) =>
      if !o.undelivered.isEmpty then .next s
      else
        let w := statusWord code version
        let finish (s : State) : Out' := .next (((s.deliverOpt o.result [w]).dropToken o w).dropEop n o)
        match o.word with
        | none => finish s
        | some va =>
          match s.devWriteFor o.launch (.eop n) (dieOf o.core) o.ctx va.toNat (bytesOf 4 w.toNat) with
          | .done s => finish (s.chargeBytes o.launch 4)
          | .waits s => .next s
          | .bad _ => finish s

end Sys2Proof.Machine
end

