-- ==== Sys2Proof/Machine/Infer.lean ====
section
/-! DEFINITION. The inference queue of a die (R267 to R269, R418): an entry waits, is served with the others of its batch, and takes
each layer's tile as it passes the die's station (`Machine/Carousel.lean`). -/

namespace Sys2Proof.Machine

/-- Entries of a die's inference queue. -/
def State.inferQueue (s : State) (die : Nat) : List (Nat × IEntry) := SMap.keep s.infers fun _ i => i.die == die

/-- INFER (R267, R418): the descriptor and the inputs are read at issue, once everything before it has been performed (R302,
R312). -/
def execInfer (nin : BitVec 5) (nout : BitVec 4) (d a b : Opd) (s : State) : Out' :=
  memLanes s fun s t =>
    let ea := s.rd64 t (regNum b)
    let die := dieOf (s.coreOf t)
    match s.reachVirt t ea 64 .K .read with
    | .fault c e => .fault c e
    | .park bl => .park bl
    | .stay s' => if s.busy t then .park (.fence 2) else .stay s'
    | .ok s loc _ _ =>
      if s.busy t then .park (.fence 2)
      else if 256 ≤ (s.inferQueue die).length then .park (.inferFull die)
      else
        let n := nout.toNat + 1
        let (r, s) := s.track t ((List.range (n + 1)).map fun i => .v (regNum d + i)) none none
        let (i, s) := s.take
        let e : IEntry := { thread := t, launch := s.launchIdOf t, ctx := s.ctxIdOf t, die := die, desc := ea.toNat,
                            dbytes := s.mem.readN loc 64, inputs := (List.range (nin.toNat + 1)).map fun k => s.rd t (regNum a + k),
                            nout := n, result := r, flush := s.flush t, seq := i, serve := none }
        let s := { s with infers := SMap.put s.infers i e }.peerRead (s.launchIdOf t) false loc 64
        .done ((s.addBytes t 64).performedRead t)

/-- Byte `i` of a descriptor. -/
def IEntry.byte (e : IEntry) (i : Nat) : Nat := (e.dbytes.getD i 0).toNat

/-- Element type of the weights (R267); none where WTYPE names none. -/
def IEntry.wfmt (e : IEntry) : Option Fmt :=
  let w := e.byte 1
  if w = 0x10 then some .f16
  else if w = 0x11 then some .bf16
  else if w < 0x40 ∧ testN w 5 ∧ fieldN w 0 3 ≠ 0 then some (.f8 (testN w 4) (testN w 3) (fieldN w 0 3))
  else none

/-- True of a descriptor that R267 allows. -/
def IEntry.valid (e : IEntry) : Bool :=
  let nl := e.byte 0
  let z (lo n : Nat) : Bool := (List.range n).all fun i => e.byte (lo + i) == 0
  decide (1 ≤ nl ∧ nl ≤ 4) && e.wfmt.isSome && e.byte 2 == e.inputs.length && z 3 5 && z 0x38 8 &&
  (List.range nl).all (fun l =>
    decide (1 ≤ e.byte (0x0B + 12 * l) ∧ e.byte (0x0B + 12 * l) ≤ 64) && decide (e.byte (0x0C + 12 * l) ≤ 2) && z (0x0D + 12 * l) 7) &&
  e.byte (0x0B + 12 * (nl - 1)) == e.nout

/-- Tile name of a layer. -/
def IEntry.tile (e : IEntry) (l : Nat) : Nat :=
  e.byte (8 + 12 * l) + 256 * e.byte (9 + 12 * l) + 65536 * e.byte (10 + 12 * l)

/-- Bytes of a tile as a value. -/
def Tile.le (x : Tile) (off n : Nat) : Nat := ofBytes ((List.range n).map fun i => SMap.getD x.bytes (off + i) 0)

/-- One output of a layer (R267, R268). -/
def layerOut (flush : Bool) (f : Fmt) (tile : Tile) (act : Nat) (x : List Word) (o : Nat) : Word :=
  let e := f.bits / 8
  let term (i : Nat) : FVal :=
    let scl := match f with
      | .f8 _ _ _ => some (tile.le (8448 + 2 * o + i / 32) 1)
      | _ => none
    FVal.mul (widenExact flush f (tile.le (e * (64 * o + i)) e) scl) (val32 flush (x.getD i 0))
  let b := val32 flush (BitVec.ofNat 32 (tile.le (8192 + 4 * o) 4))
  let y := rne32 flush (FVal.sum (b :: (List.range x.length).map term))
  if act = 1 then (if (val32 flush y).isNan then nan32 else if FVal.le (val32 flush y) .zero then 0 else y)
  else if act = 2 then tanh32 flush (val32 flush y)
  else y

/-- The outputs of the layer that an entry is at, with its tile (R267, R268). -/
def IEntry.layerOuts (e : IEntry) (f : Fmt) (l : Nat) (tile : Tile) (x : List Word) : List Word :=
  (List.range (e.byte (0x0B + 12 * l))).map fun o => layerOut e.flush f tile (e.byte (0x0C + 12 * l)) x o

/-- An entry ends with its results, or with NaN and why not (R268). -/
def State.endInfer (s : State) (e : IEntry) (x : List Word) (st : Word) : State :=
  let out := (if st = 0 then x else List.replicate e.nout nan32) ++ [st]
  ({ s with infers := SMap.del s.infers e.seq }.deliver e.result out).checkReady e.launch

/-- A tile passes the station of an entry that waits for it (R268): the entry catches it, and goes on to its next layer or ends.
(DEDUCED, log 28: unsafe.) -/
def State.inferCatch (s : State) (tile : Tile) (e : IEntry) : State :=
  match e.wfmt, e.serve with
  | some f, some v =>
    let y := e.layerOuts f v.layer tile v.x
    if v.layer + 1 < e.byte 0 then
      { s with infers := SMap.put s.infers e.seq { e with serve := some { layer := v.layer + 1, since := s.cycle, x := y } } }
    else s.endInfer e y 0
  | _, _ => s

/-- Entries in service at a die that wait for a tile of a context's name. -/
def State.inferWaits (s : State) (die ctx name : Nat) : List IEntry :=
  SMap.vals (SMap.keep s.infers fun _ e => e.die == die && e.ctx == ctx && e.serve.any fun v => e.tile v.layer == name)

/-- Entries of a die whose layer's tile has not passed within one revolution (R268). -/
def State.inferLate (s : State) (die : Nat) : List IEntry :=
  SMap.vals (SMap.keep s.infers fun _ e => e.die == die && e.serve.any fun v => decide (v.since + 16384 < s.cycle))

/-- The next batch of a die (R418): the oldest entry that waits and up to 31 later ones with its descriptor address. -/
def State.nextBatch (s : State) (die : Nat) : List IEntry :=
  match SMap.vals (SMap.keep s.infers fun _ e => e.die == die && e.serve.isNone) with
  | [] => []
  | e0 :: rest => (e0 :: rest.filter fun e => e.ctx == e0.ctx && e.desc == e0.desc).take 32

/-- An entry enters service: one whose descriptor is invalid ends with status 2 (R268). -/
def State.serveInfer (s : State) (e : IEntry) : State :=
  if e.valid then { s with infers := SMap.put s.infers e.seq { e with serve := some { layer := 0, since := s.cycle, x := e.inputs } } }
  else s.endInfer e [] 2

/-- INFER_BATCH_SERVICE (R268, R418): entries whose tile has not come end with status 1; where there are none, the next batch enters
service.
(DEDUCED, log 58: unsafe.) -/
def execInferBatchService (die : Nat) (s : State) : Out' :=
  match s.inferLate die with
  | [] => .next ((s.nextBatch die).foldl State.serveInfer s)
  | late => .next (late.foldl (fun s e => s.endInfer e [] 1) s)

end Sys2Proof.Machine
end

