-- ==== Sys2Proof/Machine/Carousel.lean ====
section
/-! DEFINITION. The carousel (R276 to R282, R333 to R336). A catch and an alight are registered when they issue, a boarding
and a replace when the last of their source is read; `carouselPassage` applies what is registered at a station. -/

namespace Sys2Proof.Machine

/-- The slot and tile of a context's name (R276). -/
def State.tileAt (s : State) (ctx name : Nat) : Option (Nat × Tile) :=
  SMap.find s.slots fun _ x => x.ctx == ctx && x.name == name

/-- Whether an operation is a boarding that has not taken its slot. -/
def EOp.boarding (o : EOp) (ctx : Nat) : Bool :=
  o.ctx == ctx && o.outcome.isNone && (match o.kind with
    | .cboard _ _ _ => true
    | _ => false)

/-- Name of the tile that a carousel operation is for. -/
def EKind.tile : EKind → Option Nat
  | .cboard _ _ n | .ccatch _ n | .creplace _ _ n | .calight _ n => some n
  | _ => none

/-- A boarding of the name is pending (R279, R335). -/
def State.pendingBoard (s : State) (ctx name : Nat) : Bool :=
  (SMap.vals s.eops).any fun o => o.boarding ctx && o.kind.tile == some name

/-- Tiles of a context aboard or pending boarding (R276). -/
def State.tilesOf (s : State) (ctx : Nat) : Nat :=
  (SMap.keep s.slots fun _ x => x.ctx == ctx).length + ((SMap.vals s.eops).filter fun o => o.boarding ctx).length

/-- The name of an operand, whose top byte is checked by the caller (R276). -/
def State.nameOf (s : State) (t : Nat) (b : Opd) : Nat := match s.src t 32 b with
  | .ok v => v
  | .error _ => 0

/-- True of a name with bits [31:24] set (R276). -/
def badName (name : Nat) : Bool := fieldN name 24 8 != 0

/-- CAROUSEL_MISS for a name that is not aboard (R280). -/
def State.missOf (s : State) (t name : Nat) : Option Cause :=
  if (s.tileAt (s.ctxIdOf t) name).isSome then none else some .carouselMiss

/-- Delivery limit of a core (R334). -/
def State.deliveryHold (s : State) (t : Nat) : Option Block :=
  if 4 ≤ s.deliveries (s.coreOf t) then some (.deliveries (s.coreOf t)) else none

/-- CBOARD (R279). -/
def execCboard (e : EngMods) (sp : ESp) (d a b : Opd) (s : State) : Out' :=
  memLanes s fun s t =>
    let src := s.engAddr t sp a
    let name := s.nameOf t b
    let access := badName name || !s.engRange t sp src 16384 false
    engLane t e d (src % 128 != 0) access none (fun _ => none)
      (fun s =>
        let ctx := s.ctxIdOf t
        let aboard := (s.tileAt ctx name).isSome || s.pendingBoard ctx name
        let full := decide ((s.ctxAt ctx).cquota.toNat ≤ s.tilesOf ctx)
        let (n, s) := s.addEop t e d (.cboard sp src name)
        if aboard then .done (s.finishEop n 0x01 0)
        else if full then .done (s.finishEop n 0x02 0)
        else .done ((s.modEop n fun o => { o with undelivered := List.range 128 }).addBytes t 16384)) s

/-- CCATCH (R280): its 128 destination lines become absent. -/
def execCcatch (e : EngMods) (d a b : Opd) (s : State) : Out' :=
  memLanes s fun s t =>
    let dst := s.engAddr t .S a
    let name := s.nameOf t b
    let lines := s.sLines (s.thr t).crew dst 16384
    engLane t e d (dst % 128 != 0) (badName name || !s.engRange t .S dst 16384 true) (s.missOf t name)
      (fun s => match s.deliveryHold t with
        | some b => some b
        | none => s.absentOf lines)
      (fun s => .done (((s.addEop t e d (.ccatch dst name)).2).clearLines lines)) s

/-- CREPLACE (R280): the source, and the mask with `.masked`, are read after issue. -/
def execCreplace (e : EngMods) (masked : Bool) (d a b c : Opd) (s : State) : Out' :=
  memLanes s fun s t =>
    let src := s.engAddr t .S a
    let mask := s.engAddr t .S c
    let name := s.nameOf t b
    let align := src % 128 != 0 || (masked && mask % 128 != 0)
    let access := badName name || !s.engRange t .S src 16384 false || (masked && !s.engRange t .S mask 2048 false)
    engLane t e d align access (s.missOf t name) (fun _ => none)
      (fun s =>
        let (n, s) := s.addEop t e d (.creplace src (if masked then some mask else none) name)
        .done (s.modEop n fun o => { o with undelivered := List.range (if masked then 144 else 128) })) s

/-- CALIGHT (R278): with `.copy` its 128 destination lines become absent. -/
def execCalight (e : EngMods) (copy : Bool) (d a b : Opd) (s : State) : Out' :=
  memLanes s fun s t =>
    let dst := s.engAddr t .S a
    let name := s.nameOf t b
    let lines := if copy then s.sLines (s.thr t).crew dst 16384 else []
    engLane t e d (copy && dst % 128 != 0) (badName name || (copy && !s.engRange t .S dst 16384 true)) (s.missOf t name)
      (fun s => if !copy then none else match s.deliveryHold t with
        | some b => some b
        | none => s.absentOf lines)
      (fun s => .done (((s.addEop t e d (.calight (if copy then some dst else none) name)).2).clearLines lines)) s

/-- CQUERY (R281, R470): one sample of the directory. -/
def execCquery (d b : Opd) (s : State) : Out' :=
  forLanes s fun s t =>
    let name := s.nameOf t b
    if badName name then .fault .access 0
    else
      let ws : List Word := match s.tileAt (s.ctxIdOf t) name with
        | some (slot, x) => [BitVec.ofNat 32 (2 ^ 31 + x.version), BitVec.ofNat 32 slot]
        | none => [0, 0]
      .done (s.trackVals t (seqWords (regNum d) ws) (some 64))

/-- Whether an operation is registered at a die for a context's name (R278): it has reached its station with all that it reads,
and no passage has applied it.
(DEDUCED, log 50: unsafe.) -/
def EOp.registered (o : EOp) (die cycle : Nat) : Bool :=
  dieOf o.core == die && o.outcome.isNone && o.undelivered.isEmpty && o.kind.tile.isSome && decide (o.reach ≤ cycle)

/-- Numbers of the operations registered at a die that a test accepts, in registration order. -/
def State.registeredAt (s : State) (die : Nat) (p : EOp → Bool) : List Nat :=
  SMap.vals ((SMap.keep s.eops fun _ o => o.registered die s.cycle && p o).foldl (fun m kv => SMap.put m kv.2.seq kv.1) [])

/-- The tile's bytes are what an operation delivers, with its version (R278). -/
def State.carry (s : State) (n : Nat) (x : Tile) : State :=
  s.modEop n fun o =>
    { o with staged := x.bytes, undelivered := List.range 128, outcome := some (0, x.version), applied := true }

/-- An alight of tile `x` in a slot (R278).
(DEDUCED, log 52: unsafe.) -/
def State.applyAlight (s : State) (slot : Nat) (x : Tile) (n : Nat) : State :=
  match SMap.get? s.eops n, SMap.get? s.slots slot with
  | some o, some _ =>
    let s := { s with slots := SMap.del s.slots slot }
    (match o.kind with
     | .calight (some _) _ => s.carry n x
     | _ => s.endEop n 0 x.version)
  | _, _ => s.endEop n 0x03 0

/-- The bytes of a tile after a replace: masked, only bytes whose mask bit is 1 (R278, R280). -/
def EOp.replaced (o : EOp) (masked : Bool) (x : Tile) : SMap Byte :=
  (List.range 16384).map fun i =>
    let new := SMap.getD o.staged i 0
    let bit := testN (SMap.getD o.staged (16384 + i / 8) 0).toNat (i % 8)
    (i, if masked && !bit then SMap.getD x.bytes i 0 else new)

/-- A replace on the tile in a slot (R278). -/
def State.applyReplace (s : State) (slot : Nat) (n : Nat) : State :=
  match SMap.get? s.eops n, SMap.get? s.slots slot with
  | some o, some x =>
    if x.version = 0xFFFF then s.endEop n 0x04 0
    else
      let masked := match o.kind with
        | .creplace _ (some _) _ => true
        | _ => false
      let x := { x with bytes := o.replaced masked x, version := x.version + 1 }
      { s with slots := SMap.put s.slots slot x }.endEop n 0 x.version
  | _, _ => s.endEop n 0x03 0

/-- A catch of the tile in a slot (R278). -/
def State.applyCatch (s : State) (slot : Nat) (n : Nat) : State :=
  match SMap.get? s.slots slot with
  | some x => s.carry n x
  | none => s.endEop n 0x03 0

def EKind.isAlight : EKind → Bool
  | .calight _ _ => true
  | _ => false

def EKind.isReplace : EKind → Bool
  | .creplace _ _ _ => true
  | _ => false

def EKind.isCatch : EKind → Bool
  | .ccatch _ _ => true
  | _ => false

/-- A tile with an uncorrectable error leaves at a passage (R336): catches, replaces and copying alights registered for it
complete MCHECK, and a plain alight completes as R278 gives. It is counted and the host is told.
(DESIGN CHOICE, log 51: safe.) -/
def State.dropBad (s : State) (die slot : Nat) (x : Tile) : State :=
  let mine (o : EOp) : Bool := o.ctx == x.ctx && o.kind.tile == some x.name
  let s := { s with slots := SMap.del s.slots slot }
  let ns := s.registeredAt die mine
  let s := ns.foldl (fun s n => match (SMap.get? s.eops n).map (·.kind) with
    | some (.calight none _) => s.endEop n 0 x.version
    | some (.cboard _ _ _) => s
    | _ => s.endEop n 0x0A 0) s
  (s.count 5).raise 0

/-- Registered operations at a station for a name that is not aboard complete GONE (R278). -/
def State.goneAt (s : State) (die : Nat) : State :=
  let ns := s.registeredAt die fun o => !(match o.kind with
    | .cboard _ _ _ => true
    | _ => false) && (match o.kind.tile with
    | some n => (s.tileAt o.ctx n).isNone
    | none => false)
  ns.foldl (fun s n => s.endEop n 0x03 0) s

/-- The first registered boarding of a station takes a free slot that passes (R276, R279). -/
def State.boardAt (s : State) (die slot : Nat) : State :=
  match s.registeredAt die fun o => (match o.kind with
    | .cboard _ _ _ => true
    | _ => false) with
  | [] => s
  | n :: _ =>
    match SMap.get? s.eops n with
    | none => s
    | some o =>
      let x : Tile := { ctx := o.ctx, name := o.kind.tile.getD 0, version := 1, bytes := o.staged }
      { s with slots := SMap.put s.slots slot x }.endEop n 0 1

/-- The passage that comes next in the present four cycles: its station and its slot (R333). Slot k passes station d while the
cycle count modulo 16,384 is 4k + 4,096d to 4k + 4,096d + 3; of passages at one time, those of the lower dies come first.
(DESIGN CHOICE, log 49: safe.) -/
def State.nextPassage (s : State) : Option (Nat × Nat) :=
  let q := s.cycle / 4
  let die := max s.rides (4 * q) - 4 * q
  if die < 4 then some (die, (q + 4096 * 4 - 1024 * die) % 4096) else none

/-- The passage that comes next is over. -/
def State.rode (s : State) : State := { s with rides := max s.rides (4 * (s.cycle / 4)) + 1 }

/-- The inference queue of a die catches a tile that is still aboard after the passage (R268, R418). -/
def State.inferAt (s : State) (die slot : Nat) (x : Tile) : State :=
  match SMap.get? s.slots slot with
  | some y => (s.inferWaits die x.ctx x.name).foldl (fun s e => s.inferCatch y e) s
  | none => s

/-- CAROUSEL_PASSAGE (R278, R333, R336): the slot that passes a station next passes it; its tile may be found to have an
uncorrectable error. A slot that an alight frees here can take a tile from its next passage (R335).
(DESIGN CHOICE, log 49: safe.)
(DEDUCED, log 50: unsafe.)
(DESIGN CHOICE, log 51: safe.) -/
def execCarouselPassage (die : Nat) (slot : Ride) (s : State) : Out' :=
  if s.nextPassage ≠ some (die, slot.slot) then .next s
  else
    let s := s.rode.goneAt die
    match SMap.get? s.slots slot.slot with
    | none => .next (s.boardAt die slot.slot)
    | some x =>
      if slot.bad then .next (s.dropBad die slot.slot x)
      else
        let mine (p : EKind → Bool) (o : EOp) : Bool := o.ctx == x.ctx && o.kind.tile == some x.name && p o.kind
        let s := (s.registeredAt die (mine EKind.isAlight)).foldl (fun s n => s.applyAlight slot.slot x n) s
        let s := (s.registeredAt die (mine EKind.isReplace)).foldl (fun s n => s.applyReplace slot.slot n) s
        let s := (s.registeredAt die (mine EKind.isCatch)).foldl (fun s n => s.applyCatch slot.slot n) s
        .next (s.inferAt die slot.slot x)

end Sys2Proof.Machine
end

