-- ==== Sys2Proof/Machine/Hoist.lean ====
section
/-! DEFINITION. Hoists and collectives (R289 to R293, R429), LABORT and LOTQ (R287, R288), and the event that moves one
unit of an engine operation. A unit is a 16-byte chunk or a line of a carousel tile. -/

namespace Sys2Proof.Machine

/-- Hoist operations outstanding on the core (R403). -/
def State.hoistHold (s : State) (t : Nat) (lines : List Nat) : Option Block :=
  if 32 ≤ s.hoists (s.coreOf t) then some (.hoistFull (s.coreOf t)) else s.absentOf lines

/-- SHADOW_QUOTA where a lot's unused quota cannot hold `n` more lines in reserve (R290). -/
def State.quotaLate (s : State) (t n : Nat) : Option Cause :=
  let x := s.launchOf t
  if 512 * x.lrec.quota < x.lines.length + x.reserved + n then some .shadowQuota else none

/-- Issue a hoist: its units, its reservation and its destination lines. -/
def State.addHoist (s : State) (t : Nat) (e : EngMods) (d : Opd) (kind : EKind) (units : List Nat) (resv : Nat)
    (lines : List Nat) : Nat × State :=
  let (n, s) := s.addEop t e d kind
  let s := s.modEop n fun o => { o with undelivered := units, resv := resv }
  (n, (s.modLaunch (s.launchIdOf t) fun x => { x with reserved := x.reserved + resv }).clearLines lines)

/-- Lines that a memory range touches (R290). -/
def linesIn (a n : Nat) : Nat := (linesOf a n).length

/-- A count or length operand. -/
def State.countOf (s : State) (t : Nat) (o : Opd) : Nat := match s.src t 32 o with
  | .ok v => v
  | .error _ => 0

/-- A hoist in a lane, its kind, units and reservation being known (R290, R403). -/
def hoistLane (t : Nat) (e : EngMods) (d : Opd) (align access : Bool) (kind : EKind) (units : List Nat) (resv : Nat)
    (s : State) : LaneRes :=
  let lines := s.destLines (s.thr t).crew kind
  engLane t e d align access (s.quotaLate t resv) (fun s => s.hoistHold t lines)
    (fun s => .done (s.addHoist t e d kind units resv lines).2) s

/-- HCOPY (R291). -/
def execHcopy (e : EngMods) (sp dp : ESp) (d a b c : Opd) (s : State) : Out' :=
  memLanes s fun s t =>
    let src := s.engAddr t sp a
    let dst := s.engAddr t dp b
    let len := s.countOf t c
    hoistLane t e d (src % 16 != 0 || dst % 16 != 0 || len % 16 != 0)
      (len == 0 || !s.engRange t sp src len false || !s.engRange t dp dst len true)
      (.hcopy sp src dp dst len) (List.range (len / 16)) (if dp = .G then linesIn dst len else 0) s

/-- Distinct 128-byte lines of the memory side of an HLAYOUT (R290). -/
def layoutMemLines (b e n0 n1 n2 p1 p2 : Nat) : Nat :=
  (((List.range (n1 * n2)).flatMap fun u => linesOf (b + u % n1 * p1 + u / n1 * p2) (n0 * e)).dedup).length

/-- HLAYOUT (R291): the side that is S is laid out, the other is the memory array. -/
def execHlayout (e : EngMods) (sp dp : ESp) (ty : Ty) (n0 n1 n2 : BitVec 16) (p1 p2 : BitVec 32) (d a b : Opd) (s : State) :
    Out' :=
  memLanes s fun s t =>
    let (base, s0, s1, s2, mode) := layoutFields (s.layoutWord t (regNum a))
    let toMem := sp == .S
    let mp := if toMem then dp else sp
    let m := s.engAddr t mp b
    let w := tyBytes ty
    let (c0, c1, c2) := (n0.toNat + 1, n1.toNat + 1, n2.toNat + 1)
    let (q1, q2) := (p1.toNat, p2.toNat)
    let odd (c st : Nat) : Bool := decide (1 < c) && st % w != 0
    let align := m % w != 0 || base % w != 0 || odd c0 s0 || odd c1 s1 || odd c2 s2 || q1 % w != 0 || q2 % w != 0
    let access := fieldN m 52 12 != 0 || fieldN base 23 9 != 0 ||
      decide ((s.crewOf t).sSize < base + (c0 - 1) * s0 + (c1 - 1) * s1 + (c2 - 1) * s2 + w)
    hoistLane t e d align access (.hlayout toMem mode base s0 s1 s2 mp m w c0 c1 c2 q1 q2)
      (layoutUnits (layoutMoves toMem mode base s0 s1 s2 m w c0 c1 c2 q1 q2))
      (if toMem && mp == .G then layoutMemLines m w c0 c1 c2 q1 q2 else 0) s

/-- Record length of HGATHER and HSCATTER (R291). -/
def recLen (rlen : BitVec 8) : Nat := 16 * (rlen.toNat + 1)

/-- HGATHER (R291). -/
def execHgather (e : EngMods) (sp : ESp) (rlen : BitVec 8) (d a b c : Opd) (s : State) : Out' :=
  memLanes s fun s t =>
    let idx := (s.rd t (regNum a)).toNat
    let dat := (s.rd t (regNum a + 1)).toNat
    let base := s.engAddr t sp b
    let n := s.countOf t c
    let l := recLen rlen
    hoistLane t e d (idx % 4 != 0 || dat % 16 != 0 || base % 16 != 0)
      (n == 0 || !s.engRange t .S idx (4 * n) false || !s.engRange t .S dat (n * l) true || !s.engRange t sp base l false)
      (.hgather sp idx dat base n l) (List.range (n * (l / 16))) 0 s

/-- HSCATTER (R291): its destinations are not known at issue, so it reserves the most lines its records can touch.
(DEDUCED, log 48: unsafe.) -/
def execHscatter (e : EngMods) (dp : ESp) (rlen : BitVec 8) (d a b c : Opd) (s : State) : Out' :=
  memLanes s fun s t =>
    let idx := (s.rd t (regNum a)).toNat
    let dat := (s.rd t (regNum a + 1)).toNat
    let base := s.engAddr t dp b
    let n := s.countOf t c
    let l := recLen rlen
    hoistLane t e d (idx % 4 != 0 || dat % 16 != 0 || base % 16 != 0)
      (n == 0 || !s.engRange t .S idx (4 * n) false || !s.engRange t .S dat (n * l) false || !s.engRange t dp base l true)
      (.hscatter dp idx dat base n l) (List.range (n * (l / 16))) (if dp = .G then n * ((l + 239) / 128) else 0) s

/-- The enabled group of a context (R429). -/
def State.groupOf (s : State) (ctx grp : Nat) : Option CGroup :=
  (SMap.find s.dev.groups fun _ g => g.en && g.ctx == ctx && g.grp == grp).map Prod.snd

/-- An operation's collective: its context, group and place. -/
def EOp.collKey (o : EOp) : Option (Nat × Nat × Nat) :=
  match o.kind with
  | .hcoll _ _ _ _ _ _ _ grp _ _ inst => some (o.ctx, grp, inst)
  | _ => none

/-- What a member has brought, once its source has been read. -/
def EOp.part (o : EOp) : Option CollPart :=
  match o.kind with
  | .hcoll op _ _ _ _ count ty grp rank size inst =>
    if o.applied || o.outcome.isSome || !o.undelivered.isEmpty then none
    else some { ctx := o.ctx, grp := grp, inst := inst, rank := rank, count := count, op := op, ty := ty, size := size,
                data := SMap.vals o.staged }
  | _ => none

/-- What a member is known by once it has issued (R292). -/
def EOp.member (o : EOp) : Option CollPart :=
  match o.kind with
  | .hcoll op _ _ _ _ count ty grp rank size inst =>
    some { ctx := o.ctx, grp := grp, inst := inst, rank := rank, count := count, op := op, ty := ty, size := size, data := [] }
  | _ => none

/-- Whether a member is of a joining. -/
def CollPart.isOf (p : CollPart) (ctx grp inst : Nat) : Bool := p.ctx == ctx && p.grp == grp && p.inst == inst

/-- Members of a joining that have brought their sources. Members on other devices are of the context of the same number.
(DEDUCED, log 54: unsafe.) -/
def State.collParts (s : State) (ctx grp inst : Nat) : List CollPart :=
  ((SMap.vals s.eops).filterMap fun o => if o.collKey = some (ctx, grp, inst) then o.part else none) ++
  s.collIn.filter fun p => p.isOf ctx grp inst

/-- Element `k` of a member's source. -/
def CollPart.elem (p : CollPart) (k : Nat) : Nat := ofBytes ((p.data.drop (4 * k)).take 4)

/-- One addition of a collective (R292), with FLUSH (R114).
(DEDUCED, log 54: unsafe.) -/
def collAdd (flush : Bool) (ty : Ty) (a b : Nat) : Nat :=
  if ty = .f32 then (rne32 flush (FVal.add false (widenExact flush .f32 a none) (widenExact flush .f32 b none))).toNat
  else (a + b) % 2 ^ 32

/-- The sum over ranks in ascending order of element `k` (R292). -/
def collSum (flush : Bool) (ty : Ty) (k : Nat) : List CollPart → Nat
  | [] => 0
  | p :: ps => ps.foldl (fun acc q => collAdd flush ty acc (q.elem k)) (p.elem k)

/-- The destination bytes of rank `q` from the members in rank order (R292). -/
def collResult (flush : Bool) (ps : List CollPart) (op : COp) (ty : Ty) (count q : Nat) : List Byte :=
  match op with
  | .bcast => (match ps with
      | [] => []
      | p :: _ => p.data)
  | .allred => (List.range count).flatMap fun k => bytesOf 4 (collSum flush ty k ps)
  | .allgat => ps.flatMap (·.data)
  | .redsct => (List.range count).flatMap fun k => bytesOf 4 (collSum flush ty (q * count + k) ps)

/-- Members in rank order. -/
def byRank (ps : List CollPart) : List CollPart := SMap.vals (ps.foldl (fun m p => SMap.put m p.rank p) [])

/-- Whether the members of a joining disagree, or two carry one rank (R292). -/
def collMismatch : List CollPart → Bool
  | [] => false
  | p :: ps =>
    ps.any (fun q => q.op != p.op || q.ty != p.ty || q.count != p.count || q.size != p.size) ||
    (byRank (p :: ps)).length != (p :: ps).length

/-- A member takes the result: its destination units are then moved, and it waits for its core to serve it again (R403). -/
def State.collApply (s : State) (ps : List CollPart) (n : Nat) : State :=
  s.modEop n fun o => match o.kind with
    | .hcoll op _ _ _ _ count ty _ rank size _ =>
      let bytes := collResult (s.launchAt o.launch).lrec.flush ps op ty count rank
      { o with applied := true, serving := false, staged := (List.range bytes.length).map fun i => (i, bytes.getD i 0),
               undelivered := (List.range (ceilDiv (collDest op count size) 16)).map fun u => collOut + u }
    | _ => o

/-- A joining is over: nothing is kept of it. -/
def State.collOver (s : State) (ctx grp inst : Nat) : State :=
  { s with collIn := s.collIn.filter fun p => !p.isOf ctx grp inst,
           collIssued := s.collIssued.filter fun p => !p.isOf ctx grp inst }

/-- A member has issued, here or elsewhere: once all have, the joining is checked, and where they disagree every member completes
MISMATCH (R292). The group's configuration gives how many they are.
(DEDUCED, log 54: unsafe.) -/
def State.collCheck (s : State) (p : CollPart) : State :=
  let s := { s with collIssued := s.collIssued ++ [{ p with data := [] }] }
  match s.groupOf p.ctx p.grp with
  | none => s
  | some g =>
    let ps := s.collIssued.filter fun q => q.isOf p.ctx p.grp p.inst
    if ps.length < g.sizem1 + 1 || !collMismatch ps then s
    else
      let ns := SMap.keys (SMap.keep s.eops fun _ o => o.collKey == some (p.ctx, p.grp, p.inst) && o.outcome.isNone)
      ns.foldl (fun s n => s.endEop n 0x0C 0) (s.collOver p.ctx p.grp p.inst)

/-- Other dies of this device that members of a joining lie on: an operation's bytes cross to each (R356).
(DEDUCED, log 55: unsafe.) -/
def State.collDies (s : State) (o : EOp) : Nat :=
  (((SMap.vals s.eops).filterMap fun x =>
    if x.collKey = o.collKey && dieOf x.core != dieOf o.core then some (dieOf x.core) else none).dedup).length

/-- Complete a joining whose members agree, once all of them have read their sources (R292). The group's configuration gives how
many they are.
(DEDUCED, log 54: unsafe.) -/
def State.collResolve (s : State) (ctx grp inst : Nat) : State :=
  match s.groupOf ctx grp with
  | none => s
  | some g =>
    let ps := s.collParts ctx grp inst
    if ps.length < g.sizem1 + 1 then s
    else
      let ns := (SMap.keep s.eops fun _ o => o.collKey == some (ctx, grp, inst)).filterMap fun kv => kv.2.part.map fun p =>
        (kv.1, kv.2.launch, s.collDies kv.2 * p.data.length)
      ns.foldl (fun s n => (s.collApply (byRank ps) n.1).chargeBytes n.2.1 n.2.2) (s.collOver ctx grp inst)

/-- Fabric numbers of a group's members, by rank (R429), as far as their entries translate. -/
def State.collMembers (s : State) (g : CGroup) : List Nat :=
  (List.range (g.sizem1 + 1)).map fun r =>
    match translate s (dieTlb 0) g.ctx (g.members.toNat + 2 * r) .D .read with
    | .ok loc _ _ _ _ => s.mem.readLE loc 2 % 4096
    | _ => s.dev.fabid

/-- Other devices that a group has members on (R429). -/
def State.collOthers (s : State) (g : CGroup) : List Nat := ((s.collMembers g).filter (· ≠ s.dev.fabid)).dedup

/-- Whether a group of a context spans devices (R18, R429).
(DEDUCED, log 97: unsafe.) -/
def State.crossDevice (s : State) (ctx grp : Nat) : Bool := (s.groupOf ctx grp).any fun g => !(s.collOthers g).isEmpty

/-- The group of an operation's collective. -/
def State.eopGroup (s : State) (o : EOp) : Option CGroup := o.collKey.bind fun k => s.groupOf o.ctx k.2.1

/-- How the reading of a group's members for an operation ends. -/
inductive CollDests
  | ok (s : State)
  | waits (s : State)
  | bad (code : Nat)

/-- An operation reads the entries of its group's members, from rank `r` on, and needs a route to each other device (R388, R426,
R429). -/
def State.collDests (s : State) (n : Nat) (o : EOp) (g : CGroup) : Nat → Nat → CollDests
  | 0, _ => if (s.collOthers g).all fun dst => (s.portFor dst).isSome then .ok s else .bad 0x08
  | k + 1, r =>
    match s.engineTr (.eop n) (dieOf o.core) g.ctx (g.members.toNat + 2 * r) .D .read with
    | .ok s _ _ _ => State.collDests s n o g k (r + 1)
    | .waits s => .waits s
    | .bad c => .bad (engCode c)

/-- A member whose source is read sends it to the other devices of the group, on VC0 or with a deadline class VC2, and its bytes
are charged (R356); its joining may then be complete (R292, R429).
(DEDUCED, log 55: unsafe.) -/
def State.collStaged (s : State) (n : Nat) : State :=
  match SMap.get? s.eops n with
  | none => s
  | some o =>
    match o.part, s.eopGroup o with
    | some p, some g =>
      let s := (s.collOthers g).foldl (fun s dst => match s.portFor dst with
        | some port =>
          (s.send (.fabric port (s.vcOf o.launch) dst
            (.collective p.ctx p.grp p.inst p.rank p.count p.op p.ty p.size p.data))).chargeBytes o.launch p.data.length
        | none => s) s
      s.collResolve o.ctx p.grp p.inst
    | _, _ => s

/-- HCOLL (R292): the n-th of a rank on a group joins the n-th joining. -/
def execHcoll (op : COp) (e : EngMods) (sp dp : ESp) (ty : Ty) (grp : BitVec 16) (rank sizem1 : BitVec 8) (d a b c : Opd)
    (s : State) : Out' :=
  memLanes s fun s t =>
    let src := s.engAddr t sp a
    let dst := s.engAddr t dp b
    let n := s.countOf t c
    let size := sizem1.toNat + 1
    let ctx := s.ctxIdOf t
    let key := (ctx * 65536 + grp.toNat) * 256 + rank.toNat
    let inst := SMap.getD s.collInst key 0
    let from_ := collSrc op n size
    let out := collDest op n size
    let kind : EKind := .hcoll op sp src dp dst n ty grp.toNat rank.toNat size inst
    let lines := s.destLines (s.thr t).crew kind
    let resv := if dp = .G then linesIn dst out else 0
    let access := n == 0 || (s.groupOf ctx grp.toNat).isNone || !s.engRange t sp src from_ false || !s.engRange t dp dst out true
    engLane t e d (src % 16 != 0 || dst % 16 != 0) access (s.quotaLate t resv) (fun s => s.hoistHold t lines)
      (fun s =>
        let (i, s) := s.addHoist t e d kind (List.range (ceilDiv from_ 16)) resv lines
        let s := { s with collInst := SMap.put s.collInst key (inst + 1) }
        .done (match (SMap.get? s.eops i).bind EOp.member with
          | some p => s.collCheck p
          | none => s)) s

/-- How a unit of an operation moves: from where to where, or a wait. -/
inductive UnitPlan
  | waits
  | move (sp : ESp) (src len : Nat) (dp : ESp) (dst : Nat)

/-- Move one unit of an operation by a plan: read, then write, then presence (R39, R291). -/
def State.moveUnit (s : State) (n u : Nat) (o : EOp) (p : UnitPlan) : State :=
  match p with
  | .waits => s
  | .move sp src len dp dst =>
    match s.engRead n o sp src len (s.destLines o.crew o.kind) with
    | .waits s => s
    | .bad code => s.engFail n code
    | .ok s data c1 =>
      match s.engWrite n o dp dst data with
      | .waits s => s
      | .bad code => s.engFail n code
      | .ok s c2 => (s.unitDone n u true).chargeBytes o.launch (c1 + c2)

/-- Stage the bytes of one unit of a source. -/
def State.stageUnit (s : State) (n u : Nat) (o : EOp) (sp : ESp) (src len at_ : Nat) (charge : Bool)
    (last : State → State) : State :=
  match s.engRead n o sp src len [] with
  | .waits s => s
  | .bad code => s.engFail n code
  | .ok s data c =>
    let s := s.modEop n fun x => { x with staged := putShadow x.staged at_ data }
    let s := (s.unitDone n u false).chargeBytes o.launch (if charge then c else 0)
    if (SMap.get? s.eops n).any fun x => x.undelivered.isEmpty && x.outcome.isNone then last s else s

/-- The index of a record (R291), or a wait on its line. -/
def State.recordIdx (s : State) (n : Nat) (o : EOp) (idx i : Nat) : Option Nat :=
  match s.engRead n o .S (idx + 4 * i) 4 (s.destLines o.crew o.kind) with
  | .ok _ data _ => some (ofBytes data)
  | _ => none

/-- A boarding or replace whose source is read is registered after those before it (R278). -/
def State.register (s : State) (n : Nat) : State := (s.modEop n fun o => { o with seq := s.fresh }).bump

/-- Move unit `u` of an HLAYOUT, whose elements have these addresses of source and destination (R291): a chunk of the source is
read at once, and a chunk of the destination is written at once when all that goes there has been read. -/
def State.layoutStep (s : State) (n u : Nat) (o : EOp) (sp dp : ESp) (e : Nat) (ms : List (Nat × Nat)) : State :=
  if u < collOut then
    let used := ((ms.map Prod.fst).filter fun a => a / 16 == u).dedup.length * e
    match s.engRead n o sp (16 * u) 16 [] with
    | .waits s => s
    | .bad code => s.engFail n code
    | .ok s data c =>
      ((s.modEop n fun x => { x with staged := putShadow x.staged (16 * u) data }).unitDone n u false).chargeBytes o.launch
        (c / 16 * used)
  else
    let mine := ms.filter fun x => collOut + x.2 / 16 == u
    if mine.any fun x => o.undelivered.contains (x.1 / 16) then s
    else
      let r := mine.foldl (fun r x => match r with
        | .ok s c =>
          (match s.engWrite n o dp x.2 ((List.range e).map fun i => SMap.getD o.staged (x.1 + i) 0) with
           | .ok s c' => .ok s (c + c')
           | r => r)
        | r => r) (EngWrite.ok s 0)
      match r with
      | .ok s c => (s.unitDone n u true).chargeBytes o.launch c
      | .waits s => s
      | .bad code => s.engFail n code

/-- Deliver unit `u` of an operation. -/
def State.deliverUnit (s : State) (n u : Nat) (o : EOp) : State :=
  match o.kind with
  | .cboard sp src _ => s.stageUnit n u o sp (src + 128 * u) 128 (128 * u) false fun s => s.register n
  | .creplace src mask _ =>
    let a := if u < 128 then src + 128 * u else mask.getD 0 + 128 * (u - 128)
    s.stageUnit n u o .S a 128 (128 * u) false fun s => s.register n
  | .ccatch off _ | .calight (some off) _ =>
    let data := (List.range 128).map fun i => SMap.getD o.staged (128 * u + i) 0
    (match s.engWrite n o .S (off + 128 * u) data with
     | .ok s _ => s.unitDone n u false
     | _ => s)
  | .calight none _ => s
  | .hcopy sp src dp dst _ => s.moveUnit n u o (.move sp (src + 16 * u) 16 dp (dst + 16 * u))
  | .hlayout toMem mode base s0 s1 s2 mp addr e n0 n1 n2 p1 p2 =>
    s.layoutStep n u o (if toMem then .S else mp) (if toMem then mp else .S) e
      (layoutMoves toMem mode base s0 s1 s2 addr e n0 n1 n2 p1 p2)
  | .hgather sp idx dat base _ l =>
    let i := u / (l / 16)
    let c := 16 * (u % (l / 16))
    s.moveUnit n u o (match s.recordIdx n o idx i with
      | some k => .move sp (base + k * l + c) 16 .S (dat + i * l + c)
      | none => .waits)
  | .hscatter dp idx dat base _ l =>
    let i := u / (l / 16)
    let c := 16 * (u % (l / 16))
    s.moveUnit n u o (if o.undelivered.any fun v => decide (v / (l / 16) < i) then .waits
      else match s.recordIdx n o idx i with
      | some k => .move .S (dat + i * l + c) 16 dp (base + k * l + c)
      | none => .waits)
  | .hcoll op sp src dp dst count _ _ _ size _ =>
    if u < collOut then
      let stage (s : State) : State :=
        s.stageUnit n u o sp (src + 16 * u) (min 16 (collSrc op count size - 16 * u)) (16 * u) true fun s => s.collStaged n
      match s.eopGroup o with
      | none => stage s
      | some g =>
        match s.collDests n o g (g.sizem1 + 1) 0 with
        | .ok s => stage s
        | .waits s => s
        | .bad code => s.engFail n code
    else
      let v := u - collOut
      let len := min 16 (collDest op count size - 16 * v)
      let data := (List.range len).map fun i => SMap.getD o.staged (16 * v + i) 0
      (match s.engWrite n o dp (dst + 16 * v) data with
       | .ok s c => (s.unitDone n u true).chargeBytes o.launch c
       | .waits s => s
       | .bad code => s.engFail n code)
  | .dflip _ _ _ _ => s

/-- Whether an operation is a hoist or a member of a collective: its core serves it (R403). -/
def EKind.hoist : EKind → Bool
  | .hcopy _ _ _ _ _ | .hlayout _ _ _ _ _ _ _ _ _ _ _ _ _ _ | .hgather _ _ _ _ _ _ | .hscatter _ _ _ _ _ _
  | .hcoll _ _ _ _ _ _ _ _ _ _ _ => true
  | _ => false

/-- Egress ports of a copy between chips (R405): of every peer-mapped page of the source or destination of an HCOPY or an HCOLL
member, and of the other devices of the HCOLL's group. -/
def State.eopPorts (s : State) (o : EOp) : List Nat :=
  let at_ (sp : ESp) (a n : Nat) : List Nat := match sp with
    | .S | .W => []
    | _ => (List.range ((a + n - 1) / 65536 + 1 - a / 65536)).flatMap fun i =>
      (match s.leafAt (dieTlb (dieOf o.core)) o.ctx ((a / 65536 + i) * 65536) with
      | .leaf p _ => if testN p 6 then (s.portFor (fieldN p 52 12)).toList else []
      | _ => [])
  match o.kind with
  | .hcopy sp src dp dst len => at_ sp src len ++ at_ dp dst len
  | .hcoll op sp src dp dst count _ _ _ size _ =>
    at_ sp src (collSrc op count size) ++ at_ dp dst (collDest op count size) ++ (match s.eopGroup o with
      | some g => (s.collOthers g).filterMap s.portFor
      | none => [])
  | _ => []

/-- Class-d operations on one port are served one at a time, in issue order (R405): no earlier one of its class that shares a
port with an operation is still to complete. -/
def State.portTurn (s : State) (o : EOp) : Bool :=
  let d := (s.launchAt o.launch).dclass
  d == 0 || (SMap.vals s.eops).all fun x => decide (o.seq ≤ x.seq) || (s.launchAt x.launch).dclass != d ||
    (s.eopPorts x).all fun p => !(s.eopPorts o).contains p

/-- Whether an operation has units that its core can move. -/
def EOp.busy (o : EOp) : Bool := o.kind.hoist && o.outcome.isNone && !o.undelivered.isEmpty

/-- Whether one operation enters service ahead of another (R403): one of a deadline class first, then in issue order. -/
def State.servedFirst (s : State) (a b : EOp) : Bool :=
  let urgent (o : EOp) : Bool := (s.launchAt o.launch).dclass != 0
  match urgent a, urgent b with
  | true, false => true
  | false, true => false
  | _, _ => decide (a.seq < b.seq)

/-- Whether a waiting operation enters service now (R403, R405): its core serves fewer than 4, none that waits there comes
before it, and it has its turn on its port. -/
def State.entersService (s : State) (o : EOp) : Bool :=
  let here := (SMap.vals s.eops).filter fun x => x.core == o.core && x.busy
  s.portTurn o && decide ((here.filter fun x => x.serving).length < 4) &&
  here.all fun x => x.serving || !s.portTurn x || !s.servedFirst x o

/-- ENGINE_LINE_DELIVERY (R39, R291, R403): one unit that an operation has still to move is moved, if its core serves the
operation or begins to. -/
def execEngineLineDelivery (n u : Nat) (s : State) : Out' :=
  match SMap.get? s.eops n with
  | none => .next s
  | some o =>
    if !o.undelivered.contains u then .next s
    else if !o.kind.hoist || o.serving then .next (s.deliverUnit n u o)
    else if s.entersService o then .next ((s.modEop n fun x => { x with serving := true }).deliverUnit n u { o with serving := true })
    else .next s

/-- LABORT (R287): one executing lane is enough. -/
def execLabort (code : BitVec 8) (s : State) : Out' :=
  match s.iss.lanes with
  | [] => .next s
  | t :: _ => .next (s.abortLot (s.launchIdOf t) 0x04 0 code.toNat false)

/-- LOTQ's two results for a context (R288). -/
def State.lotState (s : State) (ctx : Nat) (lot : Word) : Word × Word :=
  match SMap.find s.launches fun _ x => x.ctx == ctx && x.lot == lot && x.lot != 0 && x.status.open_ with
  | some (_, x) => (if x.status = .ready then 2 else 1, BitVec.ofNat 32 x.pages)
  | none =>
    match (s.ctxAt ctx).history.find? fun h => h.1 == lot with
    | some (_, st) => if st = 0 then (3, 0) else (BitVec.ofNat 32 (4 + 256 * st), 0)
    | none => (0, 0)

/-- LOTQ (R288, R470). A lot observed as committed orders this one after it, for its commit lies in the past. -/
def execLotq (d a : Opd) (s : State) : Out' :=
  tracked s (some 64) fun s t =>
    match s.src t 32 a with
    | .ok v =>
      let r := s.lotState (s.ctxIdOf t) (BitVec.ofNat 32 v)
      .ok (seqWords (regNum d) [r.1, r.2])
    | .error c => .error (c, 0)

end Sys2Proof.Machine
end

