-- ==== Sys2Proof/Machine/System.lean ====
section
/-! DEFINITION. Traps and the return from them (R294 to R296, R376 to R379), system registers (R297, R298), display flips
(R299) and the debug mailbox (R300). -/

namespace Sys2Proof.Machine

/-- TRAP (R294): `%pc` stays on the TRAP. -/
def execTrap (n : BitVec 7) (s : State) : Out' := faultAll s (.software n)

/-- Whether every lane of a gang is parked on its trap. -/
def State.trappedGang (s : State) (g : Nat) : Bool :=
  (s.gangThreads g).all fun t => (s.thr t).live && (s.thr t).park == some .trapped

/-- HANDLER_ENTRY (R295, R377): a parked sub-gang of a crew that runs enters its handler. -/
def execHandlerEntry (g : Nat) (s : State) : Out' :=
  let c := s.crewAt (s.gangAt g).crew
  if s.trappedGang g && c.status == .resident && !c.halted then .next (s.enterHandler g) else .next s

/-- A sub-gang that holds no thread any more is gone; a gang whose lanes are all in handlers stays for their return. -/
def State.dropGang (s : State) (g : Nat) : State :=
  if (s.gangAt g).parent.isSome && (s.gangThreads g).isEmpty then { s with gangs := SMap.del s.gangs g } else s

/-- TRET in its lanes (R295): the target is checked (R100), and the lanes rejoin the gang they left. Lanes held at
a RECONV there and here may have gathered by that (R132). -/
def tret (s : State) (skip : Bool) : Out' :=
  let homes := (s.iss.lanes.map fun t => (s.thr t).home).dedup
  let r := forLanes s fun s t =>
    if !(s.thr t).inHandler then .fault .access 0
    else
      let pc := s.tretTarget t skip
      match s.checkTarget t pc with
      | some (c, ea) => .fault c ea
      | none => .stay (s.modThr t fun x => x.leaveHandler pc)
  match r with
  | .next s' => .next (((s.iss.gang :: homes).foldl State.releaseRecon s').dropGang s.iss.gang)
  | other => other

/-- TRET.replay (R295, R379). -/
def execTretReplay (s : State) : Out' := tret s false

/-- TRET.skip (R295, R379). -/
def execTretSkip (s : State) : Out' := tret s true

/-- BRK (R294): the stop record of a debugger carries n. -/
def execBrk (n : BitVec 16) (s : State) : Out' :=
  let fs := s.iss.faults ++ s.iss.lanes.map fun t => (t, Cause.brk, 0)
  .next ((s.noteFaults fs.length).takeFault s.iss.gang 0xFF n.toNat fs)

/-- LMODE (R298). -/
def Launch.lmode (l : Launch) : Nat :=
  let b (x : Bool) (i : Nat) : Nat := if x then 2 ^ i else 0
  l.dclass * 2 ^ 13 + l.prio * 2 ^ 10 + b l.kill 9 + b l.lrec.indep 8 + b l.lrec.resid 7 + b l.lrec.layered 6 +
    b l.lrec.check 5 + b l.lrec.flush 4

/-- Whether a system register is 64 bits wide (R297). -/
def sysWide (n : Nat) : Bool := n ≤ 2 || (7 ≤ n && n ≤ 10)

/-- A system register as a thread reads it (R297). -/
def State.sysReg (s : State) (t n : Nat) : Nat :=
  let x := s.thr t
  let c := s.crewOf t
  let l := s.launchOf t
  let k := s.ctxOf t
  match n with
  | 0x00 => c.handler.toNat
  | 0x01 => x.epc.toNat
  | 0x02 => x.eaddr.toNat
  | 0x03 => x.elanes.toNat
  | 0x04 => l.lmode
  | 0x05 => l.lrec.quota
  | 0x06 => l.pages
  | 0x07 => l.lrec.deadline.toNat
  | 0x08 => l.lrec.boundc.toNat
  | 0x09 => l.lrec.boundb.toNat
  | 0x0A => l.spent.toNat
  | 0x0B => k.wkey.toNat
  | 0x0C => c.regBase
  | 0x0D => c.binTime.toNat
  | 0x0E => k.cquota.toNat
  | 0x0F => (if k.dbgAttach then 1 else 0) + (if k.mbox then 2 else 0)
  | _ => 0

/-- GETSR (R297, R470). -/
def execGetsr (sr : BitVec 8) (d : Opd) (s : State) : Out' :=
  tracked s (some 16) fun s t => .ok (dstWords (if sysWide sr.toNat then 64 else 32) d (s.sysReg t sr.toNat))

/-- SETSR (R297): HANDLER and BINTIME of the crew, and EPC inside a handler; the others are read-only.
(DEDUCED, log 15: safe.) -/
def execSetsr (sr : BitVec 8) (a : Opd) (s : State) : Out' :=
  forLanes s fun s t =>
    match s.src t (if sysWide sr.toNat then 64 else 32) a with
    | .error c => .fault c 0
    | .ok v =>
      let w := BitVec.ofNat 64 v
      if sr = 0x00 then
        (if fieldN v 0 4 ≠ 0 ∨ fieldN v 52 12 ≠ 0 then .fault .access 0
         else .done (s.modCrew (s.thr t).crew fun c => { c with handler := w }))
      else if sr = 0x01 then
        (if (s.thr t).inHandler then .done (s.modThr t fun x => { x with epc := w }) else .fault .access 0)
      else if sr = 0x0D then
        (if v = 0 ∨ 65535 < v then .fault .access 0
         else .done (s.modCrew (s.thr t).crew fun c => { c with binTime := BitVec.ofNat 32 v }))
      else .fault .access 0

/-- DFLIP (R299): held until the lot commits; a context without the display faults ACCESS. -/
def execDflip (e : EngMods) (sp : ESp) (d a b c : Opd) (s : State) : Out' :=
  forLanes s fun s t =>
    let surface := s.engAddr t .G a
    let time := s.rd64 t (regNum b)
    let out := s.countOf t c
    let access := decide (3 < out) || !s.feat t 7 || fieldN surface 52 12 != 0
    engLane t e d (surface % 256 != 0) access none (fun _ => none)
      (fun s =>
        let (n, s) := s.addEop t e d (.dflip sp surface time out)
        .done (s.modLaunch (s.launchIdOf t) fun x => { x with deferred := x.deferred ++ [.flip n] })) s

/-- The checks of a mailbox offset (R300), then those of its word. -/
def State.mboxReach (s : State) (t off : Nat) (acc : Acc) : Reach :=
  let c := s.ctxOf t
  let ea := c.mbaddr + BitVec.ofNat 64 off
  if off % 4 ≠ 0 then .fault .align ea
  else if off < 0x100 ∨ 4096 ≤ off ∨ !c.mbox then .fault .access ea
  else s.reachVirt t ea 4 .D acc

/-- Ordering of the mailbox words (R300): an acquire, or a release, at system scope. -/
def mboxGet : MemMods := { ord := 1, scope := 4, remote := false, disp := 0 }
def mboxPut : MemMods := { ord := 2, scope := 4, remote := false, disp := 0 }

/-- DBGMB.get (R300): an acquiring load at system scope. -/
def execDbgmbGet (d a : Opd) (s : State) : Out' :=
  memLanes s fun s t =>
    match s.src t 32 a with
    | .error c => .fault c 0
    | .ok off => reached s t mboxGet (s.mboxReach t off .read) fun s loc _ _ =>
        loadAt t 4 mboxGet .b32 d false true s loc

/-- DBGMB.put (R300): a release store at system scope, and with `.irq` the context's debug interrupt after it. -/
def execDbgmbPut (irq : Bool) (a b : Opd) (s : State) : Out' :=
  memLanes s fun s t =>
    match s.src t 32 a, s.src32 t b with
    | .ok off, .ok v => reached s t mboxPut (s.mboxReach t off .write) fun s loc _ _ =>
        let vec := (s.ctxOf t).vector.toNat
        let i := if irq && testN vec 31 then some (fieldN vec 16 11) else none
        .done ((s.queueStore t false loc (bytesOf 4 v.toNat) true 4 i).addBytes t 4)
    | .error c, _ => .fault c 0
    | _, .error c => .fault c 0

end Sys2Proof.Machine
end

