-- ==== Sys2Proof/Machine/Record.lean ====
section
/-! DEFINITION. Launch records and what they point to: how the scheduler reads them (R471), their fields (R351 to R353, R406)
and when they are invalid (R354, R248, R341). -/

namespace Sys2Proof.Machine

/-- A read by the scheduler: its value, a wait on a replayable miss, or a record that is invalid with a cause (R471). -/
inductive Rd (α : Type)
  | ok (s : State) (a : α)
  | waits (s : State)
  | bad (cause : Nat)

/-- Go on with what was read. -/
def Rd.next {α β : Type} (r : Rd α) (f : State → α → Rd β) : Rd β :=
  match r with
  | .ok s a => f s a
  | .waits s => .waits s
  | .bad c => .bad c

/-- CAUSE of a structure that cannot be read (R471); a malformed entry of the tables is told apart where it is met. -/
def rdCause : Cause → Nat
  | .xlate => 0x10
  | _ => 0x11

/-- Read `n` bytes for a queue or a launch through its context's page table, a line at a time (R471). The first argument bounds the
number of lines. -/
def State.rdBytes (who : Who) (ctx : Nat) (sp : Sp) : Nat → State → Nat → Nat → Rd (List Byte)
  | 0, s, _, _ => .ok s []
  | fuel + 1, s, va, n =>
    if n = 0 then .ok s []
    else
      let k := min n (128 - va % 128)
      match s.engineTr who 0 ctx va sp .read with
      | .ok s loc _ _ => (State.rdBytes who ctx sp fuel s (va + k) (n - k)).next fun s' rest => .ok s' (s.mem.readN loc k ++ rest)
      | .waits s => .waits s
      | .bad c => .bad (if s.leafAt (dieTlb 0) ctx va = .malformed then 0x11 else rdCause c)

/-- Read a structure of a context. -/
def State.rdAt (s : State) (who : Who) (ctx : Nat) (sp : Sp) (va n : Nat) : Rd (List Byte) := State.rdBytes who ctx sp (n / 128 + 2) s va n

/-- A little-endian field of a structure. -/
def leAt (b : List Byte) (off n : Nat) : Nat := ofBytes ((b.drop off).take n)

/-- The field rules of a launch record (R351): the record, and whether each field is one it may have. -/
def parseRec (b : List Byte) : LRec × Bool :=
  let shape := leAt b 0x08 4
  let size := leAt b 0x0C 4
  let shadow := leAt b 0x10 4
  let mode := leAt b 0x14 4
  let d (off : Nat) : DWord := BitVec.ofNat 64 (leAt b off 8)
  let r : LRec :=
    { entry := d 0, ncrew := fieldN shape 0 16, perCluster := fieldN shape 16 2 + 1, nreg := 8 * fieldN shape 18 6,
      threads := fieldN size 0 11, scratch := 4096 * fieldN size 11 12, localSize := 1024 * fieldN size 23 9,
      quota := fieldN shadow 0 20, ngrade := fieldN shadow 20 3, indep := testN mode 8, resid := testN mode 7,
      layered := testN mode 6, check := testN mode 5, flush := testN mode 4, draw := testN mode 3, waitPrev := testN mode 2,
      deadline := d 0x18, boundc := d 0x20, boundb := d 0x28, handler := d 0x30, ext := d 0x38 }
  let ok := r.ncrew != 0 && decide (8 ≤ r.nreg) && decide (r.nreg ≤ 256) && fieldN shape 24 8 == 0 &&
    decide (1 ≤ r.threads) && decide (r.threads ≤ 1024) && decide (r.scratch ≤ 0x800000) &&
    decide (r.quota ≤ 524288) && decide (r.ngrade ≤ 4) && fieldN shadow 23 9 == 0 &&
    fieldN mode 0 2 == 0 && fieldN mode 9 23 == 0 &&
    fieldN r.handler.toNat 0 4 == 0 && fieldN r.handler.toNat 52 12 == 0 && r.ext.toNat % 256 == 0
  (r, ok)

/-- The field rules of an extension block's first part (R352); the grades' addresses come with it. -/
def parseExt (r : LRec) (b : List Byte) : ExtRec × List Nat × Bool :=
  let consts := (List.range 32).map fun i => BitVec.ofNat 32 (leAt b (4 * i) 4)
  let chutes := (List.range 16).map fun k => leAt b (0x80 + k) 1
  let grades := (List.range 4).map fun g => leAt b (0x90 + 8 * g) 8
  let pairs := (List.range 4).map fun k => (leAt b (0xB0 + 16 * k) 8, leAt b (0xB8 + 16 * k) 4, leAt b (0xBC + 16 * k) 4)
  let okPair (p : Nat × Nat × Nat) : Bool :=
    p.2.2 == 0 && ((p.1 == 0 && p.2.1 == 0) || (decide (1 ≤ p.2.1) && decide (p.2.1 ≤ 65535)))
  let bint := (pairs.filter fun p => p.2.1 != 0).map fun p => (BitVec.ofNat 64 p.1, p.2.1)
  let ok := chutes.all (fun k => decide (k ≤ 64)) && (grades.drop r.ngrade).all (· == 0) && pairs.all okPair &&
    leAt b 0xF0 16 == 0 && (r.draw || leAt b 0x100 64 == 0)
  ({ consts := consts, chutes := chutes, bint := bint, draw := none, rdesc := none }, grades.take r.ngrade, ok)

/-- The fields of a draw block, with its tables' places, and its field rules (R353).
(DESIGN CHOICE, log 77: unsafe.) -/
def parseDraw (b : List Byte) : DrawRec × Bool :=
  let stall := leAt b 0x100 4
  let share := leAt b 0x104 4
  let res := (List.range 7).map fun i => leAt b (0x108 + 4 * i) 4
  let nobj := leAt b 0x124 4
  let objTab := leAt b 0x128 8
  let clTab := leAt b 0x130 8
  let ok := decide (share ≤ 2048) && res.all (fun r => r % 16 == 0) && decide (1 ≤ nobj) && decide (nobj ≤ 65535) &&
    objTab % 16 == 0 && clTab % 32 == 0 && leAt b 0x138 8 == 0 && decide (sumList res ≤ 4096 * share)
  ({ stall := if stall = 0 then 100000 else stall, share := share, reserves := res, nobj := nobj, objTab := objTab, clTab := clTab,
     objects := [], clusters := [], indices := [] }, ok)

/-- The object table, checked: each FIRSTCL is the sum of the NCL before it (R353). -/
def parseObjects (b : List Byte) : Nat → Nat → Nat → List (Nat × Nat) × Bool
  | 0, _, _ => ([], true)
  | n + 1, i, sum =>
    let first := leAt b (16 * i) 4
    let ncl := leAt b (16 * i + 4) 4
    let (rest, ok) := parseObjects b n (i + 1) (sum + ncl)
    ((first, ncl) :: rest, ok && first == sum && leAt b (16 * i + 8) 8 == 0)

/-- One entry of the cluster table with its field rules (R353). -/
def parseCluster (b : List Byte) : (Bool × Nat × Nat × Nat × Nat) × Bool :=
  let ty := leAt b 0 4
  let c := (ty == 0, leAt b 4 4, leAt b 8 4, leAt b 12 4, leAt b 16 8)
  (c, decide (ty ≤ 1) && leAt b 24 8 == 0 && (ty == 0 || (c.2.1 == 0 && c.2.2.1 == 0 && c.2.2.2.2 == 0)))

/-- Read the index tables of the triangle clusters (R353): a patch cluster has none. -/
def State.rdIndices (who : Who) (ctx : Nat) : State → List (Bool × Nat × Nat × Nat × Nat) → Rd (List (List Nat))
  | s, [] => .ok s []
  | s, c :: cs =>
    let n := if c.1 then 12 * c.2.2.2.1 else 0
    (s.rdAt who ctx .D c.2.2.2.2 n).next fun s b =>
      (State.rdIndices who ctx s cs).next fun s rest =>
        .ok s (((List.range (n / 4)).map fun i => leAt b (4 * i) 4) :: rest)

/-- Read the tables of a draw block (R353). -/
def State.rdTables (s : State) (who : Who) (ctx : Nat) (d : DrawRec) : Rd (DrawRec × Bool) :=
  (s.rdAt who ctx .D d.objTab (16 * d.nobj)).next fun s ob =>
    let (objs, okO) := parseObjects ob d.nobj 0 0
    let ncl := sumList (objs.map Prod.snd)
    if !okO then .ok s (d, false)
    else
      (s.rdAt who ctx .D d.clTab (32 * ncl)).next fun s cb =>
        let cs := (List.range ncl).map fun i => parseCluster ((cb.drop (32 * i)).take 32)
        if !(cs.all fun c => c.2) then .ok s (d, false)
        else
          (State.rdIndices who ctx s (cs.map Prod.fst)).next fun s ix =>
            let okI := (List.range ncl).all fun i => (ix.getD i []).all fun v =>
              decide (v < ((cs.map Prod.fst).getD i (true, 0, 0, 0, 0)).2.2.1)
            .ok s ({ d with objects := objs, clusters := cs.map Prod.fst, indices := ix }, okI)

/-- The render descriptor and its rules (R406). -/
def parseRDesc (im : Option Image) (b : List Byte) : RDesc × Bool :=
  let zb := leAt b 0x1E 1
  let ks := leAt b 0x1F 1
  let vel := leAt b 0x24 1
  let cfmt := leAt b 0x1D 1
  let d : RDesc :=
    { color := leAt b 0 8, depth := leAt b 8 8, metaAt := leAt b 0x10 8, width := leAt b 0x18 2 + 1, height := leAt b 0x1A 2 + 1,
      nsLog := leAt b 0x1C 1, half := cfmt == 1, zfunc := fieldN zb 0 3, zwrite := testN zb 3, blend := fieldN zb 4 2,
      kw := fieldN ks 0 2 + 1, kh := fieldN ks 2 2 + 1, compress := testN ks 4, jitter := testN ks 5, motion := testN ks 6,
      seed := leAt b 0x20 4, vel := fieldN vel 0 6, lr := BitVec.ofNat 32 (leAt b 0x28 4), fw := BitVec.ofNat 32 (leAt b 0x2C 4) }
  let vOwned := match im with
    | some i => (List.range 4).all fun k => i.held.getD (d.vel + k) 0 == 4
    | none => false
  let ok := d.color % 256 == 0 && d.depth % 256 == 0 && d.metaAt % 16 == 0 && (d.compress || d.metaAt == 0) &&
    decide (d.width ≤ 16384) && decide (d.height ≤ 16384) && decide (d.nsLog ≤ 4) && decide (cfmt ≤ 1) &&
    decide (d.zfunc ≤ 5) && decide (d.blend ≤ 2) && fieldN zb 6 2 == 0 && !testN ks 7 && fieldN vel 6 2 == 0 &&
    (!d.motion || (decide (d.vel ≤ 60) && vOwned)) && leAt b 0x25 3 == 0 && leAt b 0x30 16 == 0
  (d, ok)

/-- The image and shadow minimum of an ENTRY that names an `entry` procedure (R63, R354). -/
def State.entryOf (s : State) (ctx : Nat) (entry : DWord) : Option (Image × Nat) :=
  match s.imageAt ctx entry with
  | some i =>
    (match i.entries.find? fun e => e.1 == entry with
     | some e => some (i, e.2)
     | none => none)
  | none => none

/-- Registers of a crew in bytes, rounded up to 1 KiB (R329). -/
def LRec.regBytes (r : LRec) : Nat := alignUp (r.threads * r.nreg * 4) 1024

/-- Crews of a shape that one core can hold at once (R363). -/
def LRec.perCore (r : LRec) (share : Nat) : Nat :=
  let byScratch := if r.scratch = 0 then 16 else (0x800000 - share) / r.scratch
  min (min 16 (4096 / r.threads)) (min (0x200000 / r.regBytes) byScratch)

/-- Whether the device could ever hold all the crews of a launch at once (R26, R354): the whole clusters that its 32 galleries
hold, and the last cluster where it has fewer crews. -/
def LRec.fitsDevice (r : LRec) (share : Nat) : Bool :=
  let slots := 4 * r.perCore share
  let full := r.ncrew / r.perCluster
  let last := r.ncrew % r.perCluster
  decide (full + (if last = 0 then 0 else 1) ≤ 32 * (slots / r.perCluster)) ||
  (decide (full ≤ 32 * (slots / r.perCluster)) && decide (last ≤ slots % r.perCluster))

/-- The rules that a shape obeys, full record or grade (R354). -/
def State.shapeOk (s : State) (ctx : Nat) (r : LRec) (quota share : Nat) : Bool :=
  (match s.entryOf ctx r.entry with
   | some (_, m) => decide (m ≤ quota)
   | none => false) &&
  decide (r.scratch + share ≤ 0x800000) &&
  (!(r.resid || r.draw) || r.fitsDevice share) &&
  decide (r.ncrew * r.threads * r.localSize ≤ (s.ctxAt ctx).localStride.toNat)

/-- Bytes that one element of a rate needs with the copies it can need (R342): where the draw has one crew, every ancestor
lies on the element's own core, and there are none. -/
def Image.needOf (i : Image) (single : Bool) (x : Rate) : Nat :=
  let fp (r : Rate) : Nat := alignUp (4 * i.owned r) 16
  let fine := decide (5 ≤ rateCode x)
  let copies := drawRates.map fun y =>
    if !single && rateCode y < rateCode x && i.liveMask (rateCode y) (rateCode x) != 0
    then fp y * (if fine && rateCode y == 4 then 3 else 1) else 0
  fp x + sumList copies

/-- A stockpile footprint that its reserve cannot hold (R248, R342). -/
def oversize (i : Image) (d : DrawRec) (single : Bool) : Bool := drawRates.any fun x => decide (d.reserve x < i.needOf single x)

/-- A grade's record over the full one (R352): ENTRY, SHAPE, SIZE, the bounds and HANDLER apply. -/
def LRec.withGrade (r g : LRec) : LRec :=
  { r with entry := g.entry, ncrew := g.ncrew, perCluster := g.perCluster, nreg := g.nreg, threads := g.threads,
           scratch := g.scratch, localSize := g.localSize, boundc := g.boundc, boundb := g.boundb, handler := g.handler }

/-- Whether a grade record keeps R352's rules beside the full record. -/
def gradeOk (full g : LRec) (ok : Bool) : Bool :=
  ok && g.ngrade == 0 && g.deadline == 0 && g.ext == 0 && g.indep == full.indep && g.resid == full.resid &&
  g.layered == full.layered && g.check == full.check && g.flush == full.flush && g.draw == full.draw &&
  g.waitPrev == full.waitPrev

/-- Read the grade records (R352). -/
def State.rdGrades (who : Who) (ctx : Nat) (full : LRec) : State → List Nat → Rd (List LRec × Bool)
  | s, [] => .ok s ([], true)
  | s, a :: as =>
    (s.rdAt who ctx .D a 64).next fun s b =>
      (State.rdGrades who ctx full s as).next fun s rest =>
        let (g, ok) := parseRec b
        .ok s (full.withGrade g :: rest.1, rest.2 && a % 64 == 0 && gradeOk full g ok)

/-- What a record asks of a deadline queue (R354). -/
def deadlineOk (r : LRec) (dclass : Nat) (last : Option DWord) (grades : List LRec) : Bool :=
  dclass == 0 ||
  (!(r :: grades).any (fun g => unbounded g.boundc || unbounded g.boundb || g.boundc == 0) && !unbounded r.deadline &&
   (r.indep || (match last with
     | some d => decide (d.toNat ≤ r.deadline.toNat)
     | none => true)))

/-- A record that has been read: the full record, its extension, and its grades. -/
structure Rec where
  lrec : LRec
  ext : ExtRec
  grades : List LRec
  deriving DecidableEq, Repr

/-- What the launch constants c30:c31 name (R406). -/
def ExtRec.rdescAt (e : ExtRec) : Nat := (e.consts.getD 30 0).toNat + 2 ^ 32 * (e.consts.getD 31 0).toNat

/-- Read the tables of a draw block and the render descriptor that it goes with (R353, R406). -/
def State.rdRender (s : State) (who : Who) (ctx : Nat) (entry : DWord) (e : ExtRec) (d : DrawRec) : Rd (ExtRec × Bool) :=
  (s.rdTables who ctx d).next fun s d =>
    if !d.2 || e.rdescAt % 64 != 0 then .ok s (e, false)
    else
      (s.rdAt who ctx .K e.rdescAt 64).next fun s rb =>
        let (rd, ok) := parseRDesc ((s.entryOf ctx entry).map Prod.fst) rb
        .ok s ({ e with draw := some d.1, rdesc := some rd }, ok)

/-- Read what a record with MODE.DRAW has in its extension block, and what that points to (R353, R406). -/
def State.rdDraw (s : State) (who : Who) (ctx : Nat) (r : LRec) (e : ExtRec) (b : List Byte) : Rd (ExtRec × Bool) :=
  let (d, ok) := parseDraw b
  if !r.draw then .ok s (e, true) else if !ok then .ok s (e, false) else s.rdRender who ctx r.entry e d

/-- A replay of a draw reads its tables and its render descriptor anew (R464, R471).
(DESIGN CHOICE, log 116: unsafe.) -/
def State.rdAgain (s : State) (l : Nat) : Rd Unit :=
  let x := s.launchAt l
  match x.ext.draw, x.ext.rdesc with
  | some d, none =>
    (s.rdRender (.launch l) x.ctx x.lrec.entry x.ext d).next fun s e =>
      if e.2 then .ok ((s.dropWaits (.launch l)).modLaunch l fun y => { y with ext := e.1 }) () else .bad 0
  | _, _ => .ok s ()

/-- Read and check a whole record from its 64 bytes (R351 to R354, R471). A record that breaks a rule is invalid with
CAUSE 0, a footprint that does not fit with CAUSE 0x2A.
(DESIGN CHOICE, log 7: unsafe.) -/
def State.rdRecord (s : State) (q : Nat) (b : List Byte) : Rd Rec :=
  let qq := s.queueAt q
  let ctx := qq.ctx
  let (r, ok) := parseRec b
  if !ok then .bad 0
  else
    (if r.ext = 0 then Rd.ok s (List.replicate 0x140 (0 : Byte))
      else s.rdAt (.queue q) ctx .D r.ext.toNat 0x140).next fun s eb =>
      let (e, gs, okE) := parseExt r eb
      if !okE || (r.draw && !(s.ctxAt ctx).featc.getLsbD 3) then .bad 0
      else
        (State.rdGrades (.queue q) ctx r s gs).next fun s g =>
          (s.rdDraw (.queue q) ctx r e eb).next fun s x =>
            let share := match x.1.draw with
              | some d => 4096 * d.share
              | none => 0
            let shapes := (r :: g.1).all fun y => s.shapeOk ctx y r.quota share
            let big := (r :: g.1).any fun y => match x.1.draw, s.entryOf ctx y.entry with
              | some d, some (i, _) => oversize i d (decide (y.ncrew ≤ 1))
              | _, _ => false
            if !g.2 || !x.2 || !shapes || decide (s.dev.poolPages < r.quota) || !deadlineOk r qq.dclass qq.lastDeadline g.1
            then .bad 0
            else if big then .bad 0x2A
            else .ok s { lrec := r, ext := x.1, grades := g.1 }

end Sys2Proof.Machine
end

