-- ==== Sys2Proof/Machine/Calendar.lean ====
section
/-! DEFINITION. Taking a record from a queue and deciding it (R346 to R350, R357 to R359, R218), and admitting launches and
fallbacks (R338, R359, R362). -/

namespace Sys2Proof.Machine

/-- Whether the device runs work (R445). -/
def State.running (s : State) : Bool := s.dev.dstate == .ready

/-- Decide a record of a deadline queue (R357). -/
def State.decideRec (s : State) (q : Nat) (r : Rec) : Decision :=
  let qq := s.queueAt q
  let ks := s.firstEpoch r.lrec qq.lastEpoch
  let ke1 := (r.lrec.deadline.toNat - 1024) / 1024
  s.tryGrades qq.dclass ks (ke1 - ks) 0 (r.lrec :: r.grades) r.lrec

/-- A new launch of a queue that waits for admission. -/
def State.addLaunch (s : State) (q ticket : Nat) (r : LRec) (e : ExtRec) (grade : Nat) (fallback : Bool) : Nat × State :=
  let qq := s.queueAt q
  let (l, s) := s.take
  let x : Launch :=
    { Launch.zero with
      ctx := qq.ctx, queue := q, ticket := ticket, lrec := r, ext := e, grade := grade, fallback := fallback,
      prio := qq.prio, dclass := qq.dclass, kill := qq.kill }
  (l, { s with launches := SMap.put s.launches l x, waiting := s.waiting ++ [l] })

/-- A completion entry that names no lot (R349). -/
def noLotEntry (kind status cause ticket grade : Nat) (time : DWord) : CplEntry :=
  { lot := 0, status := status, cause := cause, code := 0, attempt := 0, ticket := ticket, grade := grade, kind := kind,
    fallback := false, time := time, spent := 0 }

/-- A record's ticket is consumed: the queue's head moves on (R348, R471). -/
def State.consume (s : State) (q : Nat) : State :=
  (s.dropWaits (.queue q)).modQueue q fun x =>
    { x with head := x.head + 1, blocked := false, asks := SMap.del x.asks x.head.toNat,
             deferred := SMap.del x.deferred x.head.toNat }

/-- The status of a LAUNCH goes to its thread (R218). -/
def State.answerLaunch (s : State) (q ticket : Nat) (ws : List Word) : State :=
  s.deliverOpt (SMap.get? (s.queueAt q).asks ticket) ws

/-- Report a record that is invalid (R218, R354). -/
def State.reportInvalid (s : State) (q ticket cause : Nat) (late : Bool) : State :=
  let s := (s.answerLaunch q ticket [4, 0, 0, 0]).consume q
  s.postEntry q (if late then noLotEntry 1 4 0 ticket 0 s.rtime else noLotEntry 0 7 cause ticket 0 s.rtime)

/-- Report a rejection with its earliest deadline (R218, R358). -/
def State.reportReject (s : State) (q ticket : Nat) (late : Bool) (e : DWord) : State :=
  let s := (s.answerLaunch q ticket [1, 0, e.truncate 32, (e >>> 32).truncate 32]).consume q
  s.postEntry q (noLotEntry (if late then 1 else 2) 1 0 ticket 0 e)

/-- Report an acceptance (R218, R359). -/
def State.reportAccept (s : State) (q ticket grade : Nat) (late : Bool) : State :=
  let s := (s.answerLaunch q ticket [0, BitVec.ofNat 32 ticket, BitVec.ofNat 32 grade, 0]).consume q
  if late then s.postEntry q (noLotEntry 1 0 0 ticket grade s.rtime) else s

/-- Decide a record that has been read (R357 to R359). -/
def State.decide_ (s : State) (q ticket : Nat) (late : Bool) (r : Rec) : State :=
  let qq := s.queueAt q
  if qq.dclass = 0 then
    let (_, s) := s.addLaunch q ticket r.lrec r.ext 0 false
    (s.reportAccept q ticket 0 late).modQueue q fun x => { x with blocked := true }
  else
    match s.decideRec q r with
    | .reject e => s.reportReject q ticket late e
    | .accept g slot plan =>
      let one := (r.lrec :: r.grades).getD g r.lrec
      let (l, s) := s.addLaunch q ticket one r.ext g false
      let s := s.modLaunch l fun x => { x with recs := r.lrec :: r.grades, prevEpoch := qq.lastEpoch }
      let s := (s.reserve l qq.dclass plan).admitLot l slot
      let s := s.modQueue q fun x =>
        { x with lastEpoch := maxList (plan.map Prod.fst),
                 lastDeadline := if one.indep then x.lastDeadline else some one.deadline }
      s.reportAccept q ticket g late

/-- Read and decide the record at the head of a queue (R348, R471). -/
def State.takeHead (s : State) (q : Nat) (late : Bool) : State :=
  let qq := s.queueAt q
  let ticket := qq.head.toNat
  match (s.rdAt (.queue q) qq.ctx .D (qq.sub.toNat + 64 * (ticket % 2 ^ qq.sublog)) 64).next fun s b => s.rdRecord q b with
  | .ok s r => s.decide_ q ticket late r
  | .waits s => s.modQueue q fun x => { x with blocked := true }
  | .bad cause => s.reportInvalid q ticket cause late

/-- A launch of the queue waits for admission (R359). -/
def State.pendingIn (s : State) (q : Nat) : Bool := s.waiting.any fun l => (s.launchAt l).queue == q

/-- Whether a queue may take or start a launch now (R346, R350). -/
def State.queueOpen (s : State) (q : Nat) : Bool :=
  let x := s.queueAt q
  s.running && !x.cplFull && !x.cplerr

/-- RECORD_TAKE (R348, R357, R359): records are taken in ticket order. A deferred record is held until its issuing lot
ends and the words that it deferred before this one are performed (R283); an abort consumes it with STATUS 5 (R218).
(DEDUCED, log 39: unsafe.)
(DEDUCED, log 40: unsafe.) -/
def execRecordTake (q : Nat) (s : State) : Out' :=
  let x := s.queueAt q
  if !s.queueOpen q || !x.en || x.door == x.head || s.pendingIn q then .next s
  else
    match SMap.get? x.deferred x.head.toNat with
    | none => .next (s.takeHead q false)
    | some l =>
      match (s.launchAt l).status with
      | .committed =>
        if (s.launchAt l).deferred.contains (.launch q x.head.toNat) then .next (s.modQueue q fun y => { y with blocked := true })
        else .next (s.takeHead q true)
      | .aborted _ _ _ =>
        let ticket := x.head.toNat
        .next ((s.consume q).postEntry q (noLotEntry 1 5 0 ticket 0 s.rtime))
      | _ => .next (s.modQueue q fun y => { y with blocked := true })

/-- LAUNCH_ADMISSION (R338, R351, R359): the launch at the head of its queue's order gets its quota and a lot slot, with what its
queue's QCFG holds then; the queue is blocked until then. -/
def execLaunchAdmission (l : Nat) (s : State) : Out' :=
  let x := s.launchAt l
  let head := s.waiting.find? fun k => (s.launchAt k).queue == x.queue
  if head ≠ some l || !s.queueOpen x.queue then .next s
  else
    match s.freeSlot with
    | some slot =>
      if s.poolFits x.lrec.quota then
        let q := s.queueAt x.queue
        let more := s.waiting.any fun k => k != l && (s.launchAt k).queue == x.queue
        let s := s.modLaunch l fun y => { y with prio := q.prio, dclass := q.dclass, kill := q.kill }
        .next ((s.modQueue x.queue fun y => { y with blocked := more }).admitLot l slot)
      else .next s
    | none => .next s

/-- FALLBACK_ADMISSION (R362): in the epoch after the cut, with the deadline cut time + 3,072 ticks. Its cost is held in
every epoch of its class; a queue with DCLASS = 0 has no calendar. -/
def execFallbackAdmission (q : Nat) (s : State) : Out' :=
  let x := s.queueAt q
  match x.fallWant, x.fallRec with
  | (d, ticket) :: rest, some (r, e) =>
    let k := s.now / 1024
    if !s.running || k ≤ (d.toNat - 3072) / 1024 then .next s
    else
      match s.freeSlot with
      | none => .next s
      | some slot =>
        if !s.poolFits r.quota then .next s
        else
          let s := s.modQueue q fun y => { y with fallWant := rest }
          let (l, s) := s.addLaunch q ticket { r with deadline := d } e 0 true
          let s := s.modLaunch l fun y =>
            { y with resv := if y.dclass = 0 then [] else [(k, r.boundc.toNat, r.boundb.toNat)],
                     recs := [{ r with deadline := d }] }
          .next (s.admitLot l slot)
  | _, _ => .next s

/-- LAUNCH (R218): the record is copied into the next ring slot of the queue, and its status comes with its decision.
(DEDUCED, log 38: safe.)
(DEDUCED, log 39: unsafe.) -/
def execLaunch (defer : Bool) (d a : Opd) (queue : BitVec 10) (s : State) : Out' :=
  let q := queue.toNat
  memLanes s fun s t =>
    let ea := s.rd64 t (regNum a)
    let x := s.queueAt q
    let slot := x.sub + BitVec.ofNat 64 (64 * (x.door.toNat % 2 ^ x.sublog))
    let regs := (List.range 4).map fun i => Res.v (regNum d + i)
    if ea.toNat % 64 ≠ 0 then .fault .align ea
    else if x.ctx ≠ s.ctxIdOf t || !x.en then .fault .access 0
    else
      match s.reachVirt t ea 64 .D .read with
      | .fault c e => .fault c e
      | .park b => .park b
      | .stay s => .stay s
      | .ok s loc _ _ =>
        if s.busy t then .park (.fence 2)
        else if (x.door - x.head).toNat = 2 ^ x.sublog then
          .done (s.trackVals t (seqWords (regNum d) [3, 0, 0, 0]) none)
        else
          match s.reachVirt t slot 64 .D .write with
          | .fault c e => .fault c e
          | .park b => .park b
          | .stay s => .stay s
          | .ok s to_ _ _ =>
            let ticket := x.door.toNat
            let bytes := s.mem.readN loc 64
            let s := s.noteReads t [(loc, 64)]
            let s := { s with mem := s.mem.writeN to_ bytes }.peerSend (s.launchIdOf t) to_ fun p => .write p bytes
            let s := s.modQueue q fun y => { y with door := y.door + 1 }
            let s := s.addBytes t 128
            if defer then
              let s := s.modQueue q fun y => { y with deferred := SMap.put y.deferred ticket (s.launchIdOf t) }
              let s := s.modLaunch (s.launchIdOf t) fun y => { y with deferred := y.deferred ++ [.launch q ticket] }
              .done (s.trackVals t (seqWords (regNum d) [2, BitVec.ofNat 32 ticket, 0, 0]) none)
            else
              let (r, s) := s.track t regs none none
              .done (s.modQueue q fun y => { y with asks := SMap.put y.asks ticket r })

end Sys2Proof.Machine
end

