-- ==== Sys2Proof/Machine/Render.lean ====
section
/-! DEFINITION. Element instructions: KILL, HREL, BARY, DERIV, EMIT and DICE (R250 to R255, R263). -/

namespace Sys2Proof.Machine

/-- The element that a thread serves, with its number. -/
def State.serving (s : State) (t : Nat) : Option (Nat × Elem) :=
  match (s.thr t).elem with
  | some e => some (e, s.elemAt e)
  | none => none

/-- KILL (R250). -/
def execKill (s : State) : Out' :=
  forLanes s fun s t =>
    match s.serving t with
    | none => .fault .access 0
    | some (e, x) => if x.frozen then .fault .access 0 else .done (s.modElem e fun y => { y with killed := true })

/-- HREL (R251). -/
def execHrel (s : State) : Out' :=
  let r := forLanes s fun s t =>
    match s.serving t with
    | none => .fault .access 0
    | some (_, x) => if x.frozen then .done (s.dropOwn t) else .fault .access 0
  match r with
  | .next s' => .next s'.refresh
  | other => other

/-- BARY's weight (R245, R252); none where the thread has no position. -/
def State.baryWord (s : State) (t : Nat) (lin : Bool) (k : Nat) : Option Word :=
  match s.serving t with
  | none => none
  | some (_, x) =>
    if x.lam.isEmpty then none
    else if lin then some (x.lam.getD k 0)
    else some ((weights (s.flush t) x.lam x.qs false x.verts.length).getD k 0)

/-- BARY (R252). -/
def execBary (lin : Bool) (k : BitVec 2) (d : Opd) (s : State) : Out' :=
  alu s 6 d fun s t =>
    match s.baryWord t lin k.toNat with
    | some w => .ok (dstWords 32 d w.toNat)
    | none => .error .access

/-- The positions of a lane's quad. -/
def quadOf (lane : Nat) : List Nat := (List.range 4).map fun i => lane / 4 * 4 + i

/-- The lanes of a lane's quad that have yet to reach the word in issue (R253). -/
def State.quadBehind (s : State) (lane : Nat) : List Nat :=
  (quadOf lane).filter fun i =>
    (match s.posThread s.iss.gang i with
     | some u => (s.thr u).live
     | none => false) && s.memberBehind s.iss.gang i s.iss.addr

/-- What a lane waits for before its quad is read (R253, R259): live members that have yet to reach the word in issue, then
members that stand there and cannot run it yet.
(DEDUCED, log 59: unsafe.) -/
def State.quadWait (s : State) (lane : Nat) : Option Block :=
  match s.quadBehind lane, s.notYet (quadOf lane) with
  | i :: is, _ => some (.members s.iss.gang s.iss.addr (maskOf (i :: is)))
  | [], u :: us => some (.await (u :: us) s.iss.addr)
  | [], [] => none

/-- A value in each position of a quad that executes the word (R253 avail). -/
def State.quadValues (s : State) (lane : Nat) (f : Nat → Option FVal) : List (Option FVal) :=
  (quadOf lane).map fun i => (s.inLane i).bind f

/-- The difference of two positions, if both have a value (R253). -/
def quadPair (flush : Bool) (q : List (Option FVal)) (i j : Nat) : Option Word :=
  match q.getD i none, q.getD j none with
  | some a, some b => some (rne32 flush (FVal.add false b a.neg))
  | _, _ => none

/-- DERIV's result (R253): `ax` true for y. -/
def quadDiff (flush ax fine : Bool) (pos : Nat) (q : List (Option FVal)) : Option Word :=
  let row (r : Nat) : Option Word := if ax then quadPair flush q r (r + 2) else quadPair flush q (2 * r) (2 * r + 1)
  let first := if fine then (if ax then pos % 2 else pos / 2) else 0
  match row first with
  | some w => some w
  | none => row (1 - first)

/-- DERIV (R253): a member that has passed the word is not waited for and has no value.
(DEDUCED, log 59: unsafe.) -/
def execDeriv (axis fine : Bool) (d a : Opd) (s : State) : Out' :=
  let s0 := s
  forLanes s fun s t =>
    let lane := s0.laneOf t
    match s0.quadWait lane with
    | some b => .park b
    | none =>
      match s0.src32 t a with
      | .error c => .fault c 0
      | .ok _ =>
        let fl := s0.flush t
        let q := s0.quadValues lane fun u => match s0.src32 u a with
          | .ok v => some (val32 fl v)
          | .error _ => none
        .done (s.trackVals t (dstWords 32 d ((quadDiff fl axis fine (lane % 4) q).getD 0).toNat) none)

/-- Change the samples of a draw that a test selects. -/
def State.modSamples (s : State) (l : Nat) (sel : Sample → Bool) (f : Sample → Sample) : State :=
  s.modDraw l fun d => { d with samples := SMap.mapVals (fun _ q => if sel q then f q else q) d.samples }

/-- A sample takes a colour, and a depth where EMIT carries one (R254, R255). -/
def Sample.emit (rgba : List Word) (z : Option Word) (q : Sample) : Sample :=
  { q with color := rgba, written := true, z := match z with
      | some v => v
      | none => q.z }

/-- A ray adds its colour to a sample, channel by channel (R255). -/
def Sample.addRay (flush : Bool) (rgba : List Word) (q : Sample) : Sample :=
  { q with color := List.zipWith (fadd32 flush) q.color rgba, written := true }

/-- Whether what an element emits is dropped: a helper, a killed element, or a ray that descends from one (R243, R250,
R469). -/
def State.muted (s : State) (x : Elem) : Bool := x.helper || x.killed || x.anc.any fun a => (s.elemAt a.2).killed

/-- EMIT's result for an element (R254); none where it faults ACCESS. -/
def State.emitResult (s : State) (t e : Nat) (rgba : List Word) (z : Option Word) : Option State :=
  let x := s.elemAt e
  let l := x.launch
  let write (sel : Sample → Bool) (f : Sample → Sample) : Option State :=
    some (if s.muted x then s else s.modSamples l sel f)
  match x.rate with
  | .V => some (s.modElem e fun y => { y with clip := rgba })
  | .K => write (fun q => q.kelem == some e) (Sample.emit rgba z)
  | .S => write (fun q => q.elem == some e) (Sample.emit rgba z)
  | .Y =>
    (match x.ancestor .S, x.ancestor .K with
     | some a, _ => write (fun q => q.elem == some a) (Sample.addRay (s.flush t) rgba)
     | none, some a => write (fun q => q.kelem == some a) (Sample.addRay (s.flush t) rgba)
     | none, none => none)
  | _ => some s

/-- EMIT in one lane (R254). -/
def emitLane (z : Bool) (a b : Opd) (s : State) (t : Nat) : LaneRes :=
  match s.serving t with
  | none => .fault .access 0
  | some (e, x) =>
    let rgba := match a with
      | .v n => (List.range 4).map fun i => s.rd t (n.toNat + i)
      | _ => []
    match (if z then s.src32 t b else .ok 0) with
    | .error c => .fault c 0
    | .ok zv =>
      if x.rate != .Y && x.emitted then .fault .access 0
      else
        match s.emitResult t e rgba (if z then some zv else none) with
        | none => .fault .access 0
        | some s' => .done ((s'.freeze t).modElem e fun y => { y with emitted := true })

/-- EMIT (R254, R255). -/
def execEmit (z : Bool) (_ty : Ty) (a b : Opd) (s : State) : Out' :=
  match forLanes s (emitLane z a b) with
  | .next s' => .next s'.refresh
  | other => other

/-- Vertices that DICE has made in a cluster (R263). -/
def Draw.diced (d : Draw) (cluster : Nat) : Nat :=
  sumList ((d.dice.filter fun g => g.1 == cluster).map fun g => (g.2.2.1 + 1) * (g.2.2.2.1 + 1))

/-- The triangles of a grid, in the order of R263: `%elem` numbers of their vertices. -/
def gridTriangles (nu nv first : Nat) : List (List Nat) :=
  (List.range nv).flatMap fun j => (List.range nu).flatMap fun i =>
    let at_ (p q : Nat) : Nat := first + q * (nu + 1) + p
    [[at_ i j, at_ (i + 1) j, at_ (i + 1) (j + 1)], [at_ i j, at_ (i + 1) (j + 1), at_ i (j + 1)]]

/-- Add primitives to a draw, numbered from `n` within their cluster. -/
def Draw.addPrims (d : Draw) (obj cluster : Nat) : Nat → List (List Nat) → Draw
  | _, [] => d
  | n, v :: vs =>
    let p : Prim := { obj := obj, cluster := cluster, idx := n, verts := v, begun := false, done := false, squads := [] }
    Draw.addPrims { d with prims := SMap.put d.prims d.prims.length p } obj cluster (n + 1) vs

/-- Object of a cluster (R353). -/
def DrawRec.objectOf (d : DrawRec) (cluster : Nat) : Nat :=
  (d.objects.findIdx? fun o => decide (o.1 ≤ cluster ∧ cluster < o.1 + o.2)).getD 0

/-- The V elements of a grid (R263). -/
def State.gridProtos (s : State) (e n first : Nat) : List Elem :=
  let x := s.elemAt e
  (List.range n).map fun i =>
    { Elem.zero with launch := x.launch, rate := .V, idx := first + i, anc := x.anc ++ [(Rate.C, e)], core := x.core,
                     own := true, pending := true }

/-- DICE numbers a grid: its record, its triangles as primitives, and the first number in vD (R263). -/
def State.diceRecord (s : State) (t e nu nv patch : Nat) (d : Opd) : State :=
  let x := s.elemAt e
  let l := x.launch
  let dr := s.drawOf l
  let first := dr.nextV
  let idx := ((SMap.vals dr.prims).filter fun p => p.cluster == x.idx).length
  let s := s.modDraw l fun dr =>
    { dr with dice := dr.dice ++ [(x.idx, patch, nu, nv, first, e)],
              nextV := first + (nu + 1) * (nv + 1) }.addPrims
      ((s.drawRec l).objectOf x.idx) x.idx idx (gridTriangles nu nv first)
  s.trackVals t (dstWords 32 d first) none

/-- DICE takes effect once the storage of its V elements is charged (R248, R263), or of the first `k` where all could never
have it; the elements are made when the C element freezes.
(DEDUCED, log 58: unsafe.) -/
def State.diceDone (s : State) (t e r k nu nv patch : Nat) (d : Opd) : State :=
  let l := (s.elemAt e).launch
  let c : Creation := { launch := l, rate := .V, protos := s.gridProtos e ((nu + 1) * (nv + 1)) (s.drawOf l).nextV,
                        regs := [], crew := (s.thr t).crew, attempted := true, since := s.now, turn := r, fromRecord := false,
                        cause := none, granted := true, failed := false }
  ({ s with creations := SMap.put s.creations r { c with protos := c.protos.take k } }.askRest c k).diceRecord t e nu nv patch d

/-- DICE in one lane (R263). -/
def diceLane (d a b : Opd) (s : State) (t : Nat) : LaneRes :=
  match s.serving t, s.src t 32 a, s.src t 32 b with
  | none, _, _ => .fault .access 0
  | _, .error c, _ => .fault c 0
  | _, _, .error c => .fault c 0
  | some (e, x), .ok av, .ok patch =>
    let nu := fieldN av 0 8
    let nv := fieldN av 8 8
    let (tris, _, _, nprim, _) := (s.drawRec x.launch).clusters.getD x.idx (true, 0, 0, 0, 0)
    if av ≥ 65536 ∨ nu = 0 ∨ 64 < nu ∨ nv = 0 ∨ 64 < nv ∨ tris ∨ nprim ≤ patch ∨ x.frozen ∨
        65536 < (s.drawOf x.launch).diced x.idx + (nu + 1) * (nv + 1) then .fault .access 0
    else if !s.hasRate x.launch .V then
      .done (s.diceRecord t e nu nv patch d)
    else
      match s.askedBy t with
      | some (r, c) => if c.failed then .fault .stockpileStall 0 else .done (s.diceDone t e r c.protos.length nu nv patch d)
      | none =>
        let (r, s') := s.take
        let c : Creation := { launch := x.launch, rate := .V, protos := s.gridProtos e ((nu + 1) * (nv + 1)) 0, regs := [],
                              crew := (s.thr t).crew, attempted := true, since := s.now, turn := r, fromRecord := false,
                              cause := some t, granted := false, failed := false }
        let ask := { c with turn := 0 }
        if s.creationFits 0 ask then .done ((s'.takeBytes ask).diceDone t e r (s.together ask).length nu nv patch d)
        else .stay ({ s' with creations := SMap.put s'.creations r c }.setPark t (.retry (.creation r)))

/-- DICE (R263). -/
def execDice (d a b : Opd) (s : State) : Out' :=
  match forLanes s (diceLane d a b) with
  | .next s' => .next (s'.dropAsked s.iss.lanes)
  | other => other

end Sys2Proof.Machine
end

