-- ==== Sys2Proof/Machine/Texture.lean ====
section
/-! DEFINITION. Textures: descriptors, levels, filtering and residency (R256 to R262, R419). -/

namespace Sys2Proof.Machine

/-- A texture descriptor (R256). -/
structure Tex where
  base : Nat
  space : Sp
  w : Nat
  h : Nat
  d : Nat
  lm1 : Nat
  fmt : Nat
  filt : Nat
  wrap : Nat
  dims : Nat
  bias : Word
  deriving DecidableEq, Repr

/-- A descriptor's fields; none where it breaks a rule of R256. -/
def texOf (v : Nat) : Option Tex :=
  let x : Tex :=
    { base := fieldN v 0 52, space := if testN v 52 then .K else .G, w := fieldN v 64 16 + 1, h := fieldN v 80 16 + 1,
      d := fieldN v 96 16 + 1, lm1 := fieldN v 112 4, fmt := fieldN v 116 4, filt := fieldN v 120 2, wrap := fieldN v 122 2,
      dims := fieldN v 124 2, bias := BitVec.ofNat 32 (fieldN v 128 32) }
  if x.base % 256 ≠ 0 ∨ fieldN v 53 11 ≠ 0 ∨ 4 < x.fmt ∨ x.filt = 3 ∨ x.wrap = 3 ∨ x.dims = 3 ∨ fieldN v 126 2 ≠ 0 ∨
      fieldN v 160 96 ≠ 0 ∨ (x.dims = 0 ∧ x.d ≠ 1) then none
  else some x

/-- Bytes of a texel (R257). -/
def Tex.texel (x : Tex) : Nat := [4, 8, 16, 4, 4].getD x.fmt 4

def Tex.wAt (x : Tex) (l : Nat) : Nat := max 1 (x.w / 2 ^ l)
def Tex.hAt (x : Tex) (l : Nat) : Nat := max 1 (x.h / 2 ^ l)

/-- Depth of a level: it shrinks for 3D, and counts the layers of an array (R257). -/
def Tex.dAt (x : Tex) (l : Nat) : Nat := if x.dims = 2 then max 1 (x.d / 2 ^ l) else if x.dims = 1 then x.d else 1

def Tex.pitch (x : Tex) (l : Nat) : Nat := alignUp (x.wAt l * x.texel) 16
def Tex.slice (x : Tex) (l : Nat) : Nat := alignUp (x.pitch l * x.hAt l) 256

/-- OFF(l) (R257). -/
def Tex.off (x : Tex) : Nat → Nat
  | 0 => 0
  | l + 1 => alignUp (Tex.off x l + x.slice l * x.dAt l) 256

/-- Address of texel (i, j, k) of a level (R257). -/
def Tex.addr (x : Tex) (l i j k : Nat) : Nat := x.base + x.off l + k * x.slice l + j * x.pitch l + i * x.texel

/-- Wrap an index into 0 to n − 1 (R258). -/
def Tex.wrapI (x : Tex) (n : Nat) (i : Int) : Nat :=
  let m : Int := Int.ofNat n
  if x.wrap = 0 then (i % m).toNat
  else if x.wrap = 1 then (if i < 0 then 0 else if m ≤ i then m - 1 else i).toNat
  else
    let r := i % (2 * m)
    (if r < m then r else 2 * m - 1 - r).toNat

/-- Indices of an axis with their weights in 256ths (R258): nearest or linear. -/
def axisTaps (linear : Bool) (s : FVal) (n : Nat) : List (Int × Nat) :=
  let p := FVal.mul s (.dy n 0)
  if !linear then [(FVal.floorI p, 256)]
  else
    let q := FVal.add false p (.fin true 1 (-1) false)
    let i := FVal.floorI q
    let a := (FVal.floorI (q.scale 8) - 256 * i).toNat
    [(i, 256 - a), (i + 1, a)].filter fun t => t.2 ≠ 0

/-- Array layer of a coordinate (R258). -/
def Tex.layer (x : Tex) (z : FVal) : Nat :=
  let r := rneInt z
  (if r < 0 then 0 else if Int.ofNat (x.d - 1) < r then Int.ofNat (x.d - 1) else r).toNat

/-- Layers or depths of a level with weights (R258). -/
def Tex.depthTaps (x : Tex) (linear : Bool) (z : FVal) (l : Nat) : List (Int × Nat) :=
  if x.dims = 0 then [(0, 256)]
  else if x.dims = 1 then [(Int.ofNat (x.layer z), 256)]
  else axisTaps linear z (x.dAt l)

/-- Footprint of a level: texel addresses with weights in 2^-24 (R258). Texels of weight zero are left out. -/
def Tex.footprint (x : Tex) (linear : Bool) (s t z : FVal) (l : Nat) : List (Nat × Nat) :=
  (axisTaps linear s (x.wAt l)).flatMap fun i => (axisTaps linear t (x.hAt l)).flatMap fun j =>
    (x.depthTaps linear z l).map fun k =>
      (x.addr l (x.wrapI (x.wAt l) i.1) (x.wrapI (x.hAt l) j.1) (if x.dims = 2 then x.wrapI (x.dAt l) k.1 else k.1.toNat),
       i.2 * j.2 * k.2)

/-- The channels of a texel; rgba8un channels still to be divided by 255 (R257). -/
def Tex.channels (x : Tex) (flush : Bool) (v : Nat) : List FVal :=
  let f (fm : Fmt) (w c : Nat) : FVal := widenExact flush fm (fieldN v (w * c) w) none
  let one : FVal := .ofInt 1
  if x.fmt = 0 then (List.range 4).map fun c => .ofInt (Int.ofNat (fieldN v (8 * c) 8))
  else if x.fmt = 1 then (List.range 4).map (f .f16 16)
  else if x.fmt = 2 then (List.range 4).map (f .f32 32)
  else if x.fmt = 3 then [f .f32 32 0, .zero, .zero, one]
  else [f .f16 16 0, f .f16 16 1, .zero, one]

/-- A channel's exact value from the sum of its channel codes. -/
def Tex.norm (x : Tex) (v : FVal) : FVal := if x.fmt = 0 then FVal.div v (.ofInt 255) else v

/-- The filtered channels of texels with weights in 2^-32, rounded once (R258). -/
def Tex.filter (x : Tex) (flush : Bool) (texels : List (Nat × Nat)) : List Word :=
  (List.range 4).map fun c =>
    let terms := texels.map fun p => FVal.mul ((x.channels flush p.1).getD c .zero) (.dy p.2 (-32))
    rne32 flush (x.norm (FVal.sum terms))

/-- How the texels of a footprint are found. -/
inductive TexFetch
  | ok (vals : List Nat)
  | missing (vas : List Nat)
  | bad (c : Cause) (va : Nat)
  deriving DecidableEq, Repr

/-- Translation of a texel's address (R36, R258). -/
def State.texTr (s : State) (t : Nat) (x : Tex) (va : Nat) : Tr :=
  if fieldN va 52 12 ≠ 0 then .bad .access else translate s (s.coreOf t) (s.ctxIdOf t) va x.space .read

/-- The committed texels of a footprint (R258, R260); a page that the host has refused the lane faults XLATE (R392), and a
retired line MACHINE_CHECK (R452). -/
def State.texFetch (s : State) (t : Nat) (x : Tex) (vas : List Nat) : TexFetch :=
  let bad := vas.findSome? fun va => match s.texTr t x va with
    | .bad c => some (c, va)
    | .ok loc _ _ _ _ =>
      if s.pageRefused t va then some (.xlate, va) else if lineRetired s loc then some (.machineCheck, va) else none
    | .miss => if s.pageRefused t va then some (.xlate, va) else none
  match bad with
  | some (c, va) => .bad c va
  | none =>
    let miss := vas.filter fun va => match s.texTr t x va with
      | .miss => true
      | _ => false
    if !miss.isEmpty then .missing miss
    else .ok (vas.map fun va => match s.texTr t x va with
      | .ok loc _ _ _ _ => s.viewN t false loc x.texel
      | _ => 0)

/-- The locations of a footprint's texels, each with its bytes. -/
def State.texLocs (s : State) (t : Nat) (x : Tex) (vas : List Nat) : List (Nat × Nat) :=
  vas.filterMap fun va => match s.texTr t x va with
    | .ok loc _ _ _ _ => some (loc, x.texel)
    | _ => none

/-- Fill the translation buffers with a footprint's pages (R389), whose texels are read. -/
def State.texFill (s : State) (t : Nat) (x : Tex) (vas : List Nat) : State :=
  vas.foldl (fun s va => prefetchTlb s (s.coreOf t) (s.ctxIdOf t) va x.space) (s.noteReads t (s.texLocs t x vas))

/-- Pages of addresses, each once, in the order in which they first occur. -/
def pagesOf (vas : List Nat) : List Nat :=
  vas.foldl (fun ps va => if ps.contains (va / 65536) then ps else ps ++ [va / 65536]) []

/-- Park a lane on the pages that a footprint lacks: each joins the batch once, and the lane waits for all of them (R260,
R375, R419). -/
def State.parkTexels (s : State) (t : Nat) (x : Tex) (vas : List Nat) : State :=
  let die := dieOf (s.coreOf t)
  let r := (pagesOf vas).foldl (fun r p =>
    let (s, n) := r.1.joinBatch die (s.ctxIdOf t) (65536 * p) .read x.space
    (s, r.2 ++ [(n, p)])) (s, [])
  r.1.setPark t (.xlate die r.2 false [])

/-- Four results and the predicate of a texture word (R260, R261). -/
def State.texDone (s : State) (t : Nat) (d : Opd) (pd : BitVec 3) (vals : List Word) (nonres : Bool) (bytes : Nat) : LaneRes :=
  .done ((s.trackVals t (seqWords (regNum d) vals ++ predWord pd nonres) none).addBytes t bytes)

/-- A filtered read of taps: addresses with weights, and what to do where a page is not resident (R260). `lower` gives the
taps of a level with nearest mip selection. -/
def State.texRead (s : State) (t : Nat) (x : Tex) (d : Opd) (pd : BitVec 3) (taps : List (Nat × Nat))
    (lower : Nat → List (Nat × Nat)) (out : List (Nat × Nat) → List Word) : LaneRes :=
  let go (ps : List (Nat × Nat)) (vs : List Nat) (nonres : Bool) : LaneRes :=
    afterBytes s t (s.texLocs t x (ps.map Prod.fst)) <| (s.texFill t x (ps.map Prod.fst)).texDone t d pd (out (List.zipWith (fun v p => (v, p.2)) vs ps)) nonres
      (32 + ps.length * x.texel)
  match s.texFetch t x (taps.map Prod.fst) with
  | .bad c va => .fault c (BitVec.ofNat 64 va)
  | .ok vs => go taps vs false
  | .missing vas =>
    if (s.launchOf t).dclass = 0 then .stay (s.parkTexels t x vas)
    else
      let found := (List.range (x.lm1 + 1)).reverse.findSome? fun l =>
        match s.texFetch t x ((lower l).map Prod.fst) with
        | .ok vs => some (lower l, vs)
        | _ => none
      match found with
      | some (ps, vs) => go ps vs true
      | none => s.texDone t d pd [0, 0, 0, 0] true 32

/-- The descriptor of a texture word (R256), read as LDK reads; then what the word does with it, or, where its page is a
replayable miss, what `missed` says. -/
def withTexOr (missed : State → LaneRes) (s : State) (t : Nat) (b : Opd) (dim : Option Nat) (k : State → Tex → LaneRes) :
    LaneRes :=
  let ea := s.rd64 t (regNum b)
  afterAcquire s t <| match s.reachVirt t ea 32 .K .read with
  | .fault c e => .fault c e
  | .park bl => .park bl
  | .stay s' => missed s'
  | .ok s' loc _ _ =>
    afterBytes s' t [(loc, 32)] <| match texOf (s'.viewN t false loc 32) with
    | none => .fault .access ea
    | some x => if dim.any fun m => m != x.dims then .fault .access ea else k (s'.noteReads t [(loc, 32)]) x

/-- The descriptor of a word that parks where its page is a replayable miss. -/
def withTex (s : State) (t : Nat) (b : Opd) (dim : Option Nat) (k : State → Tex → LaneRes) : LaneRes :=
  withTexOr .stay s t b dim k

/-- Coordinate `i` of a texture word, FLUSH applied. -/
def State.texCoord (s : State) (t : Nat) (a : Opd) (i : Nat) : FVal := val32 (s.flush t) (s.rd t (regNum a + i))

/-- Coordinates a texture uses: two, and a third for an array or 3D (R261). -/
def Tex.coords (x : Tex) : Nat := if x.dims = 0 then 2 else 3

/-- True where every coordinate is a real number; the spec states no texel for the others.
(DESIGN CHOICE, log 26: safe.) -/
def State.coordsReal (s : State) (t : Nat) (a : Opd) (x : Tex) : Bool :=
  (List.range x.coords).all fun i => (s.texCoord t a i).isFin

/-- Results that the spec does not state: four free values.
(DESIGN CHOICE, log 26: safe.) -/
def State.texFree (s : State) (t : Nat) (d : Opd) (pd : BitVec 3) : LaneRes :=
  let vals := (List.range 4).map fun i => Config.freeWord (s.free + i)
  { s with free := s.free + 4 }.texDone t d pd vals false 32

/-- Clamp a level into 0 to LM1; NaN becomes 0 (R259). -/
def Tex.clampLevel (x : Tex) (v : FVal) : FVal :=
  let top : FVal := .ofInt (Int.ofNat x.lm1)
  if v.isNan then .zero else if FVal.lt v .zero then .zero else if FVal.lt top v then top else v

/-- Taps of a sample at a level, weights in 2^-32 (R258, R259). -/
def Tex.sampleTaps (x : Tex) (s t z : FVal) (level : FVal) : List (Nat × Nat) :=
  let linear := x.filt ≠ 0
  let one (l w : Nat) : List (Nat × Nat) := (x.footprint linear s t z l).map fun p => (p.1, p.2 * w)
  if x.filt ≠ 2 then one (FVal.floorI (FVal.add false level (.dy 1 (-1)))).toNat 256
  else
    let l0 := (FVal.floorI level).toNat
    let g := (FVal.floorI (level.scale 8)).toNat - 256 * l0
    one l0 (256 - g) ++ (if g = 0 then [] else one (min (l0 + 1) x.lm1) g)

/-- TEX and TEXL once the level is known (R258 to R261).
(DEDUCED, log 28: unsafe.) -/
def State.texSample (s : State) (t : Nat) (x : Tex) (a d : Opd) (pd : BitVec 3) (level : Word) : LaneRes :=
  if !s.coordsReal t a x then s.texFree t d pd
  else
    let fl := s.flush t
    let (p, q, z) := (s.texCoord t a 0, s.texCoord t a 1, s.texCoord t a 2)
    let lower (l : Nat) : List (Nat × Nat) := (x.footprint (x.filt ≠ 0) p q z l).map fun u => (u.1, u.2 * 256)
    s.texRead t x d pd (x.sampleTaps p q z (x.clampLevel (val32 fl level))) lower (x.filter fl)

/-- Largest of the scaled differences (R259); none where one is not a number, for which the spec states no ρ. -/
def texRho (x : Tex) (ds : List (Nat × FVal)) : Option FVal :=
  let vs := ds.map fun p => FVal.mul p.2.abs (.dy ([x.w, x.h, x.d].getD p.1 1) 0)
  if vs.any FVal.isNan then none else some (vs.foldl (fun m v => if FVal.lt m v then v else m) .zero)

/-- Coordinate differences of a quad over both axes by the coarse rules, for s, t and z in turn; a missing pair gives 0
(R259). -/
def State.quadDiffs (s : State) (lane : Nat) (flush : Bool) (a : Opd) : List Word :=
  (List.range 3).flatMap fun i =>
    let q := s.quadValues lane fun u => some (s.texCoord u a i)
    [false, true].map fun ax => (quadDiff flush ax false 0 q).getD 0

/-- The differences that form the level: those of the coordinates that the texture has (R259). -/
def Tex.diffs (x : Tex) (flush : Bool) (ds : List Word) : List (Nat × FVal) :=
  (List.range (if x.dims = 2 then 6 else 4)).map fun i => (i / 2, val32 flush (ds.getD i 0))

/-- The differences that a lane's quad gave it when it parked, or none where it takes them now.
(DEDUCED, log 59: unsafe.) -/
def State.keptQuad (s : State) (t : Nat) : Option (List Word) :=
  match s.heldBy t with
  | some (.quad ds) => some ds
  | _ => none

/-- A lane that parks on a page keeps what its quad gave it, for the word issues again in that lane alone (R259, R260). -/
def keeping (t : Nat) (ds : List Word) (r : LaneRes) : LaneRes :=
  match r with
  | .stay s => .stay (s.modThr t fun x => { x with park := match x.park with
      | some (.xlate die ws f _) => some (.xlate die ws f ds)
      | p => p })
  | r => r

/-- The level of TEX from its quad's differences (R259), and the free values used.
(DESIGN CHOICE, log 27: safe.) -/
def State.texLevel (s : State) (flush : Bool) (x : Tex) (ds : List Word) : Word × Nat :=
  match texRho x (x.diffs flush ds) with
  | some r => (fadd32 flush (log232 flush (val32 flush (rne32 flush r))) x.bias, 0)
  | none => (Config.freeWord s.free, 1)

/-- TEX (R256 to R261): it waits for its quad as DERIV does, and a lane that issues again after a park on a page uses what its
quad gave it before.
(DEDUCED, log 59: unsafe.) -/
def execTex (dim : BitVec 2) (pd : BitVec 3) (d a b : Opd) (s : State) : Out' :=
  let s0 := s
  memLanes s fun s t =>
    let go (ds : List Word) : LaneRes :=
      keeping t ds (withTex s t b (some dim.toNat) fun s x =>
        let r := s.texLevel (s.flush t) x ds
        { s with free := s.free + r.2 }.texSample t x a d pd r.1)
    afterAcquire s t <| match s0.keptQuad t, s0.quadWait (s0.laneOf t) with
    | some ds, _ => go ds
    | none, some b => .park b
    | none, none => go (s0.quadDiffs (s0.laneOf t) (s0.flush t) a)

/-- TEXL (R256 to R261). -/
def execTexl (dim : BitVec 2) (pd : BitVec 3) (d a b c : Opd) (s : State) : Out' :=
  memLanes s fun s t =>
    match s.src32 t c with
    | .error e => .fault e 0
    | .ok lv => withTex s t b (some dim.toNat) fun s x => s.texSample t x a d pd (fadd32 (s.flush t) lv x.bias)

/-- The four texels of a gather at a level (R261). -/
def Tex.gather (x : Tex) (s t z : FVal) (l : Nat) : List (Nat × Nat) :=
  let i0 (v : FVal) (n : Nat) : Int := FVal.floorI (FVal.add false (FVal.mul v (.dy n 0)) (.fin true 1 (-1) false))
  let i := i0 s (x.wAt l)
  let j := i0 t (x.hAt l)
  let k := if x.dims = 1 then x.layer z else 0
  [(i, j), (i + 1, j), (i, j + 1), (i + 1, j + 1)].map fun p =>
    (x.addr l (x.wrapI (x.wAt l) p.1) (x.wrapI (x.hAt l) p.2) k, 0)

/-- TEXG (R261). -/
def execTexg (ch dim : BitVec 2) (pd : BitVec 3) (d a b c : Opd) (s : State) : Out' :=
  memLanes s fun s t =>
    match s.src t 32 c with
    | .error e => .fault e 0
    | .ok lv => withTex s t b (some dim.toNat) fun s x =>
        if x.lm1 < lv then .fault .access 0
        else if !s.coordsReal t a x then s.texFree t d pd
        else
          let fl := s.flush t
          let taps (l : Nat) : List (Nat × Nat) := x.gather (s.texCoord t a 0) (s.texCoord t a 1) (s.texCoord t a 2) l
          s.texRead t x d pd (taps lv) taps fun ps =>
            ps.map fun p => rne32 fl (x.norm ((x.channels fl p.1).getD ch.toNat .zero))

/-- Whether every page of a level is resident (R262). -/
def State.levelResident (s : State) (t : Nat) (x : Tex) (l : Nat) : Bool :=
  let lo := x.base + x.off l
  let hi := lo + x.slice l * x.dAt l - 1
  (List.range (hi / 65536 - lo / 65536 + 1)).all fun i =>
    match s.texTr t x ((lo / 65536 + i) * 65536) with
    | .ok _ _ _ _ _ => true
    | _ => false

/-- TEXQ (R262): it never parks, so that where its descriptor's page is a replayable miss its results are values that the spec
does not state.
(DESIGN CHOICE, log 115: safe.) -/
def execTexq (d b c : Opd) (s : State) : Out' :=
  memLanes s fun s t =>
    match s.src t 32 c with
    | .error e => .fault e 0
    | .ok l => withTexOr (fun _ => s.texFree t d 7) s t b none fun s x =>
        if x.lm1 < l then .fault .access 0
        else
          let st := x.lm1 + 1 + (if s.levelResident t x l then 2 ^ 31 else 0)
          .done ((s.trackVals t (seqWords (regNum d)
            [BitVec.ofNat 32 (x.wAt l), BitVec.ofNat 32 (x.hAt l), BitVec.ofNat 32 (x.dAt l), BitVec.ofNat 32 st]) none).addBytes t 32)

end Sys2Proof.Machine
end

