-- ==== Sys2Proof/Machine/Ray.lean ====
section
/-! DEFINITION. The ray unit (R264 to R266, R416, R417). -/

namespace Sys2Proof.Machine

/-- A ray: origin, tmin, direction, tmax as FP32 codes (R264). -/
structure Ray where
  o : List Word
  tmin : Word
  d : List Word
  tmax : Word
  deriving DecidableEq, Repr

/-- A hit: t, u, v, instance, geometry, primitive (R264). -/
structure RayHit where
  t : Word
  u : Word
  v : Word
  ids : List Word
  deriving DecidableEq, Repr

/-- How a traversal stands. -/
inductive Trav
  | on (tcur : Word) (best : Option RayHit)
  | done (h : RayHit)
  | bad
  | held (loc : Nat)
  | miss (va : Nat)
  | fault (c : Cause) (va : Nat)
  deriving DecidableEq, Repr

/-- Row `r` of a 3 × 4 matrix applied to a point or a direction (R265). -/
def rowApply (flush : Bool) (m : List Word) (r : Nat) (p : List Word) (point : Bool) : Word :=
  let c (i : Nat) : Word := fmul32 flush (m.getD (4 * r + i) 0) (p.getD i 0)
  let v := fadd32 flush (fadd32 flush (c 0) (c 1)) (c 2)
  if point then fadd32 flush v (m.getD (4 * r + 3) 0) else v

/-- A ray transformed by a matrix (R265, R417). -/
def Ray.apply (flush : Bool) (m : List Word) (r : Ray) : Ray :=
  { r with o := (List.range 3).map fun i => rowApply flush m i r.o true,
           d := (List.range 3).map fun i => rowApply flush m i r.d false }

/-- Order of FP32 codes, false with a NaN. -/
def le32 (flush : Bool) (a b : Word) : Bool := FVal.le (val32 flush a) (val32 flush b)

def lt32 (flush : Bool) (a b : Word) : Bool := FVal.lt (val32 flush a) (val32 flush b)

/-- A leaf's test (R265): t, u and v of a hit. -/
def leafHit (flush : Bool) (m : List Word) (ray : Ray) (tcur : Word) : Option (Word × Word × Word) :=
  let r := ray.apply flush m
  let dz := r.d.getD 2 0
  let oz := rne32 flush (val32 flush (r.o.getD 2 0)).neg
  let t := fdiv32 flush oz dz
  let u := fadd32 flush (r.o.getD 0 0) (fmul32 flush t (r.d.getD 0 0))
  let v := fadd32 flush (r.o.getD 1 0) (fmul32 flush t (r.d.getD 1 0))
  if !(val32 flush dz).isZero && !(val32 flush dz).isNan && le32 flush 0 u && le32 flush 0 v &&
      le32 flush (fadd32 flush u v) 0x3F800000 && le32 flush ray.tmin t && le32 flush t tcur
  then some (t, u, v) else none

/-- A child box's test (R417). -/
def boxEnter (flush : Bool) (box : List Word) (ray : Ray) (tcur : Word) : Bool :=
  let side (k a : Nat) : Word := fdiv32 flush (fsub32 flush (box.getD (3 * k + a) 0) (ray.o.getD a 0)) (ray.d.getD a 0)
  let near (a : Nat) : Word := fminmax32 flush false (side 0 a) (side 1 a)
  let far (a : Nat) : Word := fminmax32 flush true (side 0 a) (side 1 a)
  let n := fminmax32 flush true (fminmax32 flush true (near 0) (near 1)) (near 2)
  let f := fminmax32 flush false (fminmax32 flush false (far 0) (far 1)) (far 2)
  le32 flush n f && le32 flush ray.tmin f && le32 flush n tcur

/-- Whether a hit is better than the best so far (R266): smaller t, then the smaller indices. -/
def RayHit.before (flush : Bool) (a b : RayHit) : Bool :=
  lt32 flush a.t b.t || (!lt32 flush b.t a.t && decide (a.ids.map (fun w => w.toNat) < b.ids.map (fun w => w.toNat)))

/-- A node's location and words (R416), or how its read ends: committed bytes of a G or K page; a page that the host has refused the lane
faults XLATE (R392). -/
def State.nodeAt (s : State) (t va : Nat) : (Nat × List Word) ⊕ Trav :=
  let at_ (sp : Sp) : Tr := translate s (s.coreOf t) (s.ctxIdOf t) va sp .read
  let tr := match at_ .G with
    | .bad .xlate => at_ .K
    | r => r
  if s.pageRefused t va then .inr (.fault .xlate va)
  else match tr with
  | .bad c => .inr (.fault c va)
  | .miss => .inr (.miss va)
  | .ok loc _ _ _ _ =>
    if lineRetired s loc then .inr (.fault .machineCheck va)
    else if !s.bytesClear t false loc 64 false false then .inr (.held loc)
    else .inl (loc, (List.range 16).map fun i => BitVec.ofNat 32 (s.viewN t false (loc + 4 * i) 4))

/-- A reference's address and KIND; none where a zero field is not zero (R416). -/
def refOf (lo hi : Word) : Option (Nat × Nat) :=
  let v := (hi ++ lo).toNat
  if fieldN v 2 4 ≠ 0 ∨ fieldN v 52 12 ≠ 0 then none else some (fieldN v 6 46 * 64, fieldN v 0 2)

/-- What a traversal is given: FLUSH, the TRACE mask, whether the first hit ends it, and the free choice of order. -/
structure Trace where
  thread : Nat
  flush : Bool
  mask : Nat
  first : Bool
  free : Nat
  deriving DecidableEq, Repr

/-- Which child of a node is taken first: the order is not fixed (R266).
(DESIGN CHOICE, log 29: safe.) -/
def Trace.swap (c : Trace) (va : Nat) : Bool := (Config.freeWord (2 ^ 70 * (c.free + 1) + va)).getLsbD 0

/-- A leaf under an instance index (R265, R266, R417). -/
def leafWalk (c : Trace) (w : List Word) (ray : Ray) (inst : Word) (tcur : Word) (best : Option RayHit) : Trav :=
  if w.getD 14 0 ≠ 0 ∨ w.getD 15 0 ≠ 0 then .bad
  else
    match leafHit c.flush (w.take 12) ray tcur with
    | none => .on tcur best
    | some (t, u, v) =>
      let h : RayHit := { t := t, u := u, v := v, ids := [inst, w.getD 12 0, w.getD 13 0] }
      if c.first then .done h
      else match best with
        | none => .on t (some h)
        | some b => if h.before c.flush b then .on t (some h) else .on tcur best

/-- A traversal with the locations of the nodes it has read, the last first. -/
structure Traced where
  trav : Trav
  nodes : List Nat
  deriving DecidableEq, Repr

/-- The walk from a reference down at most `fuel` more nodes (R416, R417), after some nodes; `inst` is the instance the path lies
under. -/
def walkRef (s : State) (c : Trace) : Nat → Ray → Option Word → Nat × Nat → Word → Option RayHit → List Nat → Traced
  | 0, _, _, ref, tcur, best, ns => ⟨if ref.2 = 3 then .on tcur best else .bad, ns⟩
  | fuel + 1, ray, inst, ref, tcur, best, ns =>
    if ref.2 = 3 then ⟨.on tcur best, ns⟩
    else
      match s.nodeAt c.thread ref.1 with
      | .inr w => ⟨w, ns⟩
      | .inl (loc, w) =>
        let ns := loc :: ns
        if ref.2 = 1 then ⟨leafWalk c w ray (inst.getD 0xFFFFFFFF) tcur best, ns⟩
        else if ref.2 = 2 then
          match refOf (w.getD 14 0) (w.getD 15 0) with
          | none => ⟨.bad, ns⟩
          | some r =>
            if inst.isSome ∨ fieldN (w.getD 13 0).toNat 8 24 ≠ 0 then ⟨.bad, ns⟩
            else if andN 8 (w.getD 13 0).toNat c.mask = 0 then ⟨.on tcur best, ns⟩
            else walkRef s c fuel (ray.apply c.flush (w.take 12)) (some (w.getD 12 0)) r tcur best ns
        else
          match refOf (w.getD 12 0) (w.getD 13 0), refOf (w.getD 14 0) (w.getD 15 0) with
          | some r0, some r1 =>
            let kids := if c.swap ref.1 then [(1, r1), (0, r0)] else [(0, r0), (1, r1)]
            kids.foldl (fun acc k =>
              match acc.trav with
              | .on tcur best =>
                if k.2.2 ≠ 3 && boxEnter c.flush ((w.drop (6 * k.1)).take 6) ray tcur
                then walkRef s c fuel ray inst k.2 tcur best acc.nodes else acc
              | _ => acc) ⟨.on tcur best, ns⟩
          | _, _ => ⟨.bad, ns⟩

/-- Results of a TRACE: a hit, a miss, or a malformed node (R264). -/
def traceWords (hit : Option RayHit) (occl err : Bool) : List Word :=
  let flag : Word := (if hit.isSome then 1 else 0) + (if err then 0x80000000 else 0)
  match hit, occl with
  | some h, false => [h.t, h.u, h.v] ++ h.ids ++ [flag, 0]
  | _, _ => [0x7F800000, 0, 0, 0xFFFFFFFF, 0xFFFFFFFF, 0xFFFFFFFF, flag, 0]

/-- TRACE in one lane (R264 to R266).
(DEDUCED, log 28: unsafe.) -/
def traceLane (mode mask : Nat) (d a b : Opd) (s : State) (t : Nat) : LaneRes :=
  let root := s.rd64 t (regNum b)
  let v (i : Nat) : Word := s.rd t (regNum a + i)
  let ray : Ray := { o := [v 0, v 1, v 2], tmin := v 3, d := [v 4, v 5, v 6], tmax := v 7 }
  let fl := s.flush t
  let c : Trace := { thread := t, flush := fl, mask := mask, first := mode ≠ 0, free := s.free }
  let out (h : Option RayHit) (err : Bool) (ns : List Nat) : LaneRes :=
    let s := { s with free := s.free + 1 }.trackVals t (seqWords (regNum d) (traceWords h (mode == 2) err)) none
    .done ((s.noteReads t (ns.reverse.map fun loc => (loc, 64))).addBytes t (64 * ns.length))
  afterAcquire s t <| if root.toNat % 64 ≠ 0 then .fault .align root
  else if fieldN root.toNat 52 12 ≠ 0 then .fault .access root
  else if (List.range 8).any (fun i => (val32 fl (v i)).isNan) || !le32 fl ray.tmin ray.tmax then out none false []
  else
    let w := walkRef s c 64 ray none (root.toNat, 0) ray.tmax none []
    match w.trav with
    | .on _ best => out best false w.nodes
    | .done h => out (some h) false w.nodes
    | .bad => out none true w.nodes
    | .held loc => .park (.bytes false loc 64 false false)
    | .miss va => .stay (s.parkMiss t va .read .G false)
    | .fault ca va => .fault ca (BitVec.ofNat 64 va)

/-- TRACE (R264): the traversal reads committed bytes at issue. -/
def execTrace (mode : BitVec 2) (mask : BitVec 8) (d a b : Opd) (s : State) : Out' :=
  memLanes s (traceLane mode.toNat mask.toNat d a b)

end Sys2Proof.Machine
end

