-- ==== Sys2Proof/Machine/Draw.lean ====
section
/-! DEFINITION. A draw's fixed functions: creating elements, the stall limit, the sampler, resolving samples and writing
the targets out (R241 to R248, R255, R341 to R344, R406 to R415, R467, R472). The sampler's arithmetic does not take FLUSH,
which belongs to instructions (R114). -/

namespace Sys2Proof.Machine

/-- Size and scale of a value read as a triangle cluster or a patch cluster (R353). -/
def DrawRec.isPatch (d : DrawRec) (c : Nat) : Bool := !(d.clusters.getD c (true, 0, 0, 0, 0)).1

/-- An element of a launch by rate and number. -/
def State.elemOf (s : State) (l : Nat) (r : Rate) (i : Nat) : Option (Nat × Elem) :=
  SMap.find s.elems fun _ e => e.launch == l && e.rate == r && e.idx == i

/-- The crew of a launch with an index. -/
def State.crewIdx (s : State) (l i : Nat) : Nat :=
  match SMap.find s.crews fun _ c => c.launch == l && c.idx == i with
  | some (c, _) => c
  | none => 0

/-- Ask for the creation of elements (R467). -/
def State.ask (s : State) (crew : Nat) (fromRecord : Bool) (ps : List Elem) : State :=
  match ps with
  | [] => s
  | p :: _ =>
    let (n, s) := s.take
    let core := (s.crewAt crew).core
    let c : Creation := { launch := p.launch, rate := p.rate, protos := ps.map fun q => { q with core := core, quad := n }, regs := [],
                          crew := crew, attempted := false, since := 0, turn := 0, fromRecord := fromRecord, cause := none,
                          granted := false, failed := false }
    { s with creations := SMap.put s.creations n c }

/-- An element that the draw record defines; its ancestors stand by rate and number until it is made. -/
def recordProto (l : Nat) (r : Rate) (i : Nat) (anc : List (Rate × Nat)) : Elem :=
  { Elem.zero with launch := l, rate := r, idx := i, anc := anc, own := true, pending := true }

/-- The clusters of a draw record with their objects (R353). -/
def DrawRec.withObjects (d : DrawRec) : List (Nat × Nat) :=
  (List.range d.clusters.length).map fun c => (c, d.objectOf c)

/-- First and last-but-one numbers of the record vertices: one behind the highest (R353). -/
def DrawRec.vertexEnd (d : DrawRec) : Nat := maxList (d.clusters.map fun c => if c.1 then c.2.1 + c.2.2.1 else 0)

/-- A draw begins with its placement (R241, R409): its primitives, and the creations that its record defines. -/
def State.startDraw (s : State) (l : Nat) : State :=
  let d := s.drawRec l
  let n := (s.launchAt l).lrec.ncrew
  let tri (c : Nat) : List (List Nat) :=
    let k := d.clusters.getD c (false, 0, 0, 0, 0)
    if k.1 then (List.range k.2.2.2.1).map fun p => (List.range 3).map fun v => k.2.1 + (d.indices.getD c []).getD (3 * p + v) 0 else []
  let draw0 : Draw := { inShared := [], dice := [], nextV := d.vertexEnd, nextK := 0, nextS := 0, nextY := 0, prims := [], samples := [],
                        target := [], written := false }
  let draw := d.withObjects.foldl (fun dr c => dr.addPrims c.2 c.1 0 (tri c.1)) draw0
  let s := s.modLaunch l fun x => { x with draw := some draw }
  let ask (s : State) (i : Nat) (p : Elem) : State :=
    if s.hasRate l p.rate then s.ask (s.crewIdx l (i % n)) true [p] else s
  let s := ask s 0 (recordProto l .F 0 [])
  let s := (List.range d.objects.length).foldl (fun s o => ask s o (recordProto l .O o [(.F, 0)])) s
  let s := d.withObjects.foldl (fun s c => ask s c.1 (recordProto l .C c.1 [(.F, 0), (.O, c.2)])) s
  d.withObjects.foldl (fun s c =>
    let k := d.clusters.getD c.1 (false, 0, 0, 0, 0)
    (List.range k.2.2.1).foldl (fun s v => ask s c.1 (recordProto l .V (k.2.1 + v) [(.F, 0), (.O, c.2), (.C, c.1)])) s) s

/-- Whether the ancestors of a creation exist and are frozen (R241). -/
def State.readyToMake (s : State) (c : Creation) : Bool :=
  if c.fromRecord && !c.granted then
    c.protos.all fun p => p.anc.all fun a => !s.hasRate c.launch a.1 || (match s.elemOf c.launch a.1 a.2 with
      | some (_, e) => e.frozen
      | none => false)
  else s.ancestorsFrozen c.protos

/-- The ancestors of a record creation by their elements; rates without words have none (R241). -/
def State.resolved (s : State) (c : Creation) : Creation :=
  if c.fromRecord && !c.granted then
    { c with protos := c.protos.map fun p =>
        { p with anc := p.anc.filterMap fun a => (s.elemOf c.launch a.1 a.2).map fun e => (a.1, e.1) } }
  else c

/-- Initial registers of a grid's vertex (R263). -/
def diceRegs (d : Draw) (idx : Nat) : List Word :=
  match d.dice.find? fun g => decide (g.2.2.2.2.1 ≤ idx ∧ idx < g.2.2.2.2.1 + (g.2.2.1 + 1) * (g.2.2.2.1 + 1)) with
  | none => []
  | some (_, patch, nu, nv, first, _) =>
    let k := idx - first
    let q (a b : Nat) : Word := rne32 false (FVal.div (.ofInt (Int.ofNat a)) (.ofInt (Int.ofNat b)))
    [q (k % (nu + 1)) nu, q (k / (nu + 1)) nv, BitVec.ofNat 32 patch, BitVec.ofNat 32 first]

/-- A new element of the sampler takes its samples (R412). -/
def State.claimSamples (s : State) (e : Nat) : State :=
  let x := s.elemAt e
  let rd := (s.launchAt x.launch).ext.rdesc
  let kw := (rd.map RDesc.kw).getD 1
  let kh := (rd.map RDesc.kh).getD 1
  if x.helper then s
  else
    match x.rate with
    | .K => s.modSamples x.launch (fun q => q.prim == x.prim && q.px / kw == x.px && q.py / kh == x.py)
        fun q => { q with kelem := some e }
    | .S => s.modSamples x.launch (fun q => q.prim == x.prim && q.px == x.px && q.py == x.py && q.idx == x.sample)
        fun q => { q with elem := some e, wantsS := false }
    | _ => s

/-- The gang of a quad of which some elements have been made already (R243). -/
def State.quadGang (s : State) (r : Nat) : Option Nat :=
  (SMap.find s.threads fun _ x => x.elem.any fun e =>
    let y := s.elemAt e
    y.quad == r && (y.rate == .K || y.rate == .S) && y.rate == x.rate).map fun t => t.2.home

/-- Make the first elements of a creation that has its bytes: those of a quad, or one element (R243, R366, R409).
(DEDUCED, log 98: unsafe.) -/
def State.makeFrom (s : State) (r : Nat) (c : Creation) : State :=
  let quad := c.rate == .K || c.rate == .S
  let n := if quad then c.protos.length else 1
  let now := c.protos.take n
  if (s.freeSlots c.crew).length < n then s
  else
    let rest := { c with protos := c.protos.drop n }
    let s := if rest.protos.isEmpty then { s with creations := SMap.del s.creations r }
      else { s with creations := SMap.put s.creations r rest }
    let regs := if c.rate == .V && !c.fromRecord then diceRegs (s.drawOf c.launch) (now.headD Elem.zero).idx else c.regs
    let (g, s) := match (if quad then s.quadGang (now.headD Elem.zero).quad else none) with
      | some g => (g, s)
      | none => s.formGang c.crew c.rate
    let m := s.makeElems c.crew g (s.launchAt c.launch).lrec.entry regs (if quad then (now.headD Elem.zero).qpos else 0) now
    m.2.foldl State.claimSamples m.1

/-- ELEMENT_CREATION (R241 to R243, R248, R342, R343, R467): a creation that nothing holds back is attempted, waits for its bytes
or has them, and its elements are made once a thread slot is free. A SPAWN's or a DICE's lane goes on when its creation has its bytes. -/
def execElementCreation (r : Nat) (s : State) : Out' :=
  match SMap.get? s.creations r with
  | none => .next s
  | some c =>
    if c.failed || (s.crewAt c.crew).status != .resident then .next s
    else if c.cause.isSome then
      .next (if !c.granted && s.creationFits r c then s.grant r c else s)
    else if !s.readyToMake c then .next s
    else
      let c := s.resolved c
      if c.granted then .next (s.makeFrom r c)
      else if s.heldBack r c then .next s
      else if s.creationFits r c then
        .next ((s.grant r c).makeFrom r { c with protos := s.together c, granted := true })
      else if c.attempted then .next s
      else
        let (n, s) := s.take
        .next { s with creations := SMap.modify s.creations r fun c => { c with attempted := true, since := s.now, turn := n } }

/-- The stall limit of a draw in ticks (R344).
(DESIGN CHOICE, log 77: unsafe.) -/
def DrawRec.stallLimit (d : DrawRec) : Nat := if d.stall = 0 then 100000 else d.stall

/-- STOCKPILE_STALL_LIMIT (R248, R344): the lane that caused the creation faults when it issues, or the lot aborts. -/
def execStockpileStallLimit (r : Nat) (s : State) : Out' :=
  match SMap.get? s.creations r with
  | none => .next s
  | some c =>
    if c.stalled && decide (c.since + (s.drawRec c.launch).stallLimit ≤ s.now) then
      (match c.cause with
       | some _ => .next { s with creations := SMap.put s.creations r { c with failed := true } }
       | none => .next (s.abortLot c.launch 0x01 0x2B 0 false))
    else .next s

/-- The render descriptor of a launch. -/
def State.rdesc (s : State) (l : Nat) : RDesc :=
  match (s.launchAt l).ext.rdesc with
  | some d => d
  | none => { color := 0, depth := 0, metaAt := 0, width := 0, height := 0, nsLog := 0, half := false, zfunc := 0,
              zwrite := false, blend := 0, kw := 1, kh := 1, compress := false, jitter := false, motion := false, seed := 0,
              vel := 0, lr := 0, fw := 0 }

/-- Mix (R411). -/
def mix32 (k : Word) : Word :=
  let k := k ^^^ (k >>> 16)
  let k := k * 0x7FEB352D
  let k := k ^^^ (k >>> 15)
  let k := k * 0x846CA68B
  k ^^^ (k >>> 16)

/-- Where and when a sample is taken (R411): its point in 1/256 pixels, its time and its lens coordinates. -/
structure Shot where
  x : Int
  y : Int
  tau : Word
  lu : Word
  lv : Word
  deriving DecidableEq, Repr

/-- A number of 65,536ths or 32,768ths as FP32, less a whole number. -/
def frac32 (n sh : Nat) (less : Int) : Word := rne32 false (FVal.add false (.dy n (-(Int.ofNat sh))) (.ofInt (-less)))

/-- Sample `i` of pixel (x, y) (R411). -/
def shotOf (d : RDesc) (x y i : Nat) : Shot :=
  let ns := 2 ^ d.nsLog
  if !d.jitter then
    { x := Int.ofNat (256 * x + (2 * i + 1) * 128 / ns), y := Int.ofNat (256 * y + (2 * (5 * i % ns) + 1) * 128 / ns),
      tau := 0x3F000000, lu := 0, lv := 0 }
  else
    let w (n : Nat) : Word := BitVec.ofNat 32 n
    let k : Word := w d.seed ^^^ (w x * 0x9E3779B1) ^^^ (w y * 0x85EBCA77) ^^^ (w i * 0xC2B2AE3D)
    let a := (mix32 k).toNat
    let b := (mix32 (k + 1)).toNat
    { x := Int.ofNat (256 * x + fieldN a 0 16 / 256), y := Int.ofNat (256 * y + fieldN a 16 16 / 256),
      tau := frac32 (fieldN b 0 16) 16 0, lu := frac32 (fieldN b 16 16) 15 1, lv := frac32 (fieldN a 0 16) 15 1 }

/-- A snapped vertex (R410): its point, and z ÷ w. -/
structure Snap where
  ax : Int
  ay : Int
  zw : Word
  deriving DecidableEq, Repr

/-- Snap a vertex for a sample (R410); none where it discards its triangle there (R408). -/
def snapVertex (d : RDesc) (shot : Shot) (v : Elem) : Option Snap :=
  let c (i : Nat) : Word :=
    let p := v.clip.getD i 0
    if d.motion then fadd32 false p (fmul32 false shot.tau (SMap.getD v.held (d.vel + i) 0)) else p
  let w := c 3
  let k := fmul32 false d.lr (fsub32 false w d.fw)
  let x := fadd32 false (c 0) (fmul32 false shot.lu k)
  let y := fadd32 false (c 1) (fmul32 false shot.lv k)
  let size (n : Nat) : Word := rne32 false (.ofInt (Int.ofNat n))
  let sx := fmul32 false (fadd32 false (fmul32 false (fdiv32 false x w) 0x3F000000) 0x3F000000) (size d.width)
  let sy := fmul32 false (fsub32 false 0x3F000000 (fmul32 false (fdiv32 false y w) 0x3F000000)) (size d.height)
  let bad (f : Word) : Bool := !(val32 false f).isFin
  let nan (f : Word) : Bool := (val32 false f).isNan
  let ax := rneInt ((val32 false sx).scale 8)
  let ay := rneInt ((val32 false sy).scale 8)
  if FVal.le (val32 false w) .zero || nan w || nan x || nan y || nan (c 2) || bad sx || bad sy ||
      decide (2 ^ 30 ≤ ax.natAbs) || decide (2 ^ 30 ≤ ay.natAbs) then none
  else some { ax := ax, ay := ay, zw := fdiv32 false (c 2) w }

/-- The edge function (R412). -/
def edgeFn (a b : Snap) (px py : Int) : Int := (b.ax - a.ax) * (py - a.ay) - (b.ay - a.ay) * (px - a.ax)

/-- A triangle at a point (R412): covered or not, its λ and its interpolated depth; none where it is discarded. -/
def triangleAt (v : List (Option Snap)) (px py : Int) : Option (Bool × List Word × Word) :=
  match v with
  | [some a, some b, some c] =>
    let area := edgeFn a b c.ax c.ay
    if area = 0 then none
    else
      let sg : Int := if area < 0 then -1 else 1
      let e0 := sg * edgeFn b c px py
      let e1 := sg * edgeFn c a px py
      let e2 := sg * edgeFn a b px py
      let owns (p q : Snap) : Bool := decide (sg * (q.ay - p.ay) < 0) || (decide (q.ay = p.ay) && decide (0 < sg * (q.ax - p.ax)))
      let ok (e : Int) (p q : Snap) : Bool := decide (0 < e) || (decide (e = 0) && owns p q)
      let lam := [e0, e1, e2].map fun e => rne32 false (FVal.div (.ofInt e) (.ofInt (Int.ofNat area.natAbs)))
      let z := rne32 false (FVal.sum (List.zipWith (fun l s => FVal.mul (val32 false l) (val32 false s)) lam [a.zw, b.zw, c.zw]))
      some (ok e0 b c && ok e1 c a && ok e2 a b, lam, z)
  | _ => none

/-- A triangle at a sample: its own snap (R408, R412). -/
def sampleAt (d : RDesc) (vs : List Elem) (x y i : Nat) : Option (Bool × List Word × Word) :=
  let shot := shotOf d x y i
  triangleAt (vs.map (snapVertex d shot)) shot.x shot.y

/-- The covered samples of a primitive, pixels in rows and samples in order (R412). -/
def coveredSamples (d : RDesc) (vs : List Elem) (prim : Nat) (wantsS : Bool) : List Sample :=
  (List.range d.height).flatMap fun y => (List.range d.width).flatMap fun x => (List.range (2 ^ d.nsLog)).filterMap fun i =>
    match sampleAt d vs x y i with
    | some (true, lam, z) =>
      some { prim := prim, px := x, py := y, idx := i, lam := lam, z := z, color := [0, 0, 0, 0], written := false,
             elem := none, kelem := none, wantsS := wantsS, resolved := false }
    | _ => none

/-- Three free values from one on: λ of a position for which the spec states none. -/
def freeLam (n : Nat) : List Word := (List.range 3).map fun i => Config.freeWord (n + i)

/-- λ of a K element (R408, R412): at its coarse pixel's centre, or that of its first covered sample; for a helper without one
the spec states none, and it is `free`.
(DESIGN CHOICE, log 113: safe.) -/
def coarseLam (d : RDesc) (vs : List Elem) (samples : List Sample) (free : List Word) (cx cy : Nat) : List Word :=
  let shot : Shot := { x := 0, y := 0, tau := 0, lu := 0, lv := 0 }
  match triangleAt (vs.map (snapVertex d shot)) (Int.ofNat (256 * cx * d.kw + 128 * d.kw)) (Int.ofNat (256 * cy * d.kh + 128 * d.kh)) with
  | some (_, lam, _) => lam
  | none =>
    match samples.find? fun q => q.px / d.kw == cx && q.py / d.kh == cy with
    | some q => q.lam
    | none => free

/-- The part of a K or S element that its primitive decides: ancestors, vertices and q (R30, R244). -/
def State.primProto (s : State) (l : Nat) (r : Rate) (p : Nat) (pr : Prim) (vs : List Nat) : Elem :=
  let up := [(Rate.F, 0), (Rate.O, pr.obj), (Rate.C, pr.cluster)].filterMap fun a =>
    (s.elemOf l a.1 a.2).map fun e => (a.1, e.1)
  let q (v : Nat) : Word := rne32 false (FVal.div (.ofInt 1) (val32 false ((s.elemAt v).clip.getD 3 0)))
  { Elem.zero with launch := l, rate := r, anc := up, verts := vs, qs := vs.map q, prim := p, own := true, pending := r == .K }

/-- Crew that owns the screen tile of a pixel (R409). -/
def State.tileCrew (s : State) (l x y : Nat) : Nat := s.crewIdx l ((x / 32 + 3 * (y / 32)) % (s.launchAt l).lrec.ncrew)

/-- The K quads of a primitive, by the coarse coordinates of their position 0 (R243). -/
def coarseQuads (d : RDesc) (samples : List Sample) : List (Nat × Nat) :=
  (samples.map fun q => (q.px / d.kw / 2 * 2, q.py / d.kh / 2 * 2)).eraseDups

/-- Ask for the K quads of a primitive (R243, R412). -/
def State.askCoarse (s : State) (l p : Nat) (pr : Prim) (vs : List Nat) (samples : List Sample) : State :=
  let d := s.rdesc l
  let base := s.primProto l .K p pr vs
  let elems := vs.map s.elemAt
  (coarseQuads d samples).foldl (fun s c =>
    { s with free := s.free + 12 }.ask (s.tileCrew l (c.1 * d.kw) (c.2 * d.kh)) false ((List.range 4).map fun k =>
      let cx := c.1 + k % 2
      let cy := c.2 + k / 2
      { base with px := cx, py := cy, qpos := k, lam := coarseLam d elems samples (freeLam (s.free + 3 * k)) cx cy,
                  helper := !(samples.any fun q => q.px / d.kw == cx && q.py / d.kh == cy) })) s

/-- The S quads of a primitive that still want elements, by sample index and the pixel of their position 0 (R243). -/
def fineQuads (samples : List Sample) (made : List Nat) : List (Nat × Nat × Nat) :=
  ((samples.filter fun q => q.wantsS).map fun q => (q.idx, q.px / 2 * 2, q.py / 2 * 2)).eraseDups.filter
    fun k => !made.contains ((k.2.2 * 16384 + k.2.1) * 16 + k.1)

/-- The K element of a primitive whose coarse pixel holds a pixel, a helper or not (R30, R243). -/
def State.coarseOf (s : State) (l p x y : Nat) : Option (Nat × Elem) :=
  let d := s.rdesc l
  SMap.find s.elems fun _ e => e.launch == l && e.rate == .K && e.prim == p && e.px == x / d.kw && e.py == y / d.kh

/-- Whether the K elements of the four positions of an S quad are all frozen (R241). -/
def State.coarseDone (s : State) (l p x0 y0 : Nat) (hasK : Bool) : Bool :=
  !hasK || (List.range 4).all fun n => match s.coarseOf l p (x0 + n % 2) (y0 + n / 2) with
    | some (_, e) => e.frozen
    | none => false

/-- True where a sample's K element was killed (R250). -/
def State.coarseKilled (s : State) (q : Sample) : Bool :=
  match q.kelem with
  | some e => (s.elemAt e).killed
  | none => false

/-- Ask for one S quad of a primitive (R243, R250); a quad with no position left to cover is not made. λ of a helper whose own snap
discards the triangle the spec does not state: it is free.
(DESIGN CHOICE, log 114: safe.) -/
def State.askFine (s : State) (l p : Nat) (pr : Prim) (vs : List Nat) (samples : List Sample) (k : Nat × Nat × Nat) : State :=
  let d := s.rdesc l
  let (i, x0, y0) := k
  let base := s.primProto l .S p pr vs
  let elems := vs.map s.elemAt
  let key := (y0 * 16384 + x0) * 16 + i
  let at_ (n : Nat) : Option Sample := samples.find? fun q => q.idx == i && q.px == x0 + n % 2 && q.py == y0 + n / 2
  let live (n : Nat) : Bool := match at_ n with
    | some q => !s.coarseKilled q
    | none => false
  let s := s.modDraw l fun dr => { dr with prims := SMap.modify dr.prims p fun x => { x with squads := key :: x.squads } }
  let s := s.modSamples l (fun q => q.prim == p && q.idx == i && q.px / 2 * 2 == x0 && q.py / 2 * 2 == y0 && s.coarseKilled q)
    fun q => { q with wantsS := false }
  if !((List.range 4).any live) then s
  else
    { s with free := s.free + 12 }.ask (s.tileCrew l x0 y0) false ((List.range 4).map fun n =>
      let x := x0 + n % 2
      let y := y0 + n / 2
      let kAnc := match s.coarseOf l p x y with
        | some (e, _) => [(Rate.K, e)]
        | none => []
      { base with px := x, py := y, sample := i, qpos := n, helper := !live n, anc := base.anc ++ kAnc,
                  lam := match sampleAt d elems x y i with
                    | some r => r.2.1
                    | none => freeLam (s.free + 3 * n) })

/-- The V elements of a primitive, or none while one is not made (R254). -/
def State.primVerts (s : State) (l : Nat) (pr : Prim) : Option (List Nat) :=
  pr.verts.mapM fun v => (s.elemOf l .V v).map fun e => e.1

/-- Change a primitive of a draw. -/
def State.modPrim (s : State) (l p : Nat) (f : Prim → Prim) : State :=
  s.modDraw l fun dr => { dr with prims := SMap.modify dr.prims p f }

/-- Add covered samples to a draw. -/
def State.addSamples (s : State) (l : Nat) (qs : List Sample) : State :=
  qs.foldl (fun s q => s.modDraw l fun dr => { dr with samples := SMap.put dr.samples dr.samples.length q }) s

/-- PRIMITIVE_RASTERISE (R241, R243, R254, R408 to R412): a primitive whose vertices have emitted is sampled and its K
quads asked for; its S quads are asked for as their K elements freeze; one with a vertex that exited without EMIT is
discarded. -/
def execPrimitiveRasterise (l p : Nat) (s : State) : Out' :=
  match SMap.get? (s.drawOf l).prims p with
  | none => .next s
  | some pr =>
    let finish (s : State) : Out' := .next (s.modPrim l p fun x => { x with done := true }).refresh
    if pr.done then .next s
    else if !s.hasRate l .V then finish s
    else
      match s.primVerts l pr with
      | none => .next s
      | some vs =>
        let hasK := s.hasRate l .K
        let hasS := s.hasRate l .S
        if vs.any fun v => (s.elemAt v).exited && !(s.elemAt v).emitted then finish s
        else if !(vs.all fun v => (s.elemAt v).emitted) then .next s
        else if !pr.begun then
          let qs := coveredSamples (s.rdesc l) (vs.map s.elemAt) p hasS
          let s := (s.addSamples l qs).modPrim l p fun x => { x with begun := true }
          let s := if hasK then s.askCoarse l p pr vs qs else s
          if hasS && !qs.isEmpty then .next s else finish s
        else
          let qs := (SMap.vals (s.drawOf l).samples).filter fun q => q.prim == p
          let keys := fineQuads qs pr.squads
          let now := keys.filter fun k => s.coarseDone l p k.2.1 k.2.2 hasK
          let s := now.foldl (fun s k => s.askFine l p pr vs qs k) s
          if now.length = keys.length then finish s else .next s

/-- A K or S element has ended (R247): its thread and every ray that descends from it have. -/
def State.elemEnded (s : State) (e : Nat) : Bool :=
  (s.elemAt e).exited && (SMap.vals s.elems).all fun y => !(y.rate == .Y && y.under e) || y.exited

/-- A sample's element has ended, so that the sample may be resolved (R413). -/
def State.sampleEnded (s : State) (l : Nat) (q : Sample) : Bool :=
  match q.elem with
  | some e => s.elemEnded e
  | none =>
    !q.wantsS && (match q.kelem with
      | some e => s.elemEnded e
      | none => !s.hasRate l .K)

/-- Whether primitive `a` comes before `b` (R413). -/
def Prim.before (a b : Prim) : Bool := decide (a.cluster < b.cluster) || (a.cluster == b.cluster && decide (a.idx < b.idx))

/-- Whether an earlier cluster can still make primitives: a patch cluster whose C element is not frozen (R263). -/
def State.clusterOpen (s : State) (l c : Nat) : Bool :=
  (s.drawRec l).isPatch c && s.hasRate l .C && (match s.elemOf l .C c with
    | some (_, e) => !e.frozen
    | none => true)

/-- Whether every vertex of the grid that a primitive came from has been shaded (R263). -/
def State.gridShaded (s : State) (l : Nat) (pr : Prim) : Bool :=
  (s.drawOf l).dice.all fun g =>
    let n := (g.2.2.1 + 1) * (g.2.2.2.1 + 1)
    let first := g.2.2.2.2.1
    g.1 != pr.cluster || !(pr.verts.any fun v => decide (first ≤ v ∧ v < first + n)) ||
    (List.range n).all fun i => match s.elemOf l .V (first + i) with
      | some (_, e) => e.emitted || e.exited
      | none => false

/-- Primitive order (R413): nothing that comes before this sample at its place is still to be resolved. -/
def State.sampleInOrder (s : State) (l : Nat) (q : Sample) : Bool :=
  let d := s.drawOf l
  let zero : Prim := { obj := 0, cluster := 0, idx := 0, verts := [], begun := false, done := false, squads := [] }
  let pr := SMap.getD d.prims q.prim zero
  s.gridShaded l pr && (List.range pr.cluster).all (fun c => !s.clusterOpen l c) &&
  (SMap.vals d.prims).all (fun o => !o.before pr || o.done || o.begun) &&
  (SMap.vals d.samples).all fun o =>
    o.resolved || o.px != q.px || o.py != q.py || o.idx != q.idx || !(SMap.getD d.prims o.prim zero).before pr

/-- Bytes of a colour pixel (R407). -/
def RDesc.pixel (d : RDesc) : Nat := if d.half then 8 else 4

/-- Index of a block (R407). -/
def RDesc.block (d : RDesc) (bx by_ : Nat) : Nat := by_ * ceilDiv d.width 8 + bx

/-- Pieces of at most 16 bytes that make up a range. -/
def pieces (va n : Nat) : List Nat := (List.range (ceilDiv n 16)).map fun i => va + 16 * i

/-- How reading a part of the target ends. -/
inductive TargetRead
  | ok (s : State) (bytes : List Byte)
  | waits (s : State)
  | bad (c : Cause)

/-- Read pieces of the target in the lot's view (R472). -/
def State.readTarget (s : State) (l die n : Nat) : List Nat → List Byte → TargetRead
  | [], acc => .ok s acc
  | va :: vas, acc =>
    match s.engineTr (.launch l) die (s.launchAt l).ctx va .G .read with
    | .bad c => .bad c
    | .waits s => .waits s
    | .ok s loc _ _ => State.readTarget (s.peerRead l true loc n) l die n vas (acc ++ (List.range n).map fun i => s.lotByte l (loc + i))

/-- The predecessor of pixel `i` in a block (R415). -/
def blockPred (i : Nat) : Nat := if i % 8 ≠ 0 then i - 1 else i - 8

/-- Decode a coded block (R415): the codes of its pixels, four channels each. -/
def blockDecode (e : Nat) (bytes : List Byte) : List (List Nat) :=
  let v := ofBytes bytes
  let b (c : Nat) : Nat := fieldN v (c * (e + 5) + e) 5
  let at_ (c : Nat) : Nat := 4 * (e + 5) + 63 * sumList ((List.range c).map b)
  let chan (c : Nat) : List Nat := (List.range 63).foldl (fun acc i =>
    let d := signedOf (b c) (fieldN v (at_ c + i * b c) (b c))
    acc ++ [wrapI e (Int.ofNat (acc.getD (blockPred (i + 1)) 0) + d)]) [fieldN v (c * (e + 5)) e]
  let cs := (List.range 4).map chan
  (List.range 64).map fun i => cs.map fun c => c.getD i 0

/-- Codes of an uncoded block. -/
def blockPlain (e : Nat) (bytes : List Byte) : List (List Nat) :=
  let v := ofBytes bytes
  (List.range 64).map fun i => (List.range 4).map fun c => fieldN v ((4 * i + c) * e) e

/-- A colour code as FP32 (R413). -/
def RDesc.colorOf (d : RDesc) (c : Nat) : Word :=
  if d.half then rne32 false (valueOf .f16 c) else rne32 false (FVal.div (.ofInt (Int.ofNat c)) (.ofInt 255))

/-- Key of a sample of the target. -/
def targetKey (x y i : Nat) : Nat := (y * 16384 + x) * 16 + i

/-- The states of a block's samples from its bytes (R413). -/
def RDesc.loadStates (d : RDesc) (bx by_ : Nat) (codes : List (List Nat)) (depth : List Byte) (m : SMap SampleState) : SMap SampleState :=
  let ns := 2 ^ d.nsLog
  (List.range 64).foldl (fun m p => (List.range ns).foldl (fun m i =>
    let x := 8 * bx + p % 8
    let y := 8 * by_ + p / 8
    if d.width ≤ x ∨ d.height ≤ y then m
    else
      let z := BitVec.ofNat 32 (ofBytes ((depth.drop (4 * (ns * p + i))).take 4))
      SMap.put m (targetKey x y i) { color := (codes.getD p []).map d.colorOf, depth := z, passed := false, zreplaced := false }) m) m

/-- Read a block's targets when its first sample is resolved (R413, R472): G loads, which see the stored bytes as they are,
coded or not (R415). -/
def State.loadBlock (s : State) (l die bx by_ : Nat) : TargetRead :=
  let d := s.rdesc l
  let k := d.block bx by_
  let e := if d.half then 16 else 8
  match s.readTarget l die 16 (pieces (d.color + 64 * k * d.pixel) (64 * d.pixel)) [] with
  | .ok s col =>
    (match (if d.depth = 0 then .ok s [] else s.readTarget l die 16 (pieces (d.depth + 256 * k * 2 ^ d.nsLog) (256 * 2 ^ d.nsLog)) []) with
     | .ok s dep =>
       let s := s.modDraw l fun dr => { dr with target := d.loadStates bx by_ (blockPlain e col) dep dr.target }
       .ok (s.modLaunch l fun x => { x with chargeB := x.chargeB + col.length + dep.length }) []
     | r => r)
  | r => r

/-- ZFUNC (R413). -/
def zPasses (d : RDesc) (z t : Word) : Bool :=
  let a := val32 false z
  let b := val32 false t
  d.depth == 0 || d.zfunc == 0 || (d.zfunc == 1 && FVal.lt a b) || (d.zfunc == 2 && FVal.le a b) ||
  (d.zfunc == 3 && FVal.lt b a) || (d.zfunc == 4 && FVal.le b a) || (d.zfunc == 5 && FVal.eqv a b)

/-- Blend a channel (R413). -/
def blendChannel (mode : Nat) (sv sa tv : Word) : Word :=
  let s := val32 false sv
  let t := val32 false tv
  if mode = 0 then sv
  else if mode = 1 then rne32 false (FVal.add false s (FVal.mul (FVal.add false (.ofInt 1) (val32 false sa).neg) t))
  else rne32 false (FVal.add false s t)

/-- A sample's depth test, depth write and blend (R413). -/
def SampleState.resolve (d : RDesc) (q : Sample) (t : SampleState) : SampleState :=
  if !zPasses d q.z t.depth then t
  else
    { color := List.zipWith (fun sv tv => blendChannel d.blend sv (q.color.getD 3 0) tv) q.color t.color,
      depth := if d.zwrite then q.z else t.depth, passed := true, zreplaced := t.zreplaced || d.zwrite }

/-- SAMPLE_RESOLVE (R255, R413, R472). -/
def execSampleResolve (l i : Nat) (s : State) : Out' :=
  match SMap.get? (s.drawOf l).samples i with
  | none => .next s
  | some q =>
    let d := s.rdesc l
    let key := targetKey q.px q.py q.idx
    let mark (s : State) : State :=
      s.modDraw l fun dr => { dr with samples := SMap.modify dr.samples i fun x => { x with resolved := true } }
    let go (s : State) : State := mark (s.modDraw l fun dr => { dr with target := SMap.modify dr.target key (SampleState.resolve d q) })
    if q.resolved || !s.sampleEnded l q || !s.sampleInOrder l q then .next s
    else if !q.written then .next (mark s)
    else if (SMap.get? (s.drawOf l).target key).isSome then .next (go s)
    else
      match s.loadBlock l (dieOf (s.crewAt (s.tileCrew l q.px q.py)).core) (q.px / 8) (q.py / 8) with
      | .ok s _ => .next ((go s).cut l)
      | .waits s => .next s
      | .bad c => .next ((s.dropWaits (.launch l)).abortLot l (if c = .machineCheck then 0x03 else 0x01)
          (if c = .machineCheck then 0x01 else 0x10) 0 (decide (c = .machineCheck)))

/-- Code of a pixel's channel from its samples (R414). -/
def RDesc.codeOf (d : RDesc) (ts : List Word) : Nat :=
  let v := FVal.mul (FVal.sum (ts.map (val32 false))) (.dy 1 (-(Int.ofNat d.nsLog)))
  if d.half then
    (match roundToFormat false v .f16 .rne .sat 0 with
     | some c => c
     | none => 0)
  else if v.isNan then 0
  else
    let one : FVal := .ofInt 1
    (rneInt (FVal.mul (if FVal.lt v .zero then .zero else if FVal.lt one v then one else v) (.ofInt 255))).toNat

/-- Codes of a block's pixels, zeros outside the target (R407, R414). -/
def RDesc.blockCodes (d : RDesc) (m : SMap SampleState) (bx by_ : Nat) : List (List Nat) :=
  (List.range 64).map fun p =>
    let x := 8 * bx + p % 8
    let y := 8 * by_ + p / 8
    if d.width ≤ x ∨ d.height ≤ y then [0, 0, 0, 0]
    else (List.range 4).map fun c => d.codeOf ((List.range (2 ^ d.nsLog)).map fun i =>
      match SMap.get? m (targetKey x y i) with
      | some t => t.color.getD c 0
      | none => 0)

/-- Bytes of a block's depth slot (R407). -/
def RDesc.blockDepth (d : RDesc) (m : SMap SampleState) (bx by_ : Nat) : List Byte :=
  (List.range 64).flatMap fun p => (List.range (2 ^ d.nsLog)).flatMap fun i =>
    let x := 8 * bx + p % 8
    let y := 8 * by_ + p / 8
    if d.width ≤ x ∨ d.height ≤ y then [0, 0, 0, 0]
    else match SMap.get? m (targetKey x y i) with
      | some t => bytesOf 4 t.depth.toNat
      | none => [0, 0, 0, 0]

/-- Bytes of a block stored pixel by pixel. -/
def plainBytes (e : Nat) (codes : List (List Nat)) : List Byte := codes.flatMap fun p => p.flatMap fun c => bytesOf (e / 8) c

/-- The smallest width that holds every difference (R415). -/
def diffWidth (e : Nat) (ds : List Int) : Nat :=
  ((List.range (e + 1)).find? fun b =>
    if b = 0 then ds.all (· == 0) else ds.all fun d => decide (-(2 ^ (b - 1) : Int) ≤ d) && decide (d ≤ 2 ^ (b - 1) - 1)).getD e

/-- Code a block (R415): the bytes stored and its metadata byte. -/
def blockEncode (e : Nat) (codes : List (List Nat)) : List Byte × Nat :=
  let v (c i : Nat) : Nat := (codes.getD i []).getD c 0
  let diff (c i : Nat) : Int := signedOf e (wrapI e (Int.ofNat (v c i) - Int.ofNat (v c (blockPred i))))
  let ds (c : Nat) : List Int := (List.range 63).map fun i => diff c (i + 1)
  let b (c : Nat) : Nat := diffWidth e (ds c)
  let head := (List.range 4).flatMap fun c => [(e, v c 0), (5, b c)]
  let body := (List.range 4).flatMap fun c => (ds c).map fun d => (b c, wrapI (b c) d)
  let stream := (head ++ body).foldl (fun (acc : Nat × Nat) f => (acc.1 + f.1, acc.2 + f.2 * 2 ^ acc.1)) (0, 0)
  let units := ceilDiv stream.1 128
  if units ≥ 2 * e then (plainBytes e codes, 2 * e) else (bytesOf (16 * units) stream.2, 0x80 + units)

/-- Everything that the write-out stores: addresses with their bytes (R414, R415). -/
def RDesc.writes (d : RDesc) (m : SMap SampleState) : List (Nat × List Byte) :=
  let e := if d.half then 16 else 8
  (List.range (ceilDiv d.height 8)).flatMap fun by_ => (List.range (ceilDiv d.width 8)).flatMap fun bx =>
    let k := d.block bx by_
    let keys := (List.range 64).flatMap fun p => (List.range (2 ^ d.nsLog)).map fun i => targetKey (8 * bx + p % 8) (8 * by_ + p / 8) i
    let st (f : SampleState → Bool) : Bool := keys.any fun key => match SMap.get? m key with
      | some t => f t
      | none => false
    if !st SampleState.passed then []
    else
      let codes := d.blockCodes m bx by_
      let (bytes, mt) := if d.compress then blockEncode e codes else (plainBytes e codes, 0)
      [(d.color + 64 * k * d.pixel, bytes)] ++
      (if d.compress then [(d.metaAt + k, [BitVec.ofNat 8 mt])] else []) ++
      (if d.depth ≠ 0 ∧ st SampleState.zreplaced then [(d.depth + 256 * k * 2 ^ d.nsLog, d.blockDepth m bx by_)] else [])

/-- A store cut into pieces of at most 16 bytes at 16-aligned places; its address is 16-aligned or it is one byte. -/
def cutStore (w : Nat × List Byte) : List (Nat × List Byte) :=
  (List.range (ceilDiv w.2.length 16)).map fun i => (w.1 + 16 * i, (w.2.drop (16 * i)).take 16)

/-- How the locations of a write-out are found. -/
inductive Places
  | ok (s : State) (ps : List (Nat × List Byte))
  | waits (s : State)
  | bad (c : Cause)

/-- Translate the pieces of a write-out (R472). -/
def State.placeAll (s : State) (l die : Nat) : List (Nat × List Byte) → List (Nat × List Byte) → Places
  | [], acc => .ok s acc
  | w :: ws, acc =>
    match s.engineTr (.launch l) die (s.launchAt l).ctx w.1 .G .write with
    | .bad c => .bad c
    | .waits s => .waits s
    | .ok s loc _ _ => State.placeAll s l die ws (acc ++ [(loc, w.2)])

/-- Take the shadow lines of the pieces and write them into the lot (R337, R414); none beyond the quota. -/
def State.shadowAll (s : State) (l : Nat) : List (Nat × List Byte) → Option State
  | [] => some s
  | p :: ps =>
    match s.takeLine l p.1 with
    | none => none
    | some s => State.shadowAll (s.modLaunch l fun x => { x with shadow := putShadow x.shadow p.1 p.2 }) l ps

/-- Whether nothing of a draw is left to run (R414). -/
def State.drawOver (s : State) (l : Nat) : Bool :=
  let d := s.drawOf l
  (s.launchAt l).draw.isSome && (s.launchAt l).status == .running &&
  (SMap.vals s.creations).all (fun c => c.launch != l) &&
  (s.launchCrews l).all (fun c => (s.crewAt c).status == .resident && (s.liveThreads c).isEmpty) &&
  (SMap.vals d.prims).all (fun p => p.done) && (SMap.vals d.samples).all fun q => q.resolved

/-- DRAW_WRITE_OUT (R414, R415, R472): the targets are written as G writes of the lot, and the draw and its crews end. -/
def execDrawWriteOut (l : Nat) (s : State) : Out' :=
  if !s.drawOver l then .next s
  else
    let ws := (s.rdesc l).writes (s.drawOf l).target
    let fail (st code : Nat) (re : Bool) : Out' := .next ((s.dropWaits (.launch l)).abortLot l st code 0 re)
    match s.placeAll l (dieOf (s.crewAt (s.crewIdx l 0)).core) (ws.flatMap cutStore) [] with
    | .waits s => .next s
    | .bad .access => fail 0x01 0x11 false
    | .bad .machineCheck => fail 0x03 0x01 true
    | .bad _ => fail 0x01 0x10 false
    | .ok s' ps =>
      match s'.shadowAll l ps with
      | none => fail 0x01 0x28 false
      | some s =>
        let n := sumList (ws.map fun w => w.2.length)
        let s := s.modLaunch l fun x => { x with draw := none, chargeB := x.chargeB + n }
        .next (((s.launchCrews l).foldl State.checkCrewEnd s).cut l)

end Sys2Proof.Machine
end

