-- ==== Sys2Proof/Machine/Place.lean ====
section
/-! DEFINITION. Placing crews, growing them, evicting and restoring them (R217, R329, R341, R363 to R365, R380 to R385). -/

namespace Sys2Proof.Machine

/-- A crew that is on its core: it runs there, or its save is under way. -/
def Crew.here (c : Crew) : Bool := c.status == .resident || c.status == .saving

/-- Whether an engine operation or a matrix entry of a crew is still to read or write its scratchpad (R38, R286).
(DEDUCED, log 101: safe.) -/
def State.usesRoom (s : State) (ci : Nat) : Bool :=
  (SMap.vals s.eops).any (fun o => o.crew == ci) || (SMap.vals s.pairs).any fun p => p.queue.any fun e => e.crew == ci

/-- Whether a crew still holds its scratchpad on its core: it is there, or something of it acts on its scratchpad although it has
ended there. What acts on that of a crew that was saved acts on what was saved.
(DEDUCED, log 101: safe.) -/
def State.holdsRoom (s : State) (ci : Nat) (c : Crew) : Bool :=
  c.here || (c.status == .ended && !c.away && decide (c.sSize ≠ 0) && s.usesRoom ci)

/-- Crews that hold scratchpad on a core. -/
def State.crewsOn (s : State) (core : Nat) : List (Nat × Crew) :=
  s.crews.filter fun kv => kv.2.core == core && s.holdsRoom kv.1 kv.2

/-- Crews that are on a core. -/
def State.crewsAt (s : State) (core : Nat) : List (Nat × Crew) := s.crews.filter fun kv => kv.2.core == core && kv.2.here

/-- Stockpile share of a launch on a core, in bytes (R341). -/
def Launch.share (x : Launch) : Nat := match x.ext.draw with
  | some d => 4096 * d.share
  | none => 0

/-- Shares that draws hold on a core: one for each draw with a crew there, until its last crew there has ended (R341). -/
def State.sharesOn (s : State) (core : Nat) : Nat :=
  sumList ((((s.crewsAt core).map fun kv => kv.2.launch).dedup).map fun l => (s.launchAt l).share)

/-- The lowest place for a run of `size` among taken runs, within a limit. -/
def firstFit (taken : List (Nat × Nat)) (size limit : Nat) : Option Nat :=
  let places := SMap.keys (((0 :: taken.map fun r => r.1 + r.2)).foldl (fun m p => SMap.put m p ()) [])
  places.find? fun p => decide (p + size ≤ limit) && taken.all fun r => decide (p + size ≤ r.1) || decide (r.1 + r.2 ≤ p)

/-- Register bytes of a crew, rounded up to 1 KiB (R329). -/
def Crew.regBytes (c : Crew) : Nat := alignUp (c.threads * c.nreg * 4) 1024

/-- Room for a crew on a core (R325, R329, R363): its scratchpad base and register base.
(DESIGN CHOICE, log 43: safe.) -/
def State.roomOn (s : State) (core : Nat) (c : Crew) : Option (Nat × Nat) :=
  let on := s.crewsAt core
  let all := s.crewsOn core
  let x := s.launchAt c.launch
  let more := if on.any fun kv => kv.2.launch == c.launch then 0 else x.share
  let scratch := sumList (all.map fun kv => kv.2.sSize)
  if 16 ≤ on.length || 4096 < sumList (on.map fun kv => kv.2.threads) + c.threads ||
     0x800000 < scratch + s.sharesOn core + c.sSize + more then none
  else
    match firstFit ((all.map fun kv => (kv.2.sBase, kv.2.sSize)).filter fun r => r.2 != 0) c.sSize 0x800000,
          firstFit (on.map fun kv => (kv.2.regBase, kv.2.regBytes)) c.regBytes 0x200000 with
    | some a, some b => some (a, b)
    | _, _ => none

/-- Bytes of the save area that a crew may need (R382). -/
def Crew.saveBytes (c : Crew) : Nat := c.threads * c.nreg * 4 + c.sSize + 64 * c.threads + 4096

/-- Bytes of a context's save area that its placed crews may need (R382). -/
def State.saveUsed (s : State) (ctx : Nat) : Nat :=
  sumList ((SMap.vals s.crews).map fun d =>
    if (s.launchAt d.launch).ctx = ctx && d.status != .waiting && d.status != .ended then d.saveBytes else 0)

/-- Whether a context's save area holds all the crews of a cluster too (R382). -/
def State.saveFits (s : State) (cs : List Crew) : Bool :=
  match cs with
  | [] => true
  | c :: _ =>
    let ctx := (s.launchAt c.launch).ctx
    decide (s.saveUsed ctx + sumList (cs.map Crew.saveBytes) ≤ (s.ctxAt ctx).saveSize.toNat)

/-- Cores in the order in which a single crew takes one: fewest crews first, then the lowest number (R364).
(DESIGN CHOICE, log 44: unsafe.) -/
def State.coreOrder (s : State) : List Nat :=
  SMap.vals ((List.range 128).foldl (fun m g => SMap.put m ((s.crewsAt g).length * 128 + g) g) [])

/-- The cores for the crews of one cluster, in order (R364): a single crew goes to the core with the fewest crews; a
cluster to the cores with the fewest crews of the lowest gallery with room, in ascending position.
(DESIGN CHOICE, log 44: unsafe.) -/
def State.coresFor (s : State) (cs : List Crew) : Option (List Nat) :=
  match cs with
  | [] => some []
  | [c] => (s.coreOrder.find? fun g => (s.roomOn g c).isSome).map fun g => [g]
  | c :: _ =>
    let n := cs.length
    let order := s.coreOrder
    let inGallery (y : Nat) : List Nat := order.filter fun g => g / 4 == y && (s.roomOn g c).isSome
    ((List.range 32).find? fun y => decide (n ≤ (inGallery y).length)).map fun y =>
      let cores := (inGallery y).take n
      (List.range 128).filter cores.contains

/-- Put a crew on a core: its room is taken and its lines are present (R39). -/
def State.seatCrew (s : State) (ci core : Nat) : Option State :=
  let c := s.crewAt ci
  match s.roomOn core c with
  | none => none
  | some (sb, rb) =>
    let lines := linesOf (locScratch core sb) c.sSize
    some ((s.modCrew ci fun x => { x with status := .resident, core := core, sBase := sb, regBase := rb }).setLines lines)

/-- Threads of a crew placed for the first time (R10, R366): thread t takes lane t mod 32 of gang t div 32. -/
def State.startThreads (s : State) (ci : Nat) (entry : DWord) (threads : Nat) : State :=
  (List.range (ceilDiv threads 32)).foldl (fun s k =>
    let (g, s) := s.formGang ci .N
    (List.range (min 32 (threads - 32 * k))).foldl (fun s i =>
      let (t, s) := s.addThread ci .N entry [] none
      s.seat t g (32 * k + i) i) s) s

/-- A halt that the debugger asked for takes effect before a crew's next issue (R385, R397).
(DEDUCED, log 73: unsafe.) -/
def State.haltAsked (s : State) (ci : Nat) : State :=
  let c := s.crewAt ci
  if !c.haltAsked then s
  else if !(s.ctxAt (s.launchAt c.launch).ctx).dbgAttach then s.modCrew ci fun x => { x with haltAsked := false }
  else
    let ts := (s.liveThreads ci).filter fun t => (s.thr t).gang != 0
    s.haltCrew ci (s.stopOf ci 0x02 0xFF 0 ((ts.filter fun t => (s.thr t).pc == (s.thr (ts.headD 0)).pc &&
      (s.thr t).gang == (s.thr (ts.headD 0)).gang)) 0)

/-- A crew starts on its core (R38, R366): its scratchpad reads 0 and its threads begin. The elements of a draw bring
their threads later. -/
def State.startCrew (s : State) (ci : Nat) : State :=
  let c := s.crewAt ci
  let x := s.launchAt c.launch
  let s := s.landNear c.core
  let s := { s with mem := s.mem.clear (locScratch c.core c.sBase) c.sSize }
  let s := if x.lrec.draw then s else s.startThreads ci x.lrec.entry c.threads
  let s := s.modLaunch c.launch fun y => { y with started := match y.started with
    | some n => some n
    | none => some s.commits.length }
  s.haltAsked ci

/-- Crews of a launch's cluster, in order of `%crew`. -/
def State.clusterOf (s : State) (l cl : Nat) : List Nat :=
  SMap.keys (SMap.keep s.crews fun _ c => c.launch == l && c.cluster == cl)

/-- Seat the crews of one cluster on the cores found for them. -/
def State.seatCluster (s : State) (crews : List Nat) : Option State :=
  match s.coresFor (crews.map s.crewAt) with
  | none => none
  | some cores =>
    if s.saveFits (crews.map s.crewAt) then
      (crews.zip cores).foldl (fun r cc => r.bind fun s => s.seatCrew cc.1 cc.2) (some s)
    else none

/-- Place the listed crews, cluster by cluster. -/
def State.seatClusters (s : State) : List (List Nat) → Option State
  | [] => some s
  | cl :: rest => (s.seatCluster cl).bind fun s' => State.seatClusters s' rest

/-- Crews of a launch that wait for placement. -/
def State.waitingCrews (s : State) (l : Nat) : List Nat :=
  (s.launchCrews l).filter fun c => (s.crewAt c).status == .waiting

/-- What is placed together next of a launch (R364): one cluster, or for a resident or draw launch everything. -/
def State.nextClusters (s : State) (l : Nat) : List (List Nat) :=
  let x := s.launchAt l
  let ws := s.waitingCrews l
  let cls := (ws.map fun c => (s.crewAt c).cluster).dedup
  let all := cls.map fun k => s.clusterOf l k
  if x.lrec.resid || x.lrec.draw then all else all.take 1

/-- Whether a launch may be placed: it runs, and with WAITPREV the launch before it in its queue has ended (R359). -/
def State.placeable (s : State) (l : Nat) : Bool :=
  let x := s.launchAt l
  let before := s.launches.filter fun kv => kv.2.queue == x.queue && ticketBefore kv.2.ticket x.ticket
  x.status == .running && s.running &&
  (!x.lrec.waitPrev || before.all fun kv =>
    (before.any fun y => ticketBefore kv.2.ticket y.2.ticket) || !kv.2.status.open_)

/-- Deadline class in serving order: 0 is last (R364). -/
def classKey (d : Nat) : Nat := if d = 0 then 8 else d

/-- Whether one launch is served before another (R364). -/
def Launch.before (a b : Launch) : Bool :=
  decide (b.prio < a.prio) ||
  (a.prio == b.prio && (decide (classKey a.dclass < classKey b.dclass) ||
    (a.dclass == b.dclass && decide (a.admittedAt < b.admittedAt))))

/-- Whether a launch holds a reservation in the current epoch (R365). -/
def State.reserved (s : State) (l : Nat) : Bool := (s.launchAt l).resv.any fun r => r.1 == s.now / 1024 && r.2.1 != 0

/-- Whether all the crews of an evicted cluster can come back together (R383). -/
def State.clusterEvicted (s : State) (ci : Nat) : List Nat :=
  let c := s.crewAt ci
  let cl := s.clusterOf c.launch c.cluster
  if (cl.all fun k => (s.crewAt k).status == .evicted || (s.crewAt k).status == .ended) then
    cl.filter fun k => (s.crewAt k).status == .evicted
  else []

/-- Cores to which an evicted cluster may return (R383): its own where a crew of it is pair-bound, else as a placement. -/
def State.restoreCores (s : State) (crews : List Nat) : Option (List Nat) :=
  if crews.any fun c => (s.crewAt c).pairBound then
    (if crews.all fun c => (s.roomOn (s.crewAt c).core (s.crewAt c)).isSome then some (crews.map fun c => (s.crewAt c).core)
     else none)
  else s.coresFor (crews.map s.crewAt)

/-- Whether an evicted crew could be restored now. -/
def State.restorable (s : State) (ci : Nat) : Bool :=
  let cl := s.clusterEvicted ci
  !cl.isEmpty && (s.restoreCores cl).isSome

/-- Whether nothing goes ahead of placing a launch's next crews (R364, R365): no launch served before it could be placed,
and no evicted crew of equal or higher priority could be restored. -/
def State.placeTurn (s : State) (l : Nat) : Bool :=
  let x := s.launchAt l
  s.launches.all (fun kv => kv.1 == l || !kv.2.before x || !s.placeable kv.1 || (s.waitingCrews kv.1).isEmpty ||
    (s.seatClusters (s.nextClusters kv.1)).isNone) &&
  s.crews.all fun kv => kv.2.status != .evicted || decide ((s.launchAt kv.2.launch).prio < x.prio) || !s.restorable kv.1

/-- Whether a crew has been parked in WAIT for more than 2,000 ticks (R365).
(DEDUCED, log 104: unsafe.) -/
def State.longWait (s : State) (ci : Nat) : Bool :=
  let ts := s.liveThreads ci
  !ts.isEmpty && ts.all fun t => match (s.thr t).park with
    | some (.wait t0 _ _ _ _ _) => decide (t0 + 2000 < s.now)
    | _ => false

/-- Resident crews that a test accepts and that can be victims (R365, R380): their launch holds no reservation, and no crew of
their cluster is halted. They come in the order of R380. -/
def State.candidates (s : State) (ok : Nat → Crew → Bool) : List Nat :=
  let free (c : Crew) : Bool := (s.clusterOf c.launch c.cluster).all fun k => !(s.crewAt k).halted
  let key (ci : Nat) (c : Crew) : Nat :=
    let y := s.launchAt c.launch
    ((y.prio * 2 ^ 64 + (2 ^ 64 - 1 - y.admittedAt)) * 65536 + (65535 - c.idx)) * 2 ^ 64 + ci
  SMap.vals ((s.crews.filter fun kv => kv.2.status == .resident && !s.reserved kv.2.launch && free kv.2 && ok kv.1 kv.2).foldl
    (fun m kv => SMap.put m (key kv.1 kv.2) kv.1) [])

/-- Crews that have long waited, once some evicted crew has waited 2,000 ticks for its room (R365).
(DEDUCED, log 104: unsafe.) -/
def State.givingWay (s : State) : List Nat :=
  if (SMap.vals s.crews).any fun c => c.status == .evicted && decide (c.evictedAt + 2000 ≤ s.now)
  then s.candidates fun k _ => s.longWait k else []

/-- Victims of a pre-emption for a launch, in the order of R365 and R380.
(DEDUCED, log 104: unsafe.) -/
def State.victims (s : State) (l : Nat) : List Nat :=
  let x := s.launchAt l
  let holder := s.reserved l
  let first := s.givingWay
  first ++ (s.candidates fun _ c => c.launch != l && (holder || decide ((s.launchAt c.launch).prio < x.prio))).filter
    fun k => !first.contains k

/-- A state in which the clusters of the listed crews have gone, with those whose save is under way already. -/
def State.without (s : State) (vs : List Nat) : State :=
  let gone := vs.flatMap fun v => s.clusterOf (s.crewAt v).launch (s.crewAt v).cluster
  { s with crews := SMap.mapVals (fun i c =>
      if (gone.contains i && c.status == .resident) || c.status == .saving then { c with status := .evicted } else c) s.crews }

/-- The shortest run of victims whose going makes room, if there is one (R380). -/
def firstEnough (enough : List Nat → Bool) : List Nat → List Nat → Option (List Nat)
  | acc, [] => if enough acc then some acc else none
  | acc, v :: vs => if enough acc then some acc else firstEnough enough (acc ++ [v]) vs

/-- Cores on which a save is under way (R381). -/
def State.savingCores (s : State) : List Nat := ((s.crews.filter fun kv => kv.2.status == .saving).map fun kv => kv.2.core).dedup

/-- The timers of a crew's bins stop, with what is left of them (R370). -/
def State.pauseBins (s : State) (ci : Nat) : State :=
  { s with bins := SMap.mapVals (fun _ b => if b.crew = ci then { b with left := b.timer - s.cycle } else b) s.bins }

/-- Start the eviction of the clusters of the listed crews (R380, R381, R384): on a killable queue the whole lot ends
instead. No more than 24 cores save at once. -/
def State.beginEvict (s : State) (vs : List Nat) : State :=
  vs.foldl (fun s v =>
    let c := s.crewAt v
    let cl := (s.clusterOf c.launch c.cluster).filter fun k => (s.crewAt k).status == .resident
    if cl.isEmpty then s
    else if (s.launchAt c.launch).kill then s.abortLot c.launch 0x02 0 0 true
    else if 24 < ((s.savingCores ++ cl.map fun k => (s.crewAt k).core).dedup).length then s
    else
      let before := s
      let s := cl.foldl (fun s k => (s.modCrew k fun x => { x with status := .saving }).pauseBins k) s
      ((cl.map fun k => pairOf (s.crewAt k).core).dedup).foldl (fun s p => s.pausePair before p) s) s

/-- CREW_PLACEMENT (R363 to R365): the next crews of the crew's launch are placed, or take room by pre-emption, or wait. A draw that
is replayed first reads its tables anew (R464); the spec does not say what becomes of it where they are not valid any more: its lot
ends with STATUS 0x07.
(DESIGN CHOICE, log 116: unsafe.) -/
def execCrewPlacement (ci : Nat) (s : State) : Out' :=
  let l := (s.crewAt ci).launch
  let units := s.nextClusters l
  let mine := units.flatMap id
  if !mine.contains ci || !s.placeable l || !s.placeTurn l then .next s
  else
    match s.rdAgain l with
    | .waits s => .next s
    | .bad c => .next ((s.dropWaits (.launch l)).abortLot l 0x07 c 0 false)
    | .ok s _ =>
      match s.seatClusters units with
      | some s' =>
        let s := mine.foldl State.startCrew s'
        .next (if (s.launchAt l).lrec.draw then s.startDraw l else s)
      | none =>
        match firstEnough (fun vs => ((s.without vs).seatClusters units).isSome) [] (s.victims l) with
        | some vs => .next (s.beginEvict vs)
        | none => .next s

/-- The image of a crew goes to its context's save area (R381, R382), at the lowest place free of other images; what each
of its bytes holds is left open.
(DESIGN CHOICE, log 37: unsafe.) -/
def State.writeImage (s : State) (ci : Nat) : State :=
  let c := s.crewAt ci
  let ctx := (s.launchAt c.launch).ctx
  let k := s.ctxAt ctx
  let others := (SMap.vals s.crews).filterMap fun d =>
    if d.status = .evicted && (s.launchAt d.launch).ctx = ctx then some (d.saveAt, d.saveBytes) else none
  let place := (firstFit others c.saveBytes k.saveSize.toNat).getD 0
  let n := min c.saveBytes (min (k.saveSize.toNat - place) (hbmSize - (k.saveBase.toNat + place)))
  let bytes := (List.range n).map fun i => Config.saveByte s.free i
  { s with mem := s.mem.writeN (k.saveBase.toNat + place) bytes, free := s.free + 1 }.modCrew ci fun x => { x with saveAt := place }

/-- Whether an operation has still to deliver into a crew's scratchpad (R275): into lines of its own crew's, or through W space. -/
def State.delivering (s : State) (ci : Nat) (o : EOp) : Bool :=
  let c := s.crewAt ci
  (o.crew == ci && !(s.openLines o).isEmpty) ||
  (match o.kind with
   | .hcopy _ _ .W dst len => !o.undelivered.isEmpty && overlap (wLoc dst) len (locScratch c.core c.sBase) c.sSize
   | _ => false)

/-- EVICTION_SAVE_COMPLETE (R303, R381, R382): deliveries into the crew's scratchpad come first, and what its threads have sent is
performed; the crew's image is then complete and its room returns.
(DESIGN CHOICE, log 37: unsafe.) -/
def execEvictionSaveComplete (ci : Nat) (s : State) : Out' :=
  let c := s.crewAt ci
  let draining := (SMap.vals s.eops).any (s.delivering ci)
  if c.status != .saving || draining then .next s
  else
    let mine (t : Nat) : Bool := (s.thr t).crew == ci
    let s := (s.drain fun t _ => mine t).landNear c.core
    if (SMap.vals s.stores).any (fun x => mine x.thread) || (SMap.vals s.rmws).any (fun x => mine x.thread) then .next s
    else
      let lo := locScratch c.core c.sBase
      let s := ((s.crewThreads ci).foldl State.settleAll s).writeImage ci
      let s := s.modCrew ci fun x => { x with status := .evicted, away := true, saved := s.mem.readN lo c.sSize, evictedAt := s.now }
      .next (s.setLines (linesOf lo c.sSize))

/-- A lane held at its word by something of its old core issues the word again (R383). -/
def Thread.afterRestore (x : Thread) : Thread :=
  match x.park with
  | some (.retry (.chutePut _ _ _)) | some (.retry (.chuteGet _ _ _)) | some (.retry (.creation _))
  | some (.retry (.quad _)) => x
  | some (.retry _) => { x with park := none }
  | _ => x

/-- The storage of a crew's elements moves with it (R342): the elements of its threads, the copies that only they read, and its
creations, from one core to another. -/
def State.moveElems (s : State) (ci old new : Nat) : State :=
  let mine := (s.crewThreads ci).filterMap fun t => (s.thr t).elem
  let s := { s with
    elems := SMap.mapVals (fun e (x : Elem) => if mine.contains e then { x with core := new } else x) s.elems,
    creations := SMap.mapVals (fun _ (c : Creation) =>
      if c.crew = ci then { c with protos := c.protos.map fun (p : Elem) => { p with core := new } } else c) s.creations }
  let here (x : Elem) (k : Nat) : Bool := x.readers.any fun r => (s.elemAt r).core == k
  { s with elems := SMap.mapVals (fun _ (x : Elem) =>
      let rates := (x.readers.filter mine.contains).map fun r => (s.elemAt r).rate
      let kept := x.copies.filter fun (c : Nat × Rate) => c.1 != old || here x old
      { x with copies := if rates.isEmpty || x.core == new || kept.any (fun (c : Nat × Rate) => c.1 == new) then kept
          else (new, rates.headD .F) :: kept }) s.elems }

/-- A crew is back on a core (R39, R370, R383): its scratchpad holds what was saved, the buffers of receives still posted
stay absent, and its timers run on.
(DESIGN CHOICE, log 37: unsafe.) -/
def State.reviveCrew (s : State) (ci old : Nat) : State :=
  let c := s.crewAt ci
  let lo := locScratch c.core c.sBase
  let s := s.landNear c.core
  let bufs := c.posted.flatMap fun p => linesOf (lo + p.off) p.len
  let s := { s with mem := s.mem.writeN lo c.saved, absent := bufs ++ s.absent,
                    bins := SMap.mapVals (fun _ b =>
                      if b.crew = ci then { b with timer := s.cycle + b.left, core := c.core } else b) s.bins,
                    threads := SMap.mapVals (fun _ x => if x.crew = ci then x.afterRestore else x) s.threads,
                    gangs := SMap.mapVals (fun _ g =>
                      if g.crew = ci then { g with ready := s.cycle, lastIssue := s.cycle } else g) s.gangs }
  ((s.moveElems ci old c.core).modCrew ci fun x => { x with saved := [], away := false }).haltAsked ci

/-- Whether an older evicted crew could be restored first (R365). -/
def State.olderEvicted (s : State) (ci : Nat) : Bool :=
  s.crews.any fun kv => kv.2.status == .evicted && decide (kv.2.evictedAt < (s.crewAt ci).evictedAt) && s.restorable kv.1

/-- CREW_RESTORE (R383): the oldest evicted crew that fits comes back with its cluster.
(DESIGN CHOICE, log 95: unsafe.) -/
def execCrewRestore (ci : Nat) (s : State) : Out' :=
  let cl := s.clusterEvicted ci
  if !s.running || !cl.contains ci || s.olderEvicted ci then .next s
  else
    match s.restoreCores cl with
    | none => .next s
    | some cores =>
      match (cl.zip cores).foldl (fun r cc => r.bind fun s => s.seatCrew cc.1 cc.2) (some s) with
      | some s' => .next (cl.foldl (fun t k => t.reviveCrew k (s.crewAt k).core) s')
      | none => .next s

/-- RESTORE_WAIT_TIMEOUT (R365): for a crew evicted for 2,000 ticks, crews that have long waited give way, ahead of those that
its launch may evict. -/
def execRestoreWaitTimeout (ci : Nat) (s : State) : Out' :=
  let c := s.crewAt ci
  if c.status != .evicted || s.now < c.evictedAt + 2000 then .next s
  else
    match firstEnough (fun vs => (s.without vs).restorable ci) [] (s.victims c.launch) with
    | some vs => .next (s.beginEvict vs)
    | none => .next s

/-- Room for a crew's registers at a larger count: their base, which may move (R217). -/
def State.growRoom (s : State) (ci n : Nat) : Option Nat :=
  let c := s.crewAt ci
  let others := (s.crewsAt c.core).filter fun kv => kv.1 != ci
  firstFit (others.map fun kv => (kv.2.regBase, kv.2.regBytes)) (Crew.regBytes { c with nreg := n }) 0x200000

/-- Whether every gang of a core's resident crews is held in GROW (R217); a thread that waits in a bin is in none. -/
def State.allGrow (s : State) (core : Nat) : Bool :=
  s.crews.all fun kv => kv.2.core != core || kv.2.status != .resident || (s.liveThreads kv.1).all fun t =>
    (s.thr t).gang == 0 || match s.collectiveOf t with
    | some (true, _) => true
    | _ => false

/-- GROW_GRANT (R217): the oldest request of the core gets its registers; a core on which every gang waits for them
evicts its youngest crews. The park of a halted crew stays, and holds no other crew's (R397). -/
def execGrowGrant (ci : Nat) (s : State) : Out' :=
  let c := s.crewAt ci
  match c.growWant with
  | none => .next s
  | some (n, age) =>
    let older := s.crews.any fun kv => kv.1 != ci && kv.2.core == c.core && kv.2.status == .resident && !kv.2.halted &&
      (match kv.2.growWant with
       | some (_, a) => decide (a < age)
       | none => false)
    if c.status != .resident || c.halted || older then .next s
    else
      match s.growRoom ci n with
      | some base => .next (((s.landNear c.core).modCrew ci fun x => { x with regBase := base }).setRegs ci n)
      | none =>
        if !s.allGrow c.core then .next s
        else
          let vs := (SMap.keys (s.crews.filter fun kv =>
            kv.1 != ci && kv.2.core == c.core && kv.2.status == .resident &&
            (s.clusterOf kv.2.launch kv.2.cluster).all fun k => !(s.crewAt k).halted)).reverse
          match firstEnough (fun vs => ((s.without vs).growRoom ci n).isSome) [] vs with
          | some vs => .next (s.beginEvict vs)
          | none => .next s

end Sys2Proof.Machine
end

