-- ==== Sys2Proof/Machine/Commit.lean ====
section
/-! DEFINITION. The end of lots: cuts at a deadline (R361), the commit with its conflicts and deferred words (R283, R284),
and the dresser (R339). -/

namespace Sys2Proof.Machine

/-- DEADLINE_CUT (R361): a deadline launch 1,024 ticks before its deadline if it is not ready to commit then, another at its
deadline if it has not ended.
(DEDUCED, log 45: unsafe.) -/
def execDeadlineCut (l : Nat) (s : State) : Out' :=
  if (s.launchAt l).overdue s.now then .next (s.abortLot l 0x05 0 0 false) else .next s

/-- Whether a strict lot wrote a byte that a lot committed since its start also wrote (R284). -/
def State.conflict (s : State) (l : Nat) : Bool :=
  let x := s.launchAt l
  !x.lrec.layered && (SMap.vals s.launches).any fun m =>
    m.status == .committed && decide (x.started.getD 0 < m.committedAt) &&
    x.shadow.any fun kv => (SMap.get? m.shadow kv.1).isSome

/-- Write a lot's bytes into committed state (R283, R314). -/
def Memory.fold (m : Memory) : List (Nat × Byte) → Memory
  | [] => m
  | (loc, b) :: rest => Memory.fold (m.write loc b) rest

/-- Bytes of consecutive locations, as runs with their first location. -/
def runsOf (bs : List (Nat × Byte)) : List (Nat × List Byte) :=
  bs.foldr (fun b rs => match rs with
    | (a, ds) :: more => if a = b.1 + 1 then (b.1, b.2 :: ds) :: more else (b.1, [b.2]) :: rs
    | [] => [(b.1, [b.2])]) []

/-- A lot's bytes leave its shadow at the commit (R283, R314): a retired line that they cover is remapped first (R452), and those of
a peer's memory go out on its port (R426).
(DEDUCED, log 36: unsafe.) -/
def State.commitBytes (s : State) (l : Nat) : State :=
  let x := s.launchAt l
  let full (ln : Nat) : Bool := decide (128 * ln < hbmSize) && (List.range 128).all fun i => (SMap.get? x.shadow (128 * ln + i)).isSome
  let s := (x.lines.filter full).foldl State.remapLine s
  let s := { s with mem := s.mem.fold x.shadow }
  (runsOf (x.shadow.filter fun b => (peerOf b.1).isSome)).foldl (fun s r => s.peerSend l r.1 fun a => .write a r.2) s

/-- A flip whose lot has committed: it supersedes committed flips of its output whose time is not earlier (R299).
(DEDUCED, log 102: unsafe.) -/
def State.commitFlip (s : State) (n : Nat) : State :=
  match SMap.get? s.eops n with
  | none => s
  | some o =>
    let older (p : EOp) : Bool := match o.kind, p.kind with
      | .dflip _ _ t k, .dflip _ _ t' k' => k == k' && p.committedAt.isSome && p.outcome.isNone && decide (t.toNat ≤ t'.toNat)
      | _, _ => false
    let gone := SMap.keys (s.eops.filter fun kv => kv.1 != n && older kv.2)
    (gone.foldl (fun s k => s.finishEop k 0x0F 0) s).modEop n fun x => { x with committedAt := some s.ptime }

/-- The flips among a lot's deferred words, in the order of issue. -/
def flipsOf (ds : List Deferred) : List Nat :=
  ds.filterMap fun d => match d with
    | .flip o => some o
    | _ => none

/-- Perform the deferred SIGNAL and LAUNCH words of a committed lot in order (R283, R218, R219): a SIGNAL whose page misses holds
those after it. A flip has its effect at the commit itself, from which its times count (R299). What becomes of a SIGNAL whose page
is by then unmapped, refused or read-only the spec leaves open: it is dropped with its interrupt, and those after it go on.
(DEDUCED, log 102: unsafe.)
(DESIGN CHOICE, log 109: unsafe.) -/
def State.performDeferred (l : Nat) : State → List Deferred → State
  | s, [] => s.modLaunch l fun x => { x with deferred := [] }
  | s, .signal a v irq :: rest =>
    (match s.devWriteFor l (.launch l) 0 (s.launchAt l).ctx a.toNat (bytesOf 4 v.toNat) with
     | .done s => State.performDeferred l (match irq with
         | some i => s.raise i
         | none => s) rest
     | .waits s => s.modLaunch l fun x => { x with deferred := .signal a v irq :: rest }
     | .bad _ => State.performDeferred l (s.dropWaits (.launch l)) rest)
  | s, .launch _ _ :: rest => State.performDeferred l s rest
  | s, .flip _ :: rest => State.performDeferred l s rest

/-- Whether a lot is first at the sequencer (R283). -/
def State.firstAtSequencer (s : State) (l : Nat) : Bool :=
  match (s.launchAt l).arrival with
  | none => false
  | some n => (SMap.vals s.launches).all fun x => x.status != .ready || (match x.arrival with
      | some m => decide (n ≤ m)
      | none => true)

/-- The commit (R283): one flip of the lot's status: its bytes are committed state, its entry is written, and its deferred words are
performed. Its reservations stay in the calendar: only a cut returns them (R361).
(DEDUCED, log 102: unsafe.) -/
def State.commitLot (s : State) (l : Nat) : State :=
  let x := s.launchAt l
  let s := s.commitBytes l
  let s := { s with commits := s.commits ++ [l] }
  let n := s.commits.length
  let s := s.modLaunch l fun y => { y with status := .committed, committedAt := n, reserved := 0, draw := none }
  let s := (flipsOf x.deferred).foldl State.commitFlip (s.remember x 0)
  let s := (s.postEntry x.queue (s.lotEntry x 0 0 0)).arriveAll
  State.performDeferred l s x.deferred

/-- LOT_COMMIT (R283, R284): the first lot at the sequencer aborts for a conflict, or commits once reads of its bytes that later ones
have overtaken are performed (R315); a committed lot goes on with
deferred words that waited for a page. A lot that has passed its deadline does not commit: it is cut (R361). -/
def execLotCommit (l : Nat) (s : State) : Out' :=
  let x := s.launchAt l
  if s.dev.dstate ≠ .ready then .next s
  else if x.status = .committed then .next (State.performDeferred l s x.deferred)
  else if x.status ≠ .ready || x.overdue s.now || !s.firstAtSequencer l then .next s
  else if s.conflict l then .next (s.abortLot l 0x06 0 0 true)
  else
    let s := s.landOvertaken l
    .next (if (s.launchAt l).status = .ready then s.commitLot l else s)

/-- Whether lots that committed before a lot have all been folded in the slice of a line (R339). -/
def State.sliceTurn (s : State) (l line : Nat) : Bool :=
  let x := s.launchAt l
  (SMap.vals s.launches).all fun y => y.status != .committed || decide (x.committedAt ≤ y.committedAt) ||
    y.lines.all fun ln => sliceOf (128 * ln) != sliceOf (128 * line)

/-- DRESSER_FOLD (R339): a shadow line of a committed lot is folded into its home, in its slice after those of lots that
committed before; no value changes, and its page returns with its last line. -/
def execDresserFold (l line : Nat) (s : State) : Out' :=
  let x := s.launchAt l
  if x.status ≠ .committed || !x.lines.contains line || !s.sliceTurn l line then .next s
  else
    let rest := x.lines.filter (· ≠ line)
    .next (s.modLaunch l fun y => { y with lines := rest })

end Sys2Proof.Machine
end

