-- ==== Sys2Proof/Machine/Watch.lean ====
section
/-! DEFINITION. What the scheduler watches: starvation, launches that are behind, congestion, the watchdog and residency
batches (R368, R369, R372 to R375), and fetches that miss translation (R101). -/

namespace Sys2Proof.Machine

/-- Whether a crew's gangs may issue at all: it is on a core, not halted, not stopped by congestion unless its launch is
behind, and its context runs (R368, R373, R374, R397). -/
def State.crewRuns (s : State) (ci : Nat) : Bool :=
  let c := s.crewAt ci
  let x := s.launchAt c.launch
  s.running && c.status == .resident && x.status == .running && (!c.congested || x.behind) && !(s.ctxAt x.ctx).stopped

/-- Whether a gang's crew may issue: a halted crew issues only the word of a step (R397, R400). -/
def State.gangRuns (s : State) (g : Nat) : Bool :=
  let ci := (s.gangAt g).crew
  let c := s.crewAt ci
  s.crewRuns ci && (!c.halted || (match c.stepping with
    | some (k, _) => k == g
    | none => false))

/-- Lanes of a gang that may issue (R21). Where every lane that is not parked has yielded, the gang issues among them
(R135); the issue clears their marks. -/
def State.eligibleLanes (s : State) (g : Nat) : List Nat :=
  let free := (s.gangThreads g).filter s.unparked
  let es := free.filter s.eligible
  if es.isEmpty then free else es

/-- A ready gang (R368). -/
def State.gangReady (s : State) (g : Nat) : Bool :=
  decide ((s.gangAt g).ready ≤ s.cycle) && s.gangRuns g && !(s.eligibleLanes g).isEmpty

/-- STARVATION_PROMOTION (R369): it issues next on its pipe.
(DEDUCED, log 79: safe.) -/
def execStarvationPromotion (g : Nat) (s : State) : Out' :=
  .next (if s.gangReady g && decide ((s.gangAt g).lastIssue + 4096 ≤ s.cycle) then s.modGang g fun x => { x with promoted := true }
    else s)

/-- Whether a launch's charge is less than its reservations up to now (R368). -/
def State.isBehind (s : State) (x : Launch) : Bool :=
  let k := s.now / 1024
  let past := sumList (x.resv.map fun r => if r.1 < k then r.2.1 else 0)
  let cur := sumList (x.resv.map fun r => if r.1 = k then r.2.1 else 0)
  decide (x.charge * 1024 < 16 * (past * 1024 + cur * (s.now % 1024)))

/-- Every launch is tested for being behind (R368). -/
def State.testBehind (s : State) : State :=
  { s with launches := SMap.mapVals (fun _ x => { x with behind := x.status == .running && s.isBehind x }) s.launches }

/-- BEHIND_TEST (R368). -/
def execBehindTest (s : State) : Out' := .next s.testBehind

/-- A memory-bound crew (R373). -/
def Crew.memoryBound (c : Crew) : Bool := c.words != 0 && decide (c.words ≤ 4 * c.reqs)

/-- Order of crews for congestion: served first, first (R368). -/
def State.crewKey (s : State) (ci : Nat) : Nat :=
  let c := s.crewAt ci
  let x := s.launchAt c.launch
  ((((7 - x.prio) * 16 + classKey x.dclass) * 2 ^ 64 + x.admittedAt) * 65536 + c.idx) * 2 ^ 64 + ci

/-- Crews of a die that congestion stops when `limit` memory-bound ones may issue (R373): the last in serving order, but the first
of each core goes on, and so does each of a launch that is behind.
(DESIGN CHOICE, log 71: safe.) -/
def State.stoppedCrews (s : State) (die limit : Nat) : List Nat :=
  let bound := SMap.vals ((s.crews.filter fun kv => kv.2.status == .resident && dieOf kv.2.core == die && kv.2.memoryBound).foldl
    (fun m kv => SMap.put m (s.crewKey kv.1) kv.1) [])
  let leads (c : Nat) : Bool := (bound.find? fun d => (s.crewAt d).core == (s.crewAt c).core) == some c
  let goesOn (c : Nat) : Bool := (s.launchAt (s.crewAt c).launch).behind || leads c
  (bound.filter fun c => !goesOn c).drop (limit - (bound.filter goesOn).length)

/-- The sample of one die (R373): the number of memory-bound crews that may issue falls by a quarter of those that do, or rises by
a quarter of what it is, or stays. How many of its replies were marked is not modelled, and a free value stands for it.
(DESIGN CHOICE, log 71: safe.) -/
def State.sampleDie (s : State) (die : Nat) : State :=
  let (w, s) := s.freeWord
  let n := (s.crews.filter fun kv => kv.2.status == .resident && dieOf kv.2.core == die && kv.2.memoryBound).length
  let limit := s.dev.memCrews.getD die 512
  let cur := min n limit
  let next := if w.toNat % 3 = 0 then max 32 (cur - cur / 4) else if w.toNat % 3 = 1 then min 512 (limit + limit / 4) else limit
  let s := s.modDev fun d => { d with memCrews := d.memCrews.set die next }
  let stop := s.stoppedCrews die next
  { s with crews := SMap.mapVals (fun i c => if dieOf c.core = die then { c with congested := stop.contains i, words := 0, reqs := 0 } else c) s.crews }

/-- The sample of every die (R373). -/
def State.sampleDies (s : State) : State := (List.range 4).foldl State.sampleDie s

/-- CONGESTION_SAMPLE (R373). -/
def execCongestionSample (s : State) : Out' := .next s.sampleDies

/-- Whether a thread is parked in a WAIT on a D-space word. -/
def State.waitsOnWord (s : State) (t : Nat) : Bool :=
  match (s.thr t).park with
  | some (.wait _ _ _ conds _ _) => conds.any fun c => c.kind == 0
  | _ => false

/-- A launch that waits on a D-space word (R359, R374): all its live threads do.
(DEDUCED, log 81: unsafe.) -/
def State.launchWaits (s : State) (l : Nat) : Bool := (s.launchCrews l).all fun c => (s.liveThreads c).all s.waitsOnWord

/-- Whether an engine operation is an HCOLL. -/
def EOp.isColl (o : EOp) : Bool :=
  match o.kind with
  | .hcoll _ _ _ _ _ _ _ _ _ _ _ => true
  | _ => false

/-- Whether a thread's condition waits for an HCOLL on its way (R292, R374): for its status register, its completion word, a
destination line of its own crew's, or its chute token.
(DEDUCED, log 81: unsafe.) -/
def State.condOnColl (s : State) (t : Nat) (c : WCond) (o : EOp) : Bool :=
  match c.kind with
  | 0 => o.word == some c.addr && o.ctx == s.ctxIdOf t
  | 2 | 3 => (s.openLines o).contains (lineOf (locScratch (s.coreOf t) ((s.crewOf t).sBase + c.addr.toNat)))
  | 4 => o.thread == t && (o.result.bind (SMap.get? s.results)).any fun x => x.regs.contains (.v (fieldN c.addr.toNat 0 8))
  | 5 => o.chute.isSome && o.chute == s.chuteFor t (BitVec.ofNat 6 c.addr.toNat)
  | _ => false

/-- Whether what holds a thread at its word is an HCOLL on its way (R292, R374). -/
def State.heldByColl (s : State) (t : Nat) (b : Block) (o : EOp) : Bool :=
  match b with
  | .results rs => o.thread == t && (o.result.bind (SMap.get? s.results)).any fun x => rs.any x.regs.contains
  | .chuteGet c k _ => o.chute == some (c, k)
  | .lines ls => ls.any (s.openLines o).contains
  | _ => false

/-- Threads that wait on an external source (R374): a WAIT with EXT or a finite timeout, SLEEP, an HCOLL member, or a D-space
word that the whole launch waits on.
(DEDUCED, log 81: unsafe.) -/
def State.waitsOutside (s : State) (t : Nat) : Bool :=
  let colls := (SMap.vals s.eops).filter EOp.isColl
  match (s.thr t).park with
  | some (.sleep _) => true
  | some (.wait _ limit _ conds _ _) => limit != 0xFFFFFFFF || s.launchWaits (s.launchIdOf t) ||
      conds.any fun c => c.ext || colls.any (s.condOnColl t c)
  | some (.retry b) => colls.any (s.heldByColl t b)
  | _ => false

/-- Live threads of a context that wait: parked, pending in a bin, or of a crew that is on no core.
(DEDUCED, log 81: unsafe.) -/
def State.ctxThreads (s : State) (ctx : Nat) : List Nat :=
  SMap.keys (s.threads.filter fun kv => kv.2.live && (s.launchAt (s.crewAt kv.2.crew).launch).ctx == ctx &&
    (kv.2.gang == 0 || !s.unparked kv.1 || (s.crewAt kv.2.crew).status != .resident))

/-- Whether a crew of a context is halted. -/
def State.ctxHalted (s : State) (ctx : Nat) : Bool :=
  s.crews.any fun kv => kv.2.halted && kv.2.status != .ended && (s.launchAt kv.2.launch).ctx == ctx

/-- Ticks pass: they do not count for the watchdog of a context that has a halted crew (R393). -/
def State.dogTicks (s : State) (ticks : Nat) : State :=
  { s with ctxs := SMap.mapVals (fun i c => if s.ctxHalted i then { c with progress := c.progress + ticks } else c) s.ctxs }

/-- WATCHDOG_FIRE (R374, R393): issue stops for the context, and its error vector is raised. -/
def execWatchdogFire (ctx : Nat) (s : State) : Out' :=
  let c := s.ctxAt ctx
  let ts := s.ctxThreads ctx
  if c.exists_ && !c.stopped && !s.ctxHalted ctx && decide (c.progress + c.wdog.toNat ≤ s.now) && !(ts.all s.waitsOutside) then
    .next (((s.modCtx ctx fun x => { x with stopped := true }).count 9).raiseCtx ctx false)
  else .next s

/-- CONTEXT_RESUME (R374). -/
def execContextResume (ctx : Nat) (s : State) : Out' :=
  .next (if (s.ctxAt ctx).stopped then s.modCtx ctx fun x => { x with stopped := false, progress := s.now } else s)

/-- RESIDENCY_BATCH_TIMEOUT (R375): a batch is sent 2,000 ticks after its first entry. -/
def execResidencyBatchTimeout (die : Nat) (s : State) : Out' :=
  match s.batches.find? fun b => b.die == die && !b.sent with
  | some b =>
    if b.first + 2000 ≤ s.now then
      let s := { s with batches := modBatch s.batches die b.num fun x => { x with sent := true } }
      .next (s.writeBatches die s.batches)
    else .next s
  | none => .next s

/-- The issue address of a gang with its active lanes (R21), before ELECT. -/
def State.issueAt (s : State) (g : Nat) : Option (DWord × List Nat) :=
  match s.eligibleLanes g with
  | [] => none
  | t :: ts =>
    let a := ts.foldl (fun a u => if (s.thr u).pc < a then (s.thr u).pc else a) (s.thr t).pc
    some (a, (t :: ts).filter fun u => (s.thr u).pc == a)

/-- The address of a fetch that the host has refused to a lane (R392): of the word at `a`, or of its second half.
(DEDUCED, log 100: safe.) -/
def State.fetchRefused (s : State) (t : Nat) (a : DWord) : Option DWord :=
  if s.pageRefused t a.toNat then some a else if s.pageRefused t (a + 16).toNat then some (a + 16) else none

/-- The lanes whose fetch the host has refused fault XLATE (R377, R392).
(DEDUCED, log 100: safe.) -/
def State.takeRefused (s : State) (g : Nat) (a : DWord) (lanes : List Nat) : State :=
  s.takeFault g 0xFF 0 (lanes.filterMap fun t => (s.fetchRefused t a).map fun ea => (t, .xlate, ea))

/-- A fetch that does not translate (R101, R377): its lanes park on the miss, or fault with the fetch address. -/
def State.fetchFault (s : State) (g : Nat) (a : DWord) (lanes : List Nat) : State :=
  match lanes with
  | [] => s
  | t :: _ =>
    let faults (c : Cause) : State := s.takeFault g 0xFF 0 (lanes.map fun u => (u, c, a))
    match s.fetchAt (s.coreOf t) (s.ctxIdOf t) a with
    | .ok _ _ _ _ _ => s
    | .bad c => faults c
    | .miss => lanes.foldl (fun s u => s.parkMiss u a.toNat .fetch .code true) s

/-- FETCH_TRANSLATION_FAULT (R101, R392). -/
def execFetchTranslationFault (g : Nat) (s : State) : Out' :=
  match s.issueAt g with
  | some (a, lanes) =>
    .next (if !s.gangReady g then s
      else if lanes.any fun t => (s.fetchRefused t a).isSome then s.takeRefused g a lanes
      else s.fetchFault g a lanes)
  | none => .next s

end Sys2Proof.Machine
end

