-- ==== Sys2Proof/Machine/Host.lean ====
section
/-! DEFINITION. What the host writes to the registers of queues, contexts, fault rings and the debugger, where the write has a
behaviour of its own (R346 to R350, R390 to R400). -/

namespace Sys2Proof.Machine

/-- Whether the device ignores writes to queue registers and answers nothing of HBM (R446). -/
def State.deaf (s : State) : Bool := s.dev.dstate == .sounding || s.dev.dstate == .safe

/-- Write QDOOR (R346, R348). -/
def State.writeDoor (s : State) (q : Nat) (v : Word) : State :=
  if s.deaf || 1024 ≤ q then s else s.modQueue q fun x => { x with door := v }

/-- QDOOR (R348): the count of records written. -/
def execQdoor (q : Nat) (v : Word) (s : State) : Out' := .next (s.writeDoor q v)

/-- The configuration fields of QCFG other than EN (R347). -/
def Queue.config (x : Queue) (v : Nat) : Queue :=
  { x with kill := testN v 30, prio := fieldN v 27 3, dclass := fieldN v 24 3, replay := fieldN v 20 4, sublog := fieldN v 16 4,
           cpllog := fieldN v 12 4 }

/-- Whether a queue's rings may be enabled (R347). -/
def Queue.ringsOk (x : Queue) : Bool :=
  decide (4 ≤ x.sublog) && decide (4 ≤ x.cpllog) && x.sub.toNat % 64 == 0 && x.cpl.toNat % 32 == 0

/-- What R362 asks of a fallback record beside R354. -/
def Rec.fallbackOk (r : Rec) : Bool := r.grades.isEmpty && decide (r.lrec.boundc.toNat ≤ min r.lrec.ncrew 128 * 24576)

/-- Read a queue's fallback record (R347, R351, R362): none where it is not 64-aligned, cannot be read or is invalid.
(DEDUCED, log 42: safe.) -/
def State.readFallback (s : State) (q : Nat) : Option (State × LRec × ExtRec) :=
  let x := s.queueAt q
  let s' := s.modQueue q fun y => { y with lastDeadline := none }
  if x.fall.toNat % 64 ≠ 0 then none
  else match (s'.rdAt (.queue q) x.ctx .D x.fall.toNat 64).next fun s b => s.rdRecord q b with
  | .ok s r => if r.fallbackOk then some (s.modQueue q fun y => { y with lastDeadline := x.lastDeadline }, r.lrec, r.ext) else none
  | _ => none

/-- Set EN of a queue that is configured, if it may be set (R347).
(DEDUCED, log 42: safe.) -/
def State.enableQueue (s : State) (q : Nat) : State :=
  let x := s.queueAt q
  if !x.ringsOk then s
  else if x.fall = 0 then s.modQueue q fun y => { y with en := true, fallRec := none }
  else match s.readFallback q with
    | some (s, r, e) => s.modQueue q fun y => { y with en := true, fallRec := some (r, e) }
    | none => s

/-- Write QCFG (R346, R347): while EN is 1 a write can only clear it, and what the copy of the fallback record was to run for goes
with the copy. -/
def State.writeQcfg (s : State) (q : Nat) (v : Word) : State :=
  if s.deaf || 1024 ≤ q then s
  else if (s.queueAt q).en then
    (if v.getLsbD 31 then s else (s.dropWaits (.queue q)).modQueue q fun x => { x with en := false, fallRec := none, fallWant := [] })
  else
    let s := s.modQueue q fun x => x.config v.toNat
    if v.getLsbD 31 then s.enableQueue q else s

/-- QCFG_WRITE (R347). -/
def execQcfgWrite (q : Nat) (v : Word) (s : State) : Out' := .next (s.writeQcfg q v)

/-- Retry the held completion entries of a queue (R350): CPLERR clears when an entry is written. -/
def State.retryEntries (s : State) (q : Nat) : State :=
  let x := s.queueAt q
  if x.held.isEmpty then s
  else
    let s := (s.modQueue q fun y => { y with cplerr := false }).flushEntries q x.held
    if x.cplerr && (s.queueAt q).ctail == x.ctail then s.modQueue q fun y => { y with cplerr := true } else s

/-- Write QCHEAD (R350). -/
def State.writeQchead (s : State) (q : Nat) (v : Word) : State :=
  if s.deaf || 1024 ≤ q then s else (s.modQueue q fun x => { x with chead := v }).retryEntries q

/-- QCHEAD (R350). -/
def execQchead (q : Nat) (v : Word) (s : State) : Out' := .next (s.writeQchead q v)

/-- A lane that has waited for pages issues its word again, with what its quad gave it (R259). -/
def Thread.again (x : Thread) (kept : List Word) : Thread :=
  { x with park := if kept.isEmpty then none else some (.retry (.quad kept)) }

/-- What a response does to one lane's park (R375, R392): once every page that the lane waits for is resolved it walks again; a
page that is refused faults XLATE. A lane of a halted crew (`held`) keeps its park until the crew is resumed (R397). -/
def Thread.answered (x : Thread) (held : Bool) (die num page : Nat) (resolved : Bool) : Thread :=
  match x.park with
  | some (.xlate d ws fetch kept) =>
    if d ≠ die ∨ !ws.contains (num, page) then x
    else
      let rest := if resolved then ws.filter (· ≠ (num, page)) else []
      let x := if resolved then x else { x with refused := page :: x.refused }
      if rest.isEmpty && !held then x.again kept else { x with park := some (.xlate d rest fetch kept) }
  | _ => x

/-- Apply one bit of the resolution mask to the waiters of a page (R392). -/
def State.answerPage (s : State) (die num ctx page : Nat) (resolved : Bool) : State :=
  let mine (w : Waiter) : Bool := w.die == die && w.batch == num && w.ctx == ctx && w.page == page
  { s with
    threads := SMap.mapVals (fun t x => if s.ctxIdOf t = ctx then x.answered (s.crewOf t).halted die num page resolved else x) s.threads,
    engineWait := if resolved then s.engineWait.filter fun w => !mine w
      else s.engineWait.map fun w => if mine w then { w with refused := true } else w }

/-- Apply the mask to a batch's entries, from an index on. -/
def State.answerPages (die num mask : Nat) : Nat → List (Nat × Nat × Nat × Nat) → State → State
  | _, [], s => s
  | i, e :: es, s => State.answerPages die num mask (i + 1) es (s.answerPage die num e.2.1 e.1 (testN mask i))

/-- What waits for a page of a batch. -/
def State.waitingOn (s : State) (die num : Nat) : List Who :=
  s.engineWait.filterMap fun w => if w.die = die ∧ w.batch = num then some w.who else none

/-- The enabled window of a number whose home is this device (R427). -/
def State.homeWindow (s : State) (wid : Nat) : Option Window :=
  (SMap.find s.dev.windows fun _ w => w.en && w.wid == wid && w.home == s.dev.fabid).map Prod.snd

/-- Types that a window packet carries (R428). -/
def windowTy (ty : Ty) : Bool :=
  ty == .s32 || ty == .n32 || ty == .s64 || ty == .n64 || ty == .b32 || ty == .b64 || ty == .f32

/-- Apply a window packet that has arrived, as one reduction at its home (R321, R428): it waits where its page is a replayable
miss or the device's state closes HBM (R445), and ends where its address has no translation. The packet carries no FLUSH, and no
rule names one: it is off.
(DESIGN CHOICE, log 105: unsafe.) -/
def State.applyPacket (s : State) (n : Nat) : State :=
  match SMap.get? s.packets n with
  | none => s
  | some p =>
    let ended (s : State) : State := { s with packets := SMap.del s.packets n }.dropWaits (.packet n)
    match s.homeWindow p.wid with
    | none => ended s
    | some w =>
      match s.engineTr (.packet n) 0 w.ctx (w.base.toNat + p.off) .D .atomic with
      | .waits s => s
      | .bad _ => ended s
      | .ok s loc _ _ =>
        let k := tyBytes p.ty
        if !s.mayWrite false loc then s else ended { s with mem := s.mem.writeN loc (bytesOf k (atomicNew false p.op p.ty (s.mem.readLE loc k) p.operand.toNat 0)) }

/-- What has waited for a page goes on: the held entries of a queue are written, and window packets are applied; others read
again when they next act (R350, R428). -/
def State.goOn (s : State) (w : Who) : State :=
  match w with
  | .cpl q => s.retryEntries q
  | .packet n => s.applyPacket n
  | .eop _ | .launch _ | .queue _ => s

/-- Write FRESP (R392). -/
def State.writeFresp (s : State) (die num : Nat) : State :=
  match s.batches.find? fun b => b.die == die && b.num == num && b.written with
  | none => s
  | some b =>
    let ws := s.waitingOn die num
    let s := State.answerPages die num (s.ringAt die).mask.toNat 0 b.entries s
    let s := { s with batches := s.batches.filter fun x => !(x.die == die && x.num == num) }
    ws.foldl State.goOn s

/-- FRESP (R392). -/
def execFresp (die : Nat) (batch : BitVec 16) (s : State) : Out' := .next (s.writeFresp die batch.toNat)

/-- Write FRHEAD (R392): a batch that waited for room may be written now. -/
def State.writeFrhead (s : State) (die : Nat) (v : Word) : State :=
  if 4 ≤ die then s
  else (s.modRing die fun r => { r with head := v }).writeBatches die s.batches

/-- FRHEAD (R392). -/
def execFrhead (die : Nat) (v : Word) (s : State) : Out' := .next (s.writeFrhead die v)

/-- Whether a translation buffer entry lies in an invalidated range (R390). -/
def invalidated (ctx size : Nat) (va : DWord) (e : Nat × Nat × Nat × Nat × DWord) : Bool :=
  let bits := match size with
    | 0 => 16
    | 1 => 21
    | _ => 30
  let lo := va.toNat / 2 ^ bits * 2 ^ bits
  e.2.1 == ctx &&
  (size == 3 || (decide (e.2.2.1 * 2 ^ e.2.2.2.1 < lo + 2 ^ bits) && decide (lo < (e.2.2.1 + 1) * 2 ^ e.2.2.2.1)))

/-- Write INVCTL (R390): the range's entries go, the context's accesses on their way are performed, and DONE is set. -/
def State.writeInvctl (s : State) (ctx : Nat) (v : Word) : State :=
  if 4096 ≤ ctx then s
  else
    let c := s.ctxAt ctx
    let size := fieldN v.toNat 0 2
    let s := s.modCtx ctx fun x => { x with invSize := size }
    if !v.getLsbD 30 || !c.invDone then s
    else
      let s := { s with tlb := s.tlb.filter fun e => !invalidated ctx size c.invva e }
      s.drain fun _ l => (s.launchAt l).ctx == ctx

/-- TLB_INVALIDATE (R390). -/
def execTlbInvalidate (ctx : Nat) (v : Word) (s : State) : Out' := .next (s.writeInvctl ctx v)

/-- Whether a context's settings let it exist (R391). -/
def State.ctxOk (s : State) (ctx : Nat) : Bool :=
  let c := s.ctxAt ctx
  let used := sumList ((s.ctxs.filter fun kv => kv.2.exists_ && kv.1 != ctx).map fun kv => kv.2.cquota.toNat)
  (c.featc &&& ~~~ s.devFeat) == 0 && decide (used + c.cquota.toNat ≤ 4096) && c.ptroot.toNat % 65536 == 0 &&
  c.localBase.toNat % 65536 == 0 && c.localStride.toNat % 65536 == 0 && c.wdog != 0

/-- Write CTXCFG while EN is 0 (R391). -/
def State.createCtx (s : State) (ctx : Nat) (v : Word) : State :=
  if 4096 ≤ ctx || (s.ctxAt ctx).exists_ then s
  else if !v.getLsbD 0 then s.modCtx ctx fun x => { x with dbgPriv := v.getLsbD 1 }
  else if s.ctxOk ctx then
    s.modCtx ctx fun x =>
      { x with exists_ := true, dbgPriv := v.getLsbD 1, invDone := true, stopped := false, progress := s.now, stopSeq := 0,
               stops := [], recorded := none, earlier := [], lastCmd := 0, history := [] }
  else s

/-- CONTEXT_CREATE (R391). -/
def execContextCreate (ctx : Nat) (v : Word) (s : State) : Out' := .next (s.createCtx ctx v)

/-- A pair without what a context has on it. -/
def Pair.forget (p : Pair) (ctx : Nat) : Pair :=
  { p with
    sets := p.sets.map fun x => match x with
      | some (c, b, n) => if c = ctx then none else some (c, b, n)
      | none => none,
    spilled := p.spilled.filter fun x => x.1 ≠ ctx }

/-- Destroy a context that nothing uses (R391): its tiles leave the carousel, its bank sets are free, and the translation
buffers hold nothing of it.
(DEDUCED, log 46: safe.) -/
def State.destroyCtx (s : State) (ctx : Nat) : State :=
  let used := (s.queues.any fun kv => kv.2.en && kv.2.ctx == ctx) ||
    s.launches.any fun kv => kv.2.ctx == ctx && kv.2.status.open_
  if !(s.ctxAt ctx).exists_ || used then s
  else
    { s with
      slots := SMap.keep s.slots fun _ x => x.ctx != ctx,
      pairs := SMap.mapVals (fun _ p => p.forget ctx) s.pairs,
      tlb := s.tlb.filter fun e => e.2.1 ≠ ctx }.modCtx ctx fun x => { x with exists_ := false }

/-- CONTEXT_DESTROY (R391). -/
def execContextDestroy (ctx : Nat) (s : State) : Out' := .next (s.destroyCtx ctx)

/-- The mailbox of a context is set up (R398): ACKSEQ and the bytes behind it, 0x080 to 0x0FF, read 0. Where its page is a replayable
miss, this is still to be done.
(DEDUCED, log 73: unsafe.) -/
def State.setUpMbox (s : State) (ctx : Nat) : State :=
  match s.devWrite (.queue (1024 + ctx)) 0 ctx ((s.ctxAt ctx).mbaddr.toNat + 0x80) (bytesOf 128 0) with
  | .done s => s.modCtx ctx fun x => { x with mboxInit := false }
  | .waits s => s.modCtx ctx fun x => { x with mboxInit := true }
  | .bad _ => (s.dropWaits (.queue (1024 + ctx))).modCtx ctx fun x => { x with mboxInit := false }

/-- A park of a crew that is resumed goes on where what it waits for has come meanwhile (R397): a barrier's phase, or the pages of
its word. -/
def Thread.unheld (x : Thread) (passed : Nat → Nat → Bool) : Thread :=
  match x.park with
  | some (.barrier key ph _) => if passed key ph then x.leaveBar key ph else x
  | some (.xlate _ [] _ kept) => x.again kept
  | _ => x

/-- Crews are halted no more, and their parks go on (R397): what W space still reads of them is read first. -/
def State.unhalt (s : State) (crews : List Nat) : State :=
  let s := crews.foldl (fun s k => s.landNear (s.crewAt k).core) s
  let s := crews.foldl (fun s k => s.modCrew k fun x => { x with halted := false, stepping := none }) s
  let passed (key ph : Nat) : Bool := decide (ph < (s.barAt key).phase)
  let s := { s with threads := SMap.mapVals (fun _ x => if crews.contains x.crew then x.unheld passed else x) s.threads }
  crews.foldl State.completeCollective s

/-- Stops whose lanes have gone on. -/
def Stop.released (st : Stop) (crews : List Nat) : Stop := if crews.contains st.crewUid then { st with threads := [] } else st

/-- Lanes of crews that go on are no longer stopped by the stops of a context, whose records stand. -/
def Ctx.release (c : Ctx) (crews : List Nat) : Ctx :=
  { c with stops := c.stops.map (·.released crews), recorded := c.recorded.map (·.released crews),
           earlier := c.earlier.filter fun y => !crews.contains y.crewUid }

/-- The debugger leaves a context (R393): halts act only while it is attached, so that its halted crews go on and no halt is asked
of any.
(DEDUCED, log 23: unsafe.) -/
def State.detach (s : State) (ctx : Nat) : State :=
  let crews := SMap.keys (SMap.keep s.crews fun _ c => (s.launchAt c.launch).ctx == ctx && (c.halted || c.haltAsked))
  let s := crews.foldl (fun s k => s.modCrew k fun x => { x with haltAsked := false }) s
  (s.unhalt crews).modCtx ctx fun x => x.release crews

/-- Write DBGCTL (R393, R394, R398). -/
def State.writeDbgctl (s : State) (ctx : Nat) (v : Word) : State :=
  if 4096 ≤ ctx then s
  else
    let want := v.getLsbD 0 && !(s.ctxAt ctx).dbgAttach
    let refused := want && s.queues.any fun kv => kv.2.ctx == ctx && kv.2.dclass != 0
    let s := if v.getLsbD 1 && !(s.ctxAt ctx).mbox then s.setUpMbox ctx else s
    let s := if !v.getLsbD 0 && (s.ctxAt ctx).dbgAttach then s.detach ctx else s
    s.modCtx ctx fun x =>
      { x with dbgAttach := v.getLsbD 0 && !refused, mbox := v.getLsbD 1, mboxInit := x.mboxInit && v.getLsbD 1,
               attErr := if want then refused else x.attErr }

/-- DEBUG_ATTACH (R393). -/
def execDebugAttach (ctx : Nat) (v : Word) (s : State) : Out' := .next (s.writeDbgctl ctx v)

/-- Armed watchpoints of a core, but for one register (R394, R396). -/
def State.armedOn (s : State) (core ctx n : Nat) : Nat :=
  sumList (s.ctxs.map fun kv => ((List.range 4).filter fun i =>
    (kv.1 != ctx || i != n) && (let w := (kv.2.wps.getD i 0).toNat
      fieldN w 57 7 == core && fieldN w 55 2 != 0)).length)

/-- Write a watchpoint register (R394, R396). -/
def State.writeWp (s : State) (ctx n : Nat) (v : DWord) : State :=
  if 4096 ≤ ctx || 4 ≤ n then s
  else
    let w := setFieldN v.toNat 43 12 0
    if fieldN w 55 2 ≠ 0 ∧ 4 ≤ s.armedOn (fieldN w 57 7) ctx n then s.modCtx ctx fun x => { x with wpErr := true }
    else s.modCtx ctx fun x => { x with wps := x.wps.set n (BitVec.ofNat 64 w), wpErr := false }

/-- WATCHPOINT_WRITE (R394, R396). -/
def execWatchpointWrite (ctx n : Nat) (v : DWord) (s : State) : Out' := .next (s.writeWp ctx n v)

/-- A halt is asked of a crew (R385, R397): it takes effect before its next issue. -/
def State.askHalt (s : State) (ci : Nat) : State :=
  let c := s.crewAt ci
  if c.halted then s
  else
    let s := s.modCrew ci fun x => { x with haltAsked := true }
    if c.status = .resident then s.haltAsked ci else s

/-- Write HALTREQ (R390, R397). -/
def State.writeHaltreq (s : State) (ctx : Nat) (v : DWord) : State :=
  if 4096 ≤ ctx || !(s.ctxAt ctx).dbgAttach then s
  else
    let lot := BitVec.ofNat 32 (fieldN v.toNat 0 32)
    let named (c : Crew) : Bool :=
      let x := s.launchAt c.launch
      x.ctx == ctx && x.lot == lot && x.status.open_ && c.status != .ended &&
      (v.getLsbD 63 || c.idx == fieldN v.toNat 32 16)
    (SMap.keys (s.crews.filter fun kv => named kv.2)).foldl State.askHalt s

/-- HALTREQ (R397). -/
def execHaltreq (ctx : Nat) (v : DWord) (s : State) : Out' := .next (s.writeHaltreq ctx v)

/-- Act on the command in a context's mailbox (R399): `go` has the stop on record, FLAGS and TID. Only the next command in
sequence, of kind `cmd`, is taken. -/
def State.mailCommand (s : State) (ctx cmd : Nat) (go : State → Stop → Nat → Nat → State) : State :=
  let c := s.ctxAt ctx
  if !c.dbgAttach || !c.mbox then s
  else
    match s.rdAt (.queue (1024 + ctx)) ctx .D (c.mbaddr.toNat + 0x40) 12 with
    | .ok s b =>
      if BitVec.ofNat 32 (leAt b 0 4) ≠ c.lastCmd + 1 ∨ leAt b 4 1 ≠ cmd then s
      else
        let s := s.modCtx ctx fun x => { x with lastCmd := x.lastCmd + 1 }
        match c.recorded with
        | some st => go s st (leAt b 5 1) (leAt b 8 4)
        | none => s
    | .waits s => s
    | .bad _ => s.dropWaits (.queue (1024 + ctx))

/-- How a stopped lane goes on (R399). -/
def Thread.resumed (x : Thread) (st : Stop) (skip : Bool) : Thread :=
  if st.index ≠ 0xFF then { x with passOnce := true }
  else if st.cause = 0x31 ∧ skip then { x with pc := x.pc + 16, viaTransfer := false }
  else x

/-- The lanes of a stop go on. -/
def State.resumeStop (s : State) (skip : Bool) (st : Stop) : State :=
  st.threads.foldl (fun s t => s.modThr t fun x => x.resumed st skip) s

/-- Resume every halted crew of the stopping lot (R399): the lanes of every stop of theirs go on, of the last on record, of those
acknowledged before it, and of those that wait to be recorded and keep their records.
(DEDUCED, log 23: unsafe.)
(DEDUCED, log 73: unsafe.) -/
def State.resumeLot (s : State) (ctx : Nat) (st : Stop) (flags : Nat) : State :=
  let l := (s.crewAt st.crewUid).launch
  let crews := (s.launchCrews l).filter fun c => (s.crewAt c).halted
  let c := s.ctxAt ctx
  let mine := (st :: (c.earlier ++ c.stops)).filter fun x => crews.contains x.crewUid
  let s := mine.foldl (State.resumeStop · (testN flags 0)) s
  (s.unhalt crews).modCtx ctx fun x => x.release crews

/-- DEBUG_RESUME (R399). -/
def execDebugResume (ctx : Nat) (s : State) : Out' :=
  .next (s.mailCommand ctx 0 fun s st flags _ => s.resumeLot ctx st flags)

/-- Step a thread of the stopped crew (R400): its gang may issue one word, which those of its lanes that a breakpoint or a watchpoint
stopped perform without matching (R399); a gang with no eligible lane stops at once.
(DEDUCED, log 23: unsafe.) -/
def State.stepThread (s : State) (ctx : Nat) (st : Stop) (tid : Nat) : State :=
  let ci := st.crewUid
  match (s.slotted ci).find? fun t => (s.thr t).tid == tid with
  | none => s
  | some t =>
    let g := (s.thr t).gang
    if !(s.crewAt ci).halted then s
    else if (s.eligibleLanes g).isEmpty then s.haltCrew ci { s.stopOf ci 0x32 0xFF 0 [t] 0 with lanes := 0, threads := [] }
    else
      let c := s.ctxAt ctx
      let mine := (st :: (c.earlier ++ c.stops)).filter fun x => x.crewUid == ci && x.index != 0xFF
      let s := mine.foldl (fun s y => s.resumeStop false { y with threads := y.threads.filter fun u => (s.thr u).gang == g }) s
      s.modCrew ci fun x => { x with stepping := some (g, t) }

/-- DEBUG_STEP (R399, R400). -/
def execDebugStep (ctx : Nat) (s : State) : Out' := .next (s.mailCommand ctx 1 fun s st _ tid => s.stepThread ctx st tid)

/-- DEBUG_ABORT (R399). -/
def execDebugAbort (ctx : Nat) (s : State) : Out' :=
  .next (s.mailCommand ctx 2 fun s st _ _ => s.abortLot (s.crewAt st.crewUid).launch 0x04 0 0xFF false)

/-- Write DBGDOOR (R390, R399). -/
def State.writeDbgdoor (s : State) (ctx : Nat) : State :=
  let c := s.ctxAt ctx
  match s.rdAt (.queue (1024 + ctx)) ctx .D (c.mbaddr.toNat + 0x44) 1 with
  | .ok _ b =>
    (match leAt b 0 1 with
     | 0 => s.mailCommand ctx 0 fun s st flags _ => s.resumeLot ctx st flags
     | 1 => s.mailCommand ctx 1 fun s st _ tid => s.stepThread ctx st tid
     | 2 => s.mailCommand ctx 2 fun s st _ _ => s.abortLot (s.crewAt st.crewUid).launch 0x04 0 0xFF false
     | _ => s)
  | .waits s => s
  | .bad _ => s

/-- Bytes 4 to 63 of a stop record (R398). -/
def Stop.body (st : Stop) : List Byte :=
  bytesOf 1 st.cause ++ bytesOf 1 st.index ++ bytesOf 2 st.brkn ++ bytesOf 4 st.lot.toNat ++ bytesOf 2 st.crew ++
  bytesOf 2 0 ++ bytesOf 8 st.pc.toNat ++ bytesOf 8 st.eaddr.toNat ++ bytesOf 4 st.lanes.toNat ++ bytesOf 4 st.tid ++
  bytesOf 24 0

/-- Whether the record before has been acknowledged (R398). -/
def State.acknowledged (s : State) (ctx : Nat) : Rd Bool :=
  let c := s.ctxAt ctx
  match c.recorded with
  | none => .ok s true
  | some _ => (s.rdAt (.queue (1024 + ctx)) ctx .D (c.mbaddr.toNat + 0x80) 4).next fun s b => .ok s (leAt b 0 4 == c.stopSeq.toNat)

/-- STOP_RECORD_DELIVERY (R398): the record, then STOPSEQ, then the debug interrupt; what is still to be done of the mailbox's setup
comes first. -/
def execStopRecordDelivery (ctx : Nat) (s : State) : Out' :=
  let c := s.ctxAt ctx
  if c.mboxInit then .next (s.setUpMbox ctx)
  else
  match c.stops with
  | [] => .next s
  | st :: rest =>
    if !c.mbox then .next s
    else
      match s.acknowledged ctx with
      | .bad _ => .next (s.dropWaits (.queue (1024 + ctx)))
      | .waits s => .next s
      | .ok _ false => .next s
      | .ok s true =>
        let n := c.stopSeq + 1
        (match s.devWrite (.queue (1024 + ctx)) 0 ctx (c.mbaddr.toNat + 4) st.body with
         | .bad _ => .next (s.dropWaits (.queue (1024 + ctx)))
         | .waits s => .next s
         | .done s =>
           (match s.devWrite (.queue (1024 + ctx)) 0 ctx c.mbaddr.toNat (bytesOf 4 n.toNat) with
            | .bad _ => .next (s.dropWaits (.queue (1024 + ctx)))
            | .waits s => .next s
            | .done s =>
              .next ((s.modCtx ctx fun x =>
                { x with stops := rest, stopSeq := n, recorded := some st, earlier := x.recorded.toList ++ x.earlier }).raiseCtx
                  ctx true)))

end Sys2Proof.Machine
end

