-- ==== Sys2Proof/Machine/Time.lean ====
section
/-! DEFINITION. The PTP clock (R434 to R437), display outputs and frames (R438 to R442), and links that come up or go down
(R425, R439). -/

namespace Sys2Proof.Machine

/-- Whether the device has the timing and display daughter-board (R1, R434, R438).
(DESIGN CHOICE, log 6: unsafe.) -/
def State.hasBoard (s : State) : Bool := s.dev.form == 2

def State.modPtp (s : State) (f : Ptp → Ptp) : State := s.modDev fun d => { d with ptp := f d.ptp }

/-- TCFG.EN (R437). -/
def Ptp.en (p : Ptp) : Bool := p.tcfg.getLsbD 0

/-- Whether a configuration may be enabled (R437). -/
def Ptp.valid (p : Ptp) (v : Nat) : Bool :=
  let tr := fieldN v 2 2
  tr != 3 && (tr == 2 || p.tip != 0) && (tr != 1 || p.tuni != 0)

/-- Write TCFG (R437): only while EN is 0.
(DESIGN CHOICE, log 47: unsafe.) -/
def State.writeTcfg (s : State) (v : Word) : State :=
  let p := s.dev.ptp
  if !s.hasBoard || p.en then s
  else if v.getLsbD 0 && !p.valid v.toNat then s
  else s.modPtp fun p => { p with tcfg := v &&& 0xFFFF7F1F, good := 0 }

/-- PTP_ENABLE (R437). -/
def execPtpEnable (v : Word) (s : State) : Out' := .next (s.writeTcfg v)

/-- Move the time lock to a state; vector 0 announces a change (R423, R435). -/
def State.setLock (s : State) (l : Lock) : State :=
  if s.dev.ptp.lock = l then s else (s.modPtp fun p => { p with lock := l, good := 0 }).raise 0

/-- An offset within ±10 ns (R435). -/
def near (offset : Int) : Bool := decide (offset.natAbs ≤ 10)

/-- Correct the clock by a step (R436): forward at once; where the correct time lies behind, the clock will hold. `offset` is
the clock less the master's. -/
def State.stepClock (s : State) (offset : Int) : State :=
  let p := s.dev.ptp
  let n := offset.natAbs
  if 0 ≤ offset then s.modPtp fun p => { p with ahead := p.ahead + n, tstep := p.tstep + 1 }
  else
    let k := min p.ahead n
    { s with ptime := s.ptime + BitVec.ofNat 64 (n - k) }.modPtp fun p => { p with ahead := p.ahead - k, tstep := p.tstep + 1 }

/-- Correct the clock for a measured offset (R436): a step only in FREE or ACQUIRING, otherwise a slew.
(DESIGN CHOICE, log 68: unsafe.) -/
def State.correct (s : State) (offset : Int) : State :=
  match s.dev.ptp.lock with
  | .free | .acquiring => if near offset then s.modPtp fun p => { p with slew := -offset } else s.stepClock offset
  | .locked | .holdover => s.modPtp fun p => { p with slew := -offset }

/-- A clock that is locked takes the frequency that it is locked to, which the spec leaves to the measurement (R435), within the
200 ppm of R436.
(DESIGN CHOICE, log 68: unsafe.) -/
def State.tuned (s : State) : State :=
  if s.dev.ptp.lock = .locked then
    let (w, s) := s.freeWord
    s.modPtp fun p => { p with freq := Int.ofNat (w.toNat % 400001) - 200000 }
  else s

/-- The lock after a Sync with an offset, once the clock is corrected (R435). -/
def State.relock (s : State) (offset : Int) (gm : DWord) : State :=
  let s' := (s.correct offset).modPtp fun p => { p with toff := BitVec.ofInt 64 offset, tgm := gm }
  match s.dev.ptp.lock with
  | .free => s'.setLock .acquiring
  | .acquiring =>
    if !near offset then s'.modPtp fun p => { p with good := 0 }
    else if 16 ≤ s.dev.ptp.good + 1 then s'.setLock .locked
    else s'.modPtp fun p => { p with good := p.good + 1 }
  | .locked => s'
  | .holdover => s'.setLock (if near offset then .locked else .acquiring)

/-- A Sync from a master (R435, R437): the offset is kept, the lock moves, and the clock is corrected and, where it is locked,
tuned.
(DESIGN CHOICE, log 68: unsafe.) -/
def State.sync (s : State) (offset : Int) (gm : DWord) : State := (s.relock offset gm).tuned

/-- The clockIdentity of an EUI-48 (R437): its three upper octets, FF-FE, and its three lower ones.
(PRESUMED, log 83: unsafe.) -/
def eui64 (mac : Nat) : DWord := BitVec.ofNat 64 (fieldN mac 24 24 * 2 ^ 40 + 0xFFFE * 2 ^ 24 + fieldN mac 0 24)

/-- This clock's identity (R437). -/
def Ptp.identity (p : Ptp) : DWord := eui64 p.tmac.toNat

/-- Whether this clock is better than the grandmaster of an Announce (R434): by priority1, clock quality, priority2 and identity
in turn, the smaller the better.
(PRESUMED, log 83: unsafe.) -/
def Ptp.better (p : Ptp) (priority1 quality priority2 : Nat) (gm : DWord) : Bool :=
  let first (a b : Nat) (rest : Bool) : Bool := decide (a < b) || (a == b && rest)
  !p.tcfg.getLsbD 4 &&
  first (fieldN p.tcfg.toNat 16 8) priority1 (first Config.clockQuality quality
    (first (fieldN p.tcfg.toNat 24 8) priority2 (decide (p.identity.toNat < gm.toNat))))

/-- Whether a message concerns the port (R434, R437): PTP is on, and it came by the port's transport, coded as in TCFG, and is of
its domain. -/
def State.hears (s : State) (domain transport : Nat) : Bool :=
  s.hasBoard && s.dev.ptp.en && domain == fieldN s.dev.ptp.tcfg.toNat 8 7 && transport == fieldN s.dev.ptp.tcfg.toNat 2 2

/-- Become master or follower (R434, R437). -/
def State.setMaster (s : State) (m : Bool) (gm : DWord) : State :=
  s.modPtp fun p => { p with master := m, tgm := if m then p.identity else gm }

/-- PTP_EVENT_MESSAGE (R434, R435, R437): accepted only while EN is 1, and of the port's own domain and transport. A clock that is
the master, being the best, follows no other's Sync.
(DEDUCED, log 117: unsafe.) -/
def execPtpEventMessage (m : PtpPacket) (s : State) : Out' :=
  let p := s.dev.ptp
  if !s.hears m.domain m.transport then .next s
  else match m.msg with
  | .sync offset gm => .next (if p.master then s else s.sync offset gm)
  | .announce priority1 quality priority2 gm => .next (s.setMaster (p.better priority1 quality priority2 gm) gm)
  | .delayReq => .next (if p.master then s.send (.ptp 3) else s)
  | .delayResp _ => .next s

/-- SYNC_LOSS (R435). -/
def execSyncLoss (s : State) : Out' :=
  if s.dev.ptp.lock = .locked then .next ((s.setLock .holdover).modPtp fun p => { p with lostAt := s.now }) else .next s

/-- HOLDOVER_TIMEOUT (R435): 60 s with no Sync, in ticks of 10 ns. -/
def execHoldoverTimeout (s : State) : Out' :=
  let p := s.dev.ptp
  if p.lock = .holdover && decide (p.lostAt + 6000000000 ≤ s.now) then .next (s.setLock .free) else .next s

/-- PTP_MESSAGE_INTERVAL (R434, R437): Sync (0) with its Follow_Up and Announce (1) as master, Delay_Req (2) as follower. -/
def execPtpMessageInterval (kind : Nat) (s : State) : Out' :=
  let p := s.dev.ptp
  if !s.hasBoard || !p.en then .next s
  else if kind = 0 && p.master then .next ((s.send (.ptp 0)).send (.ptp 4))
  else if kind = 1 && p.master then .next (s.send (.ptp 1))
  else if kind = 2 && !p.master then .next (s.send (.ptp 2))
  else .next s

/-- ANNOUNCE_RECEIPT_TIMEOUT (R437): the BMCA chooses again; `best` says that no better clock is left on the domain. -/
def execAnnounceReceiptTimeout (best : Bool) (s : State) : Out' :=
  let p := s.dev.ptp
  if !s.hasBoard || !p.en then .next s else .next (s.setMaster (best && !p.tcfg.getLsbD 4) p.tgm)

/-- A display output's registers (R439). -/
def State.output (s : State) (o : Nat) : Output := SMap.getD s.dev.outputs o Output.reset

def State.modOutput (s : State) (o : Nat) (f : Output → Output) : State :=
  s.modDev fun d => { d with outputs := SMap.put d.outputs o (f (SMap.getD d.outputs o Output.reset)) }

/-- OCFG.EN (R439). -/
def Output.en (x : Output) : Bool := x.ocfg.getLsbD 0

/-- Bits per component (R439 BPC). -/
def Output.bpc (x : Output) : Nat := if x.ocfg.getLsbD 1 then 10 else 8

/-- Link rate in Gbit/s over four lanes (R438, R439 RATE).
(DEDUCED, log 69: unsafe.) -/
def linkRate (v : Nat) : Nat := match fieldN v 2 2 with
  | 1 => 54
  | 2 => 80
  | _ => 40

/-- Whether an output's pixel rate fits its link (R438, R439): 128 of every 132 bits carry pixels.
(DEDUCED, log 69: unsafe.) -/
def Output.fitsLink (x : Output) (v : Nat) : Bool :=
  let bits := 3 * (if testN v 1 then 10 else 8)
  let total := fieldN x.tot.toNat 0 16 * fieldN x.tot.toNat 16 16
  x.pden != 0 && decide (total * x.pden.toNat * bits * 132 ≤ x.pnum.toNat * linkRate v * 128)

/-- F(n) of an output (R440). -/
def Output.start (x : Output) (n : Int) : Int := -((-(n * Int.ofNat x.pnum.toNat)) / Int.ofNat x.pden.toNat) + x.ofs.toInt

/-- The frame in progress at a time: the largest n with F(n) no later. -/
def Output.frameAt (x : Output) (t : DWord) : Int :=
  (Int.ofNat t.toNat - x.ofs.toInt) * Int.ofNat x.pden.toNat / Int.ofNat x.pnum.toNat

/-- Write OCFG (R439): only while EN is 0; EN is set only if period and link allow.
(DESIGN CHOICE, log 47: unsafe.) -/
def State.writeOcfg (s : State) (o : Nat) (v : Word) : State :=
  if !s.hasBoard || 4 ≤ o || (s.output o).en then s
  else if v.getLsbD 0 && (s.output o).fitsLink v.toNat then
    s.modOutput o fun x => { x with ocfg := v &&& 0x3F, frame := BitVec.ofInt 64 (x.frameAt s.ptime) }
  else s.modOutput o fun x => { x with ocfg := v &&& 0x3E }

/-- OUTPUT_ENABLE (R439). -/
def execOutputEnable (o : Nat) (v : Word) (s : State) : Out' := .next (s.writeOcfg o v)

/-- Write OSTAT (R439): a 1 clears XMISS or BADMETA. -/
def State.writeOstat (s : State) (o : Nat) (v : Word) : State :=
  if !s.hasBoard || 4 ≤ o then s
  else s.modOutput o fun x => { x with xmiss := x.xmiss && !v.getLsbD 1, badmeta := x.badmeta && !v.getLsbD 2 }

/-- OSTAT_CLEAR (R439). -/
def execOstatClear (o : Nat) (v : Word) (s : State) : Out' := .next (s.writeOstat o v)

/-- OUTPUT_LINK_CHANGE (R439). -/
def execOutputLinkChange (o : Nat) (up : Bool) (s : State) : Out' :=
  if !s.hasBoard || 4 ≤ o then .next s else .next (s.modOutput o fun x => { x with link := up })

/-- PORT_LINK_CHANGE (R425): a port trains only while it is enabled. -/
def execPortLinkChange (port lanes : Nat) (s : State) : Out' :=
  if 16 ≤ port then .next s
  else
    let p := SMap.getD s.dev.ports port Port.reset
    let n := if p.en then min lanes 8 else 0
    .next (s.modDev fun d => { d with ports := SMap.put d.ports port { p with up := n != 0, lanes := n } })

/-- A component as it is sent (R442). -/
def component (half : Bool) (bpc c : Nat) : Nat :=
  if !half then (if bpc = 8 then c else 4 * c + c / 64)
  else
    let v := valueOf .f16 c
    let top : Int := 2 ^ bpc - 1
    if v.isNan || v.sign then 0
    else if FVal.le (.ofInt 1) v then top.toNat
    else (rneInt (FVal.mul v (.ofInt top))).toNat

/-- A block of the surface: its pixels' codes, that its page misses, that its metadata is bad, or both (R442). -/
inductive Scan
  | codes (ps : List (List Nat))
  | miss
  | bad
  | both
  deriving DecidableEq, Repr

/-- Where bytes of a surface lie, in pieces of one page; none where a page misses translation (R442). -/
def State.scanAt (s : State) (x : Output) (va n : Nat) : Option (List (Nat × Nat)) :=
  let sp : Sp := if x.curSpace then .G else .D
  match translate s (dieTlb 0) x.curCtx va sp .read, translate s (dieTlb 0) x.curCtx (va + n - 1) sp .read with
  | .ok lo _ _ _ _, .ok hi _ _ _ _ =>
    let k := min n (65536 - va % 65536)
    some [(lo, k), (hi + 1 - (n - k), n - k)]
  | _, _ => none

/-- Bits of a colour channel of an output's surface (R442). -/
def Output.channel (x : Output) : Nat := if x.ocfg.getLsbD 4 then 16 else 8

/-- Where the metadata byte of block `b` lies, and where its slot does (R415, R442). -/
def State.scanMeta (s : State) (x : Output) (b : Nat) : Option (List (Nat × Nat)) :=
  if x.ocfg.getLsbD 5 then s.scanAt x (x.cur.toNat + x.moff.toNat + b) 1 else some []

def State.scanSlot (s : State) (x : Output) (b : Nat) : Option (List (Nat × Nat)) :=
  s.scanAt x (x.cur.toNat + 32 * x.channel * b) (32 * x.channel)

/-- The bytes of pieces, in committed state. -/
def State.piecesAt (s : State) (ps : List (Nat × Nat)) : List Byte := ps.flatMap fun p => s.mem.readN p.1 p.2

/-- Scan block `b` of an output's surface (R415, R442): one whose metadata byte is bad is so whether or not its slot's page
misses. -/
def State.scanBlock (s : State) (x : Output) (b : Nat) : Scan :=
  let e := x.channel
  match s.scanMeta x b with
  | none => .miss
  | some m =>
    let v := if x.ocfg.getLsbD 5 then ((s.piecesAt m).headD 0).toNat else 2 * e
    let bad := testN v 6 || fieldN v 0 6 == 0 || decide (2 * e < fieldN v 0 6)
    match s.scanSlot x b with
    | none => if bad then .both else .miss
    | some ps =>
      if bad then .bad
      else
        let bytes := s.piecesAt ps
        .codes (if testN v 7 then blockDecode e bytes else blockPlain e bytes)

/-- Width and height of an output (R439 OSIZE). -/
def Output.width (x : Output) : Nat := fieldN x.osize.toNat 0 14 + 1
def Output.height (x : Output) : Nat := fieldN x.osize.toNat 16 14 + 1

/-- The blocks of an output's surface (R407). -/
def State.scanBlocks (s : State) (x : Output) : List Scan :=
  (List.range (ceilDiv x.width 8 * ceilDiv x.height 8)).map (s.scanBlock x)

/-- What a scan of a surface reads of a peer's memory (R426). -/
def State.scanReads (s : State) (x : Output) : List (Nat × Nat) :=
  ((List.range (ceilDiv x.width 8 * ceilDiv x.height 8)).flatMap fun b =>
    (s.scanMeta x b).getD [] ++ (s.scanSlot x b).getD []).filter fun r => (peerOf r.1).isSome && r.2 != 0

/-- The pixel components of a frame, row by row; a block that cannot be shown is black (R442). -/
def Output.pixels (x : Output) (blocks : List Scan) : List (List Nat) :=
  (List.range x.height).flatMap fun py => (List.range x.width).map fun px =>
    match blocks.getD (py / 8 * ceilDiv x.width 8 + px / 8) .miss with
    | .codes ps => ((ps.getD (8 * (py % 8) + px % 8) []).take 3).map (component (x.ocfg.getLsbD 4) x.bpc)
    | _ => [0, 0, 0]

/-- Flips of an output that have committed and are to be released at a frame start (R441), in order of commit. -/
def State.flipsDue (s : State) (o : Nat) (f : Int) : List (Nat × EOp) :=
  let due (x : EOp) : Bool := match x.kind, x.committedAt with
    | .dflip _ _ t k, some c => k == o && x.outcome.isNone && decide (Int.ofNat t.toNat ≤ f) && decide (Int.ofNat c.toNat + 20000 ≤ f)
    | _, _ => false
  let l := s.eops.filter fun kv => due kv.2
  SMap.vals (l.foldl (fun m kv => SMap.put m (((kv.2.committedAt.getD 0).toNat) * 2 ^ 64 + kv.1) kv) [])

/-- Release a flip at F(n) (R441, R442): OK if n is the smallest with F(n) ≥ T, LATE otherwise. -/
def State.releaseFlip (o : Nat) (before : Int) (s : State) (kv : Nat × EOp) : State :=
  match kv.2.kind with
  | .dflip sp addr t _ =>
    let s := s.modOutput o fun x => { x with cur := BitVec.ofNat 64 addr, curCtx := kv.2.ctx, curSpace := sp == .G }
    s.finishEop kv.1 (if before < Int.ofNat t.toNat then 0 else 0x0D) 0
  | _ => s

/-- Scan the current surface of an output out as a frame (R442). -/
def State.scanOut (s : State) (o : Nat) : State :=
  let x := s.output o
  if x.cur = 0 then s
  else
    let bs := s.scanBlocks x
    let s := (s.scanReads x).foldl (fun s r => s.peerSend 0 r.1 fun a => .read a r.2) s
    (s.modOutput o fun y => { y with xmiss := y.xmiss || bs.contains .miss || bs.contains .both,
                                     badmeta := y.badmeta || bs.contains .bad || bs.contains .both }).send
      (.frame o x.frame x.cur (x.pixels bs))

/-- FRAME_START (R440 to R442): the next frame begins, flips that are due are released, and the surface is scanned. -/
def execFrameStart (o : Nat) (s : State) : Out' :=
  let x := s.output o
  let n := x.frame.toInt + 1
  if 4 ≤ o || !x.en || Int.ofNat s.ptime.toNat < x.start n then .next s
  else
    let s := s.modOutput o fun y => { y with frame := BitVec.ofInt 64 n }
    let s := (s.flipsDue o (x.start n)).foldl (State.releaseFlip o (x.start (n - 1))) s
    .next (s.scanOut o)

end Sys2Proof.Machine
end

