-- ==== Sys2Proof/Machine/Bring.lean ====
section
/-! DEFINITION. Sounding and reset, firmware, the commands of the mailbox, SURVEY, checkpoint and restore, errors, cooling and
power (R443 to R458). -/

namespace Sys2Proof.Machine

def State.modMbox (s : State) (f : Mbox → Mbox) : State := s.modDev fun d => { d with mbox := f d.mbox }

/-- A command ends (R443): RSTAT, then RSEQ, then vector 0. -/
def State.endCommand (s : State) (seq : Word) (status : Nat) : State :=
  (s.modMbox fun m => { m with rstat := BitVec.ofNat 32 status, rseq := seq }).raise 0

/-- Whether no context exists (R444). -/
def State.noContext (s : State) : Bool := s.ctxs.all fun kv => !kv.2.exists_

/-- Whether a command may start in the device's state (R444). -/
def State.allowed (s : State) (op : Nat) : Bool :=
  match op with
  | 0x02 | 0x05 => s.dev.dstate == .ready || s.dev.dstate == .contained
  | 0x03 => s.dev.dstate == .ready && s.noContext
  | 0x04 => s.dev.dstate == .safe || (s.dev.dstate == .ready && s.noContext)
  | _ => true

/-- The device's state while a command runs (R445). -/
def commandState (op : Nat) (d : DState) : DState :=
  match op with
  | 0x02 => .checkpoint
  | 0x03 => .restore
  | _ => d

/-- A DOOR write (R443, R444): the command in CMD starts, or ends at once with BUSY, BADARG or STATE. -/
def State.door (s : State) : State :=
  let m := s.dev.mbox
  let op := fieldN m.cmd.toNat 0 8
  if m.running.isSome then s.endCommand m.cseq 1
  else if op < 2 ∨ 6 < op then s.endCommand m.cseq 2
  else if !s.allowed op then s.endCommand m.cseq 5
  else
    let c : Cmd := { op := op, seq := m.cseq, addr := m.addr, len := m.len, arg := m.arg, came := s.dev.dstate }
    (s.modMbox fun m => { m with running := some c }).modDev fun d => { d with dstate := commandState op d.dstate }

/-- A DOOR write with an operation in CMD. -/
def State.doorOf (s : State) (op : Nat) : State := if fieldN s.dev.mbox.cmd.toNat 0 8 = op then s.door else s

/-- CHECKPOINT starts (R444, R455): issue and the commit sequencer stop. -/
def execCheckpoint (s : State) : Out' := .next (s.doorOf 0x02)

/-- RESTORE starts (R444, R456). -/
def execRestore (s : State) : Out' := .next (s.doorOf 0x03)

/-- FWLOAD starts (R444, R450). -/
def execFwload (s : State) : Out' := .next (s.doorOf 0x04)

/-- WARMRESET starts (R444, R456). -/
def execWarmreset (s : State) : Out' := .next (s.doorOf 0x05)

/-- COLDRESET starts (R444, R456). -/
def execColdreset (s : State) : Out' := .next (s.doorOf 0x06)

/-- BODYLEN, and the length of an image by its header (R449). -/
def fwLength (b : List Byte) : Nat := 0xD80 + leAt b 0x0C 4

/-- What both signatures of an image sign: bytes 0x00 to 0x3F and the body (R449). -/
def fwSigned (b : List Byte) : List Byte := b.take 0x40 ++ b.drop 0xD80

/-- Whether an image is whole and both its signatures verify (R449). -/
def fwVerifies (b : List Byte) : Bool :=
  b.take 4 == [0x4B, 0x46, 0x57, 0x07] && leAt b 0x0C 4 % 16 == 0 && b.length == fwLength b &&
  Config.ed25519Ok (fwSigned b) ((b.drop 0x40).take 64) && Config.mlDsa65Ok (fwSigned b) ((b.drop 0x80).take 3309)

/-- Whether the boot ROM accepts an image (R449). -/
def fwAccepted (b : List Byte) : Bool := fwVerifies b && decide (Config.fusedMinSvn ≤ leAt b 8 4)

/-- The machine as sounding begins (R446, R447, R456): all work is gone, and what lies outside the package stays, as does where the
ticks fall against core cycles.
(DESIGN CHOICE, log 9: safe.)
(DEDUCED, log 63: unsafe.) -/
def State.boot (s : State) (d : Device) : State :=
  { State.reset with
    hostReads := s.hostReads, cycle := s.cycle, phase := s.phase, fresh := s.fresh, free := s.free, mem := s.mem, outs := s.outs, agenda := s.agenda, ckpts := s.ckpts,
    dev := { d with form := s.dev.form, flash := s.dev.flash, running := s.dev.flash, retired := s.dev.retired,
                    spares := s.dev.spares, hotStacks := s.dev.hotStacks, throttled := s.dev.throttled,
                    poolPages := s.dev.poolPages } }

/-- COLDRESET's effect (R456): the mailbox and the counters stay.
(DEDUCED, log 63: unsafe.) -/
def State.cold (s : State) : State :=
  s.boot { Device.reset with mbox := { s.dev.mbox with running := none }, counters := s.dev.counters }

/-- WARMRESET's effect (R456): every context, queue, lot and tile is cleared; HBM, the clocks, with where
their ticks fall, and the registers of the device stay.
(DESIGN CHOICE, log 9: safe.)
(DEDUCED, log 63: unsafe.) -/
def State.warm (s : State) : State :=
  { State.reset with
    hostReads := s.hostReads, cycle := s.cycle, phase := s.phase, rtime := s.rtime, ptime := s.ptime, fresh := s.fresh, free := s.free, mem := s.mem, outs := s.outs,
    agenda := s.agenda, ckpts := s.ckpts, dev := { s.dev with dstate := .ready } }

/-- Pages of HBM that a page table maps as G, D, K or code, from a table down the listed levels (R386, R387, R455): address
and size. -/
def mappedFrom (m : Memory) : List (Nat × Nat × Nat) → Nat → List (Nat × Nat)
  | [], _ => []
  | (level, lo, n) :: rest, table =>
    (List.range (2 ^ n)).flatMap fun i =>
      let p := m.readLE (table + 8 * i) 8
      let at_ := fieldN p 12 40 * 4096
      if !testN p 0 || pteMalformed level p then []
      else if testN p 1 then
        (if fieldN p 2 3 != 3 && !testN p 6 && !testN p 7 && decide (at_ < hbmSize) then [(at_, 2 ^ lo)] else [])
      else mappedFrom m rest at_

/-- Pages that a checkpoint holds (R455). -/
def State.mappedPages (s : State) : List (Nat × Nat) :=
  ((SMap.vals s.ctxs).flatMap fun c => if c.exists_ then mappedFrom s.mem walkLevels c.ptroot.toNat else []).dedup

/-- The number of the last committed lot, 0 where none has committed. -/
def State.lastCommitted (s : State) : Word :=
  match s.commits.getLast? with
  | some l => (s.launchAt l).lot
  | none => 0

/-- Uncommitted lots in admission order (R454, R455): admitted and not ended. -/
def State.openLots (s : State) : List Launch :=
  SMap.vals ((SMap.vals s.launches).foldl (fun m x => if x.lot ≠ 0 ∧ x.status.open_ then SMap.put m x.admittedAt x else m) [])

/-- Whether the tier of a command names the ports, and its place (R444). -/
def Cmd.ports (c : Cmd) : Bool := c.arg.getLsbD 0
def Cmd.place (c : Cmd) : Nat := if c.ports then fieldN c.arg.toNat 32 12 else c.addr.toNat

/-- Ports that carry checkpoint streams (R425, R455). -/
def State.ckptPorts (s : State) : Bool := s.dev.ports.any fun kv => kv.2.ckpt && kv.2.up

/-- In-flight atomics and engine operations that a checkpoint waits for (R455). A flip waits for its lot and its frame; in a contained
device nothing of it can be performed any more (R445).
(DEDUCED, log 67: unsafe.) -/
def State.inFlight (s : State) : Bool :=
  s.writesOpen && (!s.rmws.isEmpty || (SMap.vals s.eops).any fun o => match o.kind with
    | .dflip _ _ _ _ => false
    | _ => true)

/-- Bytes of an image: its pages, and a header whose length the spec does not give.
(DESIGN CHOICE, log 62: unsafe.) -/
def Ckpt.size (k : Ckpt) : Nat := k.written + 64 + 16 * k.lots.length

/-- The bytes of an image in host memory: the spec does not give its format.
(DESIGN CHOICE, log 62: unsafe.) -/
def Ckpt.bytes (k : Ckpt) : List Byte := (List.range k.size).map (Config.imageByte k.num)

/-- The image that a checkpoint streams now (R455). -/
def State.image (s : State) (c : Cmd) : Ckpt :=
  let pages := s.mappedPages
  { num := s.fresh, ports := c.ports, place := c.place, pages := pages, mem := s.mem, written := sumList (pages.map Prod.snd),
    last := s.lastCommitted, lots := s.openLots.map fun x => (x.lot, x.queue, x.ticket) }

/-- An image stands in a tier: the bytes of one for host memory lie there. -/
def State.putImage (s : State) (k : Ckpt) : State :=
  if k.ports then { s with ckpts := s.ckpts.filter (fun (x : Ckpt) => !(x.ports && x.place == k.place)) ++ [k] }
  else { s with mem := s.mem.writeN (locHost k.place) k.bytes, ckpts := s.ckpts ++ [k] }

/-- CHECKPOINT ends (R455): every mapped page in committed state, then the header; the device goes on.
(DESIGN CHOICE, log 62: unsafe.) -/
def State.endCheckpoint (s : State) (c : Cmd) : State :=
  let k := s.image c
  let back := (s.modDev fun d => { d with dstate := c.came }).take.2
  if (if c.ports then !s.ckptPorts else decide (c.len.toNat < k.size)) then back.endCommand c.seq 6
  else ((back.putImage k).send (.stream (if c.ports then c.place else 0) c.addr.toNat k.written)).endCommand c.seq 0

/-- The image that a RESTORE finds (R456): at a device over the ports, or the one whose bytes lie in host memory at its address. -/
def State.imageThere (s : State) (c : Cmd) : Option Ckpt :=
  if c.ports then (if s.ckptPorts then s.ckpts.find? fun k => k.ports && k.place == c.place else none)
  else s.ckpts.reverse.find? fun k =>
    !k.ports && decide (k.size ≤ c.len.toNat) && s.mem.readN (locHost c.addr.toNat) k.size == k.bytes

/-- Read an image's pages into HBM (R456). -/
def restorePages (m from_ : Memory) : List (Nat × Nat) → Memory
  | [] => m
  | p :: ps => restorePages (m.writeN p.1 (from_.readN p.1 p.2)) from_ ps

/-- Retired lines of pages that are written whole are remapped (R452). -/
def State.remapPages (s : State) (ps : List (Nat × Nat)) : State :=
  (s.dev.retired.filter fun ln => ps.any fun p => decide (p.1 ≤ 128 * ln) && decide (128 * ln + 128 ≤ p.1 + p.2)).foldl State.remapLine s

/-- RESTORE ends (R456).
(DESIGN CHOICE, log 62: unsafe.) -/
def State.endRestore (s : State) (c : Cmd) : State :=
  let back := s.modDev fun d => { d with dstate := .ready }
  match s.imageThere c with
  | some k => ({ back with mem := restorePages back.mem k.mem k.pages }.remapPages k.pages).endCommand c.seq 0
  | none => back.endCommand c.seq 6

/-- FWLOAD ends (R449, R450).
(DESIGN CHOICE, log 64: unsafe.) -/
def State.endFwload (s : State) (c : Cmd) : State :=
  let b := s.mem.readN (locHost c.addr.toNat) c.len.toNat
  let img := b.take (fwLength b)
  if !fwVerifies img then s.endCommand c.seq 3
  else if leAt img 8 4 < Config.fusedMinSvn then s.endCommand c.seq 4
  else if c.arg.getLsbD 0 then ((s.modDev fun d => { d with flash := img }).cold).endCommand c.seq 0
  else
    let s := s.modDev fun d => { d with running := img }
    (if c.came = .safe then
       s.modDev fun d => { d with dstate := .sounding, sound := List.replicate 8 0, sdetail := 0 } else s).endCommand c.seq 0

/-- COMMAND_COMPLETION (R443): the running command does what is left of it and ends. A checkpoint first waits for what is in
flight.
(DESIGN CHOICE, log 64: unsafe.) -/
def execCommandCompletion (s : State) : Out' :=
  match s.dev.mbox.running with
  | none => .next s
  | some c =>
    let s' := s.modMbox fun m => { m with running := none }
    if c.op = 0x02 then (if s.inFlight then .next s else .next (s'.endCheckpoint c))
    else if c.op = 0x03 then .next (s'.endRestore c)
    else if c.op = 0x04 then .next (s'.endFwload c)
    else if c.op = 0x05 then .next (s'.warm.endCommand c.seq 0)
    else .next (s'.cold.endCommand c.seq 0)

/-- FUNDAMENTAL_RESET (R446, R447): power is on and sounding starts. -/
def execFundamentalReset (s : State) : Out' := .next (s.boot Device.reset)

/-- The result of each sounding step when step `fail` fails (R447). -/
def soundSteps (fail : Option Nat) : List Nat :=
  (List.range 8).map fun i => match fail with
    | none => 1
    | some k => if i < k then 1 else if i = k then 2 else 0

/-- The state that sounding leaves (R445, R447, R456): the pattern test has written all of HBM, and both clocks start at 0. -/
def State.endSounding (s : State) (fail : Option Nat) (detail : Word) : State :=
  let tested := match fail with
    | none => true
    | some k => decide (4 ≤ k)
  let s := if tested then s.dev.retired.foldl State.remapLine { s with mem := s.mem.scramble } else s
  let s := s.modDev fun d =>
    { d with dstate := if fail.isNone then .ready else .safe, sound := soundSteps fail, sdetail := if fail.isNone then 0 else detail }
  { s with rtime := 0, ptime := 0 }.raise 0

/-- SOUNDING_COMPLETE (R447): `fail` is the first step found to fail, 1 to 7; step 0 fails where the boot ROM refuses the
image.
(DESIGN CHOICE, log 64: unsafe.) -/
def execSoundingComplete (fail : Option Nat) (detail : Word) (s : State) : Out' :=
  if s.dev.dstate ≠ .sounding then .next s
  else if !fwAccepted s.dev.running then .next (s.endSounding (some 0) detail)
  else
    match fail with
    | none => .next (s.endSounding none detail)
    | some k => if k = 0 ∨ 7 < k then .next s else .next (s.endSounding (some k) detail)

/-- Code of a device state (R445). -/
def DState.code : DState → Nat
  | .sounding => 0 | .ready => 1 | .safe => 2 | .contained => 3 | .checkpoint => 4 | .restore => 5

/-- Code of a lock state (R454 TLOCK). -/
def Lock.code : Lock → Nat
  | .free => 0 | .acquiring => 1 | .locked => 2 | .holdover => 3

/-- QSTAT.BUSY (R346): a launch of the queue has still to write its entry.
(DEDUCED, log 72: unsafe.) -/
def State.queueBusy (s : State) (q : Nat) : Bool :=
  !(s.queueAt q).held.isEmpty || s.launches.any fun kv => kv.2.queue == q && kv.2.status.open_

/-- A queue's byte in the survey (R454 QSTATE). -/
def State.queueState (s : State) (q : Nat) : Nat :=
  let x := s.queueAt q
  let b (v : Bool) (i : Nat) : Nat := if v then 2 ^ i else 0
  b x.en 0 + b (s.queueBusy q) 1 + b x.blocked 2 + b x.cplFull 3 + b x.kill 4 + 32 * (x.dclass % 8)

/-- A context's state in the survey (R454 CTXST). -/
def State.ctxState (s : State) (c : Nat) : Nat :=
  let x := s.ctxAt c
  if !x.exists_ then 0
  else if x.stopped then 3
  else if s.crews.any fun kv => kv.2.status == .evicted && (s.launchAt kv.2.launch).ctx == c then 2
  else 1

/-- The first 0x200 bytes of the survey record (R454). -/
def State.surveyHead (s : State) : List Byte :=
  let d := s.dev
  let lots := s.openLots
  let fold := sumList ((SMap.vals s.launches).map fun x => if x.status = .committed then x.pages else 0)
  let pend := ((SMap.vals s.eops).filter fun o => o.outcome.isNone && (match o.kind with
    | .cboard _ _ _ => true
    | _ => false)).length
  let sound := sumList ((List.range 8).map fun i => d.sound.getD i 0 * 4 ^ i)
  bytesOf 4 (d.mbox.sseq + 1).toNat ++ bytesOf 2 7 ++ bytesOf 2 1 ++ bytesOf 1 d.dstate.code ++ bytesOf 1 d.ptp.lock.code ++
  bytesOf 2 sound ++ bytesOf 4 d.sdetail.toNat ++ bytesOf 8 s.rtime.toNat ++ bytesOf 8 s.ptime.toNat ++
  bytesOf 8 s.devFeat.toNat ++ bytesOf 4 (leAt d.running 4 4) ++ bytesOf 4 (leAt d.running 8 4) ++
  sha384 d.running ++ bytesOf 32 0 ++
  (List.range 16).flatMap (fun i => bytesOf 8 (d.counters.getD i 0)) ++ bytesOf 8 fold ++ bytesOf 8 (s.pagesHeld - fold) ++
  bytesOf 2 lots.length ++ bytesOf 2 s.slots.length ++ bytesOf 2 pend ++
  bytesOf 2 (s.ctxs.filter fun kv => kv.2.exists_).length ++ bytesOf 8 (sumList ((SMap.vals s.slots).map (·.version))) ++
  bytesOf 224 0

/-- The survey record (R454). -/
def State.surveyRecord (s : State) : List Byte :=
  let lots := s.openLots
  s.surveyHead ++ (List.range 1024).map (fun q => BitVec.ofNat 8 (s.queueState q)) ++
  (List.range 256).flatMap (fun i => bytesOf 4 ((lots.map fun x => x.lot.toNat).getD i 0)) ++
  (List.range 1024).map (fun c => BitVec.ofNat 8 (sumList ((List.range 4).map fun j => s.ctxState (4 * c + j) * 4 ^ j))) ++
  (List.range 512).map fun k =>
    BitVec.ofNat 8 (sumList ((List.range 8).map fun j => if (SMap.get? s.slots (8 * k + j)).isSome then 2 ^ j else 0))

/-- An SDOOR write (R443): ignored while SADDR is 0. -/
def State.surveyDoor (s : State) : State :=
  if s.dev.mbox.saddr = 0 then s else s.modMbox fun m => { m with surveys := m.surveys + 1 }

/-- SURVEY (R454): a survey that has been asked for is delivered to SADDR, then SSEQ counts it. -/
def execSurvey (s : State) : Out' :=
  let m := s.dev.mbox
  if m.surveys = 0 then .next s
  else
    let s' := { s with mem := s.mem.writeN (locHost m.saddr.toNat) s.surveyRecord }
    .next (s'.modMbox fun m => { m with surveys := m.surveys - 1, sseq := m.sseq + 1 })

/-- A line of HBM with an uncorrectable error is retired, counted and announced (R452).
(DESIGN CHOICE, log 35: safe.) -/
def State.retireLine (s : State) (addr : Nat) : State :=
  if hbmSize ≤ addr ∨ s.dev.retired.contains (lineOf addr) then s
  else (((s.modDev fun d => { d with retired := d.retired ++ [lineOf addr] }).count 1).count 4).raise 0

/-- HBM_SCRUB (R451, R452): corrected errors are counted, and lines with uncorrectable ones are retired.
(DESIGN CHOICE, log 35: safe.) -/
def execHbmScrub (corrected : Nat) (bad : List Nat) (s : State) : Out' :=
  if s.dev.dstate = .sounding then .next s
  else
    let s := if corrected = 0 then s else s.setCount 0 (s.dev.counters.getD 0 0 + corrected)
    .next (bad.foldl State.retireLine s)

/-- A port that containment stops (R453): all but those that carry checkpoints. -/
def Port.contained (p : Port) : Port := if p.ckpt then p else { p with en := false, up := false, lanes := 0 }

/-- Abort every uncommitted lot with ABORT_MCHK, without replay (R453). -/
def State.abortAll (s : State) : State :=
  (SMap.keys (s.launches.filter fun kv => kv.2.lot ≠ 0 && kv.2.status.open_)).foldl
    (fun s l => s.abortLot l 0x03 0x01 0 false) s

/-- Completion entries that waited for engine operations are written at a containment: a contained device performs no more of those
(R453). -/
def State.endAll (s : State) : State :=
  (s.launches.filter fun kv => kv.2.ending.isSome).foldl (fun s kv => match kv.2.ending with
    | some (status, cause, code) => s.writeEnd kv.1 status cause code
    | none => s) s

/-- A checkpoint that is cut short leaves an image without a header (R455): how far it got is open. -/
def State.spoil (s : State) (c : Cmd) : State :=
  let k := s.image c
  let s := s.take.2
  if c.ports then { s with ckpts := s.ckpts.filter fun (x : Ckpt) => !(x.ports && x.place == k.place) }
  else { s with mem := s.mem.writeN (locHost k.place) (k.bytes.take c.len.toNat) }

/-- A checkpoint or restore under way ends with IOERR (R455). -/
def State.failCommand (s : State) : State :=
  match s.dev.mbox.running with
  | some c =>
    if c.op = 0x02 ∨ c.op = 0x03 then
      ((if c.op = 0x02 then s.spoil c else s).modMbox fun m => { m with running := none }).endCommand c.seq 6
    else s
  | none => s

/-- FATAL_ERROR_CONTAINMENT (R453).
(DEDUCED, log 67: unsafe.) -/
def execFatalErrorContainment (s : State) : Out' :=
  let d := s.dev.dstate
  if d ≠ .ready && d ≠ .checkpoint && d ≠ .restore then .next s
  else
    let s := s.abortAll.endAll
    let s := s.modDev fun d => { d with ports := SMap.mapVals (fun _ p => p.contained) d.ports, dstate := .contained }
    .next ((s.count 12).raise 0).failCommand

/-- THERMAL_THROTTLE (R457): the die's arithmetic clock steps down.
(DESIGN CHOICE, log 70: unsafe.) -/
def execThermalThrottle (die : Nat) (s : State) : Out' :=
  .next (if 4 ≤ die ∨ s.dev.throttled.contains die then s else s.modDev fun d => { d with throttled := d.throttled ++ [die] })

/-- THROTTLE_END (R457). -/
def execThrottleEnd (die : Nat) (s : State) : Out' :=
  .next (s.modDev fun d => { d with throttled := d.throttled.filter (· ≠ die) })

/-- HBM_STACK_TEMPERATURE_CHANGE (R458): which stacks refresh twice as often. -/
def execHbmStackTemperatureChange (stack : Nat) (hot : Bool) (s : State) : Out' :=
  .next (if 8 ≤ stack then s else s.modDev fun d =>
    { d with hotStacks := if hot then stack :: d.hotStacks.filter (· ≠ stack) else d.hotStacks.filter (· ≠ stack) })

/-- Whether a running FWLOAD writes flash: COMMIT is 1 and its image passes the checks (R450).
(DESIGN CHOICE, log 64: unsafe.) -/
def State.writesFlash (s : State) (c : Cmd) : Bool :=
  let b := s.mem.readN (locHost c.addr.toNat) c.len.toNat
  c.op == 0x04 && c.arg.getLsbD 0 && fwAccepted (b.take (fwLength b))

/-- POWER_LOSS (R450): all work ends, HBM is lost, and a flash write under way leaves an image that fails step 0; whether a FWLOAD
had begun its write is a free value. -/
def execPowerLoss (s : State) : Out' :=
  let (w, s) := s.freeWord
  let writing := w.msb && s.dev.mbox.running.any s.writesFlash
  let s := if writing then s.modDev fun d => { d with flash := [] } else s
  .next ({ s with mem := s.mem.scramble }.boot { Device.reset with power := false })

end Sys2Proof.Machine
end

