-- ==== Sys2Proof/Machine/Bar.lean ====
section
/-! DEFINITION. The register windows of BAR0 (R421), HBM through BAR2 (R420, R422, R452), configuration and SPDM requests (R424,
R446), the fabric (R425 to R429) and the network on chip (R432, R433). -/

namespace Sys2Proof.Machine

/-- A block of registers in BAR0 (R421), or the MSI-X table or its pending bits in BAR4 (R420). -/
inductive Blk
  | queue (q : Nat)
  | ctx (c : Nat)
  | die (d : Nat)
  | vector (c : Nat)
  | device
  | port (p : Nat)
  | window (i : Nat)
  | group (i : Nat)
  | route (d : Nat)
  | clock
  | output (o : Nat)
  | mailbox
  | msix (i : Nat)
  | pending (i : Nat)
  deriving DecidableEq, Repr

/-- The block of an offset and the offset in it (R421, R425, R427, R429, R437, R439). Offsets from 32 MiB on stand for BAR4. -/
def blockAt (off : Nat) : Option (Blk × Nat) :=
  if off < 0x10000 then some (.queue (off / 64), off % 64)
  else if 0x100000 ≤ off ∧ off < 0x200000 then some (.ctx ((off - 0x100000) / 256), off % 256)
  else if 0x200000 ≤ off ∧ off < 0x204000 then some (.die ((off - 0x200000) / 4096), off % 4096)
  else if 0x210000 ≤ off ∧ off < 0x214000 then some (.vector ((off - 0x210000) / 4), off % 4)
  else if 0x220000 ≤ off ∧ off < 0x221000 then some (.device, off - 0x220000)
  else if 0x230000 ≤ off ∧ off < 0x230400 then some (.port ((off - 0x230000) / 64), off % 64)
  else if 0x231000 ≤ off ∧ off < 0x231800 then some (.window ((off - 0x231000) / 32), off % 32)
  else if 0x232000 ≤ off ∧ off < 0x234000 then some (.group ((off - 0x232000) / 32), off % 32)
  else if 0x234000 ≤ off ∧ off < 0x236000 then some (.route ((off - 0x234000) / 2), off % 2)
  else if 0x240000 ≤ off ∧ off < 0x240100 then some (.clock, off - 0x240000)
  else if 0x240100 ≤ off ∧ off < 0x240200 then some (.output ((off - 0x240100) / 64), off % 64)
  else if 0x300000 ≤ off ∧ off < 0x301000 then some (.mailbox, off - 0x300000)
  else if 0x2000000 ≤ off ∧ off < 0x2008000 then some (.msix ((off - 0x2000000) / 4), off % 4)
  else if 0x2008000 ≤ off ∧ off < 0x2008100 then some (.pending ((off - 0x2008000) / 8), off % 8)
  else none

/-- Offsets and sizes of a block's registers. -/
def Blk.regs : Blk → List (Nat × Nat)
  | .queue _ => [(0x00, 4), (0x04, 4), (0x08, 8), (0x10, 8), (0x18, 8), (0x20, 4), (0x24, 4), (0x28, 4), (0x2C, 4), (0x30, 4)]
  | .ctx _ =>
    [(0x00, 8), (0x08, 8), (0x10, 8), (0x18, 8), (0x20, 4), (0x28, 4), (0x2C, 4), (0x30, 8), (0x38, 8), (0x40, 8), (0x48, 8),
     (0x50, 8), (0x58, 8), (0x60, 8), (0x68, 8), (0x70, 8), (0x78, 8), (0x80, 8), (0x88, 8), (0x90, 8), (0x98, 8), (0xA0, 4),
     (0xA4, 4), (0xA8, 4), (0xAC, 4), (0xB0, 8), (0xB8, 8), (0xC0, 8)]
  | .die _ => [(0x00, 8), (0x08, 4), (0x0C, 4), (0x10, 4), (0x18, 8), (0x20, 4)]
  | .vector _ => [(0, 4)]
  | .device => [(0x00, 4), (0x08, 1), (0x09, 1), (0x0A, 1), (0x0B, 1), (0x0C, 1), (0x0D, 1), (0x0E, 1), (0x10, 4)]
  | .port _ => [(0x00, 4), (0x04, 4), (0x08, 8)]
  | .window _ => [(0x00, 8), (0x08, 8), (0x10, 4), (0x14, 2), (0x16, 2)]
  | .group _ => [(0x00, 2), (0x02, 1), (0x03, 1), (0x04, 4), (0x08, 8)]
  | .route _ => [(0, 2)]
  | .clock => [(0x00, 4), (0x04, 4), (0x08, 4), (0x0C, 4), (0x10, 8), (0x18, 4), (0x1C, 4), (0x20, 4), (0x28, 8), (0x30, 8), (0x38, 4)]
  | .output _ => [(0x00, 4), (0x04, 4), (0x08, 8), (0x10, 4), (0x14, 4), (0x18, 4), (0x1C, 4), (0x20, 8), (0x28, 8), (0x30, 4)]
  | .mailbox =>
    [(0x00, 4), (0x04, 4), (0x08, 8), (0x10, 8), (0x18, 8), (0x20, 4), (0x24, 4), (0x28, 4), (0x2C, 4), (0x30, 8), (0x38, 4), (0x3C, 4)]
  | .msix _ => [(0, 4)]
  | .pending _ => [(0, 8)]

/-- A flag as a bit. -/
def flagAt (b : Bool) (i : Nat) : Nat := if b then 2 ^ i else 0

/-- A queue register as it reads (R346, R347). -/
def State.queueReg (s : State) (q r : Nat) : Nat :=
  let x := s.queueAt q
  match r with
  | 0x00 => flagAt x.en 31 + flagAt x.kill 30 + x.prio * 2 ^ 27 + x.dclass * 2 ^ 24 + x.replay * 2 ^ 20 + x.sublog * 2 ^ 16 +
      x.cpllog * 2 ^ 12
  | 0x08 => x.sub.toNat
  | 0x10 => x.cpl.toNat
  | 0x18 => x.fall.toNat
  | 0x20 => x.head.toNat
  | 0x24 => x.ctail.toNat
  | 0x28 => x.ctx
  | 0x2C => flagAt (s.queueBusy q) 0 + flagAt x.blocked 1 + flagAt x.cplFull 2 + flagAt x.cplerr 3
  | _ => 0

/-- Write a queue register (R346). -/
def State.setQueueReg (s : State) (q r v : Nat) : State :=
  let w := BitVec.ofNat 32 v
  let d := BitVec.ofNat 64 v
  let put (f : Queue → Queue) : State := if s.deaf || (s.queueAt q).en then s else s.modQueue q f
  match r with
  | 0x00 => s.writeQcfg q w
  | 0x04 => s.writeDoor q w
  | 0x08 => put fun x => { x with sub := d }
  | 0x10 => put fun x => { x with cpl := d }
  | 0x18 => put fun x => { x with fall := d }
  | 0x28 => put fun x => { x with ctx := v }
  | 0x30 => s.writeQchead q w
  | _ => s

/-- A context register as it reads (R390, R394). -/
def State.ctxReg (s : State) (c r : Nat) : Nat :=
  let x := s.ctxAt c
  match r with
  | 0x00 => x.ptroot.toNat
  | 0x08 => x.saveBase.toNat
  | 0x10 => x.saveSize.toNat
  | 0x18 => x.invva.toNat
  | 0x20 => x.invSize + flagAt x.invDone 31
  | 0x28 => flagAt x.dbgAttach 0 + flagAt x.mbox 1 + flagAt x.attErr 2 + flagAt x.wpErr 3
  | 0x38 => x.mbaddr.toNat
  | 0xA0 => flagAt x.exists_ 0 + flagAt x.dbgPriv 1
  | 0xA4 => x.wkey.toNat
  | 0xA8 => x.cquota.toNat
  | 0xAC => x.wdog.toNat
  | 0xB0 => x.featc.toNat
  | 0xB8 => x.localBase.toNat
  | 0xC0 => x.localStride.toNat
  | _ =>
    if 0x40 ≤ r ∧ r < 0x80 then (x.bps.getD ((r - 0x40) / 8) 0).toNat
    else if 0x80 ≤ r ∧ r < 0xA0 then (x.wps.getD ((r - 0x80) / 8) 0).toNat
    else 0

/-- Write a context register (R390, R391, R395). -/
def State.setCtxReg (s : State) (c r v : Nat) : State :=
  let w := BitVec.ofNat 32 v
  let d := BitVec.ofNat 64 v
  let fixed (f : Ctx → Ctx) : State := if (s.ctxAt c).exists_ then s else s.modCtx c f
  match r with
  | 0x00 => fixed fun x => { x with ptroot := d }
  | 0x08 => fixed fun x => { x with saveBase := d }
  | 0x10 => fixed fun x => { x with saveSize := d }
  | 0x18 => s.modCtx c fun x => { x with invva := d }
  | 0x20 => s.writeInvctl c w
  | 0x28 => s.writeDbgctl c w
  | 0x2C => s.writeDbgdoor c
  | 0x30 => s.writeHaltreq c d
  | 0x38 => s.modCtx c fun x => { x with mbaddr := d }
  | 0xA0 => if (s.ctxAt c).exists_ then (if w.getLsbD 0 then s else s.destroyCtx c) else s.createCtx c w
  | 0xA4 => fixed fun x => { x with wkey := w }
  | 0xA8 => fixed fun x => { x with cquota := w }
  | 0xAC => fixed fun x => { x with wdog := w }
  | 0xB0 => fixed fun x => { x with featc := d }
  | 0xB8 => fixed fun x => { x with localBase := d }
  | 0xC0 => fixed fun x => { x with localStride := d }
  | _ =>
    if 0x40 ≤ r ∧ r < 0x80 then s.modCtx c fun x => { x with bps := x.bps.set ((r - 0x40) / 8) (d &&& 0x000FFFFFFFFFFFF1) }
    else if 0x80 ≤ r ∧ r < 0xA0 then s.writeWp c ((r - 0x80) / 8) d
    else s

/-- A die register as it reads (R392). -/
def State.dieReg (s : State) (die r : Nat) : Nat :=
  let x := s.ringAt die
  match r with
  | 0x00 => x.base.toNat
  | 0x08 => x.log + 16 * x.vec + flagAt x.en 31
  | 0x0C => x.tail.toNat
  | _ => 0

/-- Write a die register (R392). -/
def State.setDieReg (s : State) (die r v : Nat) : State :=
  match r with
  | 0x00 => s.modRing die fun x => { x with base := BitVec.ofNat 64 v }
  | 0x08 => (s.modRing die fun x => { x with log := fieldN v 0 4, vec := fieldN v 4 11, en := testN v 31 }).writeBatches die s.batches
  | 0x10 => s.writeFrhead die (BitVec.ofNat 32 v)
  | 0x18 => s.modRing die fun x => { x with mask := BitVec.ofNat 64 v }
  | 0x20 => s.writeFresp die (fieldN v 0 16)
  | _ => s

/-- Whether every port has EN = 0 (R422 FABID). -/
def State.portsOff (s : State) : Bool := s.dev.ports.all fun kv => !kv.2.en

/-- Write a device register (R422). -/
def State.setDeviceReg (s : State) (r v : Nat) : State :=
  if r = 0x00 then s.modDev fun d => { d with rampcfg := fieldN v 0 2 }
  else if r = 0x10 then (if s.portsOff then s.modDev fun d => { d with fabid := fieldN v 0 12 } else s)
  else if 0x08 ≤ r ∧ r < 0x0F then
    (let shares := s.dev.dshare.set (r - 8) v
     if sumList shares ≤ 100 then s.modDev fun d => { d with dshare := shares } else s)
  else s

/-- A device register as it reads (R422). -/
def State.deviceReg (s : State) (r : Nat) : Nat :=
  if r = 0x00 then s.dev.rampcfg else if r = 0x10 then s.dev.fabid
  else if 0x08 ≤ r ∧ r < 0x0F then s.dev.dshare.getD (r - 8) 0 else 0

/-- A port register as it reads (R425). -/
def State.portReg (s : State) (p r : Nat) : Nat :=
  let x := SMap.getD s.dev.ports p Port.reset
  match r with
  | 0x00 => flagAt x.en 0 + flagAt x.ckpt 1
  | 0x04 => flagAt x.up 0 + x.lanes * 256
  | 0x08 => sumList ((List.range 7).map fun i => x.rs.getD i 0 * 256 ^ i)
  | _ => 0

/-- Whether a port may be enabled in the device's state (R445, R446). -/
def State.portMayRun (s : State) (ckpt : Bool) : Bool := !s.deaf && (ckpt || s.dev.dstate != .contained)

/-- Write a port register (R425). -/
def State.setPortReg (s : State) (p r v : Nat) : State :=
  let x := SMap.getD s.dev.ports p Port.reset
  let put (y : Port) : State := s.modDev fun d => { d with ports := SMap.put d.ports p y }
  match r with
  | 0x00 =>
    let en := testN v 0 && s.portMayRun (testN v 1)
    put { x with en := en, ckpt := testN v 1, up := x.up && en, lanes := if en then x.lanes else 0 }
  | 0x08 =>
    let rs := (List.range 7).map fun i => fieldN v (8 * i) 8
    if sumList rs ≤ 160 then put { x with rs := rs } else s
  | _ => s

/-- A reduction window as it comes out of reset (R427). -/
def Window.reset : Window := { base := 0, size := 0, ctx := 0, wid := 0, home := 0, en := false }

/-- A collective group as it comes out of reset (R429). -/
def CGroup.reset : CGroup := { grp := 0, sizem1 := 0, en := false, ctx := 0, members := 0 }

def State.windowReg (s : State) (i r : Nat) : Nat :=
  let x := SMap.getD s.dev.windows i Window.reset
  match r with
  | 0x00 => x.base.toNat
  | 0x08 => x.size.toNat
  | 0x10 => x.ctx
  | 0x14 => x.wid
  | 0x16 => x.home + flagAt x.en 15
  | _ => 0

/-- Write a field of the window table (R427). -/
def State.setWindowReg (s : State) (i r v : Nat) : State :=
  let put (f : Window → Window) : State :=
    s.modDev fun d => { d with windows := SMap.put d.windows i (f (SMap.getD d.windows i Window.reset)) }
  match r with
  | 0x00 => put fun x => { x with base := BitVec.ofNat 64 v }
  | 0x08 => put fun x => { x with size := BitVec.ofNat 64 v }
  | 0x10 => put fun x => { x with ctx := v }
  | 0x14 => put fun x => { x with wid := v }
  | 0x16 => put fun x => { x with home := fieldN v 0 12, en := testN v 15 }
  | _ => s

def State.groupReg (s : State) (i r : Nat) : Nat :=
  let x := SMap.getD s.dev.groups i CGroup.reset
  match r with
  | 0x00 => x.grp
  | 0x02 => x.sizem1
  | 0x03 => flagAt x.en 0
  | 0x04 => x.ctx
  | 0x08 => x.members.toNat
  | _ => 0

/-- Write a field of the group table (R429). -/
def State.setGroupReg (s : State) (i r v : Nat) : State :=
  let put (f : CGroup → CGroup) : State :=
    s.modDev fun d => { d with groups := SMap.put d.groups i (f (SMap.getD d.groups i CGroup.reset)) }
  match r with
  | 0x00 => put fun x => { x with grp := v }
  | 0x02 => put fun x => { x with sizem1 := v }
  | 0x03 => put fun x => { x with en := testN v 0 }
  | 0x04 => put fun x => { x with ctx := v }
  | 0x08 => put fun x => { x with members := BitVec.ofNat 64 v }
  | _ => s

/-- A PTP register as it reads (R437). -/
def State.clockReg (s : State) (r : Nat) : Nat :=
  let p := s.dev.ptp
  if !s.hasBoard then 0
  else match r with
  | 0x00 => p.tcfg.toNat
  | 0x04 => p.tip.toNat
  | 0x08 => p.tmask.toNat
  | 0x0C => p.tgw.toNat
  | 0x10 => p.tmac.toNat
  | 0x18 => p.tuni.toNat
  | 0x1C => p.tint.toNat
  | 0x20 => p.lock.code + flagAt p.master 2
  | 0x28 => p.toff.toNat
  | 0x30 => p.tgm.toNat
  | 0x38 => p.tstep.toNat
  | _ => 0

/-- Write a PTP register (R437): only while TCFG.EN is 0. -/
def State.setClockReg (s : State) (r v : Nat) : State :=
  let w := BitVec.ofNat 32 v
  if !s.hasBoard || s.dev.ptp.en then s
  else match r with
  | 0x00 => s.writeTcfg w
  | 0x04 => s.modPtp fun p => { p with tip := w }
  | 0x08 => s.modPtp fun p => { p with tmask := w }
  | 0x0C => s.modPtp fun p => { p with tgw := w }
  | 0x10 => s.modPtp fun p => { p with tmac := BitVec.ofNat 64 (v % 2 ^ 48) }
  | 0x18 => s.modPtp fun p => { p with tuni := w }
  | 0x1C => s.modPtp fun p => { p with tint := w }
  | _ => s

/-- An output register as it reads (R439). -/
def State.outputReg (s : State) (o r : Nat) : Nat :=
  let x := s.output o
  if !s.hasBoard then 0
  else match r with
  | 0x00 => x.ocfg.toNat
  | 0x04 => x.osize.toNat
  | 0x08 => x.pnum.toNat
  | 0x10 => x.pden.toNat
  | 0x14 => x.moff.toNat
  | 0x18 => x.ofs.toNat
  | 0x1C => x.tot.toNat
  | 0x20 => x.frame.toNat
  | 0x28 => x.cur.toNat
  | 0x30 => flagAt x.link 0 + flagAt x.xmiss 1 + flagAt x.badmeta 2
  | _ => 0

/-- Write an output register (R439): all but OSTAT only while EN is 0. -/
def State.setOutputReg (s : State) (o r v : Nat) : State :=
  let w := BitVec.ofNat 32 v
  let put (f : Output → Output) : State := if !s.hasBoard || (s.output o).en then s else s.modOutput o f
  match r with
  | 0x00 => s.writeOcfg o w
  | 0x04 => put fun x => { x with osize := w &&& 0x3FFF3FFF }
  | 0x08 => put fun x => { x with pnum := BitVec.ofNat 64 v }
  | 0x10 => put fun x => { x with pden := w }
  | 0x14 => put fun x => { x with moff := w }
  | 0x18 => put fun x => { x with ofs := w }
  | 0x1C => put fun x => { x with tot := w }
  | 0x30 => s.writeOstat o w
  | _ => s

/-- A mailbox register as it reads (R443). -/
def State.mailReg (s : State) (r : Nat) : Nat :=
  let m := s.dev.mbox
  match r with
  | 0x00 => m.cmd.toNat
  | 0x04 => m.cseq.toNat
  | 0x08 => m.addr.toNat
  | 0x10 => m.len.toNat
  | 0x18 => m.arg.toNat
  | 0x24 => m.rseq.toNat
  | 0x28 => m.rstat.toNat
  | 0x2C => s.dev.dstate.code
  | 0x30 => m.saddr.toNat
  | 0x3C => m.sseq.toNat
  | _ => 0

/-- Write a mailbox register (R443). -/
def State.setMailReg (s : State) (r v : Nat) : State :=
  let d := BitVec.ofNat 64 v
  match r with
  | 0x00 => s.modMbox fun m => { m with cmd := BitVec.ofNat 32 (fieldN v 0 8) }
  | 0x04 => s.modMbox fun m => { m with cseq := BitVec.ofNat 32 v }
  | 0x08 => s.modMbox fun m => { m with addr := d }
  | 0x10 => s.modMbox fun m => { m with len := d }
  | 0x18 => s.modMbox fun m => { m with arg := d }
  | 0x20 => s.door
  | 0x30 => if v % 4096 = 0 then s.modMbox fun m => { m with saddr := d } else s
  | 0x38 => s.surveyDoor
  | _ => s

/-- Four bytes of the MSI-X table as they read: a vector is masked until its control is written.
(PRESUMED, log 74: unsafe.) -/
def State.msixReg (s : State) (i : Nat) : Nat :=
  sumList ((List.range 4).map fun k =>
    (SMap.getD s.dev.msixTable (4 * i + k) (if (4 * i + k) % 16 = 12 then 1 else 0)).toNat * 256 ^ k)

/-- A pending vector whose mask is clear is raised (R420, R423). -/
def State.unmask (s : State) (vec : Nat) : State :=
  if s.masked vec || !s.dev.msixPending.contains vec then s
  else (s.modDev fun d => { d with msixPending := d.msixPending.filter (· ≠ vec) }).raise vec

/-- Write four bytes of the MSI-X table (R420).
(PRESUMED, log 74: unsafe.) -/
def State.setMsixReg (s : State) (i v : Nat) : State :=
  (s.modDev fun d =>
    { d with msixTable := (List.range 4).foldl (fun m k => SMap.put m (4 * i + k) (BitVec.ofNat 8 (fieldN v (8 * k) 8))) d.msixTable }).unmask
    (i / 4)

/-- Eight bytes of the pending-bit array as they read (R420).
(PRESUMED, log 74: unsafe.) -/
def State.pendingBits (s : State) (i : Nat) : Nat := maskOf ((List.range 64).filter fun k => s.dev.msixPending.contains (64 * i + k))

/-- A register as it reads; what is not listed reads 0 (R421). -/
def State.regRead (s : State) (b : Blk) (r : Nat) : Nat :=
  match b with
  | .queue q => s.queueReg q r
  | .ctx c => s.ctxReg c r
  | .die d => s.dieReg d r
  | .vector c => (s.ctxAt c).vector.toNat
  | .device => s.deviceReg r
  | .port p => s.portReg p r
  | .window i => s.windowReg i r
  | .group i => s.groupReg i r
  | .route d => SMap.getD s.dev.routes d 0
  | .clock => s.clockReg r
  | .output o => s.outputReg o r
  | .mailbox => s.mailReg r
  | .msix i => s.msixReg i
  | .pending i => s.pendingBits i

/-- Write a whole register. -/
def State.regWrite (s : State) (b : Blk) (r v : Nat) : State :=
  match b with
  | .queue q => s.setQueueReg q r v
  | .ctx c => s.setCtxReg c r v
  | .die d => s.setDieReg d r v
  | .vector c => s.modCtx c fun x => { x with vector := BitVec.ofNat 32 v &&& 0x87FF07FF }
  | .device => s.setDeviceReg r v
  | .port p => s.setPortReg p r v
  | .window i => s.setWindowReg i r v
  | .group i => s.setGroupReg i r v
  | .route d => s.modDev fun x => { x with routes := SMap.put x.routes d v }
  | .clock => s.setClockReg r v
  | .output o => s.setOutputReg o r v
  | .mailbox => s.setMailReg r v
  | .msix i => s.setMsixReg i v
  | .pending _ => s

/-- Bytes of a write that meet a register, laid over what the register reads.
(DEDUCED, log 76: unsafe.) -/
def spliceReg (old r n o width v : Nat) : Nat :=
  sumList ((List.range n).map fun i =>
    (if o ≤ r + i ∧ r + i < o + width then fieldN v (8 * (r + i - o)) 8 else fieldN old (8 * i) 8) * 256 ^ i)

/-- Blocks that some bytes meet, in ascending order, each with the offset at which it begins (R421). -/
def blocksMet (off width : Nat) : List (Blk × Nat) :=
  ((List.range width).filterMap fun i => (blockAt (off + i)).map fun b => (b.1, off + i - b.2)).dedup

/-- Write the bytes of a write that meet a block at an offset: each register that they meet takes its own (R421). -/
def State.blockWrite (off width v : Nat) (s : State) (b : Blk × Nat) : State :=
  (b.1.regs.filter fun r => decide (off < b.2 + r.1 + r.2) && decide (b.2 + r.1 < off + width)).foldl (fun s r =>
    s.regWrite b.1 r.1 (spliceReg (s.regRead b.1 r.1) (b.2 + r.1) r.2 off width v)) s

/-- A write to BAR0 (R421): the registers that it meets take its bytes, in ascending order; the rest is ignored.
(DEDUCED, log 76: unsafe.) -/
def State.barWrite (s : State) (off width : Nat) (v : DWord) : State :=
  (blocksMet off width).foldl (State.blockWrite off width v.toNat) s

/-- A byte of BAR0 as it reads; a byte not listed reads 0 (R421). -/
def State.barByte (s : State) (off : Nat) : Nat :=
  match blockAt off with
  | none => 0
  | some (b, o) => match b.regs.find? fun r => decide (r.1 ≤ o) && decide (o < r.1 + r.2) with
    | some r => fieldN (s.regRead b r.1) (8 * (o - r.1)) 8
    | none => 0

/-- REGISTER_WRITE (R421). -/
def execRegisterWrite (off width : Nat) (v : DWord) (s : State) : Out' := .next (s.barWrite off width v)

/-- Write the bytes of one line of HBM from outside (R422, R452): a retired line takes only a write of all its 128 bytes, which
remaps it where its slice has a spare row.
(DEDUCED, log 36: unsafe.) -/
def State.putLine (addr : Nat) (data : List Byte) (s : State) (line : Nat) : State :=
  let lo := max addr (128 * line)
  let hi := min (min (addr + data.length) (128 * line + 128)) hbmSize
  let s := if lo = 128 * line ∧ hi = 128 * line + 128 then s.remapLine line else s
  if s.dev.retired.contains line then s else { s with mem := s.mem.writeN lo ((data.drop (lo - addr)).take (hi - lo)) }

/-- Write HBM by physical address from outside; bytes above it are ignored (R420). -/
def State.putHbm (s : State) (addr : Nat) (data : List Byte) : State := (linesOf addr data.length).foldl (State.putLine addr data) s

/-- HOST_BAR2_WRITE (R420, R422, R445, R446).
(DEDUCED, log 67: unsafe.) -/
def execHostBar2Write (addr : Nat) (data : List Byte) (s : State) : Out' :=
  .next (if s.deaf || !s.writesOpen then s else s.putHbm addr data)

/-- Read HBM by physical address from outside: none on a retired line (R452). -/
def State.getHbm (s : State) (addr n : Nat) : Option (List Byte) :=
  if (linesOf addr n).any s.dev.retired.contains then none
  else some ((List.range n).map fun i => if addr + i < hbmSize then s.mem.read (addr + i) else 0)

/-- What a host read takes of one line, at one point of the perform order (R320, R446, R452). -/
def State.readLine (s : State) (addr n : Nat) : State :=
  if s.deaf then s.send (.readData (List.replicate n 0))
  else match s.getHbm addr n with
    | some b => s.send (.readData b)
    | none => s.send .completerAbort

/-- HOST_BAR2_READ (R320, R420, R446, R452): a read is split at line boundaries. Its first line is read now, and what is left of it
is a read of its own that happens later. -/
def execHostBar2Read (addr n : Nat) (s : State) : Out' :=
  let k := min n (128 - addr % 128)
  let s := { s with hostReads := s.hostReads.erase (addr, n) }
  let s := if k < n then { s with hostReads := s.hostReads ++ [(addr + k, n - k)] } else s
  .next (s.readLine addr k)

/-- CONFIGURATION_REQUEST (R446). -/
def execConfigurationRequest (reg : Nat) (s : State) : Out' := .next (s.send (.config (Config.configSpace reg)))

/-- An unsigned SPDM 1.3 response to a request code (R424). -/
def spdmPlain (code : Nat) (algorithm : Option SigAlg) (args : List Nat) : Spdm :=
  { code := code, major := 1, minor := 3, algorithm := algorithm, body := Config.spdmBody code args, ed25519 := [], mlDsa65 := [] }

/-- A signed SPDM 1.3 response (R424): an Ed25519 signature, and an ML-DSA-65 signature of the same transcript, which are values
that the spec cannot state. -/
def State.sendSigned (s : State) (m : Spdm) : State :=
  let sig (k n : Nat) : List Byte := (List.range n).map (Config.signatureByte (s.free + k))
  { s with free := s.free + 2 }.send (.spdm { m with ed25519 := sig 0 64, mlDsa65 := sig 1 3309 })

/-- GET_VERSION (R424). -/
def execGetVersion (s : State) : Out' := .next (s.send (.spdm (spdmPlain 0x84 none [])))

/-- GET_CAPABILITIES (R424). -/
def execGetCapabilities (s : State) : Out' := .next (s.send (.spdm (spdmPlain 0xE1 none [])))

/-- NEGOTIATE_ALGORITHMS (R424): Ed25519 is selected. -/
def execNegotiateAlgorithms (s : State) : Out' := .next (s.send (.spdm (spdmPlain 0xE3 (some .ed25519) [])))

/-- GET_DIGESTS (R424). -/
def execGetDigests (s : State) : Out' := .next (s.send (.spdm (spdmPlain 0x81 none [])))

/-- GET_CERTIFICATE (R424). -/
def execGetCertificate (slot off len : Nat) (s : State) : Out' := .next (s.send (.spdm (spdmPlain 0x82 none [slot, off, len])))

/-- CHALLENGE (R424): the response is signed. -/
def execChallenge (slot : Nat) (nonce : List Byte) (s : State) : Out' :=
  .next (s.sendSigned (spdmPlain 0x83 none (slot :: nonce.map BitVec.toNat)))

/-- The measurements of the firmware that runs (R424, R449, R450): FAMILY, REVISION, FWVER, SVN and FWMEAS. -/
def State.measurements (s : State) : List Byte :=
  let f := s.dev.running
  bytesOf 2 7 ++ bytesOf 2 1 ++ bytesOf 4 (leAt f 4 4) ++ bytesOf 4 (leAt f 8 4) ++ sha384 f

/-- GET_MEASUREMENTS (R424, R450): the response is signed. -/
def execGetMeasurements (idx : Nat) (s : State) : Out' :=
  .next (s.sendSigned { spdmPlain 0xE0 none [idx] with body := s.measurements ++ Config.spdmBody 0xE0 [idx] })

/-- Whether a port takes requests (R425, R445). -/
def State.portServes (s : State) (port : Nat) : Bool :=
  let p := SMap.getD s.dev.ports port Port.reset
  decide (port < 16) && p.en && p.up && !p.ckpt && s.writesOpen

/-- A response to a request on the port it came by (R426), on VC1 (R425). -/
def State.respond (s : State) (port src : Nat) (b : Option (List Byte)) : State :=
  s.send (.fabric port 1 src (.response 0 (match b with
    | some l => l
    | none => [])))

/-- FABRIC_REQUEST (R387, R426, R429): a peer reads, writes or changes HBM by physical address, or sends its part of a
collective. An atomic carries no FLUSH: it is off.
(DEDUCED, log 78: safe.)
(DESIGN CHOICE, log 105: unsafe.) -/
def execFabricRequest (port src : Nat) (req : FabReq) (s : State) : Out' :=
  if !s.portServes port then .next s
  else match req with
  | .read addr n => .next (s.respond port src (s.getHbm addr n))
  | .write addr data => .next (s.putHbm addr data)
  | .atomic addr op ty b c =>
    let n := tyBytes ty
    (match s.getHbm addr n with
     | none => .next (s.respond port src none)
     | some old =>
       let x := ofBytes old
       let s := if atomicWrites op x c.toNat then s.putHbm addr (bytesOf n (atomicNew false op ty x b.toNat c.toNat)) else s
       .next (s.respond port src (some old)))
  | .collective ctx grp inst rank count op ty size data =>
    let p : CollPart := { ctx := ctx, grp := grp, inst := inst, rank := rank, count := count, op := op, ty := ty, size := size, data := data }
    .next (({ s with collIn := s.collIn ++ [p] }.collCheck p).collResolve ctx grp inst)
  | .response _ _ => .next s

/-- WINDOW_PACKET_ARRIVAL (R321, R428): the home applies a packet, merged or not, as one reduction, once its page translates.
(DEDUCED, log 78: safe.) -/
def execWindowPacketArrival (wid off : Nat) (op : AOp) (ty : Ty) (_count : Nat) (operand : DWord) (s : State) : Out' :=
  match s.homeWindow wid with
  | none => .next s
  | some w =>
    if s.deaf || !s.writesOpen || !windowOp op || !windowTy ty || decide (w.size.toNat < off + tyBytes ty) then .next s
    else
      let (n, s) := s.take
      .next ({ s with packets := SMap.put s.packets n { wid := wid, off := off, op := op, ty := ty, operand := operand } }.applyPacket n)

/-- Subnetworks of a mesh that have power, as a mask; subnetwork 0 always has (R432). -/
def State.meshPower (s : State) (mesh : Nat) : Nat := SMap.getD s.dev.subnets mesh 1

/-- SUBNETWORK_POWER_UP (R432): the next subnetwork of the mesh. -/
def execSubnetworkPowerUp (mesh : Nat) (s : State) : Out' :=
  match [1, 2, 3].find? fun n => !testN (s.meshPower mesh) n with
  | some n => .next (if 8 ≤ mesh then s else s.modDev fun d => { d with subnets := SMap.put d.subnets mesh (s.meshPower mesh + 2 ^ n) })
  | none => .next s

/-- SUBNETWORK_POWER_DOWN (R432). -/
def execSubnetworkPowerDown (mesh n : Nat) (s : State) : Out' :=
  .next (if 8 ≤ mesh ∨ n = 0 ∨ 3 < n ∨ !testN (s.meshPower mesh) n then s
    else s.modDev fun d => { d with subnets := SMap.put d.subnets mesh (s.meshPower mesh - 2 ^ n) })

/-- ESCAPE_DIVERSION (R430, R433): only the count can be observed; packets of VC2 are never diverted. -/
def execEscapeDiversion (_src : Nat) (dst : Hop) (s : State) : Out' := .next (if dst.vc = 2 then s else s.count 8)

end Sys2Proof.Machine
end

