-- ==== Sys2Proof/Machine/Convert.lean ====
section
/-! DEFINITION. Conversions, packing and scaling (R168 to R173), and the integer-to-integer rule (R127). A result is a
code, or none where policy TRAP faults ARITH in the lane. -/

namespace Sys2Proof.Machine

/-- Integer to integer (R127). -/
def intToInt (x : Int) (w : Nat) (sgn : Bool) (p : Pol) : Option Int :=
  if minT w sgn ≤ x ∧ x ≤ maxT w sgn then some x
  else match p with
    | .sat => some (saturate true w sgn x)
    | .trap => none
    | _ => some x

/-- True of an integer format. -/
def Fmt.isInt : Fmt → Bool
  | .int _ _ => true
  | _ => false

/-- Byte `k` of a scale register (R120). -/
def scaleByte (v k : Nat) : Nat := fieldN v (8 * k) 8

/-- A converted code as it fills its destination (R168). -/
def convWords (f : Fmt) (d : Opd) (code : Nat) : List (Res × Word) :=
  match f with
  | .int g w => writeInt w g d (readInt w g code)
  | _ => dstWords 32 d code

/-- ARITH where a conversion has no result. -/
def orArith (r : Option Nat) : Except Cause Nat :=
  match r with
  | some c => .ok c
  | none => .error .arith

/-- CVT's result (R169): source code, random bits, scale byte.
(DESIGN CHOICE, log 87: unsafe.) -/
def cvtValue (flush : Bool) (ty sty : Ty) (rm : Rm) (pol : Pol) (m : FMods) (x r : Nat) (scl : Option Nat) : Option Nat :=
  let T := fmtD ty
  let S := fmtD sty
  match T, S with
  | .int g w, .int h v => (intToInt (readInt v h x) w g pol).map (wrapI w)
  | _, _ =>
    let a := widenExact flush S x scl
    let a := if testN m.abs.toNat 2 then a.abs else a
    let a := if testN m.neg.toNat 2 then a.neg else a
    roundToFormat flush a T rm (polOf pol) (fieldN r 0 16)

/-- CVT (R169). -/
def execCvt (ty sty : Ty) (rm : Rm) (pol : Pol) (m : FMods) (scl : Bool) (k : BitVec 2) (d a r sc : Opd) (s : State) : Out' :=
  alu s 6 d fun s t => do
    let x ← s.src t (tyBits sty) a
    let rv ← s.src t 32 r
    let sv ← s.src t 32 sc
    let e := if scl then some (scaleByte sv k.toNat) else none
    let c ← orArith (cvtValue (s.flush t) ty sty rm pol m x rv e)
    return convWords (fmtD ty) d c

/-- CVTS's result (R170). -/
def cvtsValue (flush : Bool) (ty sty : Ty) (rm : Rm) (pol : Pol) (m : FMods) (x r e : Nat) : Option Nat :=
  let v := if e = 0xFF then .nan else (operandF flush (fmtD sty) m 0 x).scale (127 - Int.ofNat e)
  roundToFormat flush v (fmtD ty) rm (polOf pol) (fieldN r 0 16)

/-- CVTS (R170). -/
def execCvts (ty sty : Ty) (rm : Rm) (pol : Pol) (m : FMods) (k : BitVec 2) (d a r sc : Opd) (s : State) : Out' :=
  alu s 6 d fun s t => do
    let x ← s.src t (tyBits sty) a
    let rv ← s.src t 32 r
    let sv ← s.src t 32 sc
    let c ← orArith (cvtsValue (s.flush t) ty sty rm pol m x rv (scaleByte sv k.toNat))
    return dstWords 32 d c

/-- PACK2's two results (R171): the result from A uses the low half of the random register, that from B the high. -/
def pack2Values (flush : Bool) (ty : Ty) (rm : Rm) (pol : Pol) (m : FMods) (x y r : Nat) : Option (Nat × Nat) :=
  match roundToFormat flush (operandF flush .f32 m 0 x) (fmtD ty) rm (polOf pol) (fieldN r 0 16),
        roundToFormat flush (operandF flush .f32 m 1 y) (fmtD ty) rm (polOf pol) (fieldN r 16 16) with
  | some p, some q => some (p, q)
  | _, _ => none

/-- PACK2 (R171): under a binary8 type the other half of D keeps the value it held at issue. -/
def execPack2 (ty _sty : Ty) (rm : Rm) (pol : Pol) (m : FMods) (hi : Bool) (d a b r : Opd) (s : State) : Out' :=
  alu s 6 d fun s t => do
    let x ← s.src t 32 a
    let y ← s.src t 32 b
    let rv ← s.src t 32 r
    let old ← s.src t 32 d
    match ty with
    | .b16 => return dstWords 32 d (fieldN x 0 16 + 2 ^ 16 * fieldN y 0 16)
    | _ =>
      match pack2Values (s.flush t) ty rm pol m x y rv with
      | none => throw Cause.arith
      | some (p, q) =>
        if tyBits ty = 16 then return dstWords 32 d (p + 2 ^ 16 * q)
        else return dstWords 32 d (setFieldN old (if hi then 16 else 0) 16 (p + 2 ^ 8 * q))

/-- UNPACK (R172): the scale byte is byte 0 of vS. -/
def execUnpack (sty : Ty) (rm : Rm) (pol : Pol) (scl : Bool) (k : BitVec 2) (d a sc : Opd) (s : State) : Out' :=
  alu s 6 d fun s t => do
    let x ← s.src t 32 a
    let sv ← s.src t 32 sc
    let fl := s.flush t
    let w := tyBits sty
    let e := if scl then some (scaleByte sv 0) else none
    let c ← orArith (roundToFormat fl (widenExact fl (fmtD sty) (fieldN x (w * k.toNat) w) e) .f32 rm (polOf pol) 0)
    return dstWords 32 d c

/-- A power of two's exponent, held to a range beyond which the rounded product no longer changes. -/
def clampExp (n : Int) : Int := if n < -2000 then -2000 else if 2000 < n then 2000 else n

/-- SCALE's result (R173). -/
def scaleValue (flush : Bool) (rm : Rm) (pol : Pol) (m : FMods) (scl : Bool) (k x y : Nat) : Option Nat :=
  let v := operandF flush .f32 m 0 x
  let v :=
    if scl then (if scaleByte y k = 0xFF then .nan else v.scale (Int.ofNat (scaleByte y k) - 127))
    else v.scale (clampExp (signedOf 32 y))
  roundToFormat flush v .f32 rm (polOf pol) 0

/-- SCALE (R173).
(DESIGN CHOICE, log 13: unsafe.) -/
def execScale (rm : Rm) (pol : Pol) (m : FMods) (scl : Bool) (k : BitVec 2) (d a b : Opd) (s : State) : Out' :=
  alu s 6 d fun s t => do
    let x ← s.src t 32 a
    let y ← s.src t 32 b
    let c ← orArith (scaleValue (s.flush t) rm pol m scl k.toNat x y)
    return dstWords 32 d c

end Sys2Proof.Machine
end

