-- ==== Sys2Proof/Machine/Integer.lean ====
section
/-! DEFINITION. Integer and predicate instructions (R138 to R152). Each helper reads a
word's sources and writes its result in every executing lane; each instruction then says only what it computes. -/

namespace Sys2Proof.Machine

/-- A word with one integer source: `f` gives the result's words from the source's code. -/
def int1 (s : State) (lat w : Nat) (d a : Opd) (f : Nat → List (Res × Word)) : Out' :=
  alu s lat d fun s t => do
    let x ← s.src t w a
    return f x

/-- A word with two integer sources of width `w`, the last of width `wb` and perhaps immediate (R139). -/
def int2 (s : State) (lat w wb : Nat) (sgn : Bool) (d a : Opd) (b : SrcI) (f : Nat → Nat → List (Res × Word)) : Out' :=
  alu s lat d fun s t => do
    let x ← s.src t w a
    let y ← s.srcI t wb sgn b
    return f x y

/-- A word with three integer sources, the last of width `wc` and perhaps immediate. -/
def int3 (s : State) (lat w wc : Nat) (sgn : Bool) (d a b : Opd) (c : SrcI) (f : Nat → Nat → Nat → List (Res × Word)) :
    Out' :=
  alu s lat d fun s t => do
    let x ← s.src t w a
    let y ← s.src t w b
    let z ← s.srcI t wc sgn c
    return f x y z

/-- Arithmetic on two integers of one type (R144). -/
def arith2 (s : State) (lat : Nat) (ty : Ty) (d a : Opd) (b : SrcI) (f : Int → Int → Int) : Out' :=
  let w := tyBits ty
  let g := tySigned ty
  int2 s lat w w g d a b fun x y => writeInt w g d (f (readInt w g x) (readInt w g y))

/-- Logic on the unsigned views of two operands (R146). -/
def logic2 (s : State) (ty : Ty) (d a : Opd) (b : SrcI) (f : Nat → Nat → Nat) : Out' :=
  let w := tyBits ty
  int2 s 4 w w false d a b fun x y => writeInt w false d (Int.ofNat (f x y))

/-- A shift by the 32-bit count in B (R146). -/
def shift2 (s : State) (ty : Ty) (d a : Opd) (b : SrcI) (f : Nat → Nat → Nat → Nat) : Out' :=
  let w := tyBits ty
  int2 s 4 w 32 false d a b fun x n => writeInt w false d (Int.ofNat (f w x n))

/-- A bit count, written to one register as `.n32` (R147). -/
def count1 (s : State) (ty : Ty) (d a : Opd) (f : Nat → Nat → Nat) : Out' :=
  let w := tyBits ty
  int1 s 4 w d a fun x => writeInt 32 false d (Int.ofNat (f w x))

/-- MOV (R149). -/
def execMov (ty : Ty) (d a : Opd) (s : State) : Out' :=
  let w := tyBits ty
  int1 s 4 w d a fun x => dstWords w d x

/-- MOVI, KIND 0b00 (R149): a 64-bit type extends the immediate as R139 gives. -/
def execMovi32 (ty : Ty) (d : Opd) (imm : BitVec 32) (s : State) : Out' :=
  let w := tyBits ty
  alu s 4 d fun _ _ => .ok (dstWords w d (if tySigned ty && w == 64 then (sext64 32 imm.toNat).toNat else imm.toNat))

/-- MOVI, KIND 0b10 (R149). -/
def execMovi64 (_ty : Ty) (d : Opd) (imm : BitVec 64) (s : State) : Out' :=
  alu s 4 d fun _ _ => .ok (dstWords 64 d imm.toNat)

/-- SEL (R149). -/
def execSel (ty : Ty) (d a : Opd) (b : SrcI) (ps : BitVec 3) (psn : Bool) (s : State) : Out' :=
  let w := tyBits ty
  alu s 4 d fun s t => do
    let x ← s.src t w a
    let y ← s.srcI t w false b
    return dstWords w d (if s.prx t ps psn then x else y)

/-- A sum with its carry-out (R144). -/
def addWords (sat : Bool) (ty : Ty) (d : Opd) (po : BitVec 3) (x y : Nat) : List (Res × Word) :=
  let w := tyBits ty
  let g := tySigned ty
  writeInt w g d (saturate sat w g (readInt w g x + readInt w g y)) ++ predWord po (carryOut w x y 0)

/-- A difference with its borrow (R144). -/
def subWords (sat : Bool) (ty : Ty) (d : Opd) (po : BitVec 3) (x y : Nat) : List (Res × Word) :=
  let w := tyBits ty
  let g := tySigned ty
  writeInt w g d (saturate sat w g (readInt w g x - readInt w g y)) ++ predWord po (borrowOut x y 0)

/-- ADD (R144). -/
def execAdd (sat : Bool) (ty : Ty) (d a : Opd) (b : SrcI) (po : BitVec 3) (s : State) : Out' :=
  int2 s 4 (tyBits ty) (tyBits ty) (tySigned ty) d a b (addWords sat ty d po)

/-- SUB (R144). -/
def execSub (sat : Bool) (ty : Ty) (d a : Opd) (b : SrcI) (po : BitVec 3) (s : State) : Out' :=
  int2 s 4 (tyBits ty) (tyBits ty) (tySigned ty) d a b (subWords sat ty d po)

/-- ADDC (R144). -/
def execAddc (ty : Ty) (d a : Opd) (b : SrcI) (pi po : BitVec 3) (s : State) : Out' :=
  let w := tyBits ty
  let g := tySigned ty
  alu s 4 d fun s t => do
    let x ← s.src t w a
    let y ← s.srcI t w g b
    let ci := if s.pr t pi.toNat then 1 else 0
    return writeInt w g d (Int.ofNat (x + y + ci)) ++ predWord po (carryOut w x y ci)

/-- SUBB (R144). -/
def execSubb (ty : Ty) (d a : Opd) (b : SrcI) (pi po : BitVec 3) (s : State) : Out' :=
  let w := tyBits ty
  let g := tySigned ty
  alu s 4 d fun s t => do
    let x ← s.src t w a
    let y ← s.srcI t w g b
    let bi := if s.pr t pi.toNat then 1 else 0
    return writeInt w g d (Int.ofNat x - Int.ofNat y - Int.ofNat bi) ++ predWord po (borrowOut x y bi)

/-- NEG (R144). -/
def execNeg (sat : Bool) (ty : Ty) (d a : Opd) (s : State) : Out' :=
  let w := tyBits ty
  let g := tySigned ty
  int1 s 4 w d a fun x => writeInt w g d (saturate sat w g (-(readInt w g x)))

/-- ABS (R144). -/
def execAbs (sat : Bool) (ty : Ty) (d a : Opd) (s : State) : Out' :=
  let w := tyBits ty
  let g := tySigned ty
  int1 s 4 w d a fun x => writeInt w g d (saturate sat w g (Int.ofNat (readInt w g x).natAbs))

/-- MUL (R144). -/
def execMul (ty : Ty) (d a : Opd) (b : SrcI) (s : State) : Out' := arith2 s 6 ty d a b fun x y => x * y

/-- MULHI: the upper half of the 2w-bit product (R144). -/
def execMulhi (ty : Ty) (d a : Opd) (b : SrcI) (s : State) : Out' :=
  arith2 s 6 ty d a b fun x y => (x * y).fdiv (2 ^ tyBits ty)

/-- The value of MAD (R144). -/
def madWords (ty : Ty) (d : Opd) (x y z : Nat) : List (Res × Word) :=
  let w := tyBits ty
  let g := tySigned ty
  writeInt w g d (readInt w g x * readInt w g y + readInt w g z)

/-- MAD (R144). -/
def execMad (ty : Ty) (d a b : Opd) (c : SrcI) (s : State) : Out' :=
  int3 s 6 (tyBits ty) (tyBits ty) (tySigned ty) d a b c (madWords ty d)

/-- MADW: c is read, and x written, as 64-bit of the type's signedness (R144). -/
def execMadw (ty : Ty) (d a b : Opd) (c : SrcI) (s : State) : Out' :=
  let g := tySigned ty
  int3 s 6 32 64 g d a b c fun x y z => writeInt 64 g d (readInt 32 g x * readInt 32 g y + readInt 64 g z)

/-- Division truncated toward zero (R145); a zero divisor faults ARITH in that lane only. -/
def divide (s : State) (ty : Ty) (d a : Opd) (b : SrcI) (f : Int → Int → Int) : Out' :=
  let w := tyBits ty
  let g := tySigned ty
  alu s 40 d fun s t => do
    let x ← s.src t w a
    let y ← s.srcI t w g b
    if readInt w g y = 0 then throw Cause.arith
    return writeInt w g d (f (readInt w g x) (readInt w g y))

/-- DIV (R145). -/
def execDiv (ty : Ty) (d a : Opd) (b : SrcI) (s : State) : Out' := divide s ty d a b fun x y => x.tdiv y

/-- REM: the remainder takes the sign of the dividend (R145). -/
def execRem (ty : Ty) (d a : Opd) (b : SrcI) (s : State) : Out' := divide s ty d a b fun x y => x - y * x.tdiv y

/-- MIN (R144). -/
def execMin (ty : Ty) (d a : Opd) (b : SrcI) (s : State) : Out' := arith2 s 4 ty d a b fun x y => if x ≤ y then x else y

/-- MAX (R144). -/
def execMax (ty : Ty) (d a : Opd) (b : SrcI) (s : State) : Out' := arith2 s 4 ty d a b fun x y => if x ≤ y then y else x

/-- AND (R146). -/
def execAnd (ty : Ty) (d a : Opd) (b : SrcI) (s : State) : Out' := logic2 s ty d a b (andN (tyBits ty))

/-- OR (R146). -/
def execOr (ty : Ty) (d a : Opd) (b : SrcI) (s : State) : Out' := logic2 s ty d a b (orN (tyBits ty))

/-- XOR (R146). -/
def execXor (ty : Ty) (d a : Opd) (b : SrcI) (s : State) : Out' := logic2 s ty d a b (xorN (tyBits ty))

/-- The complement of the low `w` bits (R146 NOT). -/
def notN (w x : Nat) : Nat := 2 ^ w - 1 - x % 2 ^ w

/-- NOT (R146). -/
def execNot (ty : Ty) (d a : Opd) (s : State) : Out' :=
  let w := tyBits ty
  int1 s 4 w d a fun x => writeInt w false d (Int.ofNat (notN w x))

/-- ANDN (R146). -/
def execAndn (ty : Ty) (d a : Opd) (b : SrcI) (s : State) : Out' :=
  logic2 s ty d a b fun x y => andN (tyBits ty) x (notN (tyBits ty) y)

/-- ORN (R146). -/
def execOrn (ty : Ty) (d a : Opd) (b : SrcI) (s : State) : Out' :=
  logic2 s ty d a b fun x y => orN (tyBits ty) x (notN (tyBits ty) y)

/-- SHL of a `w`-bit value by n (R146). -/
def shlN (w x n : Nat) : Nat := if n ≥ w then 0 else x * 2 ^ n

/-- SHR of a `w`-bit value by n (R146). -/
def shrN (w x n : Nat) : Nat := if n ≥ w then 0 else x / 2 ^ n

/-- SAR of a `w`-bit value by n: a count of w or more fills with the sign (R146). -/
def sarN (w x n : Nat) : Nat := wrapI w ((signedOf w x).fdiv (2 ^ (if n < w then n else w - 1)))

/-- ROT of a `w`-bit value left by n mod w (R146). -/
def rotN (w x n : Nat) : Nat := x * 2 ^ (n % w) + x / 2 ^ (w - n % w)

/-- SHL (R146). -/
def execShl (ty : Ty) (d a : Opd) (b : SrcI) (s : State) : Out' := shift2 s ty d a b shlN

/-- SHR (R146). -/
def execShr (ty : Ty) (d a : Opd) (b : SrcI) (s : State) : Out' := shift2 s ty d a b shrN

/-- SAR (R146). -/
def execSar (ty : Ty) (d a : Opd) (b : SrcI) (s : State) : Out' := shift2 s ty d a b sarN

/-- ROT (R146). -/
def execRot (ty : Ty) (d a : Opd) (b : SrcI) (s : State) : Out' := shift2 s ty d a b rotN

/-- FSHL: the upper word of A:B shifted left (R146). -/
def execFshl (ty : Ty) (d a b : Opd) (c : SrcI) (s : State) : Out' :=
  let w := tyBits ty
  int3 s 4 w 32 false d a b c fun x y n => writeInt w false d (Int.ofNat ((x * 2 ^ w + y) * 2 ^ (n % w) / 2 ^ w))

/-- The field that BFX takes (R147): bits at a position of w or more read 0, or the top bit under a signed type. -/
def bfxValue (w : Nat) (sgn : Bool) (x f : Nat) : Int :=
  let pos := fieldN f 0 8
  let len := if fieldN f 8 8 < w then fieldN f 8 8 else w
  let wide := if sgn then wrapI 512 (signedOf w x) else x
  if len = 0 then 0
  else if sgn then signedOf len (fieldN wide pos len)
  else Int.ofNat (fieldN wide pos len)

/-- BFX (R147). -/
def execBfx (ty : Ty) (d a : Opd) (b : SrcI) (s : State) : Out' :=
  let w := tyBits ty
  let g := tySigned ty
  int2 s 4 w 32 false d a b fun x f => writeInt w g d (bfxValue w g x f)

/-- BFI's result (R147). -/
def bfiValue (w x y f : Nat) : Nat :=
  let pos := fieldN f 0 8
  let len := fieldN f 8 8
  sumList ((List.range w).map fun i =>
    2 ^ i * (if decide (pos ≤ i) && decide (i < pos + len) then bitN y (i - pos) else bitN x i))

/-- BFI (R147). -/
def execBfi (ty : Ty) (d a b : Opd) (c : SrcI) (s : State) : Out' :=
  let w := tyBits ty
  int3 s 4 w 32 false d a b c fun x y f => writeInt w false d (Int.ofNat (bfiValue w x y f))

/-- POPC (R147). -/
def execPopc (ty : Ty) (d a : Opd) (s : State) : Out' := count1 s ty d a popN

/-- CLZ (R147). -/
def execClz (ty : Ty) (d a : Opd) (s : State) : Out' := count1 s ty d a fun w x => ctzN w (revN w x)

/-- CTZ (R147). -/
def execCtz (ty : Ty) (d a : Opd) (s : State) : Out' := count1 s ty d a ctzN

/-- BREV (R147). -/
def execBrev (ty : Ty) (d a : Opd) (s : State) : Out' :=
  let w := tyBits ty
  int1 s 4 w d a fun x => writeInt w false d (Int.ofNat (revN w x))

/-- One byte of PERMB's result, by its selector nibble (R147). -/
def permByte (x y sel : Nat) : Nat :=
  let e := fieldN (x + y * 2 ^ 32) (8 * (sel % 8)) 8
  if testN sel 3 then (if testN e 7 then 0xFF else 0) else e

/-- PERMB (R147). -/
def execPermb (_ty : Ty) (d a b : Opd) (c : SrcI) (s : State) : Out' :=
  int3 s 4 32 32 false d a b c fun x y z =>
    dstWords 32 d (sumList ((List.range 4).map fun i => 2 ^ (8 * i) * permByte x y (fieldN z (4 * i) 4)))

/-- LEA (R148): the 32-bit index is signed for `.s64` only. -/
def execLea (ty : Ty) (d a : Opd) (b : SrcI) (sh : BitVec 5) (s : State) : Out' :=
  let w := tyBits ty
  let g := tySigned ty
  int2 s 4 w 32 false d a b fun x y => writeInt w g d (readInt w g x + readInt 32 g y * 2 ^ sh.toNat)

/-- CMP (R150). -/
def execCmp (ty : Ty) (cond : Cond) (bop : Bop) (pd ps : BitVec 3) (psn : Bool) (a : Opd) (b : SrcI) (s : State) : Out' :=
  let w := tyBits ty
  let g := tySigned ty
  alu s 4 .none fun s t => do
    let x ← s.src t w a
    let y ← s.srcI t w g b
    return predWord pd (bopApply bop (condHolds cond (readInt w g x) (readInt w g y)) (s.prx t ps psn))

/-- A predicate as a number. -/
def State.prN (s : State) (t : Nat) (p : BitVec 3) : Nat := if s.pr t p.toNat then 1 else 0

/-- PLOP (R151). -/
def execPlop (pd pa pb pc : BitVec 3) (table : BitVec 8) (s : State) : Out' :=
  alu s 4 .none fun s t => .ok (predWord pd (plopBit table.toNat (s.prN t pa) (s.prN t pb) (s.prN t pc)))

/-- PMOV (R152): bit 7 is always 1. -/
def execPmov (d : Opd) (s : State) : Out' :=
  alu s 4 d fun s t => .ok (dstWords 32 d (128 + (s.thr t).preds.toNat))

/-- PMOV.set (R152). -/
def execPmovSet (a : Opd) (mask : BitVec 7) (s : State) : Out' :=
  alu s 4 .none fun s t => do
    let x ← s.src t 32 a
    return ((List.range 7).filter fun i => testN mask.toNat i).map fun i => (Res.p i, if testN x i then 1 else 0)

end Sys2Proof.Machine
end

