-- ==== Sys2Proof/Machine/Paired.lean ====
section
/-! DEFINITION. Paired words (R92 to R96): each half has the effect and the latency of its single-word form. -/

namespace Sys2Proof.Machine

/-- Latency of a half (R96, R103). -/
def halfLatency : POp → Nat
  | .mad | .fadd | .fsub | .fmul | .ffma | .fmin | .fmax | .pkadd | .pkmul | .pkfma | .dot2h => 6
  | .rcp | .rsq | .exp2 | .log2 | .sinr | .cosr | .tanh => 12
  | .fsqrt => 20
  | _ => 4

/-- What a half writes, from the values its sources hold (R94).
(DESIGN CHOICE, log 86: unsafe.) -/
def halfWords (flush : Bool) (h : Half) (x y z : Nat) : List (Res × Word) :=
  let d : Opd := .v h.d
  let g := tySigned h.ty
  let fw (w : Word) : List (Res × Word) := dstWords 32 d w.toNat
  let n (v : Nat) : List (Res × Word) := writeInt 32 false d (Int.ofNat v)
  let least := if readInt 32 g x ≤ readInt 32 g y then x else y
  let most := if readInt 32 g x ≤ readInt 32 g y then y else x
  match h.op with
  | .add => addWords false h.ty d 7 x y
  | .sub => subWords false h.ty d 7 x y
  | .min => writeInt 32 g d (readInt 32 g least)
  | .max => writeInt 32 g d (readInt 32 g most)
  | .and => n (andN 32 x y)
  | .or => n (orN 32 x y)
  | .xor => n (xorN 32 x y)
  | .shl => n (shlN 32 x y)
  | .shr => n (shrN 32 x y)
  | .sar => n (sarN 32 x y)
  | .mov => n x
  | .mad => madWords h.ty d x y z
  | .fadd => fw (faddV h.rm h.fm flush x y)
  | .fsub => fw (fsubV h.rm h.fm flush x y)
  | .fmul => fw (fmulV h.rm h.fm flush x y)
  | .ffma => fw (ffmaV h.rm h.fm flush x y z)
  | .fmin => fw (fminmaxV false h.fm flush x y)
  | .fmax => fw (fminmaxV true h.fm flush x y)
  | .pkadd => fw (pkaddV h.ty h.rm h.fm flush x y)
  | .pkmul => fw (pkmulV h.ty h.rm h.fm flush x y)
  | .pkfma => fw (pkfmaV h.ty h.rm h.fm flush x y z)
  | .dot2h => fw (dot2hV h.ty h.rm h.fm flush x y z)
  | .rcp => fw (specialV rcp32 h.fm flush x)
  | .rsq => fw (specialV rsq32 h.fm flush x)
  | .exp2 => fw (specialV exp232 h.fm flush x)
  | .log2 => fw (specialV log232 h.fm flush x)
  | .sinr => fw (specialV sinr32 h.fm flush x)
  | .cosr => fw (specialV cosr32 h.fm flush x)
  | .tanh => fw (specialV tanh32 h.fm flush x)
  | .fsqrt => fw (fsqrtV h.rm h.fm flush x)

/-- A half's effect in a lane, its sources read before the word. -/
def halfEffect (s : State) (t : Nat) (h : Half) : List (Res × Word) :=
  halfWords (s.flush t) h (s.rd t h.a.toNat).toNat (s.rd t h.b.toNat).toNat (s.rd t h.c.toNat).toNat

/-- A paired word (R96): both halves read before either writes.
(DESIGN CHOICE, log 86: unsafe.) -/
def execPairedWord (x y : Half) (s : State) : Out' :=
  forLanes s fun s t =>
    let rx := halfEffect s t x
    let ry := halfEffect s t y
    .done ((s.laterAll t (halfLatency x.op) rx).laterAll t (halfLatency y.op) ry)

end Sys2Proof.Machine
end

