-- ==== Sys2Proof/Machine/Dispatch.lean ====
section
/-! DEFINITION. The one dispatch: each instruction and each event to its meaning. -/

namespace Sys2Proof.Machine

/-- The meaning of an instruction or event. -/
def exec (i : Instr) (s : State) : Host.Outcome State Fault Refusal :=
  match i with
  -- Integer and predicate (R143)
  | .mov ty d a => Sys2Proof.Machine.execMov ty d a s
  | .movi32 ty d imm => Sys2Proof.Machine.execMovi32 ty d imm s
  | .movi64 ty d imm => Sys2Proof.Machine.execMovi64 ty d imm s
  | .sel ty d a b ps psn => Sys2Proof.Machine.execSel ty d a b ps psn s
  | .add sat ty d a b po => Sys2Proof.Machine.execAdd sat ty d a b po s
  | .addc ty d a b pi po => Sys2Proof.Machine.execAddc ty d a b pi po s
  | .sub sat ty d a b po => Sys2Proof.Machine.execSub sat ty d a b po s
  | .subb ty d a b pi po => Sys2Proof.Machine.execSubb ty d a b pi po s
  | .neg sat ty d a => Sys2Proof.Machine.execNeg sat ty d a s
  | .abs sat ty d a => Sys2Proof.Machine.execAbs sat ty d a s
  | .mul ty d a b => Sys2Proof.Machine.execMul ty d a b s
  | .mulhi ty d a b => Sys2Proof.Machine.execMulhi ty d a b s
  | .mad ty d a b c => Sys2Proof.Machine.execMad ty d a b c s
  | .madw ty d a b c => Sys2Proof.Machine.execMadw ty d a b c s
  | .div ty d a b => Sys2Proof.Machine.execDiv ty d a b s
  | .rem ty d a b => Sys2Proof.Machine.execRem ty d a b s
  | .min ty d a b => Sys2Proof.Machine.execMin ty d a b s
  | .max ty d a b => Sys2Proof.Machine.execMax ty d a b s
  | .and ty d a b => Sys2Proof.Machine.execAnd ty d a b s
  | .or ty d a b => Sys2Proof.Machine.execOr ty d a b s
  | .xor ty d a b => Sys2Proof.Machine.execXor ty d a b s
  | .not ty d a => Sys2Proof.Machine.execNot ty d a s
  | .andn ty d a b => Sys2Proof.Machine.execAndn ty d a b s
  | .orn ty d a b => Sys2Proof.Machine.execOrn ty d a b s
  | .shl ty d a b => Sys2Proof.Machine.execShl ty d a b s
  | .shr ty d a b => Sys2Proof.Machine.execShr ty d a b s
  | .sar ty d a b => Sys2Proof.Machine.execSar ty d a b s
  | .rot ty d a b => Sys2Proof.Machine.execRot ty d a b s
  | .fshl ty d a b c => Sys2Proof.Machine.execFshl ty d a b c s
  | .bfx ty d a b => Sys2Proof.Machine.execBfx ty d a b s
  | .bfi ty d a b c => Sys2Proof.Machine.execBfi ty d a b c s
  | .popc ty d a => Sys2Proof.Machine.execPopc ty d a s
  | .clz ty d a => Sys2Proof.Machine.execClz ty d a s
  | .ctz ty d a => Sys2Proof.Machine.execCtz ty d a s
  | .brev ty d a => Sys2Proof.Machine.execBrev ty d a s
  | .permb ty d a b c => Sys2Proof.Machine.execPermb ty d a b c s
  | .lea ty d a b sh => Sys2Proof.Machine.execLea ty d a b sh s
  | .cmp ty cond bop pd ps psn a b => Sys2Proof.Machine.execCmp ty cond bop pd ps psn a b s
  | .plop pd pa pb pc table => Sys2Proof.Machine.execPlop pd pa pb pc table s
  | .pmov d => Sys2Proof.Machine.execPmov d s
  | .pmovSet a mask => Sys2Proof.Machine.execPmovSet a mask s
  | .pairedWord x y => Sys2Proof.Machine.execPairedWord x y s
  -- Control (R129)
  | .nop => Sys2Proof.Machine.execNop s
  | .bra off => Sys2Proof.Machine.execBra off s
  | .jmp a => Sys2Proof.Machine.execJmp a s
  | .call d off => Sys2Proof.Machine.execCall d off s
  | .callr d a => Sys2Proof.Machine.execCallr d a s
  | .ret a => Sys2Proof.Machine.execRet a s
  | .reconv regroup a off => Sys2Proof.Machine.execReconv regroup a off s
  | .exit => Sys2Proof.Machine.execExit s
  | .yield => Sys2Proof.Machine.execYield s
  | .sleep n => Sys2Proof.Machine.execSleep n s
  | .sleepExpiry t => Sys2Proof.Machine.execSleepExpiry t s
  -- Floating point (R154)
  | .fadd rm m d a b => Sys2Proof.Machine.execFadd rm m d a b s
  | .fsub rm m d a b => Sys2Proof.Machine.execFsub rm m d a b s
  | .fmul rm m d a b => Sys2Proof.Machine.execFmul rm m d a b s
  | .ffma rm m d a b c => Sys2Proof.Machine.execFfma rm m d a b c s
  | .fmin m d a b => Sys2Proof.Machine.execFmin m d a b s
  | .fmax m d a b => Sys2Proof.Machine.execFmax m d a b s
  | .fcmp cond bop pd ps psn m a b => Sys2Proof.Machine.execFcmp cond bop pd ps psn m a b s
  | .fclass d a => Sys2Proof.Machine.execFclass d a s
  | .frnd rm m d a => Sys2Proof.Machine.execFrnd rm m d a s
  | .ffrac m d a => Sys2Proof.Machine.execFfrac m d a s
  | .fdiv rm m d a b => Sys2Proof.Machine.execFdiv rm m d a b s
  | .fsqrt rm m d a => Sys2Proof.Machine.execFsqrt rm m d a s
  | .rcp m d a => Sys2Proof.Machine.execRcp m d a s
  | .rsq m d a => Sys2Proof.Machine.execRsq m d a s
  | .exp2 m d a => Sys2Proof.Machine.execExp2 m d a s
  | .log2 m d a => Sys2Proof.Machine.execLog2 m d a s
  | .sinr m d a => Sys2Proof.Machine.execSinr m d a s
  | .cosr m d a => Sys2Proof.Machine.execCosr m d a s
  | .tanh m d a => Sys2Proof.Machine.execTanh m d a s
  | .pkadd ty rm m d a b => Sys2Proof.Machine.execPkadd ty rm m d a b s
  | .pkmul ty rm m d a b => Sys2Proof.Machine.execPkmul ty rm m d a b s
  | .pkfma ty rm m d a b c => Sys2Proof.Machine.execPkfma ty rm m d a b c s
  | .dot2h sty rm m d a b c => Sys2Proof.Machine.execDot2h sty rm m d a b c s
  | .dot4b8 sty rm m d a b c => Sys2Proof.Machine.execDot4b8 sty rm m d a b c s
  -- Conversion (R168): r is the random register, s the scale register
  | .cvt ty sty rm pol m scl k d a r sc => Sys2Proof.Machine.execCvt ty sty rm pol m scl k d a r sc s
  | .cvts ty sty rm pol m k d a r sc => Sys2Proof.Machine.execCvts ty sty rm pol m k d a r sc s
  | .pack2 ty sty rm pol m hi d a b r => Sys2Proof.Machine.execPack2 ty sty rm pol m hi d a b r s
  | .unpack sty rm pol scl k d a sc => Sys2Proof.Machine.execUnpack sty rm pol scl k d a sc s
  | .scale rm pol m scl k d a b => Sys2Proof.Machine.execScale rm pol m scl k d a b s
  -- Cross-lane (R197)
  | .shfl mode seg ty pd d a b m => Sys2Proof.Machine.execShfl mode seg ty pd d a b m s
  | .vote op ps psn pd d m => Sys2Proof.Machine.execVote op ps psn pd d m s
  | .matchKeys all ty pd d a m => Sys2Proof.Machine.execMatchKeys all ty pd d a m s
  | .redux op ty d a m => Sys2Proof.Machine.execRedux op ty d a m s
  | .scan op incl ty d a m => Sys2Proof.Machine.execScan op incl ty d a m s
  -- Memory (R177)
  | .lds mm ty d a => Sys2Proof.Machine.execLds mm ty d a s
  | .sts mm ty a b => Sys2Proof.Machine.execSts mm ty a b s
  | .ldg mm ty d a => Sys2Proof.Machine.execLdg mm ty d a s
  | .stg mm ty a b => Sys2Proof.Machine.execStg mm ty a b s
  | .ldd mm ty d a => Sys2Proof.Machine.execLdd mm ty d a s
  | .std mm ty a b => Sys2Proof.Machine.execStd mm ty a b s
  | .ldl mm ty d a => Sys2Proof.Machine.execLdl mm ty d a s
  | .stl mm ty a b => Sys2Proof.Machine.execStl mm ty a b s
  | .ldk mm ty d a => Sys2Proof.Machine.execLdk mm ty d a s
  | .ldw mm ty d a => Sys2Proof.Machine.execLdw mm ty d a s
  | .stw mm ty a b => Sys2Proof.Machine.execStw mm ty a b s
  | .pres mm d a => Sys2Proof.Machine.execPres mm d a s
  | .atoms op mm ty d a b c => Sys2Proof.Machine.execAtoms op mm ty d a b c s
  | .atomd op mm ty d a b c => Sys2Proof.Machine.execAtomd op mm ty d a b c s
  | .atomg op mm ty d a b c => Sys2Proof.Machine.execAtomg op mm ty d a b c s
  | .redg op mm ty a b => Sys2Proof.Machine.execRedg op mm ty a b s
  | .redd op mm ty a b => Sys2Proof.Machine.execRedd op mm ty a b s
  | .fence ord scope => Sys2Proof.Machine.execFence ord scope s
  -- Synchronisation and spawning (R202)
  | .bar level op id => Sys2Proof.Machine.execBar level op id s
  | .chdrop try_ pd sel a => Sys2Proof.Machine.execChdrop try_ pd sel a s
  | .chtake try_ pd sel d => Sys2Proof.Machine.execChtake try_ pd sel d s
  | .chfree sel => Sys2Proof.Machine.execChfree sel s
  | .wait all nc scope d w b => Sys2Proof.Machine.execWait all nc scope d w b s
  | .waitEvaluation t => Sys2Proof.Machine.execWaitEvaluation t s
  | .msend len d a b c => Sys2Proof.Machine.execMsend len d a b c s
  | .mrecv len d a b c => Sys2Proof.Machine.execMrecv len d a b c s
  | .mprobe d b c => Sys2Proof.Machine.execMprobe d b c s
  | .messageDelivery m => Sys2Proof.Machine.execMessageDelivery m s
  | .spawn nohold a b => Sys2Proof.Machine.execSpawn nohold a b s
  | .binTimerExpiry bin => Sys2Proof.Machine.execBinTimerExpiry bin s
  | .binflush a => Sys2Proof.Machine.execBinflush a s
  | .wsplit d a b => Sys2Proof.Machine.execWsplit d a b s
  | .grow count => Sys2Proof.Machine.execGrow count s
  | .growGrant crew => Sys2Proof.Machine.execGrowGrant crew s
  | .shrink count => Sys2Proof.Machine.execShrink count s
  | .launch defer d a queue => Sys2Proof.Machine.execLaunch defer d a queue s
  | .signal defer irq vec a b => Sys2Proof.Machine.execSignal defer irq vec a b s
  -- Matrix (R224)
  | .mma z scl ta tb ka kb tile ksm1 vw d l sa sb => Sys2Proof.Machine.execMma z scl ta tb ka kb tile ksm1 vw d l sa sb s
  | .mmaStep pair => Sys2Proof.Machine.execMmaStep pair s
  | .matrixQueueEntry pair => Sys2Proof.Machine.execMatrixQueueEntry pair s
  | .mmag scl ta tb ka kb sa sb d a b c => Sys2Proof.Machine.execMmag scl ta tb ka kb sa sb d a b c s
  | .mloadb d a b c => Sys2Proof.Machine.execMloadb d a b c s
  | .mrd tile d a b => Sys2Proof.Machine.execMrd tile d a b s
  | .mrdSt tile d => Sys2Proof.Machine.execMrdSt tile d s
  | .mst ty rm pol rsel tile d l => Sys2Proof.Machine.execMst ty rm pol rsel tile d l s
  | .mzero mask => Sys2Proof.Machine.execMzero mask s
  | .mburst len => Sys2Proof.Machine.execMburst len s
  | .rampFillersDone core => Sys2Proof.Machine.execRampFillersDone core s
  | .burstHoldExpiry core => Sys2Proof.Machine.execBurstHoldExpiry core s
  -- Rate and rendering (R249)
  | .kill => Sys2Proof.Machine.execKill s
  | .hrel => Sys2Proof.Machine.execHrel s
  | .deriv axis fine d a => Sys2Proof.Machine.execDeriv axis fine d a s
  | .bary lin k d => Sys2Proof.Machine.execBary lin k d s
  | .emit z ty a b => Sys2Proof.Machine.execEmit z ty a b s
  | .tex dim pd d a b => Sys2Proof.Machine.execTex dim pd d a b s
  | .texl dim pd d a b c => Sys2Proof.Machine.execTexl dim pd d a b c s
  | .texg ch dim pd d a b c => Sys2Proof.Machine.execTexg ch dim pd d a b c s
  | .texq d b c => Sys2Proof.Machine.execTexq d b c s
  | .dice d a b => Sys2Proof.Machine.execDice d a b s
  | .trace mode mask d a b => Sys2Proof.Machine.execTrace mode mask d a b s
  | .infer nin nout d a b => Sys2Proof.Machine.execInfer nin nout d a b s
  | .inferBatchService die => Sys2Proof.Machine.execInferBatchService die s
  -- Carousel (R277)
  | .cboard e sp d a b => Sys2Proof.Machine.execCboard e sp d a b s
  | .ccatch e d a b => Sys2Proof.Machine.execCcatch e d a b s
  | .creplace e masked d a b c => Sys2Proof.Machine.execCreplace e masked d a b c s
  | .calight e copy d a b => Sys2Proof.Machine.execCalight e copy d a b s
  | .cquery d b => Sys2Proof.Machine.execCquery d b s
  | .carouselPassage die slot => Sys2Proof.Machine.execCarouselPassage die slot s
  -- Lots and hoists (R287, R289)
  | .labort code => Sys2Proof.Machine.execLabort code s
  | .lotq d a => Sys2Proof.Machine.execLotq d a s
  | .hcopy e sp dp d a b c => Sys2Proof.Machine.execHcopy e sp dp d a b c s
  | .hlayout e sp dp ty n0 n1 n2 p1 p2 d a b => Sys2Proof.Machine.execHlayout e sp dp ty n0 n1 n2 p1 p2 d a b s
  | .hgather e sp rlen d a b c => Sys2Proof.Machine.execHgather e sp rlen d a b c s
  | .hscatter e dp rlen d a b c => Sys2Proof.Machine.execHscatter e dp rlen d a b c s
  | .hcoll op e sp dp ty grp rank sizem1 d a b c => Sys2Proof.Machine.execHcoll op e sp dp ty grp rank sizem1 d a b c s
  | .engineCompletion op => Sys2Proof.Machine.execEngineCompletion op s
  | .trackedResultReturn r => Sys2Proof.Machine.execTrackedResultReturn r s
  | .homeRmwPerform r => Sys2Proof.Machine.execHomeRmwPerform r s
  -- System (R294, R297)
  | .trap n => Sys2Proof.Machine.execTrap n s
  | .handlerEntry gang => Sys2Proof.Machine.execHandlerEntry gang s
  | .tretReplay => Sys2Proof.Machine.execTretReplay s
  | .tretSkip => Sys2Proof.Machine.execTretSkip s
  | .brk n => Sys2Proof.Machine.execBrk n s
  | .getsr sr d => Sys2Proof.Machine.execGetsr sr d s
  | .setsr sr a => Sys2Proof.Machine.execSetsr sr a s
  | .dflip e sp d a b c => Sys2Proof.Machine.execDflip e sp d a b c s
  | .dbgmbGet d a => Sys2Proof.Machine.execDbgmbGet d a s
  | .dbgmbPut irq a b => Sys2Proof.Machine.execDbgmbPut irq a b s
  | .pref space tlb disp a => Sys2Proof.Machine.execPref space tlb disp a s
  -- Scheduler and translation events
  | .fetchTranslationFault gang => Sys2Proof.Machine.execFetchTranslationFault gang s
  | .starvationPromotion gang => Sys2Proof.Machine.execStarvationPromotion gang s
  | .watchdogFire ctx => Sys2Proof.Machine.execWatchdogFire ctx s
  | .residencyBatchTimeout die => Sys2Proof.Machine.execResidencyBatchTimeout die s
  | .qdoor q v => Sys2Proof.Machine.execQdoor q v s
  | .qcfgWrite q v => Sys2Proof.Machine.execQcfgWrite q v s
  | .qchead q v => Sys2Proof.Machine.execQchead q v s
  | .recordTake q => Sys2Proof.Machine.execRecordTake q s
  | .launchAdmission l => Sys2Proof.Machine.execLaunchAdmission l s
  | .crewPlacement crew => Sys2Proof.Machine.execCrewPlacement crew s
  | .evictionSaveComplete crew => Sys2Proof.Machine.execEvictionSaveComplete crew s
  | .crewRestore crew => Sys2Proof.Machine.execCrewRestore crew s
  | .restoreWaitTimeout crew => Sys2Proof.Machine.execRestoreWaitTimeout crew s
  | .deadlineCut l => Sys2Proof.Machine.execDeadlineCut l s
  | .fallbackAdmission q => Sys2Proof.Machine.execFallbackAdmission q s
  | .lotCommit l => Sys2Proof.Machine.execLotCommit l s
  | .dresserFold l line => Sys2Proof.Machine.execDresserFold l line s
  | .elementCreation r => Sys2Proof.Machine.execElementCreation r s
  | .stockpileStallLimit r => Sys2Proof.Machine.execStockpileStallLimit r s
  | .primitiveRasterise l p => Sys2Proof.Machine.execPrimitiveRasterise l p s
  | .sampleResolve l k => Sys2Proof.Machine.execSampleResolve l k s
  | .drawWriteOut l => Sys2Proof.Machine.execDrawWriteOut l s
  | .frameStart out => Sys2Proof.Machine.execFrameStart out s
  | .fresp die batch => Sys2Proof.Machine.execFresp die batch s
  | .tlbInvalidate ctx v => Sys2Proof.Machine.execTlbInvalidate ctx v s
  | .contextCreate ctx v => Sys2Proof.Machine.execContextCreate ctx v s
  | .contextDestroy ctx => Sys2Proof.Machine.execContextDestroy ctx s
  | .debugAttach ctx v => Sys2Proof.Machine.execDebugAttach ctx v s
  | .watchpointWrite ctx n v => Sys2Proof.Machine.execWatchpointWrite ctx n v s
  | .haltreq ctx v => Sys2Proof.Machine.execHaltreq ctx v s
  | .debugResume ctx => Sys2Proof.Machine.execDebugResume ctx s
  | .debugStep ctx => Sys2Proof.Machine.execDebugStep ctx s
  | .debugAbort ctx => Sys2Proof.Machine.execDebugAbort ctx s
  | .stopRecordDelivery ctx => Sys2Proof.Machine.execStopRecordDelivery ctx s
  -- Host and fabric events
  | .registerWrite off width v => Sys2Proof.Machine.execRegisterWrite off width v s
  | .hostBar2Write addr data => Sys2Proof.Machine.execHostBar2Write addr data s
  | .hostBar2Read addr n => Sys2Proof.Machine.execHostBar2Read addr n s
  | .configurationRequest reg => Sys2Proof.Machine.execConfigurationRequest reg s
  | .getCertificate slot off len => Sys2Proof.Machine.execGetCertificate slot off len s
  | .challenge slot nonce => Sys2Proof.Machine.execChallenge slot nonce s
  | .getMeasurements idx => Sys2Proof.Machine.execGetMeasurements idx s
  | .fabricRequest port src req => Sys2Proof.Machine.execFabricRequest port src req s
  | .windowPacketArrival wid off op ty count operand => Sys2Proof.Machine.execWindowPacketArrival wid off op ty count operand s
  | .subnetworkPowerUp mesh => Sys2Proof.Machine.execSubnetworkPowerUp mesh s
  | .subnetworkPowerDown mesh n => Sys2Proof.Machine.execSubnetworkPowerDown mesh n s
  | .escapeDiversion src dst => Sys2Proof.Machine.execEscapeDiversion src dst s
  -- Time and display events
  | .ptpEnable v => Sys2Proof.Machine.execPtpEnable v s
  | .ptpEventMessage m => Sys2Proof.Machine.execPtpEventMessage m s
  | .outputEnable out v => Sys2Proof.Machine.execOutputEnable out v s
  | .ostatClear out v => Sys2Proof.Machine.execOstatClear out v s
  -- Bring-up and recovery events
  | .soundingComplete fail detail => Sys2Proof.Machine.execSoundingComplete fail detail s
  | .hbmScrub corrected bad => Sys2Proof.Machine.execHbmScrub corrected bad s
  | .thermalThrottle die => Sys2Proof.Machine.execThermalThrottle die s
  | .storePerformed st => Sys2Proof.Machine.execStorePerformed st s
  | .engineLineDelivery op line => Sys2Proof.Machine.execEngineLineDelivery op line s
  | .frhead die v => Sys2Proof.Machine.execFrhead die v s
  | .portLinkChange port lanes => Sys2Proof.Machine.execPortLinkChange port lanes s
  | .outputLinkChange out up => Sys2Proof.Machine.execOutputLinkChange out up s
  | .announceReceiptTimeout best => Sys2Proof.Machine.execAnnounceReceiptTimeout best s
  | .ptpMessageInterval kind => Sys2Proof.Machine.execPtpMessageInterval kind s
  | .throttleEnd die => Sys2Proof.Machine.execThrottleEnd die s
  | .hbmStackTemperatureChange stack hot => Sys2Proof.Machine.execHbmStackTemperatureChange stack hot s
  | .contextResume ctx => Sys2Proof.Machine.execContextResume ctx s
  -- Events without an operand
  | .getVersion => Sys2Proof.Machine.execGetVersion s
  | .getCapabilities => Sys2Proof.Machine.execGetCapabilities s
  | .negotiateAlgorithms => Sys2Proof.Machine.execNegotiateAlgorithms s
  | .getDigests => Sys2Proof.Machine.execGetDigests s
  | .syncLoss => Sys2Proof.Machine.execSyncLoss s
  | .holdoverTimeout => Sys2Proof.Machine.execHoldoverTimeout s
  | .checkpoint => Sys2Proof.Machine.execCheckpoint s
  | .restore => Sys2Proof.Machine.execRestore s
  | .fwload => Sys2Proof.Machine.execFwload s
  | .warmreset => Sys2Proof.Machine.execWarmreset s
  | .coldreset => Sys2Proof.Machine.execColdreset s
  | .survey => Sys2Proof.Machine.execSurvey s
  | .commandCompletion => Sys2Proof.Machine.execCommandCompletion s
  | .fundamentalReset => Sys2Proof.Machine.execFundamentalReset s
  | .fatalErrorContainment => Sys2Proof.Machine.execFatalErrorContainment s
  | .powerLoss => Sys2Proof.Machine.execPowerLoss s
  | .behindTest => Sys2Proof.Machine.execBehindTest s
  | .congestionSample => Sys2Proof.Machine.execCongestionSample s

end Sys2Proof.Machine
end

