-- ==== Sys2Proof/Machine/Issue.lean ====
section
/-! DEFINITION. The issue of one word: what its operands name, the decode checks that need the state, the scoreboard, the guard,
breakpoints, and what follows the word (R11, R18, R21, R31, R32, R97 to R107, R356, R374, R395, R400). -/

namespace Sys2Proof.Machine

/-- What a word names: sources and destinations, each with the registers it takes, predicates it reads and writes, and held
registers whose tracked results it waits for. -/
structure Uses where
  srcs : List (Nat × Opd)
  dsts : List (Nat × Opd)
  preds : List (BitVec 3)
  sets : List (BitVec 3)
  waits : List Res
  deriving DecidableEq, Repr

/-- Registers of an operand of a type (R12). -/
def tyRegs (t : Ty) : Nat := if t.w = 128 then 4 else if t.w = 64 then 2 else 1

/-- The operand of a source that may be an immediate. -/
def srcOpd (o : SrcI) : Opd :=
  match o with
  | .reg o => o
  | .imm _ => .none

/-- Sources and destinations only. -/
def uses (srcs dsts : List (Nat × Opd)) : Uses := { srcs := srcs, dsts := dsts, preds := [], sets := [], waits := [] }

/-- An operation of `n` sources and a destination of one type. -/
def usesT (t : Ty) (d : Opd) (srcs : List Opd) : Uses := uses (srcs.map fun o => (tyRegs t, o)) [(tyRegs t, d)]

/-- An operation of 32-bit sources and a 32-bit destination. -/
def uses1 (d : Opd) (srcs : List Opd) : Uses := usesT .b32 d srcs

/-- All the held registers: a word that freezes its element waits for their results (R33). -/
def allHeld : List Res := (List.range 64).map Res.h

/-- Registers of an engine word's D (R273). -/
def engDst (e : EngMods) (d : Opd) : List (Nat × Opd) := if e.cpl = 0 then [(1, d)] else []
def engSrc (e : EngMods) (d : Opd) : List (Nat × Opd) := if e.cpl = 2 then [(2, d)] else []

/-- An address operand of an engine word (R272). -/
def engOpd (sp : ESp) (o : Opd) : Nat × Opd := (match sp with
  | .S | .W => 1
  | _ => 2, o)

/-- Registers of texture coordinates (R258). -/
def texRegs (dim : BitVec 2) : Nat := if dim = 0 then 2 else 3

/-- Registers that a half reads and writes (R93). -/
def halfSrcs (h : Half) : List (Nat × Opd) := h.srcs.map fun n => (1, .v (BitVec.ofNat 8 n))

/-- Registers of an MMAG fragment of a type (R233). -/
def fragRegs (ty : Ty) : Nat := if ty.isF8 then 4 else 8

/-- What an instruction names. -/
def usesOf : Instr → Uses
  | .mov t d a => usesT t d [a]
  | .movi32 t d _ => usesT t d []
  | .movi64 _ d _ => uses [] [(2, d)]
  | .sel t d a b ps _ => { usesT t d [a, srcOpd b] with preds := [ps] }
  | .add _ t d a b po => { usesT t d [a, srcOpd b] with sets := [po] }
  | .addc t d a b pi po => { usesT t d [a, srcOpd b] with preds := [pi], sets := [po] }
  | .sub _ t d a b po => { usesT t d [a, srcOpd b] with sets := [po] }
  | .subb t d a b pi po => { usesT t d [a, srcOpd b] with preds := [pi], sets := [po] }
  | .neg _ t d a | .abs _ t d a | .not t d a | .brev t d a => usesT t d [a]
  | .mul t d a b | .mulhi t d a b | .div t d a b | .rem t d a b | .min t d a b | .max t d a b | .and t d a b | .or t d a b
  | .xor t d a b | .andn t d a b | .orn t d a b => usesT t d [a, srcOpd b]
  | .mad t d a b c => usesT t d [a, b, srcOpd c]
  | .madw _ d a b c => uses [(1, a), (1, b), (2, srcOpd c)] [(2, d)]
  | .shl t d a b | .shr t d a b | .sar t d a b | .rot t d a b | .lea t d a b _ =>
    uses [(tyRegs t, a), (1, srcOpd b)] [(tyRegs t, d)]
  | .bfx t d a b => uses [(tyRegs t, a), (1, srcOpd b)] [(tyRegs t, d)]
  | .fshl t d a b c | .bfi t d a b c => uses [(tyRegs t, a), (tyRegs t, b), (1, srcOpd c)] [(tyRegs t, d)]
  | .popc t d a | .clz t d a | .ctz t d a => uses [(tyRegs t, a)] [(1, d)]
  | .permb _ d a b c => uses1 d [a, b, srcOpd c]
  | .cmp t _ _ pd ps _ a b => { uses [(tyRegs t, a), (tyRegs t, srcOpd b)] [] with preds := [ps], sets := [pd] }
  | .plop pd pa pb pc _ => { uses [] [] with preds := [pa, pb, pc], sets := [pd] }
  | .pmov d => { uses [] [(1, d)] with preds := [0, 1, 2, 3, 4, 5, 6] }
  | .pmovSet a mask => { uses [(1, a)] [] with sets := ((List.range 7).filter mask.getLsbD).map fun i => BitVec.ofNat 3 i }
  | .pairedWord x y => uses (halfSrcs x ++ halfSrcs y) [(1, .v x.d), (1, .v y.d)]
  | .jmp a | .ret a => uses [(2, a)] []
  | .call d _ => uses [] [(2, d)]
  | .callr d a => uses [(2, a)] [(2, d)]
  | .reconv _ a _ => uses [(1, a)] []
  | .exit => { uses [] [] with waits := allHeld }
  | .sleep n => uses [(1, srcOpd n)] []
  | .fadd _ _ d a b | .fsub _ _ d a b | .fmul _ _ d a b | .fdiv _ _ d a b | .pkadd _ _ _ d a b | .pkmul _ _ _ d a b => uses1 d [a, b]
  | .fmin _ d a b | .fmax _ d a b => uses1 d [a, b]
  | .ffma _ _ d a b c | .pkfma _ _ _ d a b c | .dot2h _ _ _ d a b c | .dot4b8 _ _ _ d a b c => uses1 d [a, b, c]
  | .fcmp _ _ pd ps _ _ a b => { uses [(1, a), (1, b)] [] with preds := [ps], sets := [pd] }
  | .fclass d a | .ffrac _ d a | .rcp _ d a | .rsq _ d a | .exp2 _ d a | .log2 _ d a | .sinr _ d a | .cosr _ d a | .tanh _ d a =>
    uses1 d [a]
  | .frnd _ _ d a | .fsqrt _ _ d a => uses1 d [a]
  | .cvt t st _ _ _ _ _ d a r sc => uses [(tyRegs st, a), (1, r), (1, sc)] [(tyRegs t, d)]
  | .cvts _ _ _ _ _ _ d a r sc => uses1 d [a, r, sc]
  | .pack2 t _ _ _ _ _ d a b r => uses1 d ([a, b, r] ++ if t.isF8 then [d] else [])
  | .unpack _ _ _ _ _ d a sc => uses1 d [a, sc]
  | .scale _ _ _ _ _ d a b => uses1 d [a, b]
  | .shfl _ _ t pd d a b m => { uses [(tyRegs t, a), (1, srcOpd b), (1, m)] [(tyRegs t, d)] with sets := [pd] }
  | .vote _ ps _ pd d m => { uses1 d [m] with preds := [ps], sets := [pd] }
  | .matchKeys _ t pd d a m => { uses [(tyRegs t, a), (1, m)] [(1, d)] with sets := [pd] }
  | .redux _ t d a m | .scan _ _ t d a m => uses [(tyRegs t, a), (1, m)] [(1, d)]
  | .lds _ t d a | .ldl _ t d a | .ldw _ t d a => uses [(1, a)] [(tyRegs t, d)]
  | .ldg _ t d a | .ldd _ t d a | .ldk _ t d a => uses [(2, a)] [(tyRegs t, d)]
  | .sts _ t a b | .stl _ t a b | .stw _ t a b => uses [(1, a), (tyRegs t, b)] []
  | .stg _ t a b | .std _ t a b | .redg _ _ t a b | .redd _ _ t a b => uses [(2, a), (tyRegs t, b)] []
  | .pres _ d a => uses1 d [a]
  | .atoms _ _ t d a b c => uses [(1, a), (tyRegs t, b), (tyRegs t, c)] [(tyRegs t, d)]
  | .atomd _ _ t d a b c | .atomg _ _ t d a b c => uses [(2, a), (tyRegs t, b), (tyRegs t, c)] [(tyRegs t, d)]
  | .chdrop try_ pd _ a => { uses [(1, a)] [] with sets := if try_ then [pd] else [] }
  | .chtake try_ pd _ d => { uses [] [(1, d)] with sets := if try_ then [pd] else [] }
  | .wait _ nc _ d w b => uses [(4 * (nc.toNat + 1), w), (1, srcOpd b)] [(1, d)]
  | .msend _ d a b c => uses1 d [a, b, c]
  | .mrecv _ d a b c => uses [(1, a), (1, b), (1, c)] [(2, d)]
  | .mprobe d b c => uses [(1, b), (1, c)] [(2, d)]
  | .spawn nohold a b => { uses [(2, a), (8, b)] [] with waits := if nohold then [] else allHeld }
  | .binflush a => uses [(2, a)] []
  | .wsplit d a b => uses [(1, a), (1, b)] [(4, d)]
  | .launch _ d a _ => uses [(2, a)] [(4, d)]
  | .signal _ _ _ a b => uses [(2, a), (1, b)] []
  | .mma _ _ _ _ _ _ _ _ vw d l sa sb => uses [(1, .v vw), (3, l), (1, sa), (1, sb)] [(1, d)]
  | .mmag scl ta tb _ _ sa sb d a b c =>
    uses ([(fragRegs ta, a), (fragRegs tb, b), (8, c)] ++ if scl then [(1, .v sa), (1, .v sb)] else []) [(8, d)]
  | .mloadb d a b c => uses1 d [a, b, c]
  | .mrd _ d a b => uses [(1, a), (1, b)] [(2, d)]
  | .mrdSt _ d => uses [] [(2, d)]
  | .mst _ _ _ _ _ d l => uses [(3, l)] [(1, d)]
  | .deriv _ _ d a => uses1 d [a]
  | .bary _ _ d => uses [] [(1, d)]
  | .emit _ t a b => { uses [(if t = .none then 1 else 4, a), (1, b)] [] with waits := allHeld }
  | .tex dim pd d a b => { uses [(texRegs dim, a), (2, b)] [(4, d)] with sets := [pd] }
  | .texl dim pd d a b c => { uses [(texRegs dim, a), (2, b), (1, c)] [(4, d)] with sets := [pd] }
  | .texg _ dim pd d a b c => { uses [(texRegs dim, a), (2, b), (1, c)] [(4, d)] with sets := [pd] }
  | .texq d b c => uses [(2, b), (1, c)] [(4, d)]
  | .dice d a b => uses1 d [a, b]
  | .trace _ _ d a b => uses [(8, a), (2, b)] [(8, d)]
  | .infer nin nout d a b => uses [(nin.toNat + 1, a), (2, b)] [(nout.toNat + 2, d)]
  | .cboard e sp d a b => uses (engSrc e d ++ [engOpd sp a, (1, b)]) (engDst e d)
  | .ccatch e d a b => uses (engSrc e d ++ [(1, a), (1, b)]) (engDst e d)
  | .creplace e _ d a b c => uses (engSrc e d ++ [(1, a), (1, b), (1, c)]) (engDst e d)
  | .calight e _ d a b => uses (engSrc e d ++ [(1, a), (1, b)]) (engDst e d)
  | .cquery d b => uses [(1, b)] [(2, d)]
  | .lotq d a => uses [(1, a)] [(2, d)]
  | .hcopy e sp dp d a b c => uses (engSrc e d ++ [engOpd sp a, engOpd dp b, (1, c)]) (engDst e d)
  | .hlayout e sp dp _ _ _ _ _ _ d a b => uses (engSrc e d ++ [(3, a), engOpd (if sp = .S then dp else sp) b]) (engDst e d)
  | .hgather e _ _ d a b c | .hscatter e _ _ d a b c => uses (engSrc e d ++ [(2, a), (2, b), (1, c)]) (engDst e d)
  | .hcoll _ e sp dp _ _ _ _ d a b c => uses (engSrc e d ++ [engOpd sp a, engOpd dp b, (1, c)]) (engDst e d)
  | .getsr n d => uses [] [(if sr64 n.toNat then 2 else 1, d)]
  | .setsr n a => uses [(if sr64 n.toNat then 2 else 1, a)] []
  | .dflip e _ d a b c => uses (engSrc e d ++ [(2, a), (2, b), (1, c)]) (engDst e d)
  | .dbgmbGet d a => uses1 d [a]
  | .dbgmbPut _ a b => uses [(1, a), (1, b)] []
  | .pref _ _ _ a => uses [(2, a)] []
  | _ => uses [] []

/-- The places that operands name. -/
def placesOf (l : List (Nat × Opd)) : List Res :=
  l.flatMap fun o => match o.2 with
    | .v n => (List.range o.1).map fun i => .v (n.toNat + i)
    | .h n _ => [.h n.toNat]
    | _ => []

/-- A word's guard as a predicate that it reads (R13). -/
def predRes (p : BitVec 3) : List Res := if p = 7 then [] else [.p p.toNat]

/-- Places that a word reads, and that it reads or writes. -/
def Uses.read (u : Uses) : List Res := placesOf u.srcs ++ u.preds.flatMap predRes
def Uses.touched (u : Uses) : List Res := u.read ++ placesOf u.dsts ++ u.sets.flatMap predRes ++ u.waits

/-- Opcodes that need a capability, by bit of the feature contract (R18); `r` is the word's rate. -/
def opFeatures (op : Nat) (r : Rate) : List Nat :=
  if 0x300 ≤ op ∧ op ≤ 0x305 then [0]
  else if 0x320 ≤ op ∧ op ≤ 0x324 then [1]
  else if op = 0x31A then [2]
  else if op = 0x319 then [3]
  else if op = 0x314 ∧ (r = .V ∨ r = .K ∨ r = .S) then [3]
  else if 0x315 ≤ op ∧ op ≤ 0x318 then [5]
  else if op = 0x31B then [1, 4]
  else []

/-- Whether a word uses a binary8 type code (R18 bit 10). -/
def usesF8 : Instr → Bool
  | .cvt t st _ _ _ _ _ _ _ _ _ | .cvts t st _ _ _ _ _ _ _ _ | .pack2 t st _ _ _ _ _ _ _ _ => t.isF8 || st.isF8
  | .unpack st _ _ _ _ _ _ _ | .dot4b8 st _ _ _ _ _ _ => st.isF8
  | .mma _ _ ta tb _ _ _ _ _ _ _ _ _ | .mmag _ ta tb _ _ _ _ _ _ _ _ => ta.isF8 || tb.isF8
  | .mst t _ _ _ _ _ _ => t.isF8
  | _ => false

/-- Whether a word uses stochastic rounding (R18 bit 9). -/
def usesSr : Instr → Bool
  | .cvt _ _ rm _ _ _ _ _ _ _ _ | .cvts _ _ rm _ _ _ _ _ _ _ | .pack2 _ _ rm _ _ _ _ _ _ _ => rm == .sr
  | _ => false

/-- The decode fault of an h operand (R31, R32), by the held map of the image that holds the word. -/
def heldFault (rate : Rate) (owner : Nat → Nat) (dest : Bool) (o : Opd) : Option Cause :=
  match o with
  | .h n m =>
    if m = 3 || (m != 0 && (dest || owner n.toNat != 4 || rateCode rate < 5)) then some .illegalEnc
    else if rate = .N || owner n.toNat = 0 then some .access
    else none
  | _ => none

/-- The lowest of two causes, if any (R99). -/
def lower (a b : Option Cause) : Option Cause :=
  match a, b with
  | some x, some y => if y.code < x.code then some y else some x
  | some x, none => some x
  | none, y => y

/-- Whether a word joins a collective that spans devices (R18 bit 6).
(DEDUCED, log 97: unsafe.) -/
def State.joinsDevices (s : State) (ctx : Nat) : Instr → Bool
  | .hcoll _ _ _ _ _ grp _ _ _ _ _ _ => s.crossDevice ctx grp.toNat
  | _ => false

/-- Decode faults that need the state (R98, R99): features, the register count and held registers.
(DEDUCED, log 16: unsafe.) -/
def State.decodeFault (s : State) (t : Nat) (addr : DWord) (op : Nat) (f : Fetched) : Option Cause :=
  let u := usesOf f.ins
  let x := s.thr t
  let hint := decide (0x3C0 ≤ op)
  let owner := s.heldOwner (s.ctxIdOf t) addr
  let enc := (usesF8 f.ins && !s.feat t 10) || (usesSr f.ins && !s.feat t 9)
  let held := (u.srcs.map fun o => heldFault x.rate owner false o.2) ++ u.dsts.map fun o => heldFault x.rate owner true o.2
  let beyondN := (placesOf (u.srcs ++ u.dsts)).any fun r => match r with
    | .v n => decide ((s.crewOf t).nreg ≤ n)
    | _ => false
  if hint then none
  else if (opFeatures op f.ctl.rate).any (fun i => !s.feat t i) || (!s.feat t 6 && s.joinsDevices (s.ctxIdOf t) f.ins)
    then some .illegalOp
  else lower (if enc then some .illegalEnc else none) (lower (held.foldl lower none) (if beyondN then some .access else none))

/-- Whether words that are malformed need a capability that the context lacks (R18, R99), as a collective that spans devices
does: its GROUP stands in the continuation. -/
def State.lacks (s : State) (t op : Nat) (k : Ctl) (next : Nat) : Bool :=
  (opFeatures op k.rate).any (fun i => !s.feat t i) ||
  (op == 0x38C && fieldN next 126 2 == 3 && !s.feat t 6 && s.crossDevice (s.ctxIdOf t) (fieldN next 0 16))

/-- The cause of words that are no instruction (R18, R99): a continuation word that some lane came to by a transfer is
TARGET_CONT, the lowest cause among the lanes.
(DEDUCED, log 16: unsafe.) -/
def State.rejectCause (s : State) (lanes : List Nat) (op : Nat) (k : Ctl) (next : Nat) (e : Reject) : Cause :=
  match e with
  | .continuation => if lanes.any fun t => (s.thr t).viaTransfer then .targetCont else .illegalEnc
  | .illegalOp => .illegalOp
  | .illegalEnc => if s.lacks (lanes.headD 0) op k next then .illegalOp else .illegalEnc
  | .truncated => .illegalEnc

/-- The words at an address: the first, and the second where the first is a head (R85). -/
inductive Words
  | ok (s : State) (w next : Nat)
  | fault (at_ : DWord)

/-- Fetch the words of an instruction (R101). -/
def State.fetchWords (s : State) (core ctx : Nat) (a : DWord) : Words :=
  match s.fetchAt core ctx a with
  | .ok loc _ _ pte bits =>
    let s := fillTlb s core ctx a.toNat pte bits
    let w := s.mem.readLE loc 16
    if fieldN w 126 2 ≠ 2 then .ok s w 0
    else
      (match s.fetchAt core ctx (a + 16) with
       | .ok loc2 _ _ pte2 bits2 => .ok (fillTlb s core ctx (a + 16).toNat pte2 bits2) w (s.mem.readLE loc2 16)
       | _ => .fault (a + 16))
  | _ => .fault a

/-- Lanes skip a word of another rate (R97); a head takes the word behind it.
(DEDUCED, log 20: unsafe.) -/
def State.skipWord (s : State) (lanes : List Nat) (kind : Nat) : State :=
  lanes.foldl (fun s t => s.modThr t fun x =>
    { x with pc := x.pc + (if kind = 2 then 32 else 16), viaTransfer := false, park := none }) s

/-- Another lane issues: lanes of the gang that have yielded may issue again (R21). -/
def State.wake (s : State) (g : Nat) : State :=
  (s.gangThreads g).foldl (fun s t => s.modThr t fun x => { x with yielded := false }) s

/-- What a lane does with a word before it runs (R22, R104, R106). -/
inductive LaneStart
  | run
  | past
  | wait (rs : List Res)
  | short
  deriving DecidableEq, Repr

/-- Whether a lane reads a fixed-latency result too early (R102, R106). -/
def State.early (s : State) (t : Nat) (rs : List Res) : Bool :=
  (s.thr t).pend.any fun p => rs.contains p.res && decide (s.cycle < p.due)

/-- How a hint starts in a lane (R104, R109, R194): it raises no execution fault. MBURST waits for its guard's predicate as every
word does; PREF never waits. -/
def State.hintStart (s : State) (t : Nat) (op : Nat) (k : Ctl) : LaneStart :=
  let rs := (predRes k.pred).filter (s.tracked t).contains
  if op ≠ 0x3C0 && !rs.isEmpty then .wait rs else if s.prx t k.pred k.pneg = false then .past else .run

/-- How a word starts in a lane: the guard's predicate first, then what the word names (R22, R98, R104, R106). -/
def State.laneStart (s : State) (t : Nat) (k : Ctl) (u : Uses) : LaneStart :=
  let g := predRes k.pred
  let out := s.tracked t
  let check := (s.launchOf t).lrec.check
  let busy := fun (l : List Res) => l.filter out.contains
  if !(busy g).isEmpty then .wait (busy g)
  else if check && s.early t g then .short
  else if s.prx t k.pred k.pneg = false then .past
  else if !(busy u.touched).isEmpty then .wait (busy u.touched)
  else if check && s.early t u.read then .short
  else .run

/-- How a word of an opcode starts in a lane: a hint's start never faults (R109). -/
def State.startOf (s : State) (t : Nat) (op : Nat) (k : Ctl) (u : Uses) : LaneStart :=
  if 0x3C0 ≤ op then s.hintStart t op k else s.laneStart t k u

/-- Start a word in its active lanes: those that fail the guard will go past it, those that wait are parked, those that read too
early fault, and the others run. -/
def State.startLanes (s : State) (op : Nat) (k : Ctl) (u : Uses) : List Nat → State
  | [] => s
  | t :: ts =>
    let s := match s.startOf t op k u with
      | .run => { s with iss := { s.iss with lanes := s.iss.lanes ++ [t] } }
      | .past => { s with iss := { s.iss with passed := s.iss.passed ++ [t] } }
      | .wait rs => s.setPark t (.retry (.results rs))
      | .short => { s with iss := { s.iss with faults := s.iss.faults ++ [(t, .stallShort, 0)] } }
    State.startLanes s op k u ts

/-- The breakpoint that matches an issue address (R393, R395).
(DEDUCED, log 22: unsafe.) -/
def State.breakpoint (s : State) (ctx : Nat) (a : DWord) : Option Nat :=
  let c := s.ctxAt ctx
  if !c.dbgAttach then none
  else (List.range 8).find? fun i => let b := (c.bps.getD i 0).toNat
    testN b 0 && fieldN b 4 48 == a.toNat / 16

/-- Words that make a memory request (R373). -/
def memoryWord (op : Nat) : Bool := decide (0x202 ≤ op ∧ op ≤ 0x208) || decide (0x211 ≤ op ∧ op ≤ 0x214)

/-- Words that bind a crew to its pair (R383). -/
def pairWord : Instr → Bool
  | .mma _ _ _ _ _ _ _ _ _ _ _ _ _ | .mloadb _ _ _ _ | .mst _ _ _ _ _ _ _ | .mzero _ | .mrd _ _ _ _ | .mrdSt _ _ => true
  | _ => false

/-- The gang has issued a word: its stall count runs (R102), and its crew has issued one more (R373).
(DESIGN CHOICE, log 18: safe.) -/
def State.issued (s : State) (g : Nat) (k : Ctl) (op : Nat) : State :=
  (s.modGang g fun x => { x with ready := s.cycle + 1 + k.stall.toNat, lastIssue := s.cycle, promoted := false }).modCrew
    (s.gangAt g).crew fun c => { c with words := c.words + 1, reqs := c.reqs + if memoryWord op then 1 else 0 }

/-- Sub-gangs that a word has formed: gangs made since a number. -/
def State.newGangs (s : State) (since g : Nat) : List Nat :=
  SMap.keys (s.gangs.filter fun kv => decide (since ≤ kv.1) && kv.2.parent == some g && kv.2.trapCause != 0)

/-- A stop of whose lanes some have gone on. -/
def Stop.without (st : Stop) (ts : List Nat) : Stop := { st with threads := st.threads.filter fun t => !ts.contains t }

/-- Lanes that have executed a word in a step are no longer stopped by what stopped them before (R399). -/
def Ctx.stepped (c : Ctx) (ts : List Nat) : Ctx :=
  { c with stops := c.stops.map (·.without ts), recorded := c.recorded.map (·.without ts), earlier := c.earlier.map (·.without ts) }

/-- A stop is to be recorded (R398): the crew halts with it, unless it has ended. -/
def State.stopCrew (s : State) (ci : Nat) (st : Stop) : State :=
  if (s.crewAt ci).status = .ended then
    s.modCtx (s.launchAt (s.crewAt ci).launch).ctx fun x => { x with stops := x.stops ++ [st] }
  else s.haltCrew ci st

/-- A debugger's step has issued its word, which the lanes `ran` have executed (R400): the crew stops again, unless the word stopped
it already; a word that traps leaves its sub-gang at HANDLER, and one that ends the crew is recorded too. The record names the
thread of the step (R398). -/
def State.endStep (s : State) (before : State) (g : Nat) (ran : List Nat) : State :=
  let ci := (before.gangAt g).crew
  match (before.crewAt ci).stepping with
  | none => s
  | some (_, t) =>
    let ctx := (s.launchAt (s.crewAt ci).launch).ctx
    let s := s.modCrew ci fun c => { c with stepping := none }
    if decide ((before.ctxAt ctx).stops.length < (s.ctxAt ctx).stops.length) then s
    else
      let s := s.modCtx ctx fun x => x.stepped ran
      let subs := s.newGangs before.fresh g
      let s := subs.foldl State.enterHandler s
      let lanes := match subs with
        | [] => ran
        | k :: _ => s.gangThreads k
      let st := { s.stopOf ci 0x32 0xFF 0 (if lanes.isEmpty then [t] else lanes) 0 with tid := (s.thr t).tid }
      s.stopCrew ci (if lanes.isEmpty then { st with lanes := 0, threads := [] } else st)

/-- Whether a lane of the issue is held at the word, or parked on a translation of it: it issues it again. -/
def State.heldAt (s : State) (t : Nat) : Bool :=
  match (s.thr t).park with
  | some (.retry _) | some (.xlate _ _ _ _) => true
  | _ => false

/-- How many lanes of the issue are held at the word. -/
def State.heldNow (s : State) (ts : List Nat) : Nat := (ts.filter s.heldAt).length

/-- Lanes whose guard failed go past the word (R22).
(DEDUCED, log 19: unsafe.) -/
def State.passLanes (s : State) : State := s.iss.passed.foldl State.past s

/-- What follows a word that `n` lanes took up (R22, R356, R374, R400): lanes whose guard failed go past it; faults that the word has not taken are taken; the
context has moved on if a lane executed the word without faulting; a debugger's step ends; and the word is charged, once,
however often it issues again.
(DEDUCED, log 19: unsafe.) -/
def State.afterIssue (s : State) (before : State) (g n : Nat) (again : Bool) : State :=
  let l := (before.crewAt (before.gangAt g).crew).launch
  let s := s.passLanes
  let s := if s.iss.faults.isEmpty then s else
    let fs := s.iss.faults
    (s.noteFaults (s.iss.faulted + fs.length)).takeFault g 0xFF 0 fs
  let s := if s.iss.faulted + s.heldNow before.iss.lanes < n then s.progressed (before.launchAt l).ctx else s
  let s := s.endStep before g (before.iss.lanes.filter fun t => !s.heldAt t)
  if again then s else s.chargeC l 1

/-- How the issue of a gang begins: it may end before any lane runs the word. -/
inductive Start
  | ended (s : State)
  | run (s : State) (i : Instr) (n : Nat) (again : Bool)

/-- Whether a lane was held at the word by something other than the scoreboard, and the word has been charged (R356). -/
def State.heldBefore (s : State) (t : Nat) : Bool :=
  s.iss.held.any fun e => e.1 == t && (match e.2 with
    | .results _ | .quad _ => false
    | _ => true)

/-- Lanes parked by a hold go on to the word again; what held them is kept for the word. -/
def State.takeUp (s : State) (g : Nat) (a : DWord) (f : Fetched) (active : List Nat) : State :=
  let held := active.filterMap fun t => match (s.thr t).park with
    | some (.retry b) => some (t, b)
    | _ => none
  let s := active.foldl (fun s t => s.modThr t fun x => { x with park := none }) s
  { s with iss := { gang := g, addr := a, len := (encode f).length, lanes := [], passed := [], held := held, faults := [], faulted := 0, ctl := f.ctl } }

/-- Begin the word `f` in the active lanes: the issue is prepared for `exec` (R21, R22, R98, R104).
(DEDUCED, log 20: unsafe.)
(DEDUCED, log 22: unsafe.) -/
def State.beginWord (s : State) (g : Nat) (a : DWord) (op : Nat) (f : Fetched) (active : List Nat) : Start :=
  let s := (s.takeUp g a f active).startLanes op f.ctl (usesOf f.ins) active
  let ran := s.iss.lanes
  let n := active.length - s.heldNow active
  if n = 0 then .ended s
  else
    let s := (s.wake g).issued g f.ctl op
    let stop := ran.filter fun t => !(s.thr t).passOnce
    let bound (s : State) : State :=
      if pairWord f.ins && !ran.isEmpty then s.modCrew (s.gangAt g).crew fun c => { c with pairBound := true } else s
    match s.breakpoint (s.ctxIdOf (active.headD 0)) a with
    | some i => if stop.isEmpty then .run (bound s) f.ins n (active.all s.heldBefore)
        else .ended (s.passLanes.takeFault g i 0 (stop.map fun t => (t, .brk, 0)))
    | none => .run (bound s) f.ins n (active.all s.heldBefore)

/-- A word that no lane can execute faults in all of them (R98, R99). -/
def State.badWord (s : State) (g : Nat) (a : DWord) (k : Ctl) (op : Nat) (c : Cause) (active : List Nat) : State :=
  let b := (s.wake g).issued g k op
  let b := { b with iss := { b.iss with gang := g, addr := a, lanes := [], passed := [], held := [], faults := [], faulted := active.length, ctl := k } }
  let ea := if c = Cause.targetCont then a else 0
  (b.takeFault g 0xFF 0 (active.map fun u => (u, c, ea))).afterIssue b g active.length false

/-- Begin a gang's issue: fetch, rate skip, ELECT and the decode checks, then the word (R21, R97 to R99, R101).
(DEDUCED, log 16: unsafe.)
(DEDUCED, log 100: safe.) -/
def State.beginIssue (s : State) (g : Nat) : Start :=
  match s.issueAt g with
  | none => .ended s
  | some (a, lanes) =>
    let t := lanes.headD 0
    let s := lanes.foldl (fun s t => (s.returnDue t).settle t) s
    if lanes.any fun t => (s.fetchRefused t a).isSome then
      let s' := s.takeRefused g a lanes
      .ended (if (s'.newGangs s.fresh g).isEmpty then s' else s'.endStep s g [])
    else
    match s.fetchWords (s.coreOf t) (s.ctxIdOf t) a with
    | .fault at_ =>
      let s' := s.fetchFault g at_ lanes
      .ended (if (s'.newGangs s.fresh g).isEmpty then s' else s'.endStep s g [])
    | .ok s w next =>
      let k := readCtl w
      let op := fieldN w 102 10
      if k.rate ≠ (s.gangAt g).rate then .ended (s.skipWord lanes (fieldN w 126 2))
      else
        let active := if k.elect then lanes.take 1 else lanes
        match decodeWords w next with
        | .error e => .ended (s.badWord g a k op (s.rejectCause active op k next e) active)
        | .ok f =>
          match s.decodeFault t a op f with
          | some c => .ended (s.badWord g a k op c active)
          | none => s.beginWord g a op f active

end Sys2Proof.Machine
end

