-- ==== Sys2Proof/Machine/Schedule.lean ====
section
/-! DEFINITION. What happens next: the order in which gangs are served (R368, R369), the events that the device's own state
can bring about, the passing of time, and the choice among them. Where the spec fixes no order between independent parts of
the device, the order is written in `State.agenda`, and a free value chooses where the agenda says nothing. Last, how a
state is set up so that its next step issues a given word. -/

namespace Sys2Proof.Machine

/-- A number that is smaller the earlier a gang is served (R368): effective priority, deadline class, age. -/
def State.gangKey (s : State) (g : Nat) : Nat :=
  let x := s.gangAt g
  let c := s.crewAt x.crew
  let l := s.launchAt c.launch
  let prio := if l.behind then 8 else l.prio
  ((((8 - prio) * 16 + classKey l.dclass) * 2 ^ 64 + l.admittedAt) * 65536 + c.idx) * 2 ^ 64 + x.formed

/-- A ready gang that has not issued for 4,096 cycles (R369).
(DEDUCED, log 79: safe.) -/
def State.starved (s : State) (g : Nat) : Bool := (s.gangAt g).promoted || decide ((s.gangAt g).lastIssue + 4096 ≤ s.cycle)

/-- Whether one ready gang of a pipe is served before another (R368, R369). -/
def State.gangBefore (s : State) (a b : Nat) : Bool :=
  let byKey := decide (s.gangKey a < s.gangKey b)
  match s.starved a, s.starved b with
  | true, false => true
  | false, true => false
  | false, false => byKey
  | true, true =>
    decide ((s.gangAt a).lastIssue < (s.gangAt b).lastIssue) || ((s.gangAt a).lastIssue == (s.gangAt b).lastIssue && byKey)

/-- Gangs that share a pipe of a core (R366). -/
def State.samePipe (s : State) (a b : Nat) : Bool :=
  (s.gangAt a).pipe == (s.gangAt b).pipe && (s.crewAt (s.gangAt a).crew).core == (s.crewAt (s.gangAt b).crew).core

/-- Whether a gang's pipe has issued a word in this cycle already (R368). -/
def State.pipeTaken (s : State) (g : Nat) : Bool :=
  s.gangs.any fun kv => kv.1 != g && s.samePipe kv.1 g && kv.2.lastIssue == s.cycle && decide (s.cycle < kv.2.ready)

/-- Whether a gang issues next on its pipe (R368). -/
def State.mayIssue (s : State) (g : Nat) : Bool :=
  s.gangReady g && !s.pipeTaken g &&
  s.gangs.all fun kv => kv.1 == g || !s.samePipe kv.1 g || !s.gangReady kv.1 || !s.gangBefore kv.1 g

/-- Constructors that are events of the device or of what is around it, and no words of a program. -/
def isEvent : Instr → Bool
  | .sleepExpiry _ | .waitEvaluation _ | .messageDelivery _ | .binTimerExpiry _ | .growGrant _ | .mmaStep _
  | .matrixQueueEntry _ | .rampFillersDone _ | .burstHoldExpiry _ | .inferBatchService _ | .carouselPassage _ _
  | .engineCompletion _ | .trackedResultReturn _ | .homeRmwPerform _ | .handlerEntry _ | .fetchTranslationFault _
  | .starvationPromotion _ | .behindTest | .congestionSample | .watchdogFire _ | .residencyBatchTimeout _ | .qdoor _ _
  | .qcfgWrite _ _ | .qchead _ _ | .recordTake _ | .launchAdmission _ | .crewPlacement _ | .evictionSaveComplete _
  | .crewRestore _ | .restoreWaitTimeout _ | .deadlineCut _ | .fallbackAdmission _ | .lotCommit _ | .dresserFold _ _
  | .elementCreation _ | .stockpileStallLimit _ | .primitiveRasterise _ _ | .sampleResolve _ _ | .drawWriteOut _
  | .frameStart _ | .fresp _ _ | .tlbInvalidate _ _ | .contextCreate _ _ | .contextDestroy _ | .debugAttach _ _
  | .watchpointWrite _ _ _ | .haltreq _ _ | .debugResume _ | .debugStep _ | .debugAbort _ | .stopRecordDelivery _
  | .registerWrite _ _ _ | .hostBar2Write _ _ | .hostBar2Read _ _ | .configurationRequest _ | .getVersion
  | .getCapabilities | .negotiateAlgorithms | .getDigests | .getCertificate _ _ _ | .challenge _ _ | .getMeasurements _
  | .fabricRequest _ _ _ | .windowPacketArrival _ _ _ _ _ _ | .subnetworkPowerUp _ | .subnetworkPowerDown _ _
  | .escapeDiversion _ _ | .ptpEnable _ | .ptpEventMessage _ | .syncLoss | .holdoverTimeout | .outputEnable _ _
  | .ostatClear _ _ | .checkpoint | .restore | .fwload | .warmreset | .coldreset | .survey | .commandCompletion
  | .fundamentalReset | .soundingComplete _ _ | .hbmScrub _ _ | .fatalErrorContainment | .thermalThrottle _
  | .storePerformed _ | .engineLineDelivery _ _ | .frhead _ _ | .portLinkChange _ _ | .outputLinkChange _ _
  | .announceReceiptTimeout _ | .ptpMessageInterval _ | .powerLoss | .throttleEnd _ | .hbmStackTemperatureChange _ _
  | .contextResume _ => true
  | _ => false

/-- Events of what is on its way: results, stores, read-modify-writes, messages and engine operations. -/
def State.flightEvents (s : State) : List Instr :=
  let results : List Instr := ((s.results.filter fun kv => kv.2.vals.isSome || kv.2.load.isSome).map Prod.fst).map Instr.trackedResultReturn
  let stores : List Instr := (SMap.keys s.stores).map Instr.storePerformed
  let rmws : List Instr := (SMap.keys s.rmws).map Instr.homeRmwPerform
  let msgs : List Instr := ((s.msgs.filter fun kv => !kv.2.queued).map Prod.fst).map Instr.messageDelivery
  let lines : List Instr := s.eops.flatMap fun kv => kv.2.undelivered.map (Instr.engineLineDelivery kv.1)
  let ends : List Instr := ((s.eops.filter fun kv => kv.2.outcome.isSome).map Prod.fst).map Instr.engineCompletion
  [results, stores, rmws, msgs, lines, ends].flatten

/-- Whether an operation or an inference in service waits for a passage (R268, R278). -/
def State.riding (s : State) : Bool :=
  (SMap.vals s.eops).any (fun o => o.kind.rides && o.outcome.isNone) || (SMap.vals s.infers).any fun e => e.serve.isSome

/-- The passage of a tile that comes next where no operation waits for one: only an error that it finds changes anything. -/
def State.rideEvents (s : State) : List Instr :=
  match s.nextPassage with
  | some (die, slot) => if s.slots.isEmpty then [] else [Instr.carouselPassage die ⟨slot, true⟩, Instr.carouselPassage die ⟨slot, false⟩]
  | none => []

/-- The event that ends a thread's park, if it has one of its own. -/
def parkEvents (t : Nat) : Option Park → List Instr
  | some (.sleep _) => [Instr.sleepExpiry t]
  | some (.wait _ _ _ _ _ _) => [Instr.waitEvaluation t]
  | _ => []

/-- Events of a crew by where it stands. -/
def Crew.events (c : Nat) (x : Crew) : List Instr :=
  match x.status with
  | .waiting => [Instr.crewPlacement c]
  | .resident => if x.growWant.isSome then [Instr.growGrant c] else []
  | .saving => [Instr.evictionSaveComplete c]
  | .evicted => [Instr.crewRestore c]
  | .ended => []

/-- Events of threads, gangs and crews. -/
def State.crewEvents (s : State) : List Instr :=
  let parks : List Instr := s.threads.flatMap fun kv => parkEvents kv.1 kv.2.park
  let traps : List Instr :=
    ((SMap.keys s.gangs).filter fun g => !(s.gangThreads g).isEmpty && s.trappedGang g).map Instr.handlerEntry
  let crews : List Instr := s.crews.flatMap fun kv => Crew.events kv.1 kv.2
  [parks, traps, crews].flatten

/-- Events of a launch: its commit, its folding and its draw. -/
def Launch.events (l : Nat) (x : Launch) : List Instr :=
  let ends : List Instr := match x.status with
    | .ready => [Instr.lotCommit l]
    | .committed => if x.deferred.isEmpty then [] else [Instr.lotCommit l]
    | _ => []
  let folds : List Instr := if x.status = .committed then x.lines.map (Instr.dresserFold l) else []
  let draws : List Instr := match x.draw with
    | some d => (SMap.keys d.prims).map (Instr.primitiveRasterise l) ++
        ((SMap.keys d.samples).map (Instr.sampleResolve l) ++ [Instr.drawWriteOut l])
    | none => []
  [ends, folds, draws].flatten

/-- Events of launches, their draws and their queues. -/
def State.lotEvents (s : State) : List Instr :=
  let waits : List Instr := s.waiting.map Instr.launchAdmission
  let queues : List Instr := (SMap.keys s.queues).map Instr.recordTake
  let makes : List Instr := (SMap.keys s.creations).map Instr.elementCreation
  let launches : List Instr := s.launches.flatMap fun kv => Launch.events kv.1 kv.2
  [waits, queues, makes, launches].flatten

/-- Events of the matrix pairs and the inference queues. -/
def State.arrayEvents (s : State) : List Instr :=
  let queues : List Instr := s.pairs.flatMap fun kv =>
    if kv.2.queue.isEmpty then [] else [Instr.matrixQueueEntry kv.1, Instr.mmaStep kv.1]
  let infers : List Instr := ((((SMap.vals s.infers).filter fun e => e.serve.isNone).map fun e => e.die).dedup).map Instr.inferBatchService
  [queues, infers].flatten

/-- Events of contexts, clocks, the mailbox and host reads under way. -/
def State.deviceEvents (s : State) : List Instr :=
  let stops : List Instr := ((s.ctxs.filter fun kv => !kv.2.stops.isEmpty || kv.2.mboxInit).map Prod.fst).map Instr.stopRecordDelivery
  let clocks : List Instr :=
    if !s.dev.ptp.en then []
    else if s.dev.ptp.master then [Instr.ptpMessageInterval 0, Instr.ptpMessageInterval 1]
    else [Instr.ptpMessageInterval 2]
  let commands : List Instr := if s.dev.mbox.running.isSome then [Instr.commandCompletion] else []
  let surveys : List Instr := if s.dev.mbox.surveys = 0 then [] else [Instr.survey]
  let reads : List Instr := s.hostReads.map fun r => Instr.hostBar2Read r.1 r.2
  [stops, clocks, commands, surveys, reads].flatten

/-- The event of one array's ramp fillers (R402). -/
def rampEvents (array : Nat) : Ramp → List Instr
  | .cold => []
  | .hot => [Instr.burstHoldExpiry array]
  | _ => [Instr.rampFillersDone array]

/-- What has to be done now for a park, if its crew is on a core: a sleep ends one tick after its time (R136), and a WAIT is
evaluated where its conditions hold, as the write that made them hold has it evaluated, and every 16 ticks (R210). -/
def State.parkOver (s : State) (t : Nat) : List Instr :=
  match (s.thr t).park with
  | some (.sleep till) => if till < s.now then [Instr.sleepExpiry t] else []
  | some (.wait _ limit all cs _ _) =>
    if decide ((s.thr t).polled + 16 ≤ s.now) || (s.waitValue t s.now limit all cs).any fun v => !v.getLsbD 31
    then [Instr.waitEvaluation t] else []
  | _ => []

/-- A tracked result whose bound has come (R131, R470): the bound holds while its lane is not parked and no crew of its core is
being saved. -/
def State.resultDue (s : State) (r : Result) : Bool :=
  r.vals.isSome && (s.thr r.thread).park.isNone && !s.savingCores.contains (s.coreOf r.thread) &&
  (match r.due with
   | some d => decide (d ≤ s.cycle)
   | none => false)

/-- Events that come at a time, or at the latest at one: where such an event would change something it happens before anything
else, and before time passes.
(DESIGN CHOICE, log 17: safe.) -/
def State.clockEvents (s : State) : List Instr :=
  let cuts : List Instr := (SMap.keys s.launches).map Instr.deadlineCut
  let parks : List Instr := (SMap.keys s.threads).flatMap s.parkOver
  let bins : List Instr := (SMap.keys s.bins).map Instr.binTimerExpiry
  let crews : List Instr := ((s.crews.filter fun kv => kv.2.status == .evicted).map Prod.fst).map Instr.restoreWaitTimeout
  let ramps : List Instr := s.pairs.flatMap fun kv =>
    (List.range 2).flatMap fun i => rampEvents (2 * kv.1 + i) (kv.2.ramp.getD i .cold)
  let stalls : List Instr := (SMap.keys s.creations).map Instr.stockpileStallLimit
  let falls : List Instr := ((s.queues.filter fun kv => !kv.2.fallWant.isEmpty).map Prod.fst).map Instr.fallbackAdmission
  let dogs : List Instr := (SMap.keys s.ctxs).map Instr.watchdogFire
  let batches : List Instr := (s.batches.filter fun b => !b.sent).map fun b => Instr.residencyBatchTimeout b.die
  let frames : List Instr := ((s.dev.outputs.filter fun kv => kv.2.en).map Prod.fst).map Instr.frameStart
  let results : List Instr := ((s.results.filter fun kv => s.resultDue kv.2).map Prod.fst).map Instr.trackedResultReturn
  let infers : List Instr := ((List.range 4).filter fun die => !(s.inferLate die).isEmpty).map Instr.inferBatchService
  let holds : List Instr := if s.dev.ptp.lock = .holdover then [Instr.holdoverTimeout] else []
  [cuts, parks, bins, crews, ramps, stalls, falls, dogs, batches, frames, results, infers, holds].flatten

/-- The state without what the factory gave it, its clock's address and its firmware: no event that the time demands changes
them. -/
def State.sansFactory (s : State) : State :=
  { s with dev := { s.dev with flash := [], running := [], ptp := { s.dev.ptp with tmac := 0 } } }

/-- Whether an event that the time demands would change something. -/
def State.fires (s : State) (i : Instr) : Bool :=
  match exec i s with
  | .next t => t.sansFactory != s.sansFactory
  | _ => true

/-- The passage that has to happen now, as an operation waits for one; `bad` where its tile is found to have an error.
(DESIGN CHOICE, log 51: safe.) -/
def State.passageDue (s : State) (bad : Bool) : List Instr :=
  match s.nextPassage with
  | some (die, slot) => if s.riding then [Instr.carouselPassage die ⟨slot, bad && (SMap.get? s.slots slot).isSome⟩] else []
  | none => []

/-- Whether an event is one of those that have to happen now. -/
def State.isDue (s : State) (i : Instr) : Bool :=
  (s.passageDue false ++ s.passageDue true).contains i || (s.clockEvents.contains i && s.fires i)

/-- What has to happen now, if anything: the agenda's next event where it is such a one, else what a free value chooses.
(DESIGN CHOICE, log 17: safe.) -/
def State.dueMove (s : State) : Option (Instr × State) :=
  if s.dev.dstate = .sounding then none
  else
    let ds := s.passageDue (Config.freeWord s.free).msb ++ s.clockEvents.filter s.fires
    if ds.isEmpty then none
    else
      match s.agenda with
      | .event i :: rest =>
        if s.isDue i then some (i, { s with agenda := rest })
        else (ds[(s.freeWord.1.toNat % 2 ^ 31) % ds.length]?).map fun i => (i, s.freeWord.2)
      | _ => (ds[(s.freeWord.1.toNat % 2 ^ 31) % ds.length]?).map fun i => (i, s.freeWord.2)

/-- Events that the device's own state can bring about. One whose condition does not hold yet changes nothing. -/
def State.events (s : State) : List Instr :=
  [s.flightEvents, s.rideEvents, s.crewEvents, s.lotEvents, s.arrayEvents, s.deviceEvents].flatten

/-- What can happen next, time passing aside. -/
def State.picks (s : State) : List Pick :=
  ((SMap.keys s.gangs).filter s.mayIssue).map (fun g => .issue g 0) ++ s.events.map .event

/-- What the machine does in a step. -/
inductive Move
  /-- A gang issues its next word. -/
  | issue (g : Nat)
  /-- Something happens. -/
  | event (i : Instr)
  /-- Something comes from outside: what the loader says, or an error. -/
  | change (p : Pick)
  /-- A cycle passes. -/
  | pass
  /-- There is no power. -/
  | dead
  deriving DecidableEq, Repr

/-- Time passes (R2): every launch is tested for being behind at every tick (R368), the watchdogs of contexts with a halted crew
do not count it (R393), and the dies are sampled every 256 ticks (R373).
(DESIGN CHOICE, log 18: safe.) -/
def State.pass (s : State) (cycles : Nat) : State :=
  let s' := s.advance cycles
  let s' := if s.now < s'.now then (s'.dogTicks (s'.now - s.now)).testBehind else s'
  if s.now / 256 < s'.now / 256 then s'.sampleDies else s'

/-- The pick that the agenda writes down: an issue comes after its delay, cycle by cycle, and happens only if the gang issues
next.
(DESIGN CHOICE, log 17: safe.) -/
def State.pickMove (s : State) (p : Pick) : Move × State :=
  match p with
  | .issue g (n + 1) => (.pass, { s with agenda := .issue g n :: s.agenda })
  | .issue g 0 => if s.mayIssue g then (.issue g, s) else (.pass, s)
  | .event i => if isEvent i then (.event i, s) else (.pass, s)
  | .image im => (.change (.image im), s)
  | .mishap m => (.change (.mishap m), s)

/-- The loader tells the device of a code image (R63, R71): it takes the place of what its addresses held.
(DESIGN CHOICE, log 60: safe.)
(DESIGN CHOICE, log 61: unsafe.) -/
def State.loadImage (s : State) (im : Image) : State :=
  { s with images := im :: s.images.filter fun x => x.ctx != im.ctx || !overlap x.base x.size im.base im.size }

/-- An error of the chip or of a link (R451, R452, R454): it is counted; one that cannot be corrected faults the lane that consumes
it with MACHINE_CHECK, so that its lot aborts (R296), or ends the operation with MCHECK (R293).
(DESIGN CHOICE, log 118: safe.) -/
def State.mishap (s : State) (m : Mishap) : State :=
  match m with
  | .sramCorrected => s.count 2
  | .dieRetry => s.count 6
  | .fabricRetry => s.count 7
  | .laneSram t =>
    if (s.thr t).live && (s.crewOf t).status == .resident then (s.count 3).abortLot (s.launchIdOf t) 0x03 0x01 0 true else s
  | .engineSram n =>
    if (SMap.get? s.eops n).any fun o => o.outcome.isNone then (s.count 3).engFail n 0x0A else s

/-- What comes from outside by the agenda alone. -/
def State.change (s : State) (p : Pick) : State :=
  match p with
  | .image im => s.loadImage im
  | .mishap m => s.mishap m
  | .issue _ _ | .event _ => s

/-- The choice where the agenda says nothing: sounding ends with success; where something can happen, a free value says
what, or that time passes first; else time passes. -/
def State.freeMove (s : State) : Move × State :=
  if s.dev.dstate = .sounding then (.event (.soundingComplete none 0), s)
  else
    match s.picks with
    | [] => (.pass, s)
    | ps =>
      let (w, s) := s.freeWord
      match ps[w.toNat % (ps.length + 1)]? with
      | some (.issue g _) => (.issue g, s)
      | some (.event i) => (.event i, s)
      | some p => (.change p, s)
      | none => (.pass, s)

/-- What happens next, and the state with that choice made: what the time demands comes first.
(DESIGN CHOICE, log 17: safe.)
(DESIGN CHOICE, log 60: safe.) -/
def State.move (s : State) : Move × State :=
  match s.agenda with
  | .event .fundamentalReset :: rest => (.event .fundamentalReset, { s with agenda := rest })
  | ps =>
    if !s.dev.power then (.dead, s)
    else
      match s.dueMove, ps with
      | some (i, s), _ => (.event i, s)
      | none, p :: rest => State.pickMove { s with agenda := rest } p
      | none, [] => s.freeMove

/-- A thread's predicates that let a guard hold (R13, R22). -/
def guardPreds (k : Ctl) : BitVec 7 := if k.pneg then 0 else 0x7F

/-- The context, launch, crew and gang that issue a word next. -/
def fetchRec : LRec := { LRec.zero with ncrew := 1, nreg := 256, threads := 32, deadline := -1, boundc := -1, boundb := -1 }

def fetchLaunch : Launch := { Launch.zero with lot := 1, status := .running, started := some 0 }

def fetchCrew : Crew :=
  { Crew.zero with launch := 1, status := .resident, threads := 32, nreg := 256, sSize := 0x10000,
                   chutes := (List.range 16).map fun _ => { Chute.zero with cap := 64 } }

def fetchCtx : Ctx := { Ctx.reset with exists_ := true, featc := 0x7FF }

/-- A leaf of the page table for a code page at an address of HBM (R387). -/
def codeLeaf (page : Nat) : DWord := BitVec.ofNat 64 (page * 65536 + 4 * 4 + 3)

/-- Store two words at location 65,536 and set up one thread, of the first word's rate, whose gang issues them next: a context
whose translation buffers hold the page of code, an image that covers the page, a running launch, a crew on core 0, and at
the draw's rates an element, with every held register owned by V.
(DESIGN CHOICE, log 60: safe.) -/
def State.placeWord (s : State) (w next : Nat) : State :=
  let k := readCtl w
  let draw := rateCode k.rate != 0
  let x : Thread :=
    { Thread.zero with crew := 1, rate := k.rate, gang := 1, home := 1, pc := 0x10000, preds := guardPreds k, live := true,
                       elem := if draw then some 1 else none }
  let e : Elem := { Elem.zero with launch := 1, rate := k.rate, own := true, lam := [0x3F800000, 0, 0] }
  { s with
    mem := s.mem.writeN 0x10000 (bytesOf 16 w ++ bytesOf 16 next),
    tlb := (0, 0, 1, 16, codeLeaf 1) :: s.tlb,
    dev := { s.dev with dstate := .ready, power := true },
    ctxs := SMap.put s.ctxs 0 fetchCtx,
    images := [{ ctx := 0, base := 0x10000, size := 0x10000, entries := [(0x10000, 0)], held := List.replicate 64 4,
                 live := List.replicate 64 0, rates := List.replicate 8 true }],
    launches := SMap.put s.launches 1 { fetchLaunch with lrec := { fetchRec with draw := draw } },
    crews := SMap.put s.crews 1 fetchCrew,
    gangs := SMap.put s.gangs 1 { Gang.zero with crew := 1, rate := k.rate, ready := s.cycle },
    threads := SMap.put s.threads 1 x,
    elems := if draw then SMap.put s.elems 1 e else s.elems,
    fresh := max s.fresh 2,
    agenda := .issue 1 0 :: s.agenda }

end Sys2Proof.Machine
end

