-- ==== Sys2Proof/Machine/Step.lean ====
section
/-! DEFINITION. One step of the machine: a gang issues a word, an event happens, the loader speaks or an error strikes, or a cycle
passes. -/

namespace Sys2Proof.Machine

/-- One step. -/
def step (s : State) : Host.Outcome State Fault Refusal :=
  match s.move with
  | (.issue g, s) =>
    (match s.beginIssue g with
     | .ended s => .next s
     | .run b i n again =>
       (match exec i b with
        | .next t => .next (t.afterIssue b g n again)
        | .fault r => .fault r
        | .refused r => .refused r))
  | (.event i, s) => exec i s
  | (.change p, s) => .next (s.change p)
  | (.pass, s) => .next (s.pass 1)
  | (.dead, _) => .fault .noPower

/-- The state with an instruction stored where the next step fetches: its bits above `nbits` are zero.
(DESIGN CHOICE, log 60: safe.) -/
def State.withFetchWord (s : State) (nbits w : Nat) : State :=
  let w := w % 2 ^ nbits
  s.placeWord (w % 2 ^ 128) (w / 2 ^ 128)

end Sys2Proof.Machine
end

