-- ==== Sys2Proof/Safety.lean ====
section
/-! DEFINITION. The terms that claims use: what a word leaves in its lanes when it completes, when its operands can be
read and written, the canonical form of the state, and what counts as a safe run. -/

namespace Sys2Proof.Machine

/-- The canonical form of memory and of the maps that name the units of work. -/
def State.Canonical (s : State) : Prop :=
  s.mem.wf = true ∧ SMap.sorted s.threads = true ∧ SMap.sorted s.gangs = true ∧ SMap.sorted s.crews = true ∧
    SMap.sorted s.launches = true

/-- The rational that an exact value without a sticky part stands for; 0 for what is no real value. -/
def FVal.rat : FVal → ℚ
  | .fin s m e _ => (sgnMul s m : ℚ) * 2 ^ e
  | _ => 0

/-- From state `s` on, the host has been told of a vector: it is the last thing sent, or stays pending where it is masked (R420,
R423). -/
def State.Told (s u : State) (vec : Nat) : Prop :=
  if s.masked vec then vec ∈ u.dev.msixPending ∧ u.outs = s.outs else u.outs = s.outs ++ [.msix vec]

/-- A step from the state ends in a next state. -/
def State.Moves (s : State) : Prop := ∃ t, step s = .next t

/-- A run of `k` steps that stops nowhere. -/
def State.SafeFor (s : State) (k : Nat) : Prop := ∃ t, Host.Core.run Sys2Proof.core k s = .next t

/-- The word in issue met no fault before it runs, and names each of its executing lanes once (R21, R98). -/
def State.Issues (s : State) : Prop := s.iss.faults = [] ∧ s.iss.lanes.Nodup

/-- In every executing lane an operand of `w` bits can be read, and holds `x` (R142). -/
def State.Reads (s : State) (w : Nat) (o : Opd) (x : Nat → Nat) : Prop := ∀ t ∈ s.iss.lanes, s.src t w o = .ok (x t)

/-- The same of a last source, which may be an immediate (R139). -/
def State.ReadsI (s : State) (w : Nat) (sgn : Bool) (o : SrcI) (x : Nat → Nat) : Prop :=
  ∀ t ∈ s.iss.lanes, s.srcI t w sgn o = .ok (x t)

/-- Every executing lane may write a destination (R32). -/
def State.Writes (s : State) (d : Opd) : Prop := ∀ t ∈ s.iss.lanes, s.dstFault t d = none

/-- Every executing lane, in turn, has an effect and goes past the word; no lane faults. -/
def State.each (s : State) (f : State → Nat → State) : State :=
  (s.iss.lanes.foldl (fun u t => (f u t).past t) s).noteFaults 0

/-- Every executing lane starts the results of a fixed latency that `r` gives for it, and goes past the word (R103). -/
def State.yields (s : State) (lat : Nat) (r : Nat → List (Res × Word)) : State :=
  s.each fun u t => u.laterAll t lat (r t)

/-- Every executing lane, in turn, ends the word as `f` says; none where some lane does not end it so. -/
def State.does (s : State) (f : State → Nat → Option State) : Option State :=
  (s.iss.lanes.foldl (fun (o : Option State) t => o.bind fun u => f u t) (some s)).map fun u => u.noteFaults 0

/-- Every executing lane has the effect that `f` gives and goes past the word; none where some lane does not complete. -/
def State.runs (s : State) (f : State → Nat → Option State) : Option State :=
  s.does fun u t => (f u t).map fun v => v.past t

/-- Every executing lane transfers control to the address that `f` gives with its effect; none where some lane does not. -/
def State.jumps (s : State) (f : State → Nat → Option (State × DWord)) : Option State :=
  s.does fun u t => (f u t).map fun v => v.1.goto_ t v.2

/-- The lanes that `bad` names fault and keep everything as it was, and the others have an effect and go past the word
(R98). -/
def State.partly (s : State) (bad : Nat → Option (Cause × DWord)) (f : State → Nat → State) : State :=
  let fs := s.iss.lanes.filterMap fun t => (bad t).map fun c => (t, c.1, c.2)
  ((s.iss.lanes.foldl (fun u t => if (bad t).isSome then u else (f u t).past t) s).noteFaults fs.length).takeFault
    s.iss.gang 0xFF 0 fs

/-- What an access does at the location it reaches: it has no effect yet where a check fails or an earlier access of the
thread is to be waited for (R185, R323). -/
def State.access (t : Nat) (mm : MemMods) (r : Reach) (k : State → Nat → Bool → Bool → Option State) : Option State :=
  match r with
  | .ok v loc host peer => (v.mayGo t mm.ord mm.scope.toNat).bind fun w => k w loc host peer
  | _ => none

/-- A load's effect once its location is known: its registers wait, it is on its way as result number `u.fresh`, and one of a peer's
memory goes out on its port (R104, R178, R183, R306, R426). -/
def State.loads (u : State) (t n : Nat) (mm : MemMods) (ty : Ty) (d : Opd) (glob : Bool) (loc : Nat) : State :=
  let r : Result :=
    { thread := t, regs := (loadWords ty d 0).map Prod.fst, vals := none, due := none,
      load := some { glob := glob, loc := loc, n := n, ty := ty, dst := d, acquire := mm.ord.getLsbD 0, remote := mm.remote } }
  ({ u with fresh := u.fresh + 1, results := SMap.put u.results u.fresh r }).peerRead (u.launchIdOf t) glob loc n

/-- An engine word whose own checks have passed: what its completion fields name passes its check, its earlier accesses are
performed, nothing that `hold` names holds it, and its chute has a permit for it; then `go` is its effect (R273, R275). -/
def State.opens (u : State) (t : Nat) (e : EngMods) (d : Opd) (hold : State → Option Block) (go : State → State) :
    Option State :=
  match u.engWord t e d with
  | .ok v _ _ _ =>
    if v.busy t = true ∨ (hold v).isSome = true then none
    else if e.che = false then some (go v)
    else (v.chuteFor t e.sel).bind fun c =>
      if 0 < ((v.crewAt c.1).chute c.2).free ∧ v.chuteFirst c.1 c.2 (v.putSeq t c.1 c.2) true = true then some (go v) else none
  | _ => none

/-- A hoist whose own checks have passed issues once its reservation fits the lot's quota, its core has fewer than 32
outstanding, and its destination lines are present: they become absent (R40, R290, R403);
`after` is given the operation's number. -/
def State.hoists_ (u : State) (t : Nat) (e : EngMods) (d : Opd) (kind : EKind) (units : List Nat) (resv : Nat)
    (after : Nat × State → State) : Option State :=
  let lines := u.destLines (u.thr t).crew kind
  if 512 * (u.launchOf t).lrec.quota < (u.launchOf t).lines.length + (u.launchOf t).reserved + resv then none
  else u.opens t e d (fun v => if 32 ≤ v.hoists (v.coreOf t) then some (.hoistFull (v.coreOf t)) else v.absentOf lines)
    fun v => after (v.addHoist t e d kind units resv lines)

/-- Nothing but the program's registers, predicates and results in flight of one thread, and where it stands, differs. -/
def State.SameBut (s u : State) (ts : List Nat) : Prop :=
  u.mem = s.mem ∧ u.crews = s.crews ∧ u.launches = s.launches ∧ u.gangs = s.gangs ∧ u.elems = s.elems ∧
  u.ctxs = s.ctxs ∧ u.queues = s.queues ∧ u.dev = s.dev ∧ u.pairs = s.pairs ∧ u.acc = s.acc ∧ u.tileStat = s.tileStat ∧
  u.slots = s.slots ∧ u.stores = s.stores ∧ u.buffers = s.buffers ∧ u.rmws = s.rmws ∧ u.eops = s.eops ∧
  u.rides = s.rides ∧ u.packets = s.packets ∧ u.hostReads = s.hostReads ∧ u.tlb = s.tlb ∧ u.bars = s.bars ∧ u.bins = s.bins ∧
  u.msgs = s.msgs ∧ u.absent = s.absent ∧ u.outs = s.outs ∧ u.cycle = s.cycle ∧ u.rtime = s.rtime ∧ u.ptime = s.ptime ∧
  u.commits = s.commits ∧ u.calendar = s.calendar ∧ u.creations = s.creations ∧ u.infers = s.infers ∧
  u.results = s.results ∧
  ∀ t, t ∉ ts → SMap.get? u.threads t = SMap.get? s.threads t

end Sys2Proof.Machine
end

