-- ==== Sys2Proof/Certificates/Slice0/Obligations.lean ====
section
/-! DEFINITION. The statements for the provers: what the numbered rules of the spec say that words and events do. -/

open Sys2Proof Sys2Proof.Machine

/-- Integer arithmetic (R144): in every executing lane ADD, SUB, ADDC, SUBB, NEG, ABS, MUL, MULHI, MAD, MADW, MIN and MAX
give the value of R144 after 4 or 6 cycles, the carry-out or borrow goes to its predicate, and nothing else happens but
that the lane goes past the word.
Division (R145): a lane whose divisor is 0 faults ARITH, and only that lane; every other lane gets the quotient
truncated toward zero, or the remainder with the dividend's sign, after 40 cycles. -/
def Obligations.IntegerArithmetic : Prop :=
  (
    ∀ (s : State) (ty : Ty) (sat : Bool) (d a b : Opd) (c : SrcI) (pi po : BitVec 3) (x y z : Nat → Nat),
      s.Issues → s.Writes d →
      let w := tyBits ty
      let g := tySigned ty
      let A := fun t => readInt w g (x t)
      let B := fun t => readInt w g (y t)
      let put := fun (v : Int) => writeInt w g d (if sat then max (minT w g) (min v (maxT w g)) else v)
      let p := fun t => if s.pr t pi.toNat then 1 else 0
      (s.Reads w a x → s.ReadsI w g c y →
        exec (.add sat ty d a c po) s = .next (s.yields 4 fun t =>
          put (A t + B t) ++ predWord po (decide (2 ^ w ≤ x t + y t))) ∧
        exec (.sub sat ty d a c po) s = .next (s.yields 4 fun t =>
          put (A t - B t) ++ predWord po (decide (x t < y t))) ∧
        exec (.addc ty d a c pi po) s = .next (s.yields 4 fun t =>
          writeInt w g d ((x t + y t + p t : Nat) : Int) ++ predWord po (decide (2 ^ w ≤ x t + y t + p t))) ∧
        exec (.subb ty d a c pi po) s = .next (s.yields 4 fun t =>
          writeInt w g d ((x t : Int) - y t - p t) ++ predWord po (decide ((x t : Int) - y t - p t < 0))) ∧
        exec (.mul ty d a c) s = .next (s.yields 6 fun t => writeInt w g d (A t * B t)) ∧
        exec (.mulhi ty d a c) s = .next (s.yields 6 fun t => writeInt w g d (A t * B t / 2 ^ w)) ∧
        exec (.min ty d a c) s = .next (s.yields 4 fun t => writeInt w g d (min (A t) (B t))) ∧
        exec (.max ty d a c) s = .next (s.yields 4 fun t => writeInt w g d (max (A t) (B t)))) ∧
      (s.Reads w a x →
        exec (.neg sat ty d a) s = .next (s.yields 4 fun t => put (-A t)) ∧
        exec (.abs sat ty d a) s = .next (s.yields 4 fun t => put |A t|)) ∧
      (s.Reads w a x → s.Reads w b y → s.ReadsI w g c z →
        exec (.mad ty d a b c) s = .next (s.yields 6 fun t => writeInt w g d (A t * B t + readInt w g (z t)))) ∧
      (s.Reads 32 a x → s.Reads 32 b y → s.ReadsI 64 g c z →
        exec (.madw ty d a b c) s = .next (s.yields 6 fun t =>
          writeInt 64 g d (readInt 32 g (x t) * readInt 32 g (y t) + readInt 64 g (z t))))) ∧
  (
    ∀ (s : State) (ty : Ty) (d a : Opd) (c : SrcI) (x y : Nat → Nat), s.Issues → s.Writes d →
      s.Reads (tyBits ty) a x → s.ReadsI (tyBits ty) (tySigned ty) c y →
      let w := tyBits ty
      let g := tySigned ty
      let q := fun t => (readInt w g (x t)).tdiv (readInt w g (y t))
      let r := fun t => readInt w g (x t) - readInt w g (y t) * q t
      let bad := fun t => if readInt w g (y t) = 0 then some (Cause.arith, (0 : DWord)) else none
      exec (.div ty d a c) s = .next (s.partly bad fun u t => u.laterAll t 40 (writeInt w g d (q t))) ∧
      exec (.rem ty d a c) s = .next (s.partly bad fun u t => u.laterAll t 40 (writeInt w g d (r t))) ∧
      ((∀ t ∈ s.iss.lanes, readInt w g (y t) ≠ 0) →
        exec (.div ty d a c) s = .next (s.yields 40 fun t => writeInt w g d (q t)) ∧
        exec (.rem ty d a c) s = .next (s.yields 40 fun t => writeInt w g d (r t))))

/-- The helpers of R142: a code of a type reads back as itself, a written value reads back as itself modulo 2^w, and
a narrow result is extended to 32 bits by the signedness of its type. -/
def Obligations.IntegerReadWrite : Prop :=
  ∀ (w : Nat) (g : Bool) (v : Int), w = 8 ∨ w = 16 ∨ w = 32 ∨ w = 64 →
    (∃ k : Int, readInt w g (writeIntCode w g v) = v + k * 2 ^ w) ∧
    minT w g ≤ readInt w g (writeIntCode w g v) ∧ readInt w g (writeIntCode w g v) ≤ maxT w g ∧
    (w < 32 → readInt 32 g (writeIntCode w g v) = readInt w g (writeIntCode w g v)) ∧
    writeIntCode w g v < 2 ^ (max w 32)

/-- Logic and shifts (R146) after 4 cycles, on the unsigned views of the operands.
Bit fields and bit counts (R147) after 4 cycles. The results of BFX, BFI and BREV are said bit by bit: past the
top of a, BFX reads 0, or a's top bit under a signed type, and extends its field from the field's top bit. The counts go to
one register as `.n32`. -/
def Obligations.LogicAndShifts : Prop :=
  (
    ∀ (s : State) (ty : Ty) (d a b : Opd) (c : SrcI) (x y n : Nat → Nat), s.Issues → s.Writes d →
      ty = .b32 ∨ ty = .b64 →
      let w := tyBits ty
      let put := fun (v : Nat) => writeInt w false d v
      (s.Reads w a x → s.ReadsI w false c y →
        exec (.and ty d a c) s = .next (s.yields 4 fun t => put (x t &&& y t)) ∧
        exec (.or ty d a c) s = .next (s.yields 4 fun t => put (x t ||| y t)) ∧
        exec (.xor ty d a c) s = .next (s.yields 4 fun t => put (x t ^^^ y t)) ∧
        exec (.andn ty d a c) s = .next (s.yields 4 fun t => put (x t &&& (2 ^ w - 1 - y t))) ∧
        exec (.orn ty d a c) s = .next (s.yields 4 fun t => put (x t ||| (2 ^ w - 1 - y t)))) ∧
      (s.Reads w a x → exec (.not ty d a) s = .next (s.yields 4 fun t => put (2 ^ w - 1 - x t))) ∧
      (s.Reads w a x → s.ReadsI 32 false c n →
        exec (.shl ty d a c) s = .next (s.yields 4 fun t => put (if w ≤ n t then 0 else x t * 2 ^ n t)) ∧
        exec (.shr ty d a c) s = .next (s.yields 4 fun t => put (if w ≤ n t then 0 else x t / 2 ^ n t)) ∧
        exec (.sar ty d a c) s = .next (s.yields 4 fun t =>
          writeInt w false d (signedOf w (x t) / 2 ^ min (n t) (w - 1))) ∧
        exec (.rot ty d a c) s = .next (s.yields 4 fun t => put (x t * 2 ^ (n t % w) + x t / 2 ^ (w - n t % w)))) ∧
      (s.Reads w a x → s.Reads w b y → s.ReadsI 32 false c n →
        exec (.fshl ty d a b c) s = .next (s.yields 4 fun t => put ((x t * 2 ^ w + y t) * 2 ^ (n t % w) / 2 ^ w)))) ∧
  (
    ∀ (s : State) (ty : Ty) (d a b : Opd) (c : SrcI) (x y f : Nat → Nat), s.Issues → s.Writes d →
      let w := tyBits ty
      let g := tySigned ty
      let e := fun t k => (x t + y t * 2 ^ 32) / 2 ^ (8 * k) % 256
      let sel := fun t i => f t / 16 ^ i % 16
      let out := fun t i => if sel t i < 8 then e t (sel t i) else if 128 ≤ e t (sel t i % 8) then 255 else 0
      (s.Reads w a x → s.ReadsI 32 false c f →
        ∃ r : Nat → Int, exec (.bfx ty d a c) s = .next (s.yields 4 fun t => writeInt w g d (r t)) ∧
          ∀ t ∈ s.iss.lanes, w = 32 ∨ w = 64 →
            let pos := f t % 256
            let len := min (f t / 256 % 256) w
            let bit := fun i => if pos + i < w then (x t).testBit (pos + i) else g && (x t).testBit (w - 1)
            (len = 0 → r t = 0) ∧
            (0 < len → ∀ i, i < w → (r t % 2 ^ w).toNat.testBit i = if i < len then bit i else g && bit (len - 1))) ∧
      (s.Reads w a x → s.Reads w b y → s.ReadsI 32 false c f →
        ∃ r : Nat → Nat, exec (.bfi ty d a b c) s = .next (s.yields 4 fun t => writeInt w false d (r t)) ∧
          ∀ t i, i < w → (r t).testBit i =
            if f t % 256 ≤ i ∧ i < f t % 256 + f t / 256 % 256 then (y t).testBit (i - f t % 256) else (x t).testBit i) ∧
      (s.Reads w a x →
        (∃ r : Nat → Nat, exec (.popc ty d a) s = .next (s.yields 4 fun t => writeInt 32 false d (r t)) ∧
          ∀ t, r t = ((List.range w).filter fun i => (x t).testBit i).length) ∧
        (∃ r : Nat → Nat, exec (.clz ty d a) s = .next (s.yields 4 fun t => writeInt 32 false d (r t)) ∧
          ∀ t ∈ s.iss.lanes, r t ≤ w ∧ (r t < w → (x t).testBit (w - 1 - r t)) ∧ ∀ i, i < r t → (x t).testBit (w - 1 - i) = false) ∧
        (∃ r : Nat → Nat, exec (.ctz ty d a) s = .next (s.yields 4 fun t => writeInt 32 false d (r t)) ∧
          ∀ t, r t ≤ w ∧ (r t < w → (x t).testBit (r t)) ∧ ∀ i, i < r t → (x t).testBit i = false) ∧
        ∃ r : Nat → Nat, exec (.brev ty d a) s = .next (s.yields 4 fun t => writeInt w false d (r t)) ∧
          ∀ t i, i < w → (r t).testBit i = (x t).testBit (w - 1 - i)) ∧
      (s.Reads 32 a x → s.Reads 32 b y → s.ReadsI 32 false c f →
        exec (.permb ty d a b c) s = .next (s.yields 4 fun t => dstWords 32 d
          (out t 0 + 2 ^ 8 * out t 1 + 2 ^ 16 * out t 2 + 2 ^ 24 * out t 3))))

/-- Moves and selection (R149, R148, R152): MOV, MOVI, SEL, LEA, PMOV and PMOV.set after 4 cycles. -/
def Obligations.MovesAndAddresses : Prop :=
  ∀ (s : State) (ty : Ty) (d a : Opd) (c : SrcI) (ps : BitVec 3) (psn : Bool) (sh : BitVec 5) (imm : BitVec 32)
    (wide : BitVec 64) (mask : BitVec 7) (x y : Nat → Nat), s.Issues → s.Writes d →
    let w := tyBits ty
    let g := tySigned ty
    (s.Reads w a x → exec (.mov ty d a) s = .next (s.yields 4 fun t => dstWords w d (x t))) ∧
    exec (.movi32 ty d imm) s = .next (s.yields 4 fun _ =>
      dstWords w d (if g = true ∧ w = 64 then (imm.signExtend 64).toNat else imm.toNat)) ∧
    exec (.movi64 ty d wide) s = .next (s.yields 4 fun _ => dstWords 64 d wide.toNat) ∧
    (s.Reads w a x → s.ReadsI w false c y →
      exec (.sel ty d a c ps psn) s = .next (s.yields 4 fun t =>
        dstWords w d (if (s.pr t ps.toNat != psn) = true then x t else y t))) ∧
    (s.Reads w a x → s.ReadsI 32 false c y →
      exec (.lea ty d a c sh) s = .next (s.yields 4 fun t =>
        writeInt w g d (readInt w g (x t) + (if g then signedOf 32 (y t) else ((y t % 2 ^ 32 : Nat) : Int)) * 2 ^ sh.toNat))) ∧
    exec (.pmov d) s = .next (s.yields 4 fun t => dstWords 32 d (128 + (s.thr t).preds.toNat)) ∧
    (s.Reads 32 a x →
      exec (.pmovSet a mask) s = .next (s.yields 4 fun t =>
        ((List.range 7).filter fun i => mask.getLsbD i).map fun i => (Res.p i, if (x t).testBit i then 1 else 0)))

/-- Comparison and predicate logic (R150, R151): CMP and PLOP write one predicate after 4 cycles and no register. -/
def Obligations.Predicates : Prop :=
  ∀ (s : State) (ty : Ty) (cond : Cond) (bop : Bop) (pd ps pa pb pc : BitVec 3) (psn : Bool) (table : BitVec 8) (a : Opd)
    (c : SrcI) (x y : Nat → Nat), s.Issues →
    let w := tyBits ty
    let g := tySigned ty
    let A := fun t => readInt w g (x t)
    let B := fun t => readInt w g (y t)
    let rel := fun t => match cond with
      | .eq => decide (A t = B t)
      | .ne => !decide (A t = B t)
      | .lt => decide (A t < B t)
      | .le => !decide (B t < A t)
      | .gt => decide (B t < A t)
      | .ge => !decide (A t < B t)
    let q := fun t => s.pr t ps.toNat != psn
    (s.Reads w a x → s.ReadsI w g c y →
      exec (.cmp ty cond bop pd ps psn a c) s = .next (s.yields 4 fun t => predWord pd (match bop with
        | .none => rel t
        | .and => rel t && q t
        | .or => rel t || q t
        | .xor => rel t != q t))) ∧
    exec (.plop pd pa pb pc table) s = .next (s.yields 4 fun t => predWord pd (table.getLsbD
      (4 * (if s.pr t pa.toNat then 1 else 0) + 2 * (if s.pr t pb.toNat then 1 else 0) + (if s.pr t pc.toNat then 1 else 0))))

/-- FP32 arithmetic (R157): the exact result of the operands, with the special values of R156, rounded once in the
word's mode under the implied policy, after 6 cycles, or 24 for FDIV and 20 for FSQRT. -/
def Obligations.FloatArithmetic : Prop :=
  ∀ (s : State) (rm : Rm) (m : FMods) (d a b c : Opd) (x y z : Nat → Nat), s.Issues → s.Writes d →
    s.Reads 32 a x → 
    let A := fun t => operandF (s.flush t) .f32 m 0 (x t)
    let B := fun t => operandF (s.flush t) .f32 m 1 (y t)
    let C := fun t => operandF (s.flush t) .f32 m 2 (z t)
    let sum := FVal.add (decide (rm = .rdn))
    let put := fun t (v : FVal) => dstWords 32 d (BitVec.ofNat 32 (roundIeee (s.flush t) v .f32 rm)).toNat
    (s.Reads 32 b y →
      exec (.fadd rm m d a b) s = .next (s.yields 6 fun t => put t (sum (A t) (B t))) ∧
      exec (.fsub rm m d a b) s = .next (s.yields 6 fun t => put t (sum (A t) (B t).neg)) ∧
      exec (.fmul rm m d a b) s = .next (s.yields 6 fun t => put t (FVal.mul (A t) (B t))) ∧
      exec (.fdiv rm m d a b) s = .next (s.yields 24 fun t => put t (FVal.div (A t) (B t)))) ∧
    (s.Reads 32 b y → s.Reads 32 c z →
      exec (.ffma rm m d a b c) s = .next (s.yields 6 fun t => put t (sum (FVal.mul (A t) (B t)) (C t)))) ∧
    exec (.fsqrt rm m d a) s = .next (s.yields 20 fun t => put t (FVal.sqrt (A t)))

/-- FMIN, FMAX, FCMP and FCLASS (R158, R159, R160): a minimum or maximum with exactly one NaN is the other operand, −0 is
below +0 (of two equal values the first is taken where its sign says so), a comparison with a NaN holds only where COND says so, and the class is one bit. -/
def Obligations.FloatComparison : Prop :=
  ∀ (s : State) (m : FMods) (cond : BitVec 4) (bop : Bop) (pd ps : BitVec 3) (psn : Bool) (d a b : Opd) (x y : Nat → Nat),
    s.Issues → s.Writes d → s.Reads 32 a x →
    let A := fun t => operandF (s.flush t) .f32 m 0 (x t)
    let B := fun t => operandF (s.flush t) .f32 m 1 (y t)
    let put := fun t (v : FVal) => dstWords 32 d (BitVec.ofNat 32 (roundIeee (s.flush t) v .f32 .rne)).toNat
    let nan := fun t => (A t).isNan || (B t).isNan
    let ordered := fun (k : Nat) t => match k with
      | 0 => FVal.eqv (A t) (B t)
      | 1 => !FVal.eqv (A t) (B t)
      | 2 => FVal.lt (A t) (B t)
      | 3 => FVal.le (A t) (B t)
      | 4 => FVal.lt (B t) (A t)
      | _ => FVal.le (B t) (A t)
    let rel := fun t =>
      if cond.toNat < 6 then !nan t && ordered cond.toNat t
      else if cond = 6 then !nan t
      else if cond = 7 then nan t
      else nan t || ordered (cond.toNat - 8) t
    let q := fun t => s.pr t ps.toNat != psn
    (s.Reads 32 b y →
      exec (.fmin m d a b) s = .next (s.yields 6 fun t =>
        put t (if (A t).isNan then B t else if (B t).isNan then A t
          else if FVal.lt (A t) (B t) || (FVal.eqv (A t) (B t) && (A t).sign) then A t else B t)) ∧
      exec (.fmax m d a b) s = .next (s.yields 6 fun t =>
        put t (if (A t).isNan then B t else if (B t).isNan then A t
          else if FVal.lt (B t) (A t) || (FVal.eqv (A t) (B t) && !(A t).sign) then A t else B t)) ∧
      (cond.toNat < 14 → exec (.fcmp cond bop pd ps psn m a b) s = .next (s.yields 6 fun t => predWord pd (match bop with
        | .none => rel t
        | .and => rel t && q t
        | .or => rel t || q t
        | .xor => rel t != q t)))) ∧
    exec (.fclass d a) s = .next (s.yields 6 fun t =>
      let e := x t / 2 ^ 23 % 256
      let f := x t % 2 ^ 23
      let neg := x t / 2 ^ 31 % 2 = 1
      dstWords 32 d (2 ^ (if e = 255 then (if f ≠ 0 then 8 else if neg then 0 else 7)
        else if e = 0 then (if f = 0 then (if neg then 3 else 4) else if neg then 2 else 5)
        else if neg then 1 else 6)))

/-- FRND, FFRAC and the special functions (R161, R162, R163): each reads its operand with ABS and NEG, and its result is written
after 6 or 12 cycles. FRND gives the integer that its mode selects, with the operand's sign where that is 0. FFRAC's result is
the exact fraction rounded once, never 1.0. RCP and RSQ lie within 1 ulp of the exact value wherever that is within FP32's range;
EXP2 of an integer whose power is normal, LOG2 of a power of two, and SINR and COSR of a multiple of 1/4 are exact, and no
result of those two is −0 except SINR(−0). FLUSH makes a subnormal result a zero of its sign, which SINR and COSR give as +0.
Which value within the bound a result has, and the sign of LOG2(1), no statement says (logs 25, 106).
The special inputs of the special functions (R163). -/
def Obligations.RoundingAndSpecialFunctions : Prop :=
  (
    ∀ (s : State) (rm : Rm) (m : FMods) (d a : Opd) (x : Nat → Nat), s.Issues → s.Writes d → s.Reads 32 a x →
      let A := fun t => operandF (s.flush t) .f32 m 0 (x t)
      let put := fun (w : Word) => dstWords 32 d w.toNat
      let rnd := fun t (v : FVal) => BitVec.ofNat 32 (roundIeee (s.flush t) v .f32 .rne)
      let frac := fun t => rnd t (FVal.add false (A t)
        (if FVal.floorI (A t) = 0 then (if (A t).isZero then A t else FVal.zero) else FVal.ofInt (FVal.floorI (A t))).neg)
      let value := fun (w : Word) => (valueOf .f32 w.toNat).rat
      let finite := fun (w : Word) => (valueOf .f32 w.toNat).isFin = true
      (rm ≠ .sr → ∃ r : Nat → Word, exec (.frnd rm m d a) s = .next (s.yields 6 fun t => put (r t)) ∧
        ∀ t ∈ s.iss.lanes,
          (A t = .nan → r t = 0x7FC00000) ∧ (∀ neg, A t = .inf neg → r t = if neg then 0xFF800000 else 0x7F800000) ∧
          ((A t).isFin = true → ∃ k : Int,
            (match rm with
              | .rdn => k = ⌊(A t).rat⌋
              | .rup => k = ⌈(A t).rat⌉
              | .rtz => k = if 0 ≤ (A t).rat then ⌊(A t).rat⌋ else ⌈(A t).rat⌉
              | .rna => k = if 0 ≤ (A t).rat then ⌊(A t).rat + 1 / 2⌋ else ⌈(A t).rat - 1 / 2⌉
              | _ => |(A t).rat - k| ≤ 1 / 2 ∧ (|(A t).rat - k| = 1 / 2 → k % 2 = 0)) ∧
            (k = 0 → r t = if (A t).sign then 0x80000000 else 0) ∧ (k ≠ 0 → finite (r t) ∧ value (r t) = k))) ∧
      exec (.ffrac m d a) s = .next (s.yields 6 fun t => put (
        if (A t).isFin = false then (0x7FC00000 : Word) else if frac t = (0x3F800000 : Word) then 0x3F7FFFFF else frac t)) ∧
      exec (.rcp m d a) s = .next (s.yields 12 fun t => put (rcp32 (s.flush t) (A t))) ∧
      exec (.rsq m d a) s = .next (s.yields 12 fun t => put (rsq32 (s.flush t) (A t))) ∧
      exec (.exp2 m d a) s = .next (s.yields 12 fun t => put (exp232 (s.flush t) (A t))) ∧
      exec (.log2 m d a) s = .next (s.yields 12 fun t => put (log232 (s.flush t) (A t))) ∧
      exec (.sinr m d a) s = .next (s.yields 12 fun t => put (sinr32 (s.flush t) (A t))) ∧
      exec (.cosr m d a) s = .next (s.yields 12 fun t => put (cosr32 (s.flush t) (A t))) ∧
      exec (.tanh m d a) s = .next (s.yields 12 fun t => put (tanh32 (s.flush t) (A t))) ∧
      ∀ w : Word, finite w →
        let v := valueOf .f32 w.toNat
        let q := value w
        let top : ℚ := (2 ^ 24 - 1) * 2 ^ 104
        let ulp := fun (y : Word) => (2 : ℚ) ^ (((max (y.toNat / 2 ^ 23 % 2 ^ 8) 1 : Nat) : Int) - 150)
        let flushed := fun (y : Word) => if y.toNat / 2 ^ 23 % 2 ^ 8 = 0 then y &&& 0x80000000 else y
        (q ≠ 0 → |1 / q| ≤ top → finite (rcp32 false v) ∧ |value (rcp32 false v) - 1 / q| ≤ ulp (rcp32 false v)) ∧
        (0 < q → finite (rsq32 false v) ∧
          (∀ z : ℚ, 0 ≤ z → z * z * q ≤ 1 → z ≤ value (rsq32 false v) + ulp (rsq32 false v)) ∧
          ∀ z : ℚ, 0 ≤ z → 1 ≤ z * z * q → value (rsq32 false v) - ulp (rsq32 false v) ≤ z) ∧
        (∀ n : Int, q = n → -126 ≤ n → n ≤ 127 → finite (exp232 false v) ∧ value (exp232 false v) = 2 ^ n) ∧
        (∀ n : Int, q = 2 ^ n → finite (log232 false v) ∧ value (log232 false v) = n) ∧
        (∀ n : Int, w ≠ 0x80000000 → 4 * q = n →
          sinr32 false v = (if n % 4 = 1 then 0x3F800000 else if n % 4 = 3 then 0xBF800000 else 0) ∧
          cosr32 false v = (if n % 4 = 0 then 0x3F800000 else if n % 4 = 2 then 0xBF800000 else 0)) ∧
        (w ≠ 0x80000000 → sinr32 false v ≠ 0x80000000) ∧ cosr32 false v ≠ 0x80000000 ∧
        rcp32 true v = flushed (rcp32 false v) ∧ rsq32 true v = flushed (rsq32 false v) ∧ exp232 true v = flushed (exp232 false v) ∧
        log232 true v = flushed (log232 false v) ∧ tanh32 true v = flushed (tanh32 false v) ∧
        (w ≠ 0x80000000 → sinr32 true v = if flushed (sinr32 false v) = 0x80000000 then 0 else flushed (sinr32 false v)) ∧
        cosr32 true v = if flushed (cosr32 false v) = 0x80000000 then 0 else flushed (cosr32 false v)) ∧
  (
    ∀ (fl : Bool) (e : Int) (st : Bool) (m : Nat),
      (rcp32 fl .nan = 0x7FC00000 ∧ rsq32 fl .nan = 0x7FC00000 ∧ exp232 fl .nan = 0x7FC00000 ∧ log232 fl .nan = 0x7FC00000 ∧
        sinr32 fl .nan = 0x7FC00000 ∧ cosr32 fl .nan = 0x7FC00000 ∧ tanh32 fl .nan = 0x7FC00000) ∧
      (rcp32 fl (.inf false) = 0 ∧ rsq32 fl (.inf false) = 0 ∧ exp232 fl (.inf false) = 0x7F800000 ∧
        log232 fl (.inf false) = 0x7F800000 ∧ sinr32 fl (.inf false) = 0x7FC00000 ∧ cosr32 fl (.inf false) = 0x7FC00000 ∧
        tanh32 fl (.inf false) = 0x3F800000) ∧
      (rcp32 fl (.inf true) = 0x80000000 ∧ rsq32 fl (.inf true) = 0x7FC00000 ∧ exp232 fl (.inf true) = 0 ∧
        log232 fl (.inf true) = 0x7FC00000 ∧ sinr32 fl (.inf true) = 0x7FC00000 ∧ cosr32 fl (.inf true) = 0x7FC00000 ∧
        tanh32 fl (.inf true) = 0xBF800000) ∧
      (rcp32 fl (.fin false 0 e st) = 0x7F800000 ∧ rsq32 fl (.fin false 0 e st) = 0x7F800000 ∧
        exp232 fl (.fin false 0 e st) = 0x3F800000 ∧ log232 fl (.fin false 0 e st) = 0xFF800000 ∧
        sinr32 fl (.fin false 0 e st) = 0 ∧ cosr32 fl (.fin false 0 e st) = 0x3F800000 ∧ tanh32 fl (.fin false 0 e st) = 0) ∧
      (rcp32 fl (.fin true 0 e st) = 0xFF800000 ∧ rsq32 fl (.fin true 0 e st) = 0xFF800000 ∧
        exp232 fl (.fin true 0 e st) = 0x3F800000 ∧ log232 fl (.fin true 0 e st) = 0xFF800000 ∧
        sinr32 fl (.fin true 0 e st) = 0x80000000 ∧ cosr32 fl (.fin true 0 e st) = 0x3F800000 ∧
        tanh32 fl (.fin true 0 e st) = 0x80000000) ∧
      (0 < m → rsq32 fl (.fin true m e st) = 0x7FC00000 ∧ log232 fl (.fin true m e st) = 0x7FC00000))

/-- The error bounds of R162 for EXP2, LOG2, SINR, COSR and TANH over every finite FP32 operand whose exact result lies within
FP32's range: 2 ulp for EXP2; 2^-22 for LOG2 from 1/2 to 2, and 2 ulp beyond; 2^-22 for SINR and COSR; and for TANH 2 ulp or 2^-22,
whichever allows more. RCP and RSQ stand in `RoundingAndSpecialFunctions`. -/
def Obligations.SpecialFunctionBounds : Prop :=
  ∀ w : Word, (valueOf .f32 w.toNat).isFin = true →
    let v := valueOf .f32 w.toNat
    let x : ℝ := v.rat
    let value : Word → ℝ := fun y => ((valueOf .f32 y.toNat).rat : ℝ)
    let ulp := fun (y : Word) => (2 : ℝ) ^ (((max (y.toNat / 2 ^ 23 % 2 ^ 8) 1 : Nat) : Int) - 150)
    let within := fun (y : Word) (exact bound : ℝ) => (valueOf .f32 y.toNat).isFin = true ∧ |value y - exact| ≤ bound
    ((2 : ℝ) ^ x ≤ (2 ^ 24 - 1) * 2 ^ 104 → within (exp232 false v) ((2 : ℝ) ^ x) (2 * ulp (exp232 false v))) ∧
    (0 < x → (1 / 2 ≤ x → x ≤ 2 → within (log232 false v) (Real.logb 2 x) (1 / 2 ^ 22)) ∧
      (x < 1 / 2 ∨ 2 < x → within (log232 false v) (Real.logb 2 x) (2 * ulp (log232 false v)))) ∧
    within (sinr32 false v) (Real.sin (2 * Real.pi * x)) (1 / 2 ^ 22) ∧
    within (cosr32 false v) (Real.cos (2 * Real.pi * x)) (1 / 2 ^ 22) ∧
    within (tanh32 false v) (Real.tanh x) (max (2 * ulp (tanh32 false v)) (1 / 2 ^ 22))

/-- Packed and dot-product words (R165, R166, R167): each element, or the exact sum of products, is rounded once; the
result is written after 6 cycles. -/
def Obligations.PackedAndDotProducts : Prop :=
  ∀ (s : State) (ty : Ty) (f : Fmt) (rm : Rm) (m : FMods) (d a b c : Opd) (x y z : Nat → Nat), s.Issues → s.Writes d →
    fmtOf ty = some f → s.Reads 32 a x → s.Reads 32 b y →
    let el := fun t k (v i : Nat) => operandF (s.flush t) f m k (v / 2 ^ (16 * i) % 2 ^ 16)
    let by8 := fun t (v i : Nat) => widenExact (s.flush t) f (v / 2 ^ (8 * i) % 2 ^ 8) none
    let sum := FVal.add (decide (rm = .rdn))
    let put16 := fun t (v : Nat → FVal) => dstWords 32 d (BitVec.ofNat 32
      (roundIeee (s.flush t) (v 0) f rm + 2 ^ 16 * roundIeee (s.flush t) (v 1) f rm)).toNat
    let put32 := fun t (v : FVal) => dstWords 32 d (BitVec.ofNat 32 (roundIeee (s.flush t) v .f32 rm)).toNat
    exec (.pkadd ty rm m d a b) s = .next (s.yields 6 fun t => put16 t fun i => sum (el t 0 (x t) i) (el t 1 (y t) i)) ∧
    exec (.pkmul ty rm m d a b) s = .next (s.yields 6 fun t => put16 t fun i => FVal.mul (el t 0 (x t) i) (el t 1 (y t) i)) ∧
    (s.Reads 32 c z →
      exec (.pkfma ty rm m d a b c) s = .next (s.yields 6 fun t => put16 t fun i =>
        sum (FVal.mul (el t 0 (x t) i) (el t 1 (y t) i)) (el t 2 (z t) i)) ∧
      exec (.dot2h ty rm m d a b c) s = .next (s.yields 6 fun t => put32 t
        (sum (sum (FVal.mul (el t 0 (x t) 0) (el t 1 (y t) 0)) (FVal.mul (el t 0 (x t) 1) (el t 1 (y t) 1)))
          (operandF (s.flush t) .f32 m 2 (z t)))) ∧
      exec (.dot4b8 ty rm m d a b c) s = .next (s.yields 6 fun t =>
        let p := fun i => FVal.mul (by8 t (x t) i) (by8 t (y t) i)
        put32 t (sum (sum (sum (sum (p 0) (p 1)) (p 2)) (p 3)) (operandF (s.flush t) .f32 m 2 (z t)))))

/-- Conversions (R123 to R128, R168 to R173): a lane whose conversion has a code gets it after 6 cycles, and one in which it has none
faults ARITH and keeps its destination. Only TRAP gives none: of a value that overflows, one below zero in an unsigned format, or
a NaN for an integer type. A CVT whose scale is 0xFF is such a NaN, and SCALE applies NEG and ABS: both are the model's choices
(logs 87 and 13).
PACK2 (R171): both results are rounded before either is written; 16-bit results and `.b16` fill D, and two binary8
results fill one half of D and leave the other as it was at issue. A lane in which either result traps faults ARITH and keeps
D, whatever the other result; every other lane gets both. -/
def Obligations.Conversions : Prop :=
  (
    ∀ (s : State) (ty sty : Ty) (T S : Fmt) (rm : Rm) (pol : Pol) (m : FMods) (scl : Bool) (k : BitVec 2) (d a r sc : Opd)
      (x rv sv : Nat → Nat), s.Issues → s.Writes d → fmtOf ty = some T → fmtOf sty = some S →
      let e := fun t => sv t / 2 ^ (8 * k.toNat) % 256
      let A := fun (f : Fmt) t (scale : Option Nat) =>
        let v := widenExact (s.flush t) f (x t) scale
        let v := if m.abs.getLsbD 2 then v.abs else v
        if m.neg.getLsbD 2 then v.neg else v
      let bad := fun (code : Nat → Option Nat) t => if code t = none then some (Cause.arith, (0 : DWord)) else none
      let put := fun (f : Fmt) (code : Nat → Option Nat) (u : State) t =>
        u.laterAll t 6 (match f with
          | .int g w => writeInt w g d (readInt w g ((code t).getD 0))
          | _ => dstWords 32 d ((code t).getD 0))
      let cvt := fun t => match T, S with
        | .int g w, .int h v => (intToInt (readInt v h (x t)) w g pol).map (wrapI w)
        | _, _ => roundToFormat (s.flush t) (A S t (if scl then some (e t) else none)) T rm (polOf pol) (rv t % 2 ^ 16)
      let cvts := fun t => roundToFormat (s.flush t) (if e t = 0xFF then .nan else (A S t none).scale (127 - (e t : Int))) T rm
        (polOf pol) (rv t % 2 ^ 16)
      let scaled := fun t => roundToFormat (s.flush t)
        (if scl then (if e t = 0xFF then .nan else (A .f32 t none).scale ((e t : Int) - 127))
          else (A .f32 t none).scale (max (-2000) (min 2000 (signedOf 32 (sv t))))) .f32 rm (polOf pol) 0
      let unpacked := fun t => roundToFormat (s.flush t)
        (widenExact (s.flush t) S (x t / 2 ^ (tyBits sty * k.toNat) % 2 ^ tyBits sty) (if scl then some (sv t % 256) else none))
        .f32 rm (polOf pol) 0
      s.Reads 32 r rv → s.Reads 32 sc sv →
      (s.Reads (tyBits sty) a x →
        exec (.cvt ty sty rm pol m scl k d a r sc) s = .next (s.partly (bad cvt) (put T cvt)) ∧
        exec (.cvts ty sty rm pol m k d a r sc) s = .next (s.partly (bad cvts) (put .f32 cvts))) ∧
      (pol ≠ .trap → ∀ t, (cvt t).isSome ∧ (cvts t).isSome ∧ (unpacked t).isSome ∧ (scaled t).isSome) ∧
      (s.Reads 32 a x →
        exec (.unpack sty rm pol scl k d a sc) s = .next (s.partly (bad unpacked) (put .f32 unpacked)) ∧
        exec (.scale rm pol m scl k d a sc) s = .next (s.partly (bad scaled) (put .f32 scaled)))) ∧
  (
    ∀ (s : State) (ty sty : Ty) (T : Fmt) (rm : Rm) (pol : Pol) (m : FMods) (hi : Bool) (d a b r : Opd)
      (x y rv old : Nat → Nat), s.Issues → s.Writes d → s.Reads 32 a x → s.Reads 32 b y → s.Reads 32 r rv →
      s.Reads 32 d old →
      let P := fun t => roundToFormat (s.flush t) (operandF (s.flush t) .f32 m 0 (x t)) T rm (polOf pol) (rv t % 2 ^ 16)
      let Q := fun t => roundToFormat (s.flush t) (operandF (s.flush t) .f32 m 1 (y t)) T rm (polOf pol) (rv t / 2 ^ 16 % 2 ^ 16)
      let bad := fun t => if P t = none ∨ Q t = none then some (Cause.arith, (0 : DWord)) else none
      let half := fun t => ((P t).getD 0 + 2 ^ 8 * (Q t).getD 0) % 2 ^ 16
      (ty = .b16 → exec (.pack2 ty sty rm pol m hi d a b r) s = .next (s.yields 6 fun t =>
        dstWords 32 d (x t % 2 ^ 16 + 2 ^ 16 * (y t % 2 ^ 16)))) ∧
      (fmtOf ty = some T →
        (tyBits ty = 16 → exec (.pack2 ty sty rm pol m hi d a b r) s = .next (s.partly bad fun u t =>
          u.laterAll t 6 (dstWords 32 d ((P t).getD 0 + 2 ^ 16 * (Q t).getD 0)))) ∧
        (tyBits ty = 8 →
          exec (.pack2 ty sty rm pol m hi d a b r) s = .next (s.partly bad fun u t => u.laterAll t 6 (dstWords 32 d
            (if hi then old t % 2 ^ 16 + 2 ^ 16 * half t else half t + 2 ^ 16 * (old t / 2 ^ 16 % 2 ^ 16)))))) ∧
      (pol ≠ .trap → ∀ t, (P t).isSome ∧ (Q t).isSome))

/-- Number formats (R111, R115, R116, R123, R125): every code of an IEEE-style or binary8 format that is not a NaN reads as
a value that rounds back to the same code in every mode, so no bit of a code is lost. -/
def Obligations.CodesRoundTrip : Prop :=
  ∀ (f : Fmt) (rm : Rm) (p : Policy) (c : Nat),
    (f = .f32 ∨ f = .f16 ∨ f = .bf16 ∨
      ∃ u x q, f = .f8 u x q ∧ 1 ≤ q ∧ (if u then q ≤ 8 else q ≤ 7)) →
    c < 2 ^ f.bits → (valueOf f c).isNan = false →
    roundToFormat false (valueOf f c) f rm p 0 = some c

/-- A paired word (R93 to R96): both halves of a legal pair read their sources before either writes, and each half then has the
effect of its single-word form, with that form's latency, whatever its pair opcode; nothing else happens but that the lane goes
past the word. That a paired ADD or SUB writes no predicate is the model's choice (log 86). -/
def Obligations.PairedWords : Prop :=
  ∀ (s : State) (p q : Half), s.Issues → p.wf = true → q.wf = true → pairOk p q = true →
    let val := fun (h : Half) (t : Nat) =>
      let fl := s.flush t
      let x := (s.rd t h.a.toNat).toNat
      let y := (s.rd t h.b.toNat).toNat
      let z := (s.rd t h.c.toNat).toNat
      let g := tySigned h.ty
      let X := readInt 32 g x
      let Y := readInt 32 g y
      let A := operandF fl .f32 h.fm 0 x
      let B := operandF fl .f32 h.fm 1 y
      let C := operandF fl .f32 h.fm 2 z
      let el := fun (k v i : Nat) => operandF fl (fmtD h.ty) h.fm k (v / 2 ^ (16 * i) % 2 ^ 16)
      let sum := FVal.add (decide (h.rm = .rdn))
      let rnd := fun (v : FVal) => (BitVec.ofNat 32 (roundIeee fl v .f32 h.rm)).toNat
      let pair := fun (v : Nat → FVal) =>
        (BitVec.ofNat 32 (roundIeee fl (v 0) (fmtD h.ty) h.rm + 2 ^ 16 * roundIeee fl (v 1) (fmtD h.ty) h.rm)).toNat
      let one := fun (v : FVal) => (BitVec.ofNat 32 (roundIeee fl v .f32 .rne)).toNat
      match h.op with
      | .add => wrapI 32 (X + Y)
      | .sub => wrapI 32 (X - Y)
      | .min => wrapI 32 (min X Y)
      | .max => wrapI 32 (max X Y)
      | .and => x &&& y
      | .or => x ||| y
      | .xor => x ^^^ y
      | .shl => if 32 ≤ y then 0 else x * 2 ^ y % 2 ^ 32
      | .shr => if 32 ≤ y then 0 else x / 2 ^ y
      | .sar => wrapI 32 (signedOf 32 x / 2 ^ min y 31)
      | .mov => x
      | .mad => wrapI 32 (X * Y + readInt 32 g z)
      | .fadd => rnd (sum A B)
      | .fsub => rnd (sum A B.neg)
      | .fmul => rnd (FVal.mul A B)
      | .ffma => rnd (sum (FVal.mul A B) C)
      | .fmin => one (if A.isNan then B else if B.isNan then A
          else if FVal.lt A B || (FVal.eqv A B && A.sign) then A else B)
      | .fmax => one (if A.isNan then B else if B.isNan then A
          else if FVal.lt B A || (FVal.eqv A B && !A.sign) then A else B)
      | .pkadd => pair fun i => sum (el 0 x i) (el 1 y i)
      | .pkmul => pair fun i => FVal.mul (el 0 x i) (el 1 y i)
      | .pkfma => pair fun i => sum (FVal.mul (el 0 x i) (el 1 y i)) (el 2 z i)
      | .dot2h => rnd (sum (sum (FVal.mul (el 0 x 0) (el 1 y 0)) (FVal.mul (el 0 x 1) (el 1 y 1))) C)
      | .rcp => (rcp32 fl A).toNat
      | .rsq => (rsq32 fl A).toNat
      | .exp2 => (exp232 fl A).toNat
      | .log2 => (log232 fl A).toNat
      | .sinr => (sinr32 fl A).toNat
      | .cosr => (cosr32 fl A).toNat
      | .tanh => (tanh32 fl A).toNat
      | .fsqrt => rnd (FVal.sqrt A)
    let lat := fun (o : POp) => match o with
      | .mad | .fadd | .fsub | .fmul | .ffma | .fmin | .fmax | .pkadd | .pkmul | .pkfma | .dot2h => 6
      | .rcp | .rsq | .exp2 | .log2 | .sinr | .cosr | .tanh => 12
      | .fsqrt => 20
      | _ => 4
    exec (.pairedWord p q) s = .next (s.each fun u t =>
      (u.laterAll t (lat p.op) (dstWords 32 (.v p.d) (val p t))).laterAll t (lat q.op) (dstWords 32 (.v q.d) (val q t)))

/-- The member check of the cross-lane words (R198): a mask that differs or lacks its own lane, or a member that is gone,
faults MEMBER_ABSENT in every executing lane; a member that is behind holds every executing lane at the word.
SHFL (R199), VOTE (R200), MATCH, REDUX and SCAN (R201) once every member is there: results after 8 cycles. REDUX and SCAN
accumulate in ascending lane order from the identity of their operation. That a lone lane matches itself under `.all` though
its key is a NaN is the model's choice (log 90). -/
def Obligations.CrossLaneOperations : Prop :=
  (
    ∀ (s : State) (mode : ShMode) (seg pd ps : BitVec 3) (psn all incl : Bool) (vo : VOp) (ro : ROp) (ty : Ty) (d a m : Opd)
      (b : SrcI), s.iss.faults = [] →
      let mask := s.maskIn (s.iss.lanes.headD 0) m
      let gone := fun i => match s.posThread s.iss.gang i with
        | none => true
        | some u => !(s.thr u).live || decide (s.iss.addr < s.posPc s.iss.gang u)
      let behind := fun i => match s.posThread s.iss.gang i with
        | none => false
        | some u => decide (s.posPc s.iss.gang u < s.iss.addr)
      let agree := ∀ t ∈ s.iss.lanes, s.maskIn t m = mask ∧ testN mask (s.thr t).lane = true
      let someGone := ∃ i, i < 32 ∧ testN mask i = true ∧ gone i = true
      let someBehind := ∃ i, i < 32 ∧ testN mask i = true ∧ behind i = true
      let fs := s.iss.lanes.map fun t => (t, Cause.memberAbsent, (0 : DWord))
      let absent := Host.Outcome.next ((s.noteFaults fs.length).takeFault s.iss.gang 0xFF 0 fs)
      let held := Host.Outcome.next (s.iss.lanes.foldl (fun u t =>
        u.setPark t (.retry (.members s.iss.gang s.iss.addr mask))) s)
      ∀ i ∈ [Instr.shfl mode seg ty pd d a b m, .vote vo ps psn pd d m, .matchKeys all ty pd d a m, .redux ro ty d a m,
          .scan ro incl ty d a m],
        (¬ agree ∨ someGone → exec i s = absent) ∧ (agree → ¬ someGone → someBehind → exec i s = held)) ∧
  (
    ∀ (s : State) (mode : ShMode) (seg pd ps : BitVec 3) (psn all incl : Bool) (vo : VOp) (ro : ROp) (ty : Ty) (d a m : Opd)
      (b : SrcI) (x n : Nat → Nat), s.Issues → s.members m = .all → s.ReadsI 32 false b n →
      let lane := fun t => (s.thr t).lane
      let W := if seg = 0 then 32 else 2 ^ seg.toNat
      let σ := fun t => lane t - lane t % W
      let source := fun t => match mode with
        | .pick => some (σ t + n t % W)
        | .back => if σ t + n t ≤ lane t then some (lane t - n t) else none
        | .fwd => if lane t + n t < σ t + W then some (lane t + n t) else none
        | .mirr => some (σ t + xorN 5 (lane t - σ t) (n t % W))
      let q := fun t => s.pr t ps.toNat != psn
      let maskW := fun (ts : List Nat) => dstWords 32 d (maskOf (ts.map lane))
      let matching := fun t u => t == u || (if ty = .f32
        then FVal.eqv (widenExact (s.issFlush) .f32 (x t) none) (widenExact (s.issFlush) .f32 (x u) none) else x t == x u)
      let g := tySigned ty
      let rne := fun (v : FVal) => (BitVec.ofNat 32 (roundIeee s.issFlush v .f32 .rne)).toNat
      let identity : Nat := match ro with
        | .add | .or | .xor => 0
        | .min => if g then 0x7FFFFFFF else 0xFFFFFFFF
        | .max => if g then 0x80000000 else 0
        | .and => 0xFFFFFFFF
        | .fadd => 0x80000000
        | .fmin => 0x7F800000
        | .fmax => 0xFF800000
      let op := fun (acc key : Nat) =>
        let C := valueOf .f32 acc
        let K := widenExact s.issFlush .f32 key none
        match ro with
        | .add => (acc + key) % 2 ^ 32
        | .min => if readInt 32 g acc ≤ readInt 32 g key then acc else key
        | .max => if readInt 32 g acc ≤ readInt 32 g key then key else acc
        | .and => acc % 2 ^ 32 &&& key % 2 ^ 32
        | .or => acc % 2 ^ 32 ||| key % 2 ^ 32
        | .xor => acc % 2 ^ 32 ^^^ key % 2 ^ 32
        | .fadd => rne (FVal.add false C K)
        | .fmin => rne (if C.isNan then K else if K.isNan then C else if FVal.lt C K || (FVal.eqv C K && C.sign) then C else K)
        | .fmax => rne (if C.isNan then K else if K.isNan then C else if FVal.lt K C || (FVal.eqv C K && !C.sign) then C else K)
      let before := fun t => (s.iss.lanes.takeWhile (· ≠ t)).foldl (fun acc u => op acc (x u)) identity
      let total := s.iss.lanes.foldl (fun acc u => op acc (x u)) identity
      (s.Reads (tyBits ty) a x →
        exec (.shfl mode seg ty pd d a b m) s = .next (s.yields 8 fun t =>
          match (source t).bind fun k => s.iss.lanes.find? fun u => lane u == k with
          | some u => dstWords (tyBits ty) d (x u) ++ predWord pd true
          | none => dstWords (tyBits ty) d (x t) ++ predWord pd false)) ∧
      exec (.vote vo ps psn pd d m) s = .next (s.yields 8 fun _ => match vo with
        | .all => predWord pd (s.iss.lanes.all q)
        | .any => predWord pd (s.iss.lanes.any q)
        | .eq => predWord pd (s.iss.lanes.all q || !s.iss.lanes.any q)
        | .ballot => maskW (s.iss.lanes.filter q)) ∧
      (s.Reads (tyBits ty) a x → (∀ t ∈ s.iss.lanes, s.flush t = s.issFlush) →
        exec (.matchKeys all ty pd d a m) s = .next (s.yields 8 fun t =>
          if all = true then
            (if (s.iss.lanes.all fun u => s.iss.lanes.all fun v => matching u v) = true
              then maskW s.iss.lanes ++ predWord pd true else dstWords 32 d 0 ++ predWord pd false)
          else maskW (s.iss.lanes.filter fun u => matching t u))) ∧
      (s.Reads 32 a x →
        exec (.redux ro ty d a m) s = .next (s.yields 8 fun _ => dstWords 32 d total) ∧
        exec (.scan ro incl ty d a m) s = .next (s.yields 8 fun t =>
          dstWords 32 d (if incl then op (before t) (x t) else before t))))

/-- Transfers of control (R130, R131): BRA, JMP, CALL, CALLR and RET set the pc of every executing lane whose target passes
the checks of R100; CALL and CALLR return the address of the next word to the link pair within 8 cycles, and CALLR reads
its target first.
The target checks of a transfer (R100, R130): an address of more than 52 bits faults ACCESS, one that is not a multiple
of 16 faults TARGET_ALIGN, and a continuation word faults TARGET_CONT; the lane's pc stays and no link is written. -/
def Obligations.Transfers : Prop :=
  (
    ∀ (s : State) (off : BitVec 32) (d a : Opd), s.iss.faults = [] →
      let near := fun (u : State) t => (u.thr t).pc + off.signExtend 64
      let far := fun (u : State) t => u.rd64 t (regNum a)
      let go := fun (tg : State → Nat → DWord) (u : State) t =>
        if u.checkTarget t (tg u t) = none then some (u, tg u t) else none
      let link := fun (tg : State → Nat → DWord) (u : State) t =>
        if u.checkTarget t (tg u t) = none
        then some (u.trackVals t (dstWords 64 d ((u.thr t).pc + 16).toNat) (some 8), tg u t) else none
      (∀ u, s.jumps (go near) = some u → exec (.bra off) s = .next u) ∧
      (∀ u, s.jumps (go far) = some u → exec (.jmp a) s = .next u ∧ exec (.ret a) s = .next u) ∧
      (∀ u, s.jumps (link near) = some u → exec (.call d off) s = .next u) ∧
      ∀ u, s.jumps (link far) = some u → exec (.callr d a) s = .next u) ∧
  (
    ∀ (s : State) (t : Nat) (off : BitVec 32) (d a : Opd), s.iss.faults = [] → s.iss.lanes = [t] →
      let near := (s.thr t).pc + off.signExtend 64
      let far := s.rd64 t (regNum a)
      let faults := fun (c : Cause) (ea : DWord) => Host.Outcome.next ((s.noteFaults 1).takeFault s.iss.gang 0xFF 0 [(t, c, ea)])
      let fate := fun (tg : DWord) (o : Out') =>
        (2 ^ 52 ≤ tg.toNat → o = faults .access 0) ∧
        (tg.toNat < 2 ^ 52 → tg.toNat % 16 ≠ 0 → o = faults .targetAlign tg) ∧
        (tg.toNat < 2 ^ 52 → tg.toNat % 16 = 0 → s.kindAt (s.coreOf t) (s.ctxIdOf t) tg = some 3 → o = faults .targetCont tg)
      fate near (exec (.bra off) s) ∧ fate near (exec (.call d off) s) ∧ fate far (exec (.jmp a) s) ∧
        fate far (exec (.callr d a) s) ∧ fate far (exec (.ret a) s))

/-- RECONV (R132): every executing lane is held at the word with its mask, and then every held lane of the gang whose mask
has gathered goes on; a held lane whose own position is all it waits for goes on at once, to the next word or to its
target. -/
def Obligations.Reconvergence : Prop :=
  ∀ (s : State) (regroup : Bool) (a : Opd) (off : BitVec 32) (mask : Nat → Nat), s.iss.faults = [] →
    (∀ t ∈ s.iss.lanes, if a = .none then mask t = 0xFFFFFFFF else s.src t 32 a = .ok (mask t)) → s.iss.lanes.Nodup →
    let held := (s.iss.lanes.foldl (fun u t =>
      u.setPark t (.recon regroup (mask t) (off.signExtend 64) (s.thr t).pc)) s).noteFaults 0
    exec (.reconv regroup a off) s = .next (held.releaseRecon s.iss.gang) ∧
    ∀ t x, s.iss.lanes = [t] → SMap.get? s.threads t = some x → x.gang = s.iss.gang → x.lane < 32 → x.live = true →
      SMap.sorted s.threads = true →
      (∀ i, i < 32 → testN (mask t) i = true → s.posThread s.iss.gang i = none ∨ s.posThread s.iss.gang i = some t ∨
        ∃ v, s.posThread s.iss.gang i = some v ∧ (s.thr v).live = false) →
      s.gangThreads s.iss.gang = [t] →
      (off = 16 ∨ s.checkTarget t (x.pc + off.signExtend 64) = none) →
      ∃ u, exec (.reconv regroup a off) s = .next u ∧ (u.thr t).pc = x.pc + off.signExtend 64 ∧ (u.thr t).park = none

/-- EXIT (R134): every executing lane is no longer live, its tracked results are discarded, its element's held registers are
frozen and its reference dropped; then what waited for it is looked at. Stores, atomics and engine operations on their way
are kept.
Waiting (R135, R136, R137, R210, R383, R397): NOP, YIELD and SLEEP end past their word in every executing lane: NOP does nothing
else, YIELD marks the lane, and SLEEP parks it until `%rtime` has moved on by the count. A sleeping lane may issue once its
time has come and not before; a lane in WAIT leaves it once its conditions hold or its timeout is reached, with the
conditions that hold, and bit 31 after a timeout; each evaluation charges the D and G words that it reads (log 55). While its crew is evicted or halted a lane stays in either (R383, R397). -/
def Obligations.EndAndWaiting : Prop :=
  (
    ∀ (s : State) (t : Nat) (ts : List Nat), s.iss.lanes = t :: ts →
      let e := s.iss.lanes.foldl State.endThread s
      exec .exit s = .next (e.afterEnd (s.thr t).gang (s.thr t).home (s.thr t).crew) ∧
      e.stores = s.stores ∧ e.rmws = s.rmws ∧ e.eops = s.eops ∧ e.mem = s.mem ∧
      ∀ u ∈ s.iss.lanes, (SMap.get? s.threads u).isSome →
        (e.thr u).live = false ∧ (e.thr u).park = none ∧ e.tracked u = [] ∧
        ∀ n x, (s.thr u).elem = some n → SMap.get? s.elems n = some x →
          (e.elemAt n).frozen = true ∧ (e.elemAt n).exited = true ∧ ((s.thr u).released = false → (e.elemAt n).own = false)) ∧
  (
    ∀ (s : State) (n : SrcI) (x : Nat → Nat) (t till t0 limit scope r : Nat) (all : Bool) (cs : List WCond),
      (s.Issues →
        exec .nop s = .next (s.each fun u _ => u) ∧
        exec .yield s = .next (s.each fun u t => (u.settleAll t).modThr t fun y => { y with yielded := true }) ∧
        (s.ReadsI 32 false n x →
          exec (.sleep n) s = .next (s.each fun u t => u.setPark t (.sleep (s.rtime.toNat + x t))))) ∧
      ((s.thr t).park = some (.sleep till) → s.parkRuns t = true →
        (till ≤ s.rtime.toNat → exec (.sleepExpiry t) s = .next (s.modThr t fun x => { x with park := none })) ∧
        (s.rtime.toNat < till → exec (.sleepExpiry t) s = .next s)) ∧
      (s.parkRuns t = false → exec (.sleepExpiry t) s = .next s ∧ exec (.waitEvaluation t) s = .next s) ∧
      ((s.thr t).park = some (.wait t0 limit all cs scope r) → s.parkRuns t = true →
        let e := s.waitReads t cs
        let held := cs.map fun c => e.condHolds t c
        let met := if all then held.all id else held.any id
        let mask := maskOf ((List.range held.length).filter fun i => held.getD i false)
        let wake := fun (v : Word) => ((e.deliver r [v]).modThr t fun x => { x with park := none, lastRead := s.fresh }).cut (s.launchIdOf t)
        (met = true → exec (.waitEvaluation t) s = .next (wake (BitVec.ofNat 32 mask))) ∧
        (met = false → limit ≠ 0xFFFFFFFF → t0 + limit ≤ s.rtime.toNat →
          exec (.waitEvaluation t) s = .next (wake (BitVec.ofNat 32 (mask + 2 ^ 31)))) ∧
        (met = false → limit = 0xFFFFFFFF ∨ s.rtime.toNat < t0 + limit → exec (.waitEvaluation t) s = .next ((e.modThr t fun x => { x with polled := s.rtime.toNat }).cut (s.launchIdOf t)))))

/-- Scratchpad words (R183, R187, R193): LDS, STS, ATOMS and PRES in every executing lane whose access passes its checks.
The checks of a scratchpad access in their order (R38, R40, R183, R185): ALIGN, then ACCESS beyond the allocation, then a
lane that meets an absent line waits for it. -/
def Obligations.ScratchpadWords : Prop :=
  (
    ∀ (s : State) (op : AOp) (mm : MemMods) (ty : Ty) (d a b c : Opd), s.iss.faults = [] →
      let n := tyBits ty / 8
      (∀ u, s.runs (fun u t => match u.ea32 t a mm.disp with
          | .ok ea => State.access t mm (u.reachS t ea n 1) fun v loc _ _ => some (v.loads t n mm ty d false loc)
          | _ => none) = some u → exec (.lds mm ty d a) s = .next u) ∧
      (∀ u, s.runs (fun u t => match u.ea32 t a mm.disp, u.src t (tyBits ty) b with
          | .ok ea, .ok x => State.access t mm (u.reachS t ea n 2) fun v loc _ _ =>
              if v.loadOver t loc n then none
              else (if mm.ord.getLsbD 1 then v.releaseAt t mm.scope.toNat else some v).map fun w => w.putBytes loc (bytesOf n x)
          | _, _ => none) = some u → exec (.sts mm ty a b) s = .next u) ∧
      (∀ u, s.runs (fun u t => match u.ea32 t a mm.disp, u.src t (tyBits ty) b, u.src t (tyBits ty) c with
          | .ok ea, .ok x, .ok y => State.access t mm (u.reachS t ea n 3) fun v loc _ _ =>
              if v.loadOver t loc n then none
              else (if mm.ord.getLsbD 1 then v.releaseAt t mm.scope.toNat else some v).map fun v =>
                let old := v.viewN t false loc n
                let w := if op ≠ .cas ∨ old = y then v.putBytes loc (bytesOf n (atomicNew (v.flush t) op ty old x y)) else v
                w.trackVals t (dstWords (tyBits ty) d old) none
          | _, _, _ => none) = some u → exec (.atoms op mm ty d a b c) s = .next u) ∧
      ∀ u, s.runs (fun u t => match u.ea32 t a mm.disp with
          | .ok ea => if ea % 128 = 0 then some (u.trackVals t (dstWords 32 d (maskOf ((List.range 32).filter fun i =>
                decide (ea + 128 * i + 128 ≤ (u.crewOf t).sSize) &&
                !u.absent.contains (locScratch (u.crewOf t).core ((u.crewOf t).sBase + ea + 128 * i) / 128)))) (some 16)) else none
          | _ => none) = some u → exec (.pres mm d a) s = .next u) ∧
  (
    ∀ (s : State) (t base : Nat) (mm : MemMods) (ty : Ty) (d a : Opd), s.iss.faults = [] → s.iss.lanes = [t] →
      s.src t 32 a = .ok base → 
      let n := tyBits ty / 8
      let ea := ((base : Int) + mm.disp.toInt) % 2 ^ 32
      let loc := locScratch (s.crewOf t).core ((s.crewOf t).sBase + ea.toNat)
      let faults := fun (c : Cause) => Host.Outcome.next ((s.noteFaults 1).takeFault s.iss.gang 0xFF 0
        [(t, c, BitVec.ofNat 64 ea.toNat)])
      (ea.toNat % n ≠ 0 → exec (.lds mm ty d a) s = faults .align) ∧
      (ea.toNat % n = 0 → (s.crewOf t).sSize < ea.toNat + n → exec (.lds mm ty d a) s = faults .access) ∧
      (ea.toNat % n = 0 → ea.toNat + n ≤ (s.crewOf t).sSize → (s.mayGo t mm.ord mm.scope.toNat).isSome = true → s.absentIn loc n ≠ [] →
        exec (.lds mm ty d a) s = .next ((s.setPark t (.retry (.lines (s.absentIn loc n)))).noteFaults 0)) ∧
      (ea.toNat % n = 0 → ea.toNat + n ≤ (s.crewOf t).sSize → s.absentIn loc n = [] →
        (s.ctxOf t).dbgAttach = false → s.reachS t ea.toNat n 1 = .ok s loc false false))

/-- Loads (R104, R178, R183, R306, R356): LDG, LDD, LDL, LDK and LDW are sent, LDG for the lot's view and the others for what is
stored; their registers wait, and the bytes of G, D, L and K are charged. A load on its way is performed when its result
returns, unless it still has to come after an earlier access of its bytes (which may be is the model's reading: logs 30 and 31):
its value is then what its bytes hold in the thread's view, and it is written. -/
def Obligations.Loads : Prop :=
  ∀ (s : State) (mm : MemMods) (ty : Ty) (d a : Opd), s.iss.faults = [] →
    let n := tyBits ty / 8
    (∀ u, s.runs (fun u t => State.access t mm (u.reachVirt t (u.ea64 t a mm.disp) n .G .read) fun v loc _ _ =>
        some ((v.loads t n mm ty d true loc).addBytes t n)) = some u → exec (.ldg mm ty d a) s = .next (u.cut s.issLaunch)) ∧
    (∀ u, s.runs (fun u t => State.access t mm (u.reachOk t (u.ea64 t a mm.disp) n .D .read false
        fun host peer => mm.ord == 0 || scopeOk host peer mm.scope.toNat) fun v loc _ _ =>
        some ((v.loads t n mm ty d false loc).addBytes t n)) = some u → exec (.ldd mm ty d a) s = .next (u.cut s.issLaunch)) ∧
    (∀ u, s.runs (fun u t => match u.ea32 t a mm.disp with
        | .ok ea => State.access t mm (u.reachL t ea n .read) fun v loc _ _ => some ((v.loads t n mm ty d false loc).addBytes t n)
        | _ => none) = some u → exec (.ldl mm ty d a) s = .next (u.cut s.issLaunch)) ∧
    (∀ u, s.runs (fun u t => State.access t mm (u.reachVirt t (u.ea64 t a mm.disp) n .K .read) fun v loc _ _ =>
        some ((v.loads t n mm ty d false loc).addBytes t n)) = some u → exec (.ldk mm ty d a) s = .next (u.cut s.issLaunch)) ∧
    (∀ u, s.runs (fun u t => match u.ea32 t a mm.disp with
        | .ok ea => State.access t mm (u.reachW t ea n false) fun v loc _ _ => some (v.loads t n mm ty d false loc)
        | _ => none) = some u → exec (.ldw mm ty d a) s = .next u) ∧
    ∀ (t i m v : Nat) (q : LoadReq) (r : Result), SMap.get? s.results i = some r → r.thread = t → r.vals = none → r.load = some q →
      (s.loadReady t i q = false → exec (.trackedResultReturn i) s = .next s) ∧
      (s.loadReady t i q = true → lineRetired s q.loc = false → SMap.sorted s.results = true → (SMap.get? s.threads t).isSome →
        q.dst = .v m → tyBits q.ty ≤ 32 → r.regs = [.v m] →
        ((tySigned q.ty = false ∧ v = s.viewN t q.glob q.loc q.n % 2 ^ tyBits q.ty) ∨
         (tySigned q.ty = true ∧ v = ((BitVec.ofNat (tyBits q.ty) (s.viewN t q.glob q.loc q.n)).signExtend 32).toNat)) →
        ∃ u, exec (.trackedResultReturn i) s = .next u ∧ SMap.get? u.results i = none ∧ u.mem = s.mem ∧
          (∀ o, o ≠ t → SMap.get? u.threads o = SMap.get? s.threads o) ∧
          (u.thr t).regs = SMap.put (s.thr t).regs m (BitVec.ofNat 32 v))

/-- Stores (R183, R219, R337): STG and STD are sent towards their line, STG taking a shadow line of its lot; STL and STW are
performed at once; SIGNAL is a release store at system scope with its interrupt, or waits for the commit. -/
def Obligations.Stores : Prop :=
  ∀ (s : State) (mm : MemMods) (ty : Ty) (defer irq : Bool) (vec : BitVec 11) (a b : Opd), s.iss.faults = [] →
    let n := tyBits ty / 8
    let rel := mm.ord.getLsbD 1
    (∀ u, s.runs (fun u t => match u.src t (tyBits ty) b with
        | .ok x => State.access t mm (u.reachVirt t (u.ea64 t a mm.disp) n .G .write) fun v loc _ _ =>
            (v.takeLine (v.launchIdOf t) loc).map fun w =>
              (w.queueStore t true loc (bytesOf n x) rel mm.scope.toNat none).addBytes t n
        | _ => none) = some u → exec (.stg mm ty a b) s = .next (u.cut s.issLaunch)) ∧
    (∀ u, s.runs (fun u t => match u.src t (tyBits ty) b with
        | .ok x => State.access t mm (u.reachOk t (u.ea64 t a mm.disp) n .D .write false
            fun host peer => mm.ord == 0 || scopeOk host peer mm.scope.toNat) fun v loc _ _ =>
            some ((v.queueStore t false loc (bytesOf n x) rel mm.scope.toNat none).addBytes t n)
        | _ => none) = some u → exec (.std mm ty a b) s = .next (u.cut s.issLaunch)) ∧
    (∀ u, s.runs (fun u t => match u.ea32 t a mm.disp, u.src t (tyBits ty) b with
        | .ok ea, .ok x => State.access t mm (u.reachL t ea n .write) fun v loc _ _ =>
            if v.loadOver t loc n then none else some ((v.putBytes loc (bytesOf n x)).addBytes t n)
        | _, _ => none) = some u → exec (.stl mm ty a b) s = .next (u.cut s.issLaunch)) ∧
    (∀ u, s.runs (fun u t => match u.ea32 t a mm.disp, u.src t (tyBits ty) b with
        | .ok ea, .ok x => State.access t mm (u.reachW t ea n true) fun v loc _ _ =>
            if v.loadOver t loc n then none
            else (if mm.ord.getLsbD 1 then v.releaseAt t mm.scope.toNat else some v).map fun w => w.putBytes loc (bytesOf n x)
        | _, _ => none) = some u → exec (.stw mm ty a b) s = .next u) ∧
    ∀ u, s.runs (fun u t => match u.src t 32 b with
        | .ok x => (match u.reachOk t (u.rd64 t (regNum a)) 4 .D .write false fun host peer => scopeOk host peer 4 with
          | .ok v loc _ _ =>
            if v.acquiring t then none
            else if defer then some (v.modLaunch (v.launchIdOf t) fun l => { l with
              deferred := l.deferred ++ [.signal (u.rd64 t (regNum a)) (BitVec.ofNat 32 x) (if irq then some vec.toNat else none)] })
            else some ((v.queueStore t false loc (bytesOf 4 x) true 4 (if irq then some vec.toNat else none)).addBytes t 4)
          | _ => none)
        | _ => none) = some u → exec (.signal defer irq vec a b) s = .next (u.cut s.issLaunch)

/-- Global and device atomics and reductions (R187 to R190): ATOMG, ATOMD, REDG and REDD are sent to the home of their
location with their operands, a fabric reduction into a window of another home as a window packet; an atomic's old value
returns later, and a reduction returns none. -/
def Obligations.HomeAtomics : Prop :=
  ∀ (s : State) (op : AOp) (mm : MemMods) (ty : Ty) (d a b c : Opd), s.iss.faults = [] →
    let n := tyBits ty / 8
    let G := fun (red : Bool) (dst cmp : Opd) (u : State) t => match u.src t (tyBits ty) b, u.src t (tyBits ty) cmp with
      | .ok x, .ok y => State.access t { mm with ord := 0 } (u.reachVirt t (u.ea64 t a mm.disp) n .G .atomic) fun v loc _ _ =>
          (v.takeLine (v.launchIdOf t) loc).map fun w => (w.queueRmw t true loc op ty x y mm dst red none).addBytes t n
      | _, _ => none
    let D := fun (red : Bool) (dst cmp : Opd) (u : State) t => match u.src t (tyBits ty) b, u.src t (tyBits ty) cmp with
      | .ok x, .ok y => State.access t { mm with ord := 0 } (u.reachOk t (u.ea64 t a mm.disp) n .D .atomic
          ((u.windowOf (u.ctxIdOf t) (u.ea64 t a mm.disp).toNat).isSome && !windowOp op)
          fun host peer => scopeOk host peer mm.scope.toNat && (!host || hostAtomic op)) fun v loc _ _ =>
          let win := if red && mm.scope = 3 then v.windowOf (v.ctxIdOf t) (u.ea64 t a mm.disp).toNat else none
          let away := win.filter fun w => (SMap.get? v.dev.windows w.1).any fun x => x.home != v.dev.fabid
          let unreachable := away.any fun w => (SMap.get? v.dev.windows w.1).any fun x => (v.portFor x.home).isNone
          if unreachable then none else some ((v.queueRmw t false loc op ty x y mm dst red away).addBytes t n)
      | _, _ => none
    (∀ u, s.runs (G false d c) = some u → exec (.atomg op mm ty d a b c) s = .next (u.cut s.issLaunch)) ∧
    (∀ u, s.runs (G true .none .none) = some u → exec (.redg op mm ty a b) s = .next (u.cut s.issLaunch)) ∧
    (∀ u, s.runs (D false d c) = some u → exec (.atomd op mm ty d a b c) s = .next (u.cut s.issLaunch)) ∧
    ∀ u, s.runs (D true .none .none) = some u → exec (.redd op mm ty a b) s = .next (u.cut s.issLaunch)

/-- What is on its way is performed at its home (R183, R187, R188, R318, R426, R452): a store writes its bytes, to the lot's
shadow for G and to memory for D, and a read-modify-write reads, writes unless it is a CAS that fails or its lot is no longer
open, and returns the old value; one to a peer's memory also goes out on its port, what a lot wrote to its shadow only with the
commit, and a reduction into a window of another home is a packet. What an earlier access holds back stays. An access to a line
that has been retired since aborts its lot. That a release at crew or cluster scope marks the stores before it, and that the
home waits for what its own core saw, are the model's reading of R304 to R323 (logs 30, 92, 93).
The operations of an atomic (R186): the new value of each row, over codes of the type's width for the integer and bit
types, and over FP32 codes for FADD, FMIN and FMAX, which read a subnormal as a zero and give none under FLUSH. -/
def Obligations.HomePerforms : Prop :=
  (
    ∀ (s : State) (i : Nat),
      (∀ st, SMap.get? s.stores i = some st →
        (s.storeReady st = false → exec (.storePerformed i) s = .next s) ∧
        (s.storeReady st = true →
          let p := if st.release && decide (st.scope < 2)
            then s.narrowRelease st.thread st.core st.scope i st.loc st.data.length else s
          let u := { p with stores := SMap.del p.stores i, buffers := SMap.mapVals (fun _ b => b.filter (· ≠ i)) p.buffers }
          let v := if st.glob then u.modLaunch st.launch fun x => { x with shadow := putShadow x.shadow st.loc st.data }
            else (u.putBytes st.loc st.data).peerSend st.launch st.loc fun a => .write a st.data
          (st.glob = true ∨ lineRetired s st.loc = false → exec (.storePerformed i) s = .next ((match st.irq with
            | some n => v.raise n
            | none => v).checkReady st.launch)) ∧
          (st.glob = false → lineRetired s st.loc = true →
            exec (.storePerformed i) s = .next (u.abortLot st.launch 0x03 0x01 0 true)))) ∧
      ∀ r, SMap.get? s.rmws i = some r →
        let n := tyBits r.ty / 8
        let p := if r.release && decide (r.scope < 2) then s.narrowRelease r.thread r.core r.scope i r.loc n else s
        let u : State := { p with rmws := SMap.del p.rmws i }
        (s.rmwReady r = false → exec (.homeRmwPerform i) s = .next s) ∧
        (s.rmwReady r = true → lineRetired s r.loc = true →
          exec (.homeRmwPerform i) s = .next (u.abortLot r.launch 0x03 0x01 0 true)) ∧
        (∀ w off, s.rmwReady r = true → lineRetired s r.loc = false → r.window = some (w, off) → peerOf r.loc = none →
          r.result = none → exec (.homeRmwPerform i) s = .next ((u.windowPacket r w off).checkReady r.launch)) ∧
        (s.rmwReady r = true → lineRetired s r.loc = false → r.window = none →
          let q := if r.glob then u.peerRead r.launch true r.loc n
            else u.peerSend r.launch r.loc fun a => .atomic a r.op r.ty r.b r.c
          let old := ofBytes ((List.range n).map fun k => if r.glob then (match SMap.get? (s.launchAt r.launch).shadow (r.loc + k) with
            | some b => b
            | none => s.mem.read (r.loc + k)) else s.mem.read (r.loc + k))
          let new := bytesOf n (atomicNew r.flush r.op r.ty old r.b.toNat r.c.toNat)
          let v := if (r.op = .cas ∧ old ≠ r.c.toNat) ∨ (r.glob = true ∧ (s.launchAt r.launch).status.open_ = false) then q
            else if r.glob then q.modLaunch r.launch fun x => { x with shadow := putShadow x.shadow r.loc new }
            else q.putBytes r.loc new
          let v := if r.result.isSome then v.modThr r.thread fun x => { x with lastRead := max x.lastRead r.seq } else v
          exec (.homeRmwPerform i) s = .next ((v.deliverOpt r.result (if tyBits r.ty = 64
            then [BitVec.ofNat 32 old, BitVec.ofNat 32 (old / 2 ^ 32)] else [BitVec.ofNat 32 old])).checkReady r.launch))) ∧
  (
    (∀ (fl : Bool) (ty : Ty) (old b c : Nat), ty = .n32 ∨ ty = .s32 ∨ ty = .b32 ∨ ty = .n64 ∨ ty = .s64 ∨ ty = .b64 →
      let w := tyBits ty
      let g := tySigned ty
      old < 2 ^ w → b < 2 ^ w → c < 2 ^ w →
      atomicNew fl .add ty old b c = (old + b) % 2 ^ w ∧
      readInt w g (atomicNew fl .min ty old b c) = min (readInt w g old) (readInt w g b) ∧
      readInt w g (atomicNew fl .max ty old b c) = max (readInt w g old) (readInt w g b) ∧
      atomicNew fl .and ty old b c = old &&& b ∧ atomicNew fl .or ty old b c = old ||| b ∧
      atomicNew fl .xor ty old b c = old ^^^ b ∧ atomicNew fl .exch ty old b c = b ∧
      atomicNew fl .cas ty old b c = (if old = c then b else old) ∧
      atomicNew fl .inc ty old b c = (if b ≤ old then 0 else old + 1) ∧
      atomicNew fl .dec ty old b c = (if old = 0 ∨ b < old then b else old - 1)) ∧
    ∀ (fl : Bool) (old b c : Word),
      let X := val32 fl old
      let Y := val32 fl b
      let rne := fun (v : FVal) => (BitVec.ofNat 32 (roundIeee fl v .f32 .rne)).toNat
      atomicNew fl .fadd .f32 old.toNat b.toNat c.toNat = rne (FVal.add false X Y) ∧
      atomicNew fl .fmin .f32 old.toNat b.toNat c.toNat =
        rne (if X.isNan then Y else if Y.isNan then X else if FVal.lt X Y || (FVal.eqv X Y && X.sign) then X else Y) ∧
      atomicNew fl .fmax .f32 old.toNat b.toNat c.toNat =
        rne (if X.isNan then Y else if Y.isNan then X else if FVal.lt Y X || (FVal.eqv X Y && !X.sign) then X else Y))

/-- FENCE and PREF (R194, R195, R304): a FENCE goes on in a lane whose accesses have been performed at its scope and holds one
whose accesses are on their way; at crew scope a thread's stores are then seen on its core, and at cluster scope on every core of
its gallery. What the narrow scopes wait for and show is the model's reading (logs 31, 92, 93). PREF changes at most what the
translations remember, and never faults. -/
def Obligations.FenceAndPrefetch : Prop :=
  ∀ (s : State) (ord space : BitVec 2) (scope : BitVec 3) (tlb : Bool) (disp : BitVec 24) (a : Opd), s.Issues →
    (∀ u, s.runs (fun u t => u.releaseAt t scope.toNat) = some u → exec (.fence ord scope) s = .next u) ∧
    (2 ≤ scope.toNat → (∀ t ∈ s.iss.lanes, s.busy t = false) → exec (.fence ord scope) s = .next (s.each fun u _ => u)) ∧
    (∀ t, s.iss.lanes = [t] → (2 ≤ scope.toNat ∧ s.busy t = true) ∨
        (scope.toNat < 2 ∧ (s.hasRmw t = true ∨ ∃ i r, SMap.get? s.results i = some r ∧ r.thread = t ∧ r.load.isSome = true)) →
      exec (.fence ord scope) s = .next ((s.setPark t (.retry (.fence scope.toNat))).noteFaults 0)) ∧
    (∀ t, scope.toNat < 2 → s.hasRead t = false → ∃ v, s.releaseAt t scope.toNat = some v ∧ v.mem = s.mem ∧ v.stores = s.stores ∧
      v.threads = s.threads ∧ ∀ i x, SMap.get? s.stores i = some x → x.thread = t → i ≤ s.fresh →
        i ∈ v.seen (s.coreOf t) ∧ (scope = 1 → ∀ c, c / 4 = s.coreOf t / 4 → i ∈ v.seen c)) ∧
    ∃ l, exec (.pref space tlb disp a) s = .next { s.each (fun u _ => u) with tlb := l } ∧ (space = 3 → l = s.tlb)

/-- Memory holds what was last written to each byte (R4, R37): a byte reads as written, every other byte is as it was, and
a value written little-endian reads back as itself. -/
def Obligations.MemoryReadsBackWrites : Prop :=
  ∀ (m : Memory) (loc : Nat) (b : Byte) (bs : List Byte) (n v : Nat), m.wf = true →
    (m.write loc b).read loc = b ∧ (∀ other, other ≠ loc → (m.write loc b).read other = m.read other) ∧
    (m.writeN loc bs).readN loc bs.length = bs ∧
    (∀ other, other < loc ∨ loc + bs.length ≤ other → (m.writeN loc bs).read other = m.read other) ∧
    (m.writeN loc (bytesOf n v)).readLE loc n = v % 2 ^ (8 * n) ∧
    (m.write loc b).wf = true ∧ (m.writeN loc bs).wf = true

/-- Where the scratchpad stores write (R183, R187): an STS or ATOMS of one lane leaves every byte outside the `n` bytes at
its effective address as it was, in every memory of the package, and LDS and PRES leave all of them. -/
def Obligations.ScratchpadStoreFrame : Prop :=
  ∀ (s u : State) (t ea : Nat) (op : AOp) (mm : MemMods) (ty : Ty) (d a b c : Opd), s.iss.faults = [] →
    s.iss.lanes = [t] → s.ea32 t a mm.disp = .ok ea → s.mem.wf = true →
    let n := tyBits ty / 8
    let loc := locScratch (s.crewOf t).core ((s.crewOf t).sBase + ea)
    let goes := fun (v : State) => ∃ g, v.mayGo t mm.ord mm.scope.toNat = some g ∧
      (mm.ord.getLsbD 1 = true → (g.releaseAt t mm.scope.toNat).isSome = true) ∧ g.loadOver t loc n = false
    (∀ x v, s.src t (tyBits ty) b = .ok x → s.reachS t ea n 2 = .ok v loc false false → goes v → loc + n ≤ 2 ^ 82 →
      exec (.sts mm ty a b) s = .next u →
      u.mem.readN loc n = bytesOf n x ∧ ∀ o, o < loc ∨ loc + n ≤ o → u.mem.read o = s.mem.read o) ∧
    (∀ x y v, s.src t (tyBits ty) b = .ok x → s.src t (tyBits ty) c = .ok y → s.reachS t ea n 3 = .ok v loc false false →
      goes v → loc + n ≤ 2 ^ 82 →
      exec (.atoms op mm ty d a b c) s = .next u → ∀ o, o < loc ∨ loc + n ≤ o → u.mem.read o = s.mem.read o) ∧
    (∀ v, s.reachS t ea n 1 = .ok v loc false false → goes v → exec (.lds mm ty d a) s = .next u →
      u.mem = s.mem) ∧
    (ea % 128 = 0 → exec (.pres mm d a) s = .next u → u.mem = s.mem)

/-- The frame of the fixed-latency words (R102, R103): where a word ends with results of a latency in every executing lane, it
changes no memory, no register, no predicate and no state of any other unit or thread; it adds its results in flight, drops
only those it overtakes, and moves each lane past the word. -/
def Obligations.FixedLatencyFrame : Prop :=
  ∀ (s u : State) (k : Instr) (lat : Nat) (r : Nat → List (Res × Word)), s.Issues → exec k s = .next u →
    u = s.yields lat r →
    s.SameBut u s.iss.lanes ∧
    ∀ t ∈ s.iss.lanes, (SMap.get? s.threads t).isSome →
      (u.thr t).regs = (s.thr t).regs ∧ (u.thr t).preds = (s.thr t).preds ∧ (u.thr t).live = (s.thr t).live ∧
      (u.thr t).cause = (s.thr t).cause ∧ (u.thr t).epc = (s.thr t).epc ∧
      (u.thr t).pc = (s.thr t).pc + BitVec.ofNat 64 (16 * s.iss.len) ∧
      (∀ p ∈ (s.thr t).pend, p.res ∉ (r t).map Prod.fst → p ∈ (u.thr t).pend) ∧
      ∀ p ∈ (u.thr t).pend, p ∈ (s.thr t).pend ∨ (p.due = s.cycle + lat ∧ (p.res, p.val) ∈ r t)

/-- When results can be read (R102, R103, R104): completing a thread's results writes the fixed-latency ones that are due
and keeps the rest in flight; a tracked result whose value is known is written when it returns, overtakes what is in flight
to its register, and its entry goes; one whose producer has no value yet stays. (A load on its way: `Loads`.) -/
def Obligations.ResultsReturn : Prop :=
  (∀ (s : State) (t n : Nat) (x : Thread) (p : Pend), SMap.get? s.threads t = some x → x.pend = [p] → p.res = .v n →
    (p.due ≤ s.cycle → ((s.settle t).thr t).regs = SMap.put x.regs n p.val ∧ ((s.settle t).thr t).pend = [] ∧
      (s.settle t).rd t n = p.val) ∧
    (s.cycle < p.due → ((s.settle t).thr t).regs = x.regs ∧ ((s.settle t).thr t).pend = [p])) ∧
  ∀ (s : State) (r : Nat) (x : Result), SMap.get? s.results r = some x →
    x.load = none → (x.vals = none → exec (.trackedResultReturn r) s = .next s) ∧
    ∀ vs, x.vals = some vs →
      ∃ u, exec (.trackedResultReturn r) s = .next u ∧ u.results = SMap.del s.results r ∧ u.mem = s.mem ∧
        (∀ t, t ≠ x.thread → SMap.get? u.threads t = SMap.get? s.threads t) ∧
        ∀ n v, x.regs = [.v n] → vs = [v] → (SMap.get? s.threads x.thread).isSome →
          (u.thr x.thread).regs = SMap.put (s.thr x.thread).regs n v ∧
          (u.thr x.thread).pend = (s.thr x.thread).pend.filter (fun p => p.res != .v n)

/-- Barriers and register requests (R203, R217, R397): BAR arrives, waits or both; a phase ends when every member has arrived or
is no longer live, and then every lane parked on it goes on; GROW and SHRINK park the lane with its request, and a SHRINK
that every live thread has made takes effect at once. A GROW is granted with a register base where the registers fit. The
parks of a halted crew stay as they are (R397). -/
def Obligations.BarriersAndRegisterRequests : Prop :=
  ∀ (s : State), 
    (∀ (level op : BitVec 2) (id : BitVec 4) (u : State), s.iss.faults = [] →
      s.does (fun u t =>
        let key := barKey level.toNat (u.barOwner t level.toNat) id.toNat
        let b := u.barAt key
        let park := fun (v : State) p => v.setPark t (.barrier key p ((u.thr t).pc + 16))
        if level = 2 && !(u.launchOf t).lrec.resid then none
        else if op = 2 then
          (if SMap.get? (u.thr t).arrivals key = some b.phase then some (park u b.phase) else some (u.past t))
        else if b.arrived.contains t then none
        else (u.releaseAt t level.toNat).map fun w =>
          let v := { w with bars := SMap.put w.bars key { b with arrived := b.arrived ++ [t] } }.modThr t fun x =>
            { x with arrivals := SMap.put x.arrivals key b.phase }
          if op = 0 then park v b.phase else v.past t) = some u →
      exec (.bar level op id) s = .next u.completeBars) ∧
    (∀ (key : Nat), (s.barAt key).arrived ≠ [] →
      (∀ c ∈ s.barCrews (key / 16 % 4) (key / 64), (s.crewAt c).status ≠ .waiting ∧
        ∀ t ∈ s.liveThreads c, t ∈ (s.barAt key).arrived) →
      (s.completeBar key).barAt key = { phase := (s.barAt key).phase + 1, arrived := [] } ∧
      ∀ t x next, SMap.get? s.threads t = some x → x.park = some (.barrier key (s.barAt key).phase next) →
        (s.crewAt x.crew).halted = false → ((s.completeBar key).thr t).pc = next ∧ ((s.completeBar key).thr t).park = none) ∧
    (∀ (grow : Bool) (count : BitVec 6) (u : State), s.iss.faults = [] →
      s.does (fun u t =>
        let n := 8 * count.toNat
        if (u.liveThreads (u.thr t).crew).any (fun v => match u.collectiveOf v with
          | some (_, m) => m != n
          | none => false) then none
        else some (u.setPark t (.collective grow n ((u.thr t).pc + 16)))) = some u →
      exec (if grow then .grow count else .shrink count) s =
        .next (u.completeCollective (s.thr (s.iss.lanes.headD 0)).crew)) ∧
    (∀ (c n : Nat) (x : Crew), SMap.get? s.crews c = some x → x.halted = false → s.liveThreads c ≠ [] →
      (∀ t ∈ s.liveThreads c, s.collectiveOf t = some (false, n)) →
      ((s.completeCollective c).crewAt c).nreg = min n x.nreg ∧
      ∀ t y i, SMap.get? s.threads t = some y → y.crew = c → y.live = true → min n x.nreg ≤ i → SMap.sorted y.regs = true →
        (s.completeCollective c).rd t i = 0) ∧
    (∀ (c n : Nat) (x : Crew) (r : Nat) (z : Result), SMap.get? s.crews c = some x → x.halted = false → s.liveThreads c ≠ [] →
      (∀ t ∈ s.liveThreads c, s.collectiveOf t = some (false, n)) → SMap.get? s.results r = some z → (s.thr z.thread).crew = c →
      ∀ y, SMap.get? (s.completeCollective c).results r = some y → ∀ i, Res.v i ∈ y.regs → i < min n x.nreg) ∧
    (∀ (c : Nat), (s.crewAt c).halted = true → s.completeCollective c = s ∧ exec (.growGrant c) s = .next s) ∧
    ∀ (c n age base : Nat) (x : Crew), SMap.get? s.crews c = some x → x.growWant = some (n, age) → x.status = .resident →
      x.halted = false →
      (∀ d y m a, SMap.get? s.crews d = some y → d ≠ c → y.core = x.core → y.status = .resident → y.halted = false → y.growWant = some (m, a) →
        age ≤ a) → SMap.sorted s.crews = true → s.growRoom c n = some base →
      ∃ u, exec (.growGrant c) s = .next u ∧ (u.crewAt c).nreg = n ∧ (u.crewAt c).regBase = base ∧
        (u.crewAt c).growWant = none

/-- Chutes and WAIT (R206, R207, R209, R210): a CHDROP that finds a permit queues its token, a CHTAKE that finds a token takes
the oldest and holds its permit, and a CHFREE gives a held permit back; under `.try` a predicate says whether it did. A
WAIT whose conditions hold returns at once, and otherwise the lane goes past it and waits; that every evaluation charges the D and
G words that it reads is the model's reading (log 55). -/
def Obligations.ChutesAndWait : Prop :=
  ∀ (s : State) (try_ all : Bool) (pd scope : BitVec 3) (sel : BitVec 6) (nc : BitVec 2) (d a w : Opd) (b : SrcI),
    s.iss.faults = [] →
    (∀ u, s.runs (fun u t => match u.src t 32 a, u.chuteFor t sel with
        | .ok v, some (c, k) =>
          (u.releaseAt t 1).bind fun w =>
            if 0 < ((w.crewAt c).chute k).free ∧ (try_ = true ∨ w.chuteFirst c k (w.putSeq t c k) true = true) then
              let q := w.modChute c k fun x => { x with toks := x.toks ++ [BitVec.ofNat 32 v] }
              some (if try_ then q.trackVals t (predWord pd true) none else q)
            else if try_ then some (w.trackVals t (predWord pd false) none) else none
        | _, _ => none) = some u → exec (.chdrop try_ pd sel a) s = .next u) ∧
    (∀ u, s.runs (fun u t => match u.chuteFor t sel with
        | some (c, k) => if u.acquiring t then none else (match ((u.crewAt c).chute k).toks with
          | v :: rest =>
            if try_ = true ∨ u.chuteFirst c k (u.getSeq t c k) false = true then
              some ((u.modChute c k fun x => { x with toks := rest, held := x.held + 1 }).trackVals t
                (dstWords 32 d v.toNat ++ (if try_ then predWord pd true else [])) none)
            else none
          | [] => if try_ then some (u.trackVals t (predWord pd false) none) else none)
        | none => none) = some u → exec (.chtake try_ pd sel d) s = .next u) ∧
    (∀ u, s.runs (fun u t => match u.chuteFor t sel with
        | some (c, k) =>
          if ((u.crewAt c).chute k).held = 0 then none
          else (u.releaseAt t 1).map fun w => w.modChute c k fun x => { x with held := x.held - 1 }
        | none => none) = some u → exec (.chfree sel) s = .next u) ∧
    ∀ u, s.runs (fun u t =>
        let ns := (List.range (nc.toNat + 1)).map fun k => regNum w + 4 * k
        let cs := ns.map fun n => u.condAt t n
        match u.srcI t 32 false b, u.waitReach t scope.toNat cs with
        | .ok limit, .ok v _ _ _ =>
          if ns.any fun n => u.condBad t n scope.toNat then none
          else (v.mayGo t 1 scope.toNat).bind fun v =>
            let v := v.waitReads t cs
            (match v.waitValue t v.now limit all cs with
             | some x => some ((v.trackVals t (dstWords 32 d x.toNat) none).modThr t fun y =>
                 { y with lastRead := (v.trackVals t (dstWords 32 d x.toNat) none).fresh })
             | none => some ((v.track t ((dstWords 32 d 0).map Prod.fst) none none).2.setPark t
                 (.wait v.now limit all cs scope.toNat (v.track t ((dstWords 32 d 0).map Prod.fst) none none).1)))
        | _, _ => none) = some u → exec (.wait all nc scope d w b) s = .next (u.cut s.issLaunch)

/-- Messages (R211, R212, R213): MSEND reads its payload and its message is on its way; MRECV takes the earliest matching
message of the overflow queue or posts a receive whose lines are then absent; MPROBE says what is queued. A message that
meets a receive is delivered with its tag and status, and one for a crew that is not there returns 1 to its sender. -/
def Obligations.Messages : Prop :=
  ∀ (s : State) (len : BitVec 9) (d a b c : Opd), s.iss.faults = [] →
    (∀ u, s.runs (fun u t => match u.src t 32 a, u.src t 32 b, u.src32 t c with
        | .ok off, .ok dst, .ok tag => (match u.bufferReach t off (16 * len.toNat) true with
          | .ok v loc _ _ =>
            if 0xFFFF < dst ∨ v.busy t = true then none
            else
              let r := v.track t ((dstWords 32 d 0).map Prod.fst) none none
              let n := r.2.take
              let m : Msg :=
                { launch := v.launchIdOf t, src := (v.crewOf t).idx, dst := dst, tag := tag,
                  data := v.mem.readN loc (16 * len.toNat), result := r.1, queued := false, heldBack := false, place := 0 }
              some { n.2 with msgs := SMap.put n.2.msgs n.1 m }
          | _ => none)
        | _, _, _ => none) = some u → exec (.msend len d a b c) s = .next u) ∧
    ((s.crewAt (s.thr (s.iss.lanes.headD 0)).crew).msgPending = false →
      (∀ u, s.runs (fun u t => match u.src t 32 a, u.src32 t b, u.src32 t c with
          | .ok off, .ok src, .ok tag => (match u.bufferReach t off (16 * len.toNat) false with
            | .ok v loc _ _ =>
              let crew := (u.thr t).crew
              let r := v.track t ((dstWords 64 d 0).map Prod.fst) none none
              if (0xFFFF < src.toNat ∧ src.toNat ≠ 0xFFFFFFFF) ∨ v.acquiring t = true ∨ v.loadOver t loc (16 * len.toNat) = true then none
              else (match v.queuedFor crew src tag with
                | some (m, msg) => some (State.deliverMsg { r.2 with msgs := SMap.del r.2.msgs m }
                    crew off (16 * len.toNat) r.1 msg)
                | none =>
                  if 64 ≤ (v.crewAt crew).posted.length then none
                  else some (State.modCrew { r.2 with absent := linesOf loc (16 * len.toNat) ++ r.2.absent } crew
                    fun x => { x with posted := x.posted ++ [{ src := src, tag := tag, off := off, len := 16 * len.toNat, result := r.1 }] }))
            | _ => none)
          | _, _, _ => none) = some u → exec (.mrecv len d a b c) s = .next u) ∧
      ∀ u, s.runs (fun u t => match u.src32 t b, u.src32 t c with
          | .ok src, .ok tag => some (u.trackVals t (dstWords 64 d (match u.queuedFor (u.thr t).crew src tag with
            | some (_, m) => m.tag.toNat + 2 ^ 32 * (m.src % 2 ^ 16 + 2 ^ 16 * m.data.length + 2 ^ 30)
            | none => 0)) none)
          | _, _ => none) = some u → (∀ kv ∈ s.msgs, kv.2.data.length ≤ 4096) → exec (.mprobe d b c) s = .next u) ∧
    ∀ (i crew : Nat) (m : Msg) (x : Crew), SMap.get? s.msgs i = some m → m.queued = false →
      (s.msgs.any fun kv => decide (kv.1 < i) && !kv.2.queued && kv.2.launch == m.launch && kv.2.src == m.src &&
        kv.2.dst == m.dst) = false →
      (SMap.find s.crews (fun _ c => c.launch == m.launch && c.idx == m.dst) = none →
        exec (.messageDelivery i) s = .next ({ s with msgs := SMap.del s.msgs i }.deliver m.result [1])) ∧
      (SMap.find s.crews (fun _ c => c.launch == m.launch && c.idx == m.dst) = some (crew, x) → x.status = .resident →
        s.heldAhead x.core m = false → ∀ p, x.posted.find? (fun p => msgMatches m p.src p.tag) = some p →
        exec (.messageDelivery i) s = .next (((({ s with msgs := SMap.del s.msgs i }.modCrew crew fun y =>
          { y with posted := y.posted.filter fun q => q.result != p.result }).deliverMsg crew p.off p.len p.result m)).deliver
            m.result [0]))

/-- Spawning, bins and work splitting (R30, R33, R34, R214, R215, R216, R246, R248): SPAWN makes one thread for each executing lane
with the eight registers and the entry address, in its crew's bin of that entry, and freezes the spawner's element unless
`.nohold`. At rate N it makes a thread of rate N; at a draw rate it makes a ray, with the ancestors of R30, that counts for
those it reads unless it is spawned `.nohold`, once there is storage for it; until then the lane is held at its word, and at
the stall limit it faults. BINFLUSH and a timer that has run out launch a bin; WSPLIT gives a crew's part, and P = 0 faults
ARITH. -/
def Obligations.SpawnsAndBins : Prop :=
  ∀ (s : State) (nohold : Bool) (d a b : Opd), s.iss.faults = [] →
    (∀ u, s.runs (fun u t =>
        let entry := u.rd64 t (regNum a)
        if u.checkTarget t entry ≠ none ∨ u.spawnStalled t = true ∨ u.busy t = true ∨ (u.thr t).elem ≠ none then none
        else (u.binFor (u.thr t).crew entry).map fun r =>
          let v := if nohold then r.2 else r.2.freeze t
          let n := v.addThread (v.thr t).crew .N entry ((List.range 8).map fun i => u.rd t (regNum b + i)) none
          n.2.enterBin r.1 n.1) = some u → exec (.spawn nohold a b) s = .next (u.dropAsked s.iss.lanes)) ∧
    (∀ (t e bin : Nat) (x : Elem) (v : State), s.iss.lanes = [t] → (s.thr t).elem = some e → SMap.get? s.elems e = some x →
      let entry := s.rd64 t (regNum a)
      let p := s.rayProto t e nohold
      let ask : Creation :=
        { launch := p.launch, rate := .Y, protos := [p], regs := [], crew := (v.thr t).crew, attempted := true, since := v.now,
          turn := 0, fromRecord := false, cause := none, granted := false, failed := false }
      let made := fun (w : State) =>
        let f := if nohold then w else w.freeze t
        let q := f.numberElem p
        let m := q.2.addElem q.1
        let n := m.2.addThread (w.thr t).crew .Y entry ((List.range 8).map fun i => s.rd t (regNum b + i)) (some m.1)
        (((n.2.enterBin bin n.1).past t).noteFaults 0).dropAsked [t]
      s.checkTarget t entry = none → s.busy t = false → s.binFor (s.thr t).crew entry = some (bin, v) →
      (s.askedBy t = none → s.creationFits 0 ask = true → exec (.spawn nohold a b) s = .next (made (v.takeBytes ask))) ∧
      (s.askedBy t = none → s.creationFits 0 ask = false →
        exec (.spawn nohold a b) s = .next (((s.askRay t p).noteFaults 0).dropAsked [t])) ∧
      (∀ k c, s.askedBy t = some (k, c) → c.failed = false → c.granted = true →
        exec (.spawn nohold a b) s = .next (made { v with creations := SMap.del v.creations k })) ∧
      (∀ k c, s.askedBy t = some (k, c) → c.failed = true →
        exec (.spawn nohold a b) s =
          .next (((s.noteFaults 1).takeFault s.iss.gang 0xFF 0 [(t, .stockpileStall, 0)]).dropAsked [t])) ∧
      ((s.freeze t).elemAt e).frozen = true ∧ p.rate = .Y ∧ p.own = true ∧ p.launch = x.launch ∧ p.nohold = nohold ∧
      p.barred = (nohold || x.barred) ∧
      (x.rate = .Y → p.anc = x.anc ∧ p.verts = x.verts) ∧ (x.rate = .V → p.anc = x.anc ∧ p.verts = [e]) ∧
      (x.rate ≠ .Y → x.rate ≠ .V → p.anc = x.anc ++ [(x.rate, e)] ∧ p.verts = x.verts) ∧
      s.readAncestors p = if nohold then [] else
        (p.anc.map Prod.snd ++ p.verts).filter fun k => s.reads p.launch (s.elemAt k).rate .Y) ∧
    (∀ u, s.runs (fun u t => some ((SMap.keys (SMap.keep u.bins fun _ x => x.crew == (u.thr t).crew &&
        (a == .none || x.entry == u.rd64 t (regNum a)))).foldl State.launchBin u)) = some u →
      exec (.binflush a) s = .next u) ∧
    (∀ n bin, SMap.get? s.bins n = some bin →
      (bin.timer ≤ s.cycle → (s.crewAt bin.crew).status = .resident → bin.expired = false →
        exec (.binTimerExpiry n) s = .next (s.launchBin n)) ∧
      (s.cycle < bin.timer → exec (.binTimerExpiry n) s = .next s)) ∧
    ∀ T P : Nat → Nat, s.iss.lanes.Nodup → s.Reads 32 a T → s.Reads 32 b P →
      let n := fun t => (s.launchOf t).lrec.ncrew
      let c := fun t => (s.crewOf t).idx
      let first := fun t => c t * T t / n t
      let last := fun t => (c t + 1) * T t / n t
      let flags := fun t => (if first t < last t ∧ first t % P t ≠ 0 then 1 else 0) +
        (if first t < last t ∧ last t % P t ≠ 0 ∧ last t < T t then 2 else 0)
      exec (.wsplit d a b) s = .next (s.partly (fun t => if P t = 0 then some (.arith, 0) else none) fun u t =>
        u.trackVals t (seqWords (regNum d) [BitVec.ofNat 32 (first t), BitVec.ofNat 32 (last t - first t),
          BitVec.ofNat 32 (flags t), BitVec.ofNat 32 (first t / P t)]) (some 16)) ∧
      ((∀ t ∈ s.iss.lanes, P t ≠ 0) → exec (.wsplit d a b) s = .next (s.each fun u t =>
        u.trackVals t (seqWords (regNum d) [BitVec.ofNat 32 (first t), BitVec.ofNat 32 (last t - first t),
          BitVec.ofNat 32 (flags t), BitVec.ofNat 32 (first t / P t)]) (some 16)))

/-- Matrix words as they issue (R222, R224, R225, R227, R232, R235 to R237, R312): on the leader core, with room in the pair's
queue, its own checks passed and, for a word that reads or writes memory, the thread's earlier accesses performed, MMA, MLOADB, MST and MZERO take the pair's bank for the context and join the queue; MST's lines
become absent; MBURST asks for the arrays' current.
Reading tiles and the gang form (R233, R234): MRD and MRD.st return a sample of an element or of the tile's status with the
steps of the entry that owns the tile; MMAG, with every position there and its array at full current, adds the exact
scaled sum of each element's products to C and rounds once. -/
def Obligations.MatrixWords : Prop :=
  (
    ∀ (s : State) (z scl : Bool) (ta tb ty : Ty) (ka kb rsel : BitVec 2) (tile : BitVec 3) (ksm1 : BitVec 5) (vw mask : BitVec 8)
      (len : BitVec 16) (rm : Rm) (pol : Pol) (d a b c l sa sb : Opd), s.iss.faults = [] →
      let room := fun (u : State) t => isLeader (u.coreOf t) && decide ((u.pairAt (u.coreOf t / 2)).queue.length < 8)
      let join := fun (u : State) t (k : MKind) (dst : Opd) =>
        let r := u.claimBank (u.coreOf t / 2) (u.ctxIdOf t)
        r.2.enqueueMatrix t r.1 k dst
      (∀ u, s.runs (fun u t => match u.mmaKind t z scl ta tb ka.toNat kb.toNat tile.toNat (ksm1.toNat + 1) vw.toNat l sa sb with
          | .ok k => if room u t ∧ u.busy t = false then some (join u t k d) else none
          | .error _ => none) = some u →
        (scl = true → s.scaleWaits s.iss.gang (regNum sa) ka.toNat (512 * (ksm1.toNat + 1)) = [] ∧
          s.scaleWaits s.iss.gang (regNum sb) kb.toNat (256 * (ksm1.toNat + 1)) = []) →
        exec (.mma z scl ta tb ka kb tile ksm1 vw d l sa sb) s = .next u) ∧
      (∀ u, s.runs (fun u t =>
          let src := (u.rd t (regNum a)).toNat
          let dst := (u.rd t (regNum b)).toNat
          let n := (u.rd t (regNum c)).toNat
          if room u t ∧ u.busy t = false ∧ src % 16 = 0 ∧ dst % 16 = 0 ∧ n % 16 = 0 ∧ 0 < n ∧ src + n ≤ (u.crewOf t).sSize ∧ dst + n ≤ 2 ^ 21
          then some (join u t (.mloadb src dst n) d) else none) = some u → exec (.mloadb d a b c) s = .next u) ∧
      (∀ u, s.runs (fun u t =>
          let f := layoutFields (u.layoutWord t (regNum l))
          let rows := if rsel = 0 then 256 else 128
          let lines := u.layoutLines (u.thr t).crew f.2.2.2.2 f.1 f.2.1 f.2.2.1 rows 128
          if room u t ∧ u.busy t = false ∧ layoutCheck f.1 f.2.1 f.2.2.1 (tyBits ty / 8) rows 128 (u.crewOf t).sSize = none ∧
             (lines.filter u.absent.contains).isEmpty = true
          then some (join { u with absent := lines ++ u.absent } t
            (.mst ty rm pol rsel.toNat tile.toNat f.2.2.2.2 f.1 f.2.1 f.2.2.1) d) else none) = some u →
        exec (.mst ty rm pol rsel tile d l) s = .next u) ∧
      (∀ u, s.runs (fun u t => if room u t then some (join u t (.mzero mask.toNat) .none) else none) = some u →
        exec (.mzero mask) s = .next u) ∧
      ∀ u, s.runs (fun u t => some (
          if len = 0 then u.modPair (u.coreOf t / 2) fun p => { p with hold := u.cycle }
          else
            let pair := u.coreOf t / 2
            let v := if (u.entryReady pair).isNone then u.endIdle pair [0, 1] else u
            let w := v.modPair pair fun p => { p with hold := max p.hold (u.cycle + u.rampLen pair + 64 * len.toNat) }
            let x := w.rampUp pair (w.launchIdOf t) [0, 1]
            x.modPair pair fun p => { p with chargedTo := x.launchIdOf t })) = some u → exec (.mburst len) s = .next u) ∧
  (
    ∀ (s : State) (tile : BitVec 3) (scl : Bool) (ta tb : Ty) (ka kb : BitVec 2) (sa sb : BitVec 8) (d a b c : Opd),
      s.iss.faults = [] →
      (∀ u, s.runs (fun u t =>
          let r := u.claimBank (u.coreOf t / 2) (u.ctxIdOf t)
          match r.2.src t 32 a, r.2.src t 32 b with
          | .ok row, .ok col =>
            if row ≤ 255 ∧ col ≤ 127 ∧ r.2.clear t (.tileStarted (u.coreOf t / 2) r.1 tile.toNat
                (r.2.sampleSeq t (u.coreOf t / 2) r.1 tile.toNat)) = true
            then some (r.2.trackVals t (seqWords (regNum d) [SMap.getD r.2.acc (accKey r.1 tile.toNat row col) 0,
              BitVec.ofNat 32 (r.2.ownerSteps (u.coreOf t / 2) r.1 tile.toNat)]) none)
            else none
          | _, _ => none) = some u → exec (.mrd tile d a b) s = .next u) ∧
      (∀ u, s.runs (fun u t =>
          let r := u.claimBank (u.coreOf t / 2) (u.ctxIdOf t)
          if r.2.clear t (.tileStarted (u.coreOf t / 2) r.1 tile.toNat (r.2.sampleSeq t (u.coreOf t / 2) r.1 tile.toNat)) = true
          then some (r.2.trackVals t (seqWords (regNum d) [SMap.getD r.2.tileStat (r.1 * 8 + tile.toNat) 0,
            BitVec.ofNat 32 (r.2.ownerSteps (u.coreOf t / 2) r.1 tile.toNat)]) none)
          else none) = some u → exec (.mrdSt tile d) s = .next u) ∧
      (s.iss.lanes.Nodup →
        (∀ i, i < 32 → s.memberGone s.iss.gang i s.iss.addr = false ∧ s.memberBehind s.iss.gang i s.iss.addr = false) →
        s.notYet (List.range 32) = [] → s.arrayHot (s.coreOf (s.iss.lanes.headD 0)) = true →
        let lane := fun n => (s.inLane n).getD 0
        let code := fun (ty : Ty) u r k => (s.rd u (r + k * tyBits ty / 32)).toNat / 2 ^ (k * tyBits ty % 32) % 2 ^ tyBits ty
        let val := fun (ty : Ty) x => widenExact s.issFlush (fmtD ty) x none
        let dot := fun i j => FVal.sum ((List.range 32).map fun k => FVal.mul
          (val ta (code ta (lane (2 * i + k / 16)) (regNum a) (k % 16))) (val tb (code tb (lane (2 * j + k / 16)) (regNum b) (k % 16))))
        let p := fun i => (s.rd (lane i) sa.toNat).toNat / 2 ^ (8 * ka.toNat) % 256
        let q := fun j => (s.rd (lane j) sb.toNat).toNat / 2 ^ (8 * kb.toNat) % 256
        let x := fun i j => if !scl then dot i j else if p i = 0xFF ∨ q j = 0xFF then FVal.nan
          else (dot i j).scale ((p i : Int) + (q j : Int) - 254)
        let old := fun i j => val32 s.issFlush (s.rd (lane (2 * i + j / 8)) (regNum c + j % 8))
        let elem := fun i j => rne32 s.issFlush (FVal.add false (old i j) (x i j))
        let core := s.coreOf (s.iss.lanes.headD 0)
        let v := (s.claimBank (core / 2) (s.ctxIdOf (s.iss.lanes.headD 0))).2
        let w := if (v.entryReady (core / 2)).isNone then v.endIdle (core / 2) [core % 2] else v
        exec (.mmag scl ta tb ka kb sa sb d a b c) s = .next (w.each fun u t => u.trackVals t (seqWords (regNum d)
          ((List.range 8).map fun k => elem ((u.thr t).lane / 2) (8 * ((u.thr t).lane % 2) + k))) none)))

/-- The matrix queue and the arrays' current (R222, R228, R232, R235, R236, R402): the entry at work starts, or is performed
and retires with its status; an MMA step of a started entry adds two blocks to every element of its tile, and the last step
retires it; MST writes each element of its rows rounded to its type, then its lines are present, and it retires with the
tile's status. They read and write the crew's scratchpad, or, where its room has been returned, what was saved of it (R38). A
ramp-up ends in full current, and idle arrays come down once their hold has passed. That the fillers of a hold, a pause and a
ramp-down are charged together when they end is the model's choice (log 58). -/
def Obligations.MatrixQueue : Prop :=
  ∀ (s : State) (pair core : Nat), (∀ e, s.entryReady pair = some e →
    let v := if (s.pairAt pair).paused then s.endIdle pair [0, 1] else s
    let c := v.crewAt e.crew
    let bytesAt := fun (off n : Nat) => (List.range n).map fun k =>
      if c.away then c.saved.getD (off + k) 0 else v.mem.read (locScratch c.core (c.sBase + off) + k)
    let put := fun (u : State) (off : Nat) (bs : List Byte) =>
      if c.away then u.modCrew e.crew fun x => { x with saved := x.saved.take off ++ bs ++ x.saved.drop (off + bs.length) }
      else { u with mem := u.mem.writeN (locScratch c.core (c.sBase + off)) bs }
    (∀ z scl ta tb tile ks mode base s0 s1 ptr va vb step fl,
      e.kind = .mma z scl ta tb tile ks mode base s0 s1 ptr va vb step fl →
      (e.started = false → exec (.matrixQueueEntry pair) s = .next (((if z then v.zeroTile e.bank tile else v).modEntry pair e.seq
        fun x => { x with started := true }).rampUp pair e.launch [0, 1])) ∧
      (e.started = true → exec (.matrixQueueEntry pair) s = .next (v.rampUp pair e.launch [0, 1])) ∧
      (e.started = true → v.arrayHot (2 * pair) = true → v.arrayHot (2 * pair + 1) = true →
        (c.away = true ∨ ∀ ln ∈ v.layoutLines e.crew mode (base + 64 * step * s1) s0 s1 256 64, ln ∉ v.absent) →
        (v.decodeChunk pair (tyBits tb / 8) 128 ptr = none →
          exec (.mmaStep pair) s = .next (v.retireMma pair e tile (orN 4 fl 8) step)) ∧
        ∀ cols next, v.decodeChunk pair (tyBits tb / 8) 128 ptr = some (cols, next) →
          let m : MmaStep :=
            { pair := pair, crew := e.crew, bank := e.bank, tile := tile, scl := scl, ta := ta, tb := tb,
              mode := mode, base := base, s0 := s0, s1 := s1, sa := va, sb := vb, step := step,
              flush := (v.launchAt e.launch).lrec.flush }
          let r := v.mmaBlock m cols (2 * step + 1) (v.mmaBlock m cols (2 * step) (v.acc, fl))
          let k := MKind.mma z scl ta tb tile ks mode base s0 s1 next va vb (step + 1) r.2
          let u := { v with acc := r.1 }.modEntry pair e.seq fun x => { x with kind := k }
          exec (.mmaStep pair) s = .next ((if step + 1 = ks then u.retireMma pair e tile r.2 ks else u).chargeC e.launch
            (2 * 16 * (if tyBits ta = 8 then 64 else 128))) ∧
          ∀ k, k / (128 * 256) ≠ e.bank * 8 + tile → SMap.get? r.1 k = SMap.get? v.acc k)) ∧
    (∀ src dst len, e.kind = .mloadb src dst len →
      let out := c.away = false ∧ v.absentIn (locScratch c.core (c.sBase + src)) len ≠ []
      (¬ out → exec (.matrixQueueEntry pair) s =
        .next ({ v with mem := v.mem.writeN (locWeight pair dst) (bytesAt src len) }.retire pair e 0)) ∧
      (out → exec (.matrixQueueEntry pair) s = .next v)) ∧
    (∀ ty T rm pol rsel tile mode base s0 s1, e.kind = .mst ty rm pol rsel tile mode base s0 s1 → fmtOf ty = some T →
      let fl := (v.launchAt e.launch).lrec.flush
      let first := if rsel = 2 then 128 else 0
      let rows := if rsel = 0 then 256 else 128
      let code := fun row j => (roundToFormat fl (val32 fl (SMap.getD v.acc (accKey e.bank tile row j) 0)) T rm (polOf pol) 0).getD 0
      let stored := (List.range rows).foldl (fun u i => (List.range 128).foldl (fun u j =>
        put u (layoutXor mode (base + i * s0 + j * s1)) (bytesOf (tyBits ty / 8) (code (first + i) j))) u) v
      let lines := if c.away then [] else v.layoutLines e.crew mode base s0 s1 rows 128
      rsel < 3 → exec (.matrixQueueEntry pair) s = .next ({ stored with absent := v.absent.filter fun ln => !lines.contains ln }.retire
        pair e (SMap.getD v.tileStat (e.bank * 8 + tile) 0))) ∧
    (∀ mask, e.kind = .mzero mask → exec (.matrixQueueEntry pair) s =
      .next ((((List.range 8).filter fun n => testN mask n).foldl (fun u n => u.zeroTile e.bank n) v).retire pair e 0)) ∧
    (∀ (u : State) (st : Word) (n : Nat) (x : Result), e.result = some n → SMap.get? u.results n = some x →
      SMap.get? (u.deliverOpt e.result [st]).results n = some { x with vals := some [st] } ∧
      u.retire pair e st = ((u.modPair pair fun p => { p with
        queue := p.queue.filter (fun y => y.seq ≠ e.seq), idle := [u.cycle, u.cycle] }).deliverOpt e.result [st]).checkReady e.launch)) ∧
    (∀ till, (s.pairAt (core / 2)).ramp.getD (core % 2) .cold = .up till → (s.pairAt (core / 2)).ramp.length = 2 →
      (till ≤ s.cycle → ∃ u, exec (.rampFillersDone core) s = .next u ∧ u.arrayHot core = true) ∧
      (s.cycle < till → exec (.rampFillersDone core) s = .next s)) ∧
    (∀ since, (s.pairAt (core / 2)).ramp.getD (core % 2) .cold = .down since → since + s.rampLen (core / 2) ≤ s.cycle →
      exec (.rampFillersDone core) s = .next ((s.modPair (core / 2) fun p => { p with
        ramp := p.ramp.set (core % 2) .cold, idle := p.idle.set (core % 2) s.cycle }).chargeC (s.pairAt (core / 2)).chargedTo
          (16 * s.rampLen (core / 2)))) ∧
    ((s.pairAt (core / 2)).ramp.getD (core % 2) .cold = .hot → (s.pairAt (core / 2)).hold ≤ s.cycle →
      s.entryReady (core / 2) = none →
      (∀ x ∈ SMap.vals s.threads, x.live = true → x.park ≠ some (.retry (.ramp core))) →
      exec (.burstHoldExpiry core) s = .next ((s.endIdle (core / 2) [core % 2]).modPair (core / 2) fun p => { p with
        ramp := p.ramp.set (core % 2) (.down s.cycle) }))

/-- System words (R294, R297, R298, R300): TRAP and BRK take their cause in every executing lane; TRET returns each lane that is in
its handler to EPC or past the word there, to the gang it left; GETSR returns the system register of its number, each as R297 and
R298 give it, and SETSR writes HANDLER,
EPC or BINTIME; DBGMB.get and DBGMB.put are an acquiring load and a release store of the mailbox. -/
def Obligations.SystemWords : Prop :=
  ∀ (s : State) (n : BitVec 7) (k : BitVec 16) (sr : BitVec 8) (irq skip : Bool) (d a b : Opd), s.iss.faults = [] →
    (let fs := s.iss.lanes.map fun t => (t, Cause.software n, (0 : DWord))
     exec (.trap n) s = .next ((s.noteFaults fs.length).takeFault s.iss.gang 0xFF 0 fs)) ∧
    (let fs := s.iss.lanes.map fun t => (t, Cause.brk, (0 : DWord))
     exec (.brk k) s = .next ((s.noteFaults fs.length).takeFault s.iss.gang 0xFF k.toNat fs)) ∧
    (∀ u, s.does (fun u t =>
        let pc := if skip then (u.thr t).epc + (if u.kindAt (u.coreOf t) (u.ctxIdOf t) (u.thr t).epc = some 2 then 32 else 16) else (u.thr t).epc
        if (u.thr t).inHandler = true ∧ u.checkTarget t pc = none then
          some (u.modThr t fun x => { x with pc := pc, cause := 0, inHandler := false, gang := x.home, viaTransfer := true, passOnce := false })
        else none) = some u →
      exec (if skip then .tretSkip else .tretReplay) s = .next
        (((s.iss.gang :: (s.iss.lanes.map fun t => (s.thr t).home).dedup).foldl State.releaseRecon u).dropGang s.iss.gang)) ∧
    (∀ u, s.runs (fun u t =>
        let x := u.thr t
        let c := u.crewAt x.crew
        let l := u.launchAt c.launch
        let k := u.ctxAt l.ctx
        let bit := fun (f : Bool) (i : Nat) => if f then 2 ^ i else 0
        let wide := fun (v : DWord) => some (64, v.toNat)
        let value : Option (Nat × Nat) := match sr.toNat with
          | 0x00 => wide c.handler
          | 0x01 => wide x.epc
          | 0x02 => wide x.eaddr
          | 0x03 => some (32, x.elanes.toNat)
          | 0x04 => some (32, l.dclass * 2 ^ 13 + l.prio * 2 ^ 10 + bit l.kill 9 + bit l.lrec.indep 8 + bit l.lrec.resid 7 +
              bit l.lrec.layered 6 + bit l.lrec.check 5 + bit l.lrec.flush 4)
          | 0x05 => some (32, l.lrec.quota)
          | 0x06 => some (32, (l.lines.length + 511) / 512)
          | 0x07 => wide l.lrec.deadline
          | 0x08 => wide l.lrec.boundc
          | 0x09 => wide l.lrec.boundb
          | 0x0A => wide l.spent
          | 0x0B => some (32, k.wkey.toNat)
          | 0x0C => some (32, c.regBase)
          | 0x0D => some (32, c.binTime.toNat)
          | 0x0E => some (32, k.cquota.toNat)
          | 0x0F => some (32, bit k.dbgAttach 0 + bit k.mbox 1)
          | _ => none
        value.map fun y => u.trackVals t (dstWords y.1 d y.2) (some 16)) = some u → exec (.getsr sr d) s = .next u) ∧
    (∀ u, s.runs (fun u t => match u.src t 64 a with
        | .ok v => if sr = 0 ∧ v % 16 = 0 ∧ v < 2 ^ 52
          then some (u.modCrew (u.thr t).crew fun c => { c with handler := BitVec.ofNat 64 v })
          else if sr = 1 ∧ (u.thr t).inHandler = true then some (u.modThr t fun x => { x with epc := BitVec.ofNat 64 v })
          else none
        | .error _ => none) = some u → exec (.setsr sr a) s = .next u) ∧
    (∀ u, s.runs (fun u t => match u.src t 32 a with
        | .ok v => if 1 ≤ v ∧ v ≤ 65535 then some (u.modCrew (u.thr t).crew fun c => { c with binTime := BitVec.ofNat 32 v })
          else none
        | .error _ => none) = some u → exec (.setsr 0x0D a) s = .next u) ∧
    (∀ u, s.runs (fun u t => match u.src t 32 a with
        | .ok off => State.access t { ord := 1, scope := 4, remote := false, disp := 0 } (u.mboxReach t off .read) fun v loc _ _ =>
            some ((v.loads t 4 { ord := 1, scope := 4, remote := false, disp := 0 } .b32 d false loc).addBytes t 4)
        | .error _ => none) = some u → exec (.dbgmbGet d a) s = .next (u.cut s.issLaunch)) ∧
    ∀ u, s.runs (fun u t => match u.src t 32 a, u.src t 32 b with
        | .ok off, .ok x => State.access t { ord := 2, scope := 4, remote := false, disp := 0 } (u.mboxReach t off .write) fun v loc _ _ =>
            some ((v.queueStore t false loc (bytesOf 4 x) true 4 (if irq && (v.ctxOf t).vector.getLsbD 31
              then some ((v.ctxOf t).vector.toNat / 2 ^ 16 % 2 ^ 11) else none)).addBytes t 4)
        | _, _ => none) = some u → exec (.dbgmbPut irq a b) s = .next (u.cut s.issLaunch)

/-- Taking a fault and entering the handler (R295, R296, R376, R377): where no lane is in a handler and the crew has one,
the faulting lanes leave their gang and wait parked on their word, and the lowest cause is theirs; with no handler, or in
one, the lot ends with that cause. Entry saves the pc, the fault address and the lanes, and goes to HANDLER; a HANDLER that is
0 by then ends the lot with the trap's cause. -/
def Obligations.FaultsAndHandlers : Prop :=
  ∀ (s : State) (g c l : Nat) (t0 : Nat) (c0 : Cause) (ea0 : DWord) (rest : List (Nat × Cause × DWord)),
    (s.thr t0).crew = c → (s.crewAt c).launch = l → (lowestCause rest c0).taker = .handler →
    let fs := (t0, c0, ea0) :: rest
    ((∀ f ∈ fs, (s.thr f.1).inHandler = false) → (s.crewAt c).handler ≠ 0 →
      let u := s.takeFault g 0xFF 0 fs
      (∀ f ∈ fs, (SMap.get? s.threads f.1).isSome →
        (u.thr f.1).pc = (s.thr f.1).pc ∧ (u.thr f.1).park = some .trapped ∧ (u.thr f.1).gang = s.fresh ∧
        (u.thr f.1).home = (s.thr f.1).home) ∧
      (u.gangAt s.fresh).trapCause = (lowestCause rest c0).code ∧ (∀ f ∈ fs, (u.gangAt s.fresh).trapCause ≤ f.2.1.code)) ∧
    (((∃ f ∈ fs, (s.thr f.1).inHandler = true) ∨ (s.crewAt c).handler = 0) →
      s.takeFault g 0xFF 0 fs = s.abortLot l 0x01 (lowestCause rest c0).code 0 false) ∧
    ∀ (t : Nat) (ts : List Nat), SMap.sorted s.threads = true → s.gangThreads g = t :: ts → s.trappedGang g = true →
      (s.crewAt (s.gangAt g).crew).status = .resident → (s.crewAt (s.gangAt g).crew).halted = false →
      ((s.crewOf t).handler = 0 →
        exec (.handlerEntry g) s = .next (s.abortLot (s.launchIdOf t) 0x01 (s.gangAt g).trapCause 0 false)) ∧
      ((s.crewOf t).handler ≠ 0 → s.checkTarget t (s.crewOf t).handler = none →
      (∃ loc host peer pte bits, s.fetchAt (s.coreOf t) (s.ctxIdOf t) (s.crewOf t).handler = .ok loc host peer pte bits) →
      ∃ u, exec (.handlerEntry g) s = .next u ∧ u.mem = s.mem ∧ ∀ v ∈ s.gangThreads g,
        (u.thr v).pc = (s.crewOf t).handler ∧ (u.thr v).epc = (s.thr v).pc ∧ (u.thr v).cause = (s.gangAt g).trapCause ∧
        (u.thr v).eaddr = easOf (s.gangAt g).trapEas v ∧
        (u.thr v).elanes = laneMask ((s.gangThreads g).map fun w => (s.thr w).lane) ∧
        (u.thr v).inHandler = true ∧ (u.thr v).park = none ∧ (u.thr v).regs = (s.thr v).regs)

/-- KILL, HREL, BARY and DERIV (R244, R245, R250 to R253): KILL marks the element of a lane whose element is not frozen; HREL
drops the reference of a lane whose element is; BARY gives λ or the perspective weight of a vertex after 6 cycles, NaN where the weights' denominator is zero; DERIV,
once nobody of the quad is behind or held at the word, gives the difference of the first pair that is there, and +0.0 without one. -/
def Obligations.ElementWords : Prop :=
  ∀ (s : State) (lin axis fine : Bool) (k : BitVec 2) (d a : Opd) (v : Nat → Nat), s.iss.faults = [] →
    (∀ u, s.runs (fun u t => (u.serving t).bind fun x =>
        if x.2.frozen then none else some (u.modElem x.1 fun y => { y with killed := true })) = some u →
      exec .kill s = .next u) ∧
    (∀ u, s.runs (fun u t => (u.serving t).bind fun x => if x.2.frozen then some (u.dropOwn t) else none) = some u →
      exec .hrel s = .next u.refresh) ∧
    (s.Writes d → (∀ t ∈ s.iss.lanes, ∃ e x, s.serving t = some (e, x) ∧ x.lam ≠ []) →
      let el := fun t => (((s.serving t).map Prod.snd).getD Elem.zero)
      let term := fun t i => FVal.mul (val32 (s.flush t) ((el t).lam.getD i 0)) (val32 (s.flush t) ((el t).qs.getD i 0))
      let den := fun t => FVal.sum ((List.range (el t).verts.length).map (term t))
      let wt := fun t => if k.toNat < (el t).verts.length
        then rne32 (s.flush t) (if (den t).isZero then .nan else FVal.div (term t k.toNat) (den t)) else 0
      exec (.bary lin k d) s = .next (s.yields 6 fun t =>
        dstWords 32 d (if lin then (el t).lam.getD k.toNat 0 else wt t).toNat)) ∧
    (s.Reads 32 a v → (∀ t ∈ s.iss.lanes, s.quadBehind (s.thr t).lane = [] ∧ s.notYet (quadOf (s.thr t).lane) = []) →
      let pos := fun t => (s.thr t).lane % 4
      let at_ := fun t i => (s.iss.lanes.find? fun u => (s.thr u).lane == (s.thr t).lane / 4 * 4 + i).map fun u =>
        val32 (s.flush t) (BitVec.ofNat 32 (v u))
      let sub := fun t (p : Nat × Nat) => (at_ t p.1).bind fun x => (at_ t p.2).map fun y =>
        rne32 (s.flush t) (FVal.add false y x.neg)
      let pair := fun (i : Nat) => if axis then (i, i + 2) else (2 * i, 2 * i + 1)
      let first := fun t => if fine then (if axis then pos t % 2 else pos t / 2) else 0
      exec (.deriv axis fine d a) s = .next (s.each fun u t => u.trackVals t (dstWords 32 d
        (((sub t (pair (first t))).or (sub t (pair (1 - first t)))).getD 0).toNat) none))

/-- EMIT and DICE (R254, R255, R263): EMIT, once an element but for a ray, freezes the element and gives its result: the clip
position of a vertex, the colour and depth of its samples, or a ray's sum; a muted element gives none, and a ray with no
sample faults. DICE numbers a grid of a patch that passes its checks, and its V elements wait for the freeze; which of them take
their storage at once is the model's reading (logs 58, 98). -/
def Obligations.EmitAndDice : Prop :=
  (∀ (s : State) (z : Bool) (ty : Ty) (d a b : Opd), s.iss.faults = [] →
    let rgba := fun (u : State) t => match a with
      | .v n => (List.range 4).map fun i => u.rd t (n.toNat + i)
      | _ => []
    (∀ u, s.runs (fun u t => match u.serving t, (if z then u.src32 t b else .ok 0) with
        | some (e, x), .ok zv =>
          if x.emitted = true ∧ x.rate ≠ .Y then none
          else (u.emitResult t e (rgba u t) (if z then some zv else none)).map fun w =>
            (w.freeze t).modElem e fun y => { y with emitted := true }
        | _, _ => none) = some u → exec (.emit z ty a b) s = .next u.refresh) ∧
    (∀ u, s.runs (fun u t => match u.serving t, u.src t 32 a, u.src t 32 b with
        | some (e, x), .ok g, .ok patch =>
          let nu := g % 256
          let nv := g / 256 % 256
          let c := (u.drawRec x.launch).clusters.getD x.idx (true, 0, 0, 0, 0)
          if 65536 ≤ g ∨ nu = 0 ∨ 64 < nu ∨ nv = 0 ∨ 64 < nv ∨ c.1 = true ∨ c.2.2.2.1 ≤ patch ∨ x.frozen = true ∨
              65536 < (u.drawOf x.launch).diced x.idx + (nu + 1) * (nv + 1) ∨ u.askedBy t ≠ none then none
          else if u.hasRate x.launch .V = false then some (u.diceRecord t e nu nv patch d)
          else
            let ask : Creation :=
              { launch := x.launch, rate := .V, protos := u.gridProtos e ((nu + 1) * (nv + 1)) 0, regs := [],
                crew := (u.thr t).crew, attempted := true, since := u.now, turn := 0, fromRecord := false,
                cause := some t, granted := false, failed := false }
            if u.creationFits 0 ask then
              some (((u.take).2.takeBytes ask).diceDone t e u.take.1 (u.together ask).length nu nv patch d)
            else none
        | _, _, _ => none) = some u → exec (.dice d a b) s = .next (u.dropAsked s.iss.lanes))) ∧
  (∀ (s : State) (t e nu nv patch : Nat) (d : Opd), ∃ u : State, s.diceRecord t e nu nv patch d =
      u.trackVals t (dstWords 32 d (s.drawOf (s.elemAt e).launch).nextV) none) ∧
  ∀ (s : State) (t e a : Nat) (rgba : List Word) (z : Option Word),
    let x := s.elemAt e
    let r := s.emitResult t e rgba z
    let put := fun (q : Sample) => { q with color := rgba, written := true, z := z.getD q.z }
    let ray := fun (q : Sample) => { q with color := List.zipWith (fadd32 (s.flush t)) q.color rgba, written := true }
    (x.rate = .F ∨ x.rate = .O ∨ x.rate = .C → r = some s) ∧
    (x.rate = .V → r = some (s.modElem e fun y => { y with clip := rgba })) ∧
    (x.rate = .K ∨ x.rate = .S → x.helper = true ∨ x.killed = true → r = some s) ∧
    (x.rate = .K → s.muted x = false → r = some (s.modSamples x.launch (fun q => q.kelem == some e) put)) ∧
    (x.rate = .S → s.muted x = false → r = some (s.modSamples x.launch (fun q => q.elem == some e) put)) ∧
    (x.rate = .Y → s.muted x = false → x.ancestor .S = some a →
      r = some (s.modSamples x.launch (fun q => q.elem == some a) ray)) ∧
    (x.rate = .Y → s.muted x = false → x.ancestor .S = none → x.ancestor .K = some a →
      r = some (s.modSamples x.launch (fun q => q.kelem == some a) ray)) ∧
    (x.rate = .Y → x.ancestor .S = none → x.ancestor .K = none → r = none)

/-- Textures (R256 to R262): a word whose descriptor can be read and is valid, whose coordinates are numbers, and whose
footprint is resident at the level it samples, returns the filtered texels, or the four of a gather, with its predicate 0;
TEXQ returns the sizes of a level. What it returns where its descriptor's page misses, and the level of TEX where a coordinate
difference is a NaN, the spec does not state: free values (logs 115, 27). -/
def Obligations.TextureWords : Prop :=
  ∀ (s : State) (dim ch : BitVec 2) (pd : BitVec 3) (d a b c : Opd), s.iss.faults = [] →
    let desc := fun (u : State) t (any : Bool) => if u.acquiring t then none
      else match u.reachVirt t (u.rd64 t (regNum b)) 32 .K .read with
      | .ok v loc _ _ =>
        if v.bytesClear t false loc 32 false false = false then none
        else (texOf (v.viewN t false loc 32)).bind fun x =>
          if any ∨ x.dims = dim.toNat then some (v.noteReads t [(loc, 32)], x) else none
      | _ => none
    let taps := fun (v : State) t (x : Tex) (level : Word) => x.sampleTaps (v.texCoord t a 0) (v.texCoord t a 1) (v.texCoord t a 2)
      (x.clampLevel (val32 (v.flush t) level))
    let reads := fun (v : State) t (x : Tex) (ps : List (Nat × Nat)) (out : List (Nat × Nat) → List Word) =>
      if (v.texLocs t x (ps.map Prod.fst)).any (fun r => !v.bytesClear t false r.1 r.2 false false) then none
      else match v.texFetch t x (ps.map Prod.fst) with
      | .ok vs => some (((v.texFill t x (ps.map Prod.fst)).trackVals t (seqWords (regNum d)
          (out (List.zipWith (fun w p => (w, p.2)) vs ps)) ++ predWord pd false) none).addBytes t (32 + ps.length * x.texel))
      | _ => none
    (∀ u, s.runs (fun u t => (desc u t false).bind fun (vx : State × Tex) =>
        let r := vx.1.texLevel (vx.1.flush t) vx.2 ((s.keptQuad t).getD (s.quadDiffs (s.thr t).lane (s.flush t) a))
        let v := { vx.1 with free := vx.1.free + r.2 }
        if (((s.keptQuad t).isSome || (s.quadBehind (s.thr t).lane).isEmpty && (s.notYet (quadOf (s.thr t).lane)).isEmpty) &&
          v.coordsReal t a vx.2) = true
        then reads v t vx.2 (taps v t vx.2 r.1) (vx.2.filter (v.flush t)) else none) = some u →
      exec (.tex dim pd d a b) s = .next (u.cut s.issLaunch)) ∧
    (∀ u, s.runs (fun u t => match u.src32 t c with
        | .ok lv => (desc u t false).bind fun vx =>
          if vx.1.coordsReal t a vx.2 = true
          then reads vx.1 t vx.2 (taps vx.1 t vx.2 (fadd32 (vx.1.flush t) lv vx.2.bias)) (vx.2.filter (vx.1.flush t)) else none
        | .error _ => none) = some u → exec (.texl dim pd d a b c) s = .next (u.cut s.issLaunch)) ∧
    (∀ u, s.runs (fun u t => match u.src t 32 c with
        | .ok lv => (desc u t false).bind fun vx =>
          if vx.1.coordsReal t a vx.2 = true ∧ lv ≤ vx.2.lm1
          then reads vx.1 t vx.2 (vx.2.gather (vx.1.texCoord t a 0) (vx.1.texCoord t a 1) (vx.1.texCoord t a 2) lv) (fun ps =>
            ps.map fun p => rne32 (vx.1.flush t) (vx.2.norm ((vx.2.channels (vx.1.flush t) p.1).getD ch.toNat .zero)))
          else none
        | .error _ => none) = some u → exec (.texg ch dim pd d a b c) s = .next (u.cut s.issLaunch)) ∧
    ∀ u, s.runs (fun u t => match u.src t 32 c, u.reachVirt t (u.rd64 t (regNum b)) 32 .K .read with
        | .ok _, .stay _ => if u.acquiring t then none else
          some (({ u with free := u.free + 4 }.trackVals t (seqWords (regNum d)
            ((List.range 4).map fun i => Config.freeWord (u.free + i)) ++ predWord 7 false) none).addBytes t 32)
        | .ok l, _ => (desc u t true).bind fun vx =>
          let x := vx.2
          if x.lm1 < l then none
          else some ((vx.1.trackVals t (seqWords (regNum d) [BitVec.ofNat 32 (max 1 (x.w / 2 ^ l)),
            BitVec.ofNat 32 (max 1 (x.h / 2 ^ l)),
            BitVec.ofNat 32 (if x.dims = 2 then max 1 (x.d / 2 ^ l) else if x.dims = 1 then x.d else 1),
            BitVec.ofNat 32 (x.lm1 + 1 + (if vx.1.levelResident t x l then 2 ^ 31 else 0))]) none).addBytes t 32)
        | .error _, _ => none) = some u → exec (.texq d b c) s = .next (u.cut s.issLaunch)

/-- Rays and inference (R264 to R268, R356, R418): TRACE misses at once on a NaN or an empty interval, and otherwise returns the
hit, the miss or the malformed node that the walk finds, and is charged 64 bytes for each node that it reads; which child of a
node it takes first is free (log 29). INFER reads its descriptor, copies its inputs and joins its die's queue. The service of a
die takes the oldest waiting entry and up to 31 later ones of its descriptor address into service, and ends those whose
descriptor is invalid with status 2; an entry catches the tile of its layer at a passage, computes the layer, and after the
last layer ends with the values and status 0; one whose tile has not come within a revolution ends with status 1. Results of
status 1 and 2 are NaNs. That a layer waits for its tile from the passage of the one before, and that batches in service do not
hold up each other, is the model's reading (log 58). -/
def Obligations.RaysAndInference : Prop :=
  (∀ (s : State) (mode : BitVec 2) (mask : BitVec 8) (nin : BitVec 5) (nout : BitVec 4) (d a b : Opd), s.iss.faults = [] →
    (∀ u, s.runs (fun u t =>
        let root := (u.rd64 t (regNum b)).toNat
        let v := fun i => u.rd t (regNum a + i)
        let ray : Ray := { o := [v 0, v 1, v 2], tmin := v 3, d := [v 4, v 5, v 6], tmax := v 7 }
        let c : Trace :=
          { thread := t, flush := u.flush t, mask := mask.toNat, first := mode.toNat ≠ 0, free := u.free }
        let out := fun (h : Option RayHit) (flag : Word) (ns : List Nat) =>
          let hit := match h with
            | some x => if mode = 2 then [0x7F800000, 0, 0, 0xFFFFFFFF, 0xFFFFFFFF, 0xFFFFFFFF] else [x.t, x.u, x.v] ++ x.ids
            | none => [0x7F800000, 0, 0, 0xFFFFFFFF, 0xFFFFFFFF, 0xFFFFFFFF]
          some ((({ u with free := u.free + 1 }.trackVals t (seqWords (regNum d) (hit ++ [flag, 0])) none).noteReads t
            (ns.reverse.map fun loc => (loc, 64))).addBytes t (64 * ns.length))
        if u.acquiring t = true ∨ root % 64 ≠ 0 ∨ 2 ^ 52 ≤ root then none
        else if (∃ i, i < 8 ∧ (val32 (u.flush t) (v i)).isNan = true) ∨ le32 (u.flush t) (v 3) (v 7) = false then out none 0 []
        else
          let w := walkRef u c 64 ray none (root, 0) (v 7) none []
          match w.trav with
          | .on _ (some h) => out (some h) 1 w.nodes
          | .on _ none => out none 0 w.nodes
          | .done h => out (some h) 1 w.nodes
          | .bad => out none 0x80000000 w.nodes
          | _ => none) = some u → exec (.trace mode mask d a b) s = .next (u.cut s.issLaunch)) ∧
    ∀ u, s.runs (fun u t => match u.reachVirt t (u.rd64 t (regNum b)) 64 .K .read with
        | .ok v loc _ _ =>
          let die := u.coreOf t / 32
          if v.busy t = true ∨ 256 ≤ (v.inferQueue die).length then none
          else
            let r := v.track t ((List.range (nout.toNat + 2)).map fun i => .v (regNum d + i)) none none
            let e : IEntry :=
              { thread := t, launch := v.launchIdOf t, ctx := v.ctxIdOf t, die := die, desc := (u.rd64 t (regNum b)).toNat,
                dbytes := v.mem.readN loc 64, inputs := (List.range (nin.toNat + 1)).map fun k => v.rd t (regNum a + k),
                nout := nout.toNat + 1, result := r.1, flush := v.flush t, seq := r.2.fresh, serve := none }
            some (((State.peerRead { r.2 with fresh := r.2.fresh + 1, infers := SMap.put r.2.infers r.2.fresh e }
              (v.launchIdOf t) false loc 64).addBytes t 64).modThr t fun x => { x with lastRead := r.2.fresh + 1 })
        | _ => none) = some u → exec (.infer nin nout d a b) s = .next (u.cut s.issLaunch)) ∧
  ∀ (s : State) (die : Nat),
    let done := fun (v : State) (e : IEntry) (out : List Word) (status : Word) =>
      (State.deliver { v with infers := SMap.del v.infers e.seq } e.result (out ++ [status])).checkReady e.launch
    let nans := fun (e : IEntry) => List.replicate e.nout (0x7FC00000 : Word)
    let enter := fun (v : State) (e : IEntry) (layer : Nat) (x : List Word) =>
      { v with infers := SMap.put v.infers e.seq { e with serve := some { layer := layer, since := v.cycle, x := x } } }
    let late := SMap.vals (SMap.keep s.infers fun _ e => e.die == die && e.serve.any fun v => decide (v.since + 16384 < s.cycle))
    let waiting := SMap.vals (SMap.keep s.infers fun _ e => e.die == die && e.serve.isNone)
    (late ≠ [] → exec (.inferBatchService die) s = .next (late.foldl (fun v e => done v e (nans e) 1) s)) ∧
    (late = [] → waiting = [] → exec (.inferBatchService die) s = .next s) ∧
    (∀ e rest, late = [] → waiting = e :: rest → exec (.inferBatchService die) s =
      .next (((e :: rest.filter fun x => x.ctx == e.ctx && x.desc == e.desc).take 32).foldl (fun v x =>
        if x.valid then enter v x 0 x.inputs else done v x (nans x) 2) s)) ∧
    ∀ (tile : Tile) (e : IEntry) (f : Fmt) (v : Serve), e.wfmt = some f → e.serve = some v →
      let bytes := fun off n => ofBytes ((List.range n).map fun i => SMap.getD tile.bytes (off + i) 0)
      let at_ := fun i => e.byte (8 + 12 * v.layer + i)
      let n := f.bits / 8
      let weight := fun o i => widenExact e.flush f (bytes (n * (64 * o + i)) n) (match f with
        | .f8 _ _ _ => some (bytes (8448 + 2 * o + i / 32) 1)
        | _ => none)
      let sum := fun o => rne32 e.flush (FVal.sum (val32 e.flush (BitVec.ofNat 32 (bytes (8192 + 4 * o) 4)) ::
        (List.range v.x.length).map fun i => FVal.mul (weight o i) (val32 e.flush (v.x.getD i 0))))
      let act := fun (y : Word) =>
        if at_ 4 = 1 then (if (val32 e.flush y).isNan then 0x7FC00000 else if FVal.le (val32 e.flush y) .zero then 0 else y)
        else if at_ 4 = 2 then tanh32 e.flush (val32 e.flush y) else y
      let y := (List.range (at_ 3)).map fun o => act (sum o)
      s.inferCatch tile e = if v.layer + 1 < e.byte 0 then enter s e (v.layer + 1) y else done s e y 0

/-- Carousel words as they issue (R273, R276, R279 to R281, R334, R356): a boarding of a name aboard or of a context at its quota
completes at once with 1 or 2, and any other begins to read its source; a catch and a copying alight clear the presence
of their destination; CQUERY says whether the tile is aboard, with its version and slot. When an operation is registered at its
station, and that CBOARD's 16 KiB are charged at issue, is the model's reading (logs 49, 50, 55).
A slot at a station (R268, R276, R278, R279, R333, R335, R336, R454): slots pass in their order, and slot k passes station d while the
cycle count modulo 16,384 is 4k + 4,096d and the three after it (that of passages at one time those of lower dies come first is
the model's choice, log 49); an empty slot takes the first registered boarding, at version 1; a
slot with a good tile serves alights, then replaces, then catches of its name in registration order, and what is
registered for a name not aboard is GONE; then the die's inferences that wait for the name catch it. A tile found to be bad, which
the event's operand tells (log 51), leaves, is counted and announced on vector 0. An alight frees the slot, a replace writes the
next version and is turned away at 65,535, and a catch copies the tile whole. When an operation is registered is log 50. -/
def Obligations.CarouselOperations : Prop :=
  (
    ∀ (s : State) (e : EngMods) (sp : ESp) (masked copy : Bool) (d a b c : Opd) (nm : Nat → Nat), s.iss.faults = [] →
      let named := fun (u : State) t (f : Nat → Option State) => match u.src t 32 b with
        | .ok name => if name < 2 ^ 24 then f name else none
        | .error _ => none
      let aboard := fun (u : State) t name => (u.tileAt (u.ctxIdOf t) name).isSome
      let late := fun (u : State) t => if 4 ≤ u.deliveries (u.coreOf t) then some (Block.deliveries (u.coreOf t)) else none
      (∀ u, s.runs (fun u t => named u t fun name =>
          let src := u.engAddr t sp a
          if src % 128 ≠ 0 ∨ u.engRange t sp src 16384 false = false then none
          else u.opens t e d (fun _ => none) fun v =>
            let r := v.addEop t e d (.cboard sp src name)
            if aboard v t name ∨ v.pendingBoard (v.ctxIdOf t) name then r.2.finishEop r.1 0x01 0
            else if (v.ctxOf t).cquota.toNat ≤ v.tilesOf (v.ctxIdOf t) then r.2.finishEop r.1 0x02 0
            else (r.2.modEop r.1 fun o => { o with undelivered := List.range 128 }).addBytes t 16384) = some u →
        exec (.cboard e sp d a b) s = .next (u.cut s.issLaunch)) ∧
      (∀ u, s.runs (fun u t => named u t fun name =>
          let dst := (u.rd t (regNum a)).toNat
          let lines := u.sLines (u.thr t).crew dst 16384
          if dst % 128 ≠ 0 ∨ (u.crewOf t).sSize < dst + 16384 ∨ aboard u t name = false then none
          else u.opens t e d (fun v => (late v t).or (v.absentOf lines)) fun v =>
            (v.addEop t e d (.ccatch dst name)).2.clearLines lines) = some u →
        exec (.ccatch e d a b) s = .next (u.cut s.issLaunch)) ∧
      (∀ u, s.runs (fun u t => named u t fun name =>
          let src := (u.rd t (regNum a)).toNat
          let mask := (u.rd t (regNum c)).toNat
          if src % 128 ≠ 0 ∨ (u.crewOf t).sSize < src + 16384 ∨ aboard u t name = false ∨
              masked = true ∧ (mask % 128 ≠ 0 ∨ (u.crewOf t).sSize < mask + 2048) then none
          else u.opens t e d (fun _ => none) fun v =>
            let r := v.addEop t e d (.creplace src (if masked then some mask else none) name)
            r.2.modEop r.1 fun o => { o with undelivered := List.range (if masked then 144 else 128) }) = some u →
        exec (.creplace e masked d a b c) s = .next (u.cut s.issLaunch)) ∧
      (∀ u, s.runs (fun u t => named u t fun name =>
          let dst := (u.rd t (regNum a)).toNat
          let lines := if copy then u.sLines (u.thr t).crew dst 16384 else []
          if aboard u t name = false ∨ copy = true ∧ (dst % 128 ≠ 0 ∨ (u.crewOf t).sSize < dst + 16384) then none
          else u.opens t e d (fun v => if copy then (late v t).or (v.absentOf lines) else none) fun v =>
            (v.addEop t e d (.calight (if copy then some dst else none) name)).2.clearLines lines) = some u →
        exec (.calight e copy d a b) s = .next (u.cut s.issLaunch)) ∧
      (s.Reads 32 b nm → (∀ t ∈ s.iss.lanes, nm t < 2 ^ 24) →
        exec (.cquery d b) s = .next (s.each fun u t => u.trackVals t (seqWords (regNum d)
          (match s.tileAt (s.ctxIdOf t) (nm t) with
           | some (slot, x) => [BitVec.ofNat 32 (2 ^ 31 + x.version), BitVec.ofNat 32 slot]
           | none => [0, 0])) (some 64)))) ∧
  (
    ∀ (s : State) (die slot : Nat), (s.nextPassage ≠ some (die, slot) → ∀ bad, exec (.carouselPassage die ⟨slot, bad⟩) s = .next s) ∧
      (s.nextPassage = some (die, slot) →
      let u := s.rode.goneAt die
      let serve := fun (x : Tile) (p : EKind → Bool) (f : State → Nat → State) (v : State) =>
        (v.registeredAt die fun o => o.ctx == x.ctx && o.kind.tile == some x.name && p o.kind).foldl f v
      (∀ n ns o, SMap.get? u.slots slot = none →
        u.registeredAt die (fun o => o.kind matches .cboard _ _ _) = n :: ns → SMap.get? u.eops n = some o →
        let tile : Tile := { ctx := o.ctx, name := o.kind.tile.getD 0, version := 1, bytes := o.staged }
        ∀ bad, exec (.carouselPassage die ⟨slot, bad⟩) s = .next (State.endEop { u with slots := SMap.put u.slots slot tile } n 0 1)) ∧
      (SMap.get? u.slots slot = none → u.registeredAt die (fun o => o.kind matches .cboard _ _ _) = [] →
        ∀ bad, exec (.carouselPassage die ⟨slot, bad⟩) s = .next u) ∧
      (∀ x, SMap.get? u.slots slot = some x →
        exec (.carouselPassage die ⟨slot, true⟩) s = .next (u.dropBad die slot x) ∧
        (SMap.sorted u.slots = true → SMap.get? (u.dropBad die slot x).slots slot = none) ∧
        (u.dropBad die slot x).dev.counters = u.dev.counters.set 5 (u.dev.counters.getD 5 0 + 1) ∧
        (.msix 0 ∈ (u.dropBad die slot x).outs ∨ 0 ∈ (u.dropBad die slot x).dev.msixPending)) ∧
      (∀ x, SMap.get? u.slots slot = some x →
        let caught := fun (w : State) => match SMap.get? w.slots slot with
          | some y => (SMap.vals (SMap.keep w.infers fun _ e => e.die == die && e.ctx == x.ctx &&
              e.serve.any fun v => e.tile v.layer == x.name)).foldl (fun w e => w.inferCatch y e) w
          | none => w
        exec (.carouselPassage die ⟨slot, false⟩) s = .next (caught
          (serve x (fun k => k matches .ccatch _ _) (fun v n => v.applyCatch slot n)
            (serve x (fun k => k matches .creplace _ _ _) (fun v n => v.applyReplace slot n)
              (serve x (fun k => k matches .calight _ _) (fun v n => v.applyAlight slot x n) u)))))) ∧
      (∀ q d k, s.cycle / 4 = q → max s.rides (4 * q) = 4 * q + d → d < 4 → k < 4096 →
        (k + 1024 * d) % 4096 = q % 4096 → s.nextPassage = some (d, k) ∧ s.rode.rides = 4 * q + d + 1) ∧
      ∀ n o x, SMap.get? s.eops n = some o → SMap.get? s.slots slot = some x →
        (∀ name, o.kind = .calight none name →
          s.applyAlight slot x n = State.endEop { s with slots := SMap.del s.slots slot } n 0 x.version) ∧
        (∀ off name, o.kind = .ccatch off name → s.applyCatch slot n = s.modEop n fun o =>
          { o with staged := x.bytes, undelivered := List.range 128, outcome := some (0, x.version), applied := true }) ∧
        (∀ src m name, o.kind = .creplace src m name → x.version = 0xFFFF → s.applyReplace slot n = s.endEop n 0x04 0) ∧
        (∀ src m name, o.kind = .creplace src m name → x.version ≠ 0xFFFF →
          let old := fun i => SMap.getD x.bytes i 0
          let new := fun i => SMap.getD o.staged i 0
          let keep := fun i => m.isSome && !((SMap.getD o.staged (16384 + i / 8) 0).getLsbD (i % 8))
          let next : Tile :=
            { x with version := x.version + 1, bytes := (List.range 16384).map fun i => (i, if keep i then old i else new i) }
          s.applyReplace slot n = State.endEop { s with slots := SMap.put s.slots slot next } n 0 (x.version + 1)))

/-- Hoists, collectives and DFLIP as they issue (R273, R290 to R292, R299, R403): each checks its operands and ranges, reserves
the shadow lines of a G destination and clears the presence of an S destination; a member of a collective joins the next
joining of its group, which is checked once all have issued; DFLIP joins what its lot defers. That HSCATTER with a G destination
reserves n times (L + 239) div 128 lines is the model's reading of 'every line a range touches' (log 48). -/
def Obligations.HoistWords : Prop :=
  ∀ (s : State) (e : EngMods) (sp dp : ESp) (ty : Ty) (n0 n1 n2 grp : BitVec 16) (p1 p2 : BitVec 32) (rlen rank sm : BitVec 8)
    (op : COp) (d a b c : Opd), s.iss.faults = [] →
    let adr := fun (u : State) t (k : ESp) (o : Opd) =>
      if k = .S ∨ k = .W then (u.rd t (regNum o)).toNat else (u.rd64 t (regNum o)).toNat
    (∀ u, s.runs (fun u t => match u.src t 32 c with
        | .ok len =>
          let x := adr u t sp a
          let y := adr u t dp b
          if x % 16 ≠ 0 ∨ y % 16 ≠ 0 ∨ len % 16 ≠ 0 ∨ len = 0 ∨ u.engRange t sp x len false = false ∨
              u.engRange t dp y len true = false then none
          else u.hoists_ t e d (.hcopy sp x dp y len) (List.range (len / 16)) (if dp = .G then (linesOf y len).length else 0) Prod.snd
        | .error _ => none) = some u → exec (.hcopy e sp dp d a b c) s = .next (u.cut s.issLaunch)) ∧
    (∀ u, s.runs (fun u t =>
        let f := layoutFields (u.layoutWord t (regNum a))
        let w := tyBits ty / 8
        let mp := if sp = .S then dp else sp
        let m := adr u t mp b
        let c0 := n0.toNat + 1
        let c1 := n1.toNat + 1
        let c2 := n2.toNat + 1
        if m % w ≠ 0 ∨ f.1 % w ≠ 0 ∨ (1 < c0 ∧ f.2.1 % w ≠ 0) ∨ (1 < c1 ∧ f.2.2.1 % w ≠ 0) ∨ (1 < c2 ∧ f.2.2.2.1 % w ≠ 0) ∨
            p1.toNat % w ≠ 0 ∨ p2.toNat % w ≠ 0 ∨ 2 ^ 52 ≤ m ∨ 2 ^ 23 ≤ f.1 ∨
            (u.crewOf t).sSize < f.1 + n0.toNat * f.2.1 + n1.toNat * f.2.2.1 + n2.toNat * f.2.2.2.1 + w then none
        else u.hoists_ t e d (.hlayout (sp == .S) f.2.2.2.2 f.1 f.2.1 f.2.2.1 f.2.2.2.1 mp m w c0 c1 c2 p1.toNat p2.toNat)
          (layoutUnits (layoutMoves (sp == .S) f.2.2.2.2 f.1 f.2.1 f.2.2.1 f.2.2.2.1 m w c0 c1 c2 p1.toNat p2.toNat))
          (if sp = .S ∧ mp = .G then layoutMemLines m w c0 c1 c2 p1.toNat p2.toNat else 0) Prod.snd) = some u →
      exec (.hlayout e sp dp ty n0 n1 n2 p1 p2 d a b) s = .next (u.cut s.issLaunch)) ∧
    (∀ u, s.runs (fun u t => match u.src t 32 c with
        | .ok n =>
          let idx := (u.rd t (regNum a)).toNat
          let dat := (u.rd t (regNum a + 1)).toNat
          let x := adr u t sp b
          let l := 16 * (rlen.toNat + 1)
          if idx % 4 ≠ 0 ∨ dat % 16 ≠ 0 ∨ x % 16 ≠ 0 ∨ n = 0 ∨ (u.crewOf t).sSize < idx + 4 * n ∨
              (u.crewOf t).sSize < dat + n * l ∨ u.engRange t sp x l false = false then none
          else u.hoists_ t e d (.hgather sp idx dat x n l) (List.range (n * (l / 16))) 0 Prod.snd
        | .error _ => none) = some u → exec (.hgather e sp rlen d a b c) s = .next (u.cut s.issLaunch)) ∧
    (∀ u, s.runs (fun u t => match u.src t 32 c with
        | .ok n =>
          let idx := (u.rd t (regNum a)).toNat
          let dat := (u.rd t (regNum a + 1)).toNat
          let x := adr u t dp b
          let l := 16 * (rlen.toNat + 1)
          if idx % 4 ≠ 0 ∨ dat % 16 ≠ 0 ∨ x % 16 ≠ 0 ∨ n = 0 ∨ (u.crewOf t).sSize < idx + 4 * n ∨
              (u.crewOf t).sSize < dat + n * l ∨ u.engRange t dp x l true = false then none
          else u.hoists_ t e d (.hscatter dp idx dat x n l) (List.range (n * (l / 16)))
            (if dp = .G then n * ((l + 239) / 128) else 0) Prod.snd
        | .error _ => none) = some u → exec (.hscatter e dp rlen d a b c) s = .next (u.cut s.issLaunch)) ∧
    (∀ u, s.runs (fun u t => match u.src t 32 c with
        | .ok n =>
          let x := adr u t sp a
          let y := adr u t dp b
          let size := sm.toNat + 1
          let key := (u.ctxIdOf t * 65536 + grp.toNat) * 256 + rank.toNat
          let inst := SMap.getD u.collInst key 0
          let out := if op = .allgat then 4 * n * size else 4 * n
          let inb := if op = .redsct then 4 * n * size else 4 * n
          if x % 16 ≠ 0 ∨ y % 16 ≠ 0 ∨ n = 0 ∨ u.groupOf (u.ctxIdOf t) grp.toNat = none ∨ u.engRange t sp x inb false = false ∨
              u.engRange t dp y out true = false then none
          else u.hoists_ t e d (.hcoll op sp x dp y n ty grp.toNat rank.toNat size inst) (List.range (ceilDiv inb 16))
            (if dp = .G then (linesOf y out).length else 0) fun r =>
              State.collCheck { r.2 with collInst := SMap.put r.2.collInst key (inst + 1) }
                { ctx := u.ctxIdOf t, grp := grp.toNat, inst := inst, rank := rank.toNat, count := n, op := op, ty := ty, size := size,
                  data := [] }
        | .error _ => none) = some u → exec (.hcoll op e sp dp ty grp rank sm d a b c) s = .next (u.cut s.issLaunch)) ∧
    ∀ u, s.runs (fun u t => match u.src t 32 c with
        | .ok out =>
          let x := (u.rd64 t (regNum a)).toNat
          if x % 256 ≠ 0 ∨ 2 ^ 52 ≤ x ∨ 3 < out ∨ u.feat t 7 = false then none
          else u.opens t e d (fun _ => none) fun v =>
            let r := v.addEop t e d (.dflip sp x (u.rd64 t (regNum b)) out)
            r.2.modLaunch (r.2.launchIdOf t) fun y => { y with deferred := y.deferred ++ [.flip r.1] }
        | .error _ => none) = some u → exec (.dflip e sp d a b c) s = .next u

/-- What an engine operation does after its issue (R39, R273, R274, R289 to R291, R356, R403, R445): a hoist that its core neither serves nor
takes into service moves nothing; a unit that is still to be moved is read at
the source, written at the destination, and its line becomes present; an operation with an outcome writes its status
where its word asked for it, then drops its token, and is gone; a completion word is charged its bytes, and waits for its page and
for a device that may write it. -/
def Obligations.EngineOperations : Prop :=
  ∀ (s : State) (n u : Nat) (o : EOp), SMap.get? s.eops n = some o →
    (o.undelivered.contains u = false → exec (.engineLineDelivery n u) s = .next s) ∧
    (o.kind.hoist = true → o.serving = false → s.entersService o = false → exec (.engineLineDelivery n u) s = .next s) ∧
    (∀ sp src dp dst len v data c1 w c2, o.kind = .hcopy sp src dp dst len → o.undelivered.contains u = true → o.serving = true →
      s.engRead n o sp (src + 16 * u) 16 (s.destLines o.crew o.kind) = .ok v data c1 →
      v.engWrite n o dp (dst + 16 * u) data = .ok w c2 →
      exec (.engineLineDelivery n u) s = .next ((w.unitDone n u true).chargeBytes o.launch (c1 + c2))) ∧
    (∀ src dst len, o.kind = .hcopy .S src .S dst len → o.undelivered.contains u = true → o.serving = true → (s.crewAt o.crew).away = false →
      s.mem.wf = true → unbounded (s.launchAt o.launch).lrec.boundb = true →
      (s.absentIn (locScratch (s.crewAt o.crew).core ((s.crewAt o.crew).sBase + (src + 16 * u))) 16).all
        (s.destLines o.crew o.kind).contains = true →
      ∃ t, exec (.engineLineDelivery n u) s = .next t ∧
        ∀ i, i < 16 →
          t.mem.read (locScratch (s.crewAt o.crew).core ((s.crewAt o.crew).sBase + (dst + 16 * u)) + i) =
            s.mem.read (locScratch (s.crewAt o.crew).core ((s.crewAt o.crew).sBase + (src + 16 * u)) + i)) ∧
    (∀ off name, o.kind = .ccatch off name ∨ o.kind = .calight (some off) name → o.undelivered.contains u = true →
      (s.crewAt o.crew).away = false →
      exec (.engineLineDelivery n u) s = .next (State.unitDone { s with
        mem := s.mem.writeN (locScratch (s.crewAt o.crew).core ((s.crewAt o.crew).sBase + (off + 128 * u)))
          ((List.range 128).map fun i => SMap.getD o.staged (128 * u + i) 0) } n u false)) ∧
    (o.outcome = none ∨ o.undelivered ≠ [] → exec (.engineCompletion n) s = .next s) ∧
    ∀ code version, o.outcome = some (code, version) → o.undelivered = [] →
      let w : Word := BitVec.ofNat 32 (2 ^ 31 + code * 2 ^ 24 + version)
      let ends := fun (v : State) => ((v.deliverOpt o.result [w]).dropToken o w).dropEop n o
      (o.word = none → exec (.engineCompletion n) s = .next (ends s)) ∧
      ∀ va, o.word = some va →
        (∀ v, s.devWriteFor o.launch (.eop n) (o.core / 32) o.ctx va.toNat (bytesOf 4 w.toNat) = .done v →
          exec (.engineCompletion n) s = .next (ends (v.chargeBytes o.launch 4))) ∧
        (∀ v, s.devWriteFor o.launch (.eop n) (o.core / 32) o.ctx va.toNat (bytesOf 4 w.toNat) = .waits v →
          exec (.engineCompletion n) s = .next v)

/-- LABORT and LOTQ (R286 to R288): LABORT ends the lot with STATUS 0x04 and its code, and its shadow and deferred words go with
it; that only a cut at the deadline returns what the lot has reserved of the calendar is the model's reading (log 41). LOTQ tells whether a lot runs, is ready, has committed or has ended otherwise. -/
def Obligations.LotWords : Prop :=
  ∀ (s : State) (code : BitVec 8) (d a : Opd) (v : Nat → Nat),
    (∀ t ts, s.iss.lanes = t :: ts → exec (.labort code) s = .next (s.abortLot (s.launchIdOf t) 0x04 0 code.toNat false)) ∧
    (∀ l cause st, (s.launchAt l).status.open_ = true → (SMap.get? s.launches l).isSome = true →
      (s.abortLot l st cause code.toNat false).launchAt l = { s.launchAt l with
        status := .aborted st cause code.toNat, shadow := [], lines := [], reserved := 0, deferred := [], draw := none,
        resv := if st = 5 then (s.launchAt l).resv.filter (fun r => decide (r.1 ≤ s.now / 1024)) else (s.launchAt l).resv,
        ending := if s.enginesBusy l then some (st, cause, code.toNat) else none }) ∧
    (∀ l cause st, (s.launchAt l).status.open_ = true → ∀ t, (s.crewOf t).launch = l → (SMap.get? s.threads t).isSome →
      (SMap.get? s.crews (s.thr t).crew).isSome → ((s.abortLot l st cause code.toNat false).thr t).live = false) ∧
    (s.iss.faults = [] → s.Reads 32 a v →
      let ans := fun t =>
        let lot := BitVec.ofNat 32 (v t)
        match SMap.find s.launches (fun _ x => x.ctx == s.ctxIdOf t && x.lot == lot && x.lot != 0 && x.status.open_) with
        | some (_, x) => [if x.status = .ready then 2 else 1, BitVec.ofNat 32 (ceilDiv x.lines.length 512)]
        | none => (match (s.ctxOf t).history.find? (fun h => h.1 == lot) with
          | some (_, st) => if st = 0 then [3, 0] else [BitVec.ofNat 32 (4 + 256 * st), 0]
          | none => [0, 0])
      exec (.lotq d a) s = .next (s.each fun u t => u.trackVals t (seqWords (regNum d) (ans t)) (some 64)))

/-- Launches and queues (R218, R346 to R350, R354, R357, R359, R426): LAUNCH copies a record of an enabled queue of its context into
the next slot of the ring, which also leaves for a slot in a peer's memory, and its status comes at once where the ring is full or
the word is deferred; the host's writes to QDOOR, QCFG and QCHEAD; a record is taken in ticket order and a deferred one waits for
its lot. When the checks of a LAUNCH come in their order, how a deferred record is reported, that the entry of a refused or discarded record
has ATTEMPT 0, and when a disabled queue is cleared are the model's choices (logs 38, 39, 40, 42). -/
def Obligations.LaunchAndQueues : Prop :=
  (∀ (s : State) (defer : Bool) (d a : Opd) (queue : BitVec 10), s.iss.faults = [] → ∀ u, s.runs (fun u t =>
      let q := queue.toNat
      let x := u.queueAt q
      let slot := x.sub + BitVec.ofNat 64 (64 * (x.door.toNat % 2 ^ x.sublog))
      if (u.rd64 t (regNum a)).toNat % 64 ≠ 0 ∨ x.ctx ≠ u.ctxIdOf t ∨ x.en = false then none
      else match u.reachVirt t (u.rd64 t (regNum a)) 64 .D .read with
        | .ok v loc _ _ =>
          if v.busy t = true then none
          else if (x.door - x.head).toNat = 2 ^ x.sublog then some (v.trackVals t (seqWords (regNum d) [3, 0, 0, 0]) none)
          else (match v.reachVirt t slot 64 .D .write with
            | .ok w dst _ _ =>
              let rec64 := w.mem.readN loc 64
              let n := w.noteReads t [(loc, 64)]
              let out := State.peerSend { n with mem := n.mem.writeN dst rec64 } (n.launchIdOf t) dst fun p => .write p rec64
              let z := (out.modQueue q fun y => { y with door := y.door + 1 }).addBytes t 128
              if defer then
                let y := z.modQueue q fun y => { y with deferred := SMap.put y.deferred x.door.toNat (z.launchIdOf t) }
                some ((y.modLaunch (y.launchIdOf t) fun l => { l with
                  deferred := l.deferred ++ [.launch q x.door.toNat] }).trackVals t
                  (seqWords (regNum d) [2, BitVec.ofNat 32 x.door.toNat, 0, 0]) none)
              else
                let r := z.track t ((List.range 4).map fun i => .v (regNum d + i)) none none
                some (r.2.modQueue q fun y => { y with asks := SMap.put y.asks x.door.toNat r.1 })
            | _ => none)
        | _ => none) = some u → exec (.launch defer d a queue) s = .next (u.cut s.issLaunch)) ∧
  ∀ (s : State) (q : Nat) (v : Word),
    let x := s.queueAt q
    let deaf := s.dev.dstate = .sounding ∨ s.dev.dstate = .safe ∨ 1024 ≤ q
    (deaf → exec (.qdoor q v) s = .next s ∧ exec (.qcfgWrite q v) s = .next s ∧ exec (.qchead q v) s = .next s) ∧
    (¬ deaf → exec (.qdoor q v) s = .next (s.modQueue q fun y => { y with door := v })) ∧
    (¬ deaf → x.en = true → v.getLsbD 31 = true → exec (.qcfgWrite q v) s = .next s) ∧
    (¬ deaf → x.en = true → v.getLsbD 31 = false →
      exec (.qcfgWrite q v) s = .next ((s.dropWaits (.queue q)).modQueue q fun y => { y with en := false, fallRec := none, fallWant := [] })) ∧
    (¬ deaf → x.en = false →
      let n := v.toNat
      let u := s.modQueue q fun y => { y with
        kill := v.getLsbD 30, prio := n / 2 ^ 27 % 8, dclass := n / 2 ^ 24 % 8, replay := n / 2 ^ 20 % 16,
        sublog := n / 2 ^ 16 % 16, cpllog := n / 2 ^ 12 % 16 }
      let ok := 4 ≤ n / 2 ^ 16 % 16 ∧ 4 ≤ n / 2 ^ 12 % 16 ∧ x.sub.toNat % 64 = 0 ∧ x.cpl.toNat % 32 = 0
      (v.getLsbD 31 = false ∨ ¬ ok → exec (.qcfgWrite q v) s = .next u) ∧
      (v.getLsbD 31 = true → ok → x.fall = 0 →
        exec (.qcfgWrite q v) s = .next (u.modQueue q fun y => { y with en := true, fallRec := none }))) ∧
    (¬ deaf → x.held = [] → exec (.qchead q v) s = .next (s.modQueue q fun y => { y with chead := v })) ∧
    (x.en = false ∨ x.door = x.head ∨ s.queueOpen q = false ∨ s.pendingIn q = true →
      exec (.recordTake q) s = .next s) ∧
    (x.en = true → x.door ≠ x.head → s.queueOpen q = true → s.pendingIn q = false →
      (∀ l, SMap.get? x.deferred x.head.toNat = some l →
        ((s.launchAt l).status.open_ = true → exec (.recordTake q) s = .next (s.modQueue q fun y => { y with blocked := true })) ∧
        ((s.launchAt l).status = .committed → (s.launchAt l).deferred.contains (.launch q x.head.toNat) = true →
          exec (.recordTake q) s = .next (s.modQueue q fun y => { y with blocked := true })) ∧
        (∀ st ca co, (s.launchAt l).status = .aborted st ca co →
          exec (.recordTake q) s = .next ((s.consume q).postEntry q (noLotEntry 1 5 0 x.head.toNat 0 s.rtime)))) ∧
      (SMap.get? x.deferred x.head.toNat = none →
        let rd := (s.rdAt (.queue q) x.ctx .D (x.sub.toNat + 64 * (x.head.toNat % 2 ^ x.sublog)) 64).next fun u b => u.rdRecord q b
        (∀ u, rd = .waits u → exec (.recordTake q) s = .next (u.modQueue q fun y => { y with blocked := true })) ∧
        (∀ c, rd = .bad c → exec (.recordTake q) s = .next (((s.answerLaunch q x.head.toNat [4, 0, 0, 0]).consume q).postEntry q
          (noLotEntry 0 7 c x.head.toNat 0 s.rtime))) ∧
        ∀ u r, rd = .ok u r → (u.queueAt q).dclass = 0 → exec (.recordTake q) s =
          .next (((u.addLaunch q x.head.toNat r.lrec r.ext 0 false).2.reportAccept q x.head.toNat 0 false).modQueue q fun y =>
            { y with blocked := true })))

/-- Admission and placement (R283, R338, R357, R359, R362 to R366): the first launch of a queue's order is admitted once a
lot slot and its quota are free, with a lot number that is not 0 and what its queue's QCFG holds then, and waits otherwise; an accepted plan takes its
amounts from the calendar; a fallback starts in the epoch after the cut, and one of class 0 holds no reservation; the crews of a
launch whose turn it is are placed together where there is room, a replayed draw once its tables have been read anew. How clusters
are seated (log 44), what the victims of a placement are (log 104), what of the record an admission and a fallback take (logs 41,
42), and that a replayed draw whose tables are no longer valid ends with STATUS 0x07 (log 116) are the model's choices.
Eviction and restoring (R275, R303, R365, R381 to R383): a crew whose save is complete, with what its threads have sent performed
and nothing still to be delivered into its scratchpad, is evicted with the image of that, and nothing but its context's save area is
written (that it is HBM from SAVEBASE on, and restored from the model's own copy, is the model's choice, log 37);
the oldest evicted crew comes back with its cluster where there is room (log 95); crews that have long waited, of whatever launch,
give way to one that has been evicted for 2,000 ticks (who they are, and that they come before other victims: log 104). -/
def Obligations.LaunchesAndCrews : Prop :=
  (
    (∀ (s : State) (l slot : Nat), s.freeSlot = some slot → s.queueOpen (s.launchAt l).queue = true →
      s.waiting.find? (fun k => (s.launchAt k).queue == (s.launchAt l).queue) = some l →
      (s.poolFits (s.launchAt l).lrec.quota = false → exec (.launchAdmission l) s = .next s) ∧
      (s.poolFits (s.launchAt l).lrec.quota = true → (SMap.get? s.launches l).isSome →
        ∃ u, exec (.launchAdmission l) s = .next u ∧ (u.launchAt l).status = .running ∧ (u.launchAt l).lot ≠ 0 ∧
          (u.launchAt l).slot = slot ∧ l ∉ u.waiting ∧ u.nextLot = (u.launchAt l).lot ∧ u.mem = s.mem ∧
          (u.launchAt l).prio = (s.queueAt (s.launchAt l).queue).prio ∧ (u.launchAt l).kill = (s.queueAt (s.launchAt l).queue).kill ∧
          (u.launchAt l).dclass = (s.queueAt (s.launchAt l).queue).dclass)) ∧
    (∀ (s : State) (l : Nat), s.freeSlot = none →
      s.waiting.find? (fun k => (s.launchAt k).queue == (s.launchAt l).queue) = some l → s.queueOpen (s.launchAt l).queue = true →
      exec (.launchAdmission l) s = .next s) ∧
    (∀ (s : State) (l d : Nat) (plan : List (Nat × Nat × Nat)) (k : Nat), (plan.map Prod.fst).Nodup → k % 8 = d → d < 8 →
      SMap.getD (s.reserve l d plan).calendar k (0, 0) =
        (match plan.find? (fun e => e.1 == k / 8) with
         | some e => ((SMap.getD s.calendar k (0, 0)).1 + e.2.1, (SMap.getD s.calendar k (0, 0)).2 + e.2.2)
         | none => SMap.getD s.calendar k (0, 0))) ∧
    (∀ (s : State) (q slot ticket : Nat) (t : DWord) (rest : List (DWord × Nat)) (r : LRec) (e : ExtRec),
      (s.queueAt q).fallWant = (t, ticket) :: rest → (s.queueAt q).fallRec = some (r, e) → s.freeSlot = some slot →
      s.poolFits r.quota = true → s.dev.dstate = .ready → (t.toNat - 3072) / 1024 < s.now / 1024 →
      let u := (s.modQueue q fun y => { y with fallWant := rest }).addLaunch q ticket { r with deadline := t } e 0 true
      exec (.fallbackAdmission q) s = .next ((u.2.modLaunch u.1 fun y => { y with
        resv := if y.dclass = 0 then [] else [(s.now / 1024, r.boundc.toNat, r.boundb.toNat)],
        recs := [{ r with deadline := t }] }).admitLot u.1 slot)) ∧
    (∀ (s : State) (q : Nat), (s.queueAt q).fallWant = [] ∨ s.freeSlot = none → exec (.fallbackAdmission q) s = .next s) ∧
    ∀ (s : State) (c : Nat),
      let l := (s.crewAt c).launch
      let units := s.nextClusters l
      (c ∉ units.flatMap id ∨ s.placeable l = false ∨ s.placeTurn l = false → exec (.crewPlacement c) s = .next s) ∧
      ((s.launchAt l).ext.draw = none ∨ (s.launchAt l).ext.rdesc ≠ none → s.rdAgain l = .ok s ()) ∧
      (∀ v u, c ∈ units.flatMap id → s.placeable l = true → s.placeTurn l = true → s.rdAgain l = .ok v () →
        v.seatClusters units = some u →
        let t := (units.flatMap id).foldl State.startCrew u
        exec (.crewPlacement c) s = .next (if (t.launchAt l).lrec.draw then t.startDraw l else t)) ∧
      (∀ v, c ∈ units.flatMap id → s.placeable l = true → s.placeTurn l = true → s.rdAgain l = .ok v () → v.seatClusters units = none →
        exec (.crewPlacement c) s = .next (match firstEnough (fun vs => ((v.without vs).seatClusters units).isSome) [] (v.victims l) with
          | some vs => v.beginEvict vs
          | none => v)) ∧
      (∀ v, c ∈ units.flatMap id → s.placeable l = true → s.placeTurn l = true → s.rdAgain l = .waits v →
        exec (.crewPlacement c) s = .next v) ∧
      ∀ co, c ∈ units.flatMap id → s.placeable l = true → s.placeTurn l = true → s.rdAgain l = .bad co →
        exec (.crewPlacement c) s = .next ((s.dropWaits (.launch l)).abortLot l 0x07 co 0 false)) ∧
  (
    ∀ (s : State) (c : Nat),
      let x := s.crewAt c
      (let v := (s.drain fun t _ => (s.thr t).crew == c).landNear x.core
       let k := s.ctxAt (v.launchAt (v.crewAt c).launch).ctx
       SMap.sorted v.threads = true → v.mem.wf = true → x.status = .saving → (SMap.get? v.crews c).isSome = true →
        (∀ o ∈ SMap.vals s.eops, s.delivering c o = false) →
        (∀ y ∈ SMap.vals v.stores, (s.thr y.thread).crew ≠ c) → (∀ y ∈ SMap.vals v.rmws, (s.thr y.thread).crew ≠ c) →
        ∃ u, exec (.evictionSaveComplete c) s = .next u ∧ (u.crewAt c).status = .evicted ∧ (u.crewAt c).away = true ∧
          (u.crewAt c).saved = v.mem.readN (locScratch x.core x.sBase) x.sSize ∧ (u.crewAt c).evictedAt = v.now ∧
          (∀ a, a < k.saveBase.toNat ∨ k.saveBase.toNat + k.saveSize.toNat ≤ a → u.mem.read a = v.mem.read a) ∧
          ∀ t, (v.thr t).crew ≠ c → u.thr t = v.thr t) ∧
      (x.status ≠ .saving ∨ (∃ o ∈ SMap.vals s.eops, s.delivering c o = true) → exec (.evictionSaveComplete c) s = .next s) ∧
      (c ∉ s.clusterEvicted c ∨ s.dev.dstate ≠ .ready ∨ s.olderEvicted c = true → exec (.crewRestore c) s = .next s) ∧
      (c ∈ s.clusterEvicted c → s.dev.dstate = .ready → s.olderEvicted c = false →
        ∀ cores u, s.restoreCores (s.clusterEvicted c) = some cores →
          ((s.clusterEvicted c).zip cores).foldl (fun (r : Option State) cc => r.bind fun v => v.seatCrew cc.1 cc.2) (some s) = some u →
          exec (.crewRestore c) s = .next ((s.clusterEvicted c).foldl (fun t k => t.reviveCrew k (s.crewAt k).core) u)) ∧
      (∀ (u : State) (old : Nat), u.mem.wf = true → (u.crewAt c).saved.length = (u.crewAt c).sSize → (SMap.get? u.crews c).isSome → ∀ i, i < (u.crewAt c).sSize →
        (u.crewAt c).haltAsked = false →
        (u.reviveCrew c old).mem.read (locScratch (u.crewAt c).core (u.crewAt c).sBase + i) = (u.crewAt c).saved.getD i 0) ∧
      (x.status ≠ .evicted ∨ s.now < x.evictedAt + 2000 → exec (.restoreWaitTimeout c) s = .next s) ∧
      (x.status = .evicted → x.evictedAt + 2000 ≤ s.now →
        exec (.restoreWaitTimeout c) s = .next (match firstEnough (fun l => (s.without l).restorable c) [] (s.victims x.launch) with
          | some l => s.beginEvict l
          | none => s)) ∧
      (SMap.sorted s.crews = true → ∀ l, ∀ k ∈ s.victims l, (s.crewAt k).status = .resident ∧
        s.reserved (s.crewAt k).launch = false ∧
        ((s.crewAt k).launch ≠ l ∨ (s.longWait k = true ∧ ∃ e ∈ SMap.vals s.crews, e.status = .evicted ∧ e.evictedAt + 2000 ≤ s.now)) ∧
        ∀ m ∈ s.clusterOf (s.crewAt k).launch (s.crewAt k).cluster, (s.crewAt m).halted = false))

/-- The end of lots (R283, R284, R315, R339, R361): a lot whose deadline has been reached is cut with cause 5; the first ready lot at
the sequencer commits its bytes and becomes the last of those committed, or ends with cause 6 where a lot committed since its
start wrote a byte it wrote; reads of what it wrote that later ones have overtaken come before it (R315); the dresser folds a line of a committed lot after those that committed before it in the line's
slice, which changes no byte. That a class-0 launch still waiting for admission is cut at its deadline, that a ready lot past it is
not committed (log 45), and when deferred words and flips have their effect (logs 102, 109) are the model's choices. -/
def Obligations.EndOfLots : Prop :=
  ∀ (s : State) (l line : Nat),
    let x := s.launchAt l
    let due := x.lrec.deadline ≠ 0xFFFFFFFFFFFFFFFF ∧ x.status.open_ = true ∧
      (if x.dclass = 0 then x.lrec.deadline.toNat ≤ s.now else x.status ≠ .ready ∧ x.lrec.deadline.toNat ≤ s.now + 1024)
    let hit := x.lrec.layered = false ∧ ∃ m ∈ SMap.vals s.launches, m.status = .committed ∧
      x.started.getD 0 < m.committedAt ∧ ∃ kv ∈ x.shadow, (SMap.get? m.shadow kv.1).isSome = true
    (due → exec (.deadlineCut l) s = .next (s.abortLot l 0x05 0 0 false)) ∧
    (¬ due → exec (.deadlineCut l) s = .next s) ∧
    (s.dev.dstate = .ready → x.status = .ready → ¬ due → s.firstAtSequencer l = true → ¬ hit →
      let v := s.landOvertaken l
      ((v.launchAt l).status = .ready → exec (.lotCommit l) s = .next (v.commitLot l) ∧ ((v.commitLot l).launchAt l).status = .committed ∧
        ((v.commitLot l).launchAt l).committedAt = v.commits.length + 1 ∧ (v.commitLot l).commits = v.commits ++ [l]) ∧
      ((v.launchAt l).status ≠ .ready → exec (.lotCommit l) s = .next v)) ∧
    (s.dev.dstate = .ready → x.status = .ready → ¬ due → s.firstAtSequencer l = true → hit →
      exec (.lotCommit l) s = .next (s.abortLot l 0x06 0 0 true)) ∧
    (s.dev.dstate = .ready → x.status = .committed → exec (.lotCommit l) s = .next (State.performDeferred l s x.deferred)) ∧
    (s.dev.dstate ≠ .ready ∨ (x.status ≠ .ready ∧ x.status ≠ .committed) ∨
        (x.status = .ready ∧ (due ∨ s.firstAtSequencer l = false)) →
      exec (.lotCommit l) s = .next s) ∧
    (s.mem.wf = true → SMap.sorted x.shadow = true →
      ∀ loc, (s.mem.fold x.shadow).read loc = SMap.getD x.shadow loc (s.mem.read loc)) ∧
    (let turn := ∀ y ∈ SMap.vals s.launches, y.status = .committed → y.committedAt < x.committedAt →
       ∀ ln ∈ y.lines, sliceOf (128 * ln) ≠ sliceOf (128 * line)
     (x.status = .committed → line ∈ x.lines → turn →
       exec (.dresserFold l line) s = .next (s.modLaunch l fun y => { y with lines := x.lines.filter (· ≠ line) })) ∧
     (x.status ≠ .committed ∨ line ∉ x.lines ∨ ¬ turn → exec (.dresserFold l line) s = .next s))

/-- What the scheduler watches (R101, R392, R368, R369, R373 to R375): starvation, launches behind their reservations, congestion,
the watchdog with its resumption, a batch's 2,000 ticks, and a fetch that misses, fails its translation, or was refused to some lanes. The state of
congestion is the model's own: a free value stands for the marks (log 71). That the lanes whose fetch the host has refused fault
before the gang fetches (log 100), and which waits the watchdog takes for outside ones (log 81), are the model's choices too. -/
def Obligations.SchedulerWatches : Prop :=
  ∀ (s : State) (g ctx die : Nat),
    (s.gangReady g = true → (s.gangAt g).lastIssue + 4096 ≤ s.cycle →
      exec (.starvationPromotion g) s = .next (s.modGang g fun x => { x with promoted := true })) ∧
    (s.gangReady g = false ∨ s.cycle < (s.gangAt g).lastIssue + 4096 → exec (.starvationPromotion g) s = .next s) ∧
    (∃ u, exec .behindTest s = .next u ∧ u.mem = s.mem ∧ u.threads = s.threads ∧ u.crews = s.crews ∧ ∀ l x,
      SMap.get? s.launches l = some x → SMap.get? u.launches l = some { x with
        behind := x.status == .running && decide (x.charge * 1024 < 16 * (
          ((x.resv.filter fun r => decide (r.1 < s.now / 1024)).map fun r => r.2.1).sum * 1024 +
          ((x.resv.filter fun r => r.1 == s.now / 1024).map fun r => r.2.1).sum * (s.now % 1024))) }) ∧
    (∃ u, exec .congestionSample s = .next u ∧ u.mem = s.mem ∧ u.threads = s.threads ∧ u.launches = s.launches ∧
      ∀ c, (s.crewAt c).core < 128 → (u.crewAt c).words = 0 ∧ (u.crewAt c).status = (s.crewAt c).status) ∧
    (let c := s.ctxAt ctx
     let fires := c.exists_ = true ∧ c.stopped = false ∧ c.progress + c.wdog.toNat ≤ s.now ∧
       (∀ kv ∈ s.crews, kv.2.halted = true → kv.2.status ≠ .ended → (s.launchAt kv.2.launch).ctx ≠ ctx) ∧
       ∃ t ∈ s.ctxThreads ctx, s.waitsOutside t = false
     (fires → exec (.watchdogFire ctx) s = .next (((s.modCtx ctx fun x => { x with stopped := true }).count 9).raiseCtx ctx false)) ∧
     (¬ fires → exec (.watchdogFire ctx) s = .next s) ∧
     (c.stopped = true → exec (.contextResume ctx) s = .next (s.modCtx ctx fun x => { x with stopped := false, progress := s.now })) ∧
     (c.stopped = false → exec (.contextResume ctx) s = .next s)) ∧
    (∀ b, s.batches.find? (fun b => b.die == die && !b.sent) = some b →
      (b.first + 2000 ≤ s.now →
        let u := { s with batches := modBatch s.batches die b.num fun x => { x with sent := true } }
        exec (.residencyBatchTimeout die) s = .next (u.writeBatches die u.batches)) ∧
      (s.now < b.first + 2000 → exec (.residencyBatchTimeout die) s = .next s)) ∧
    ∀ a t ts, s.issueAt g = some (a, t :: ts) → s.gangReady g = true →
      (∀ c, (∀ u ∈ t :: ts, s.fetchRefused u a = none) → s.fetchAt (s.coreOf t) (s.ctxIdOf t) a = .bad c →
        exec (.fetchTranslationFault g) s = .next (s.takeFault g 0xFF 0 ((t :: ts).map fun u => (u, c, a)))) ∧
      ((∀ u ∈ t :: ts, s.fetchRefused u a = none) → s.fetchAt (s.coreOf t) (s.ctxIdOf t) a = .miss →
        exec (.fetchTranslationFault g) s = .next ((t :: ts).foldl (fun v u => v.parkMiss u a.toNat .fetch .code true) s)) ∧
      ((∃ u ∈ t :: ts, (s.fetchRefused u a).isSome = true) → exec (.fetchTranslationFault g) s =
        .next (s.takeFault g 0xFF 0 ((t :: ts).filterMap fun u => (s.fetchRefused u a).map fun ea => (u, .xlate, ea))))

/-- The fixed functions of a draw (R241, R243, R248, R254, R255, R341 to R344, R408 to R415, R467): making elements, which take
their bytes together (how a quad or a grid that has no room does is the model's choice, log 98), and the stall limit; a primitive that is sampled, discarded or waits; a sample that is tested and blended, or not written; and the
writing of the targets when nothing of the draw is left. -/
def Obligations.DrawEvents : Prop :=
  ∀ (s : State) (l r i p : Nat),
    (∀ c, SMap.get? s.creations r = some c → c.failed = false → (s.crewAt c.crew).status = .resident →
      (c.cause.isSome = true → c.granted = false → s.creationFits r c = true →
        let v := s.takeBytes c
        exec (.elementCreation r) s = .next { v with
          creations := SMap.put v.creations r { c with protos := s.together c, granted := true } }) ∧
      (c.cause = none → s.readyToMake c = false → exec (.elementCreation r) s = .next s) ∧
      (c.cause = none → s.readyToMake c = true → (s.resolved c).granted = false → s.heldBack r (s.resolved c) = true →
        exec (.elementCreation r) s = .next s) ∧
      (c.cause = none → s.readyToMake c = true → (s.resolved c).granted = false → s.heldBack r (s.resolved c) = false →
        s.creationFits r (s.resolved c) = true →
        let d := s.resolved c
        let w := { d with protos := s.together d, granted := true }
        let v := s.takeBytes d
        exec (.elementCreation r) s = .next (State.makeFrom (State.askRest { v with creations := SMap.put v.creations r w } d
          (s.together d).length) r w)) ∧
      (c.cause = none → s.readyToMake c = true → (s.resolved c).granted = false → s.heldBack r (s.resolved c) = false →
        s.creationFits r (s.resolved c) = false → (s.resolved c).attempted = false → exec (.elementCreation r) s = .next { s.take.2 with
          creations := SMap.modify s.creations r fun c => { c with attempted := true, since := s.now, turn := s.take.1 } })) ∧
    (∀ c, SMap.get? s.creations r = some c → c.stalled = true →
      let limit := if (s.drawRec c.launch).stall = 0 then 100000 else (s.drawRec c.launch).stall
      (s.now < c.since + limit → exec (.stockpileStallLimit r) s = .next s) ∧
      (c.since + limit ≤ s.now → c.cause = none → exec (.stockpileStallLimit r) s = .next (s.abortLot c.launch 0x01 0x2B 0 false)) ∧
      (c.since + limit ≤ s.now → c.cause.isSome = true → exec (.stockpileStallLimit r) s =
        .next { s with creations := SMap.put s.creations r { c with failed := true } })) ∧
    (∀ pr, SMap.get? (s.drawOf l).prims p = some pr →
      let fin := fun (u : State) => (u.modPrim l p fun x => { x with done := true }).refresh
      (pr.done = true → exec (.primitiveRasterise l p) s = .next s) ∧
      (pr.done = false → s.hasRate l .V = false → exec (.primitiveRasterise l p) s = .next (fin s)) ∧
      ∀ vs, pr.done = false → s.hasRate l .V = true → s.primVerts l pr = some vs →
        ((∃ v ∈ vs, (s.elemAt v).exited = true ∧ (s.elemAt v).emitted = false) →
          exec (.primitiveRasterise l p) s = .next (fin s)) ∧
        ((∀ v ∈ vs, (s.elemAt v).exited = false) → (∃ v ∈ vs, (s.elemAt v).emitted = false) →
          exec (.primitiveRasterise l p) s = .next s) ∧
        ((∀ v ∈ vs, (s.elemAt v).emitted = true) → pr.begun = false →
          let qs := coveredSamples (s.rdesc l) (vs.map s.elemAt) p (s.hasRate l .S)
          let u := (s.addSamples l qs).modPrim l p fun x => { x with begun := true }
          let w := if s.hasRate l .K = true then u.askCoarse l p pr vs qs else u
          exec (.primitiveRasterise l p) s = .next (if s.hasRate l .S = true ∧ qs ≠ [] then w else fin w))) ∧
    (∀ q, SMap.get? (s.drawOf l).samples i = some q →
      let key := (q.py * 16384 + q.px) * 16 + q.idx
      let fin := fun (u : State) => u.modDraw l fun d => { d with
        samples := SMap.modify d.samples i fun x => { x with resolved := true } }
      (q.resolved = true ∨ s.sampleEnded l q = false ∨ s.sampleInOrder l q = false → exec (.sampleResolve l i) s = .next s) ∧
      (q.resolved = false → s.sampleEnded l q = true → s.sampleInOrder l q = true →
        (q.written = false → exec (.sampleResolve l i) s = .next (fin s)) ∧
        (q.written = true → (SMap.get? (s.drawOf l).target key).isSome = true → exec (.sampleResolve l i) s =
          .next (fin (s.modDraw l fun d => { d with target := SMap.modify d.target key (SampleState.resolve (s.rdesc l) q) }))))) ∧
    (s.drawOver l = false → exec (.drawWriteOut l) s = .next s) ∧
    (s.drawOver l = true → ∀ u ps v,
      let ws := (s.rdesc l).writes (s.drawOf l).target
      s.placeAll l ((s.crewAt (s.crewIdx l 0)).core / 32) (ws.flatMap cutStore) [] = .ok u ps → u.shadowAll l ps = some v →
      let w := v.modLaunch l fun x => { x with draw := none, chargeB := x.chargeB + (ws.map fun w => w.2.length).sum }
      exec (.drawWriteOut l) s = .next (((w.launchCrews l).foldl State.checkCrewEnd w).cut l))

/-- Contexts (R390 to R392, R397): INVCTL drops the entries of its range and performs the context's accesses on their way; a
context is created where its settings allow it and destroyed when nothing uses it; a response answers the pages of a
batch and removes it, a lane that waits for several pages going on when each is resolved or when one is refused, and one of a
halted crew once that is resumed; FRHEAD lets batches be written. That launches still waiting for admission keep a context from being
destroyed is the model's choice (log 46). -/
def Obligations.ContextEvents : Prop :=
  ∀ (s : State) (c die : Nat) (v : Word) (num : BitVec 16),
    let x := s.ctxAt c
    let size := v.toNat % 4
    (4096 ≤ c → exec (.tlbInvalidate c v) s = .next s ∧ exec (.contextCreate c v) s = .next s) ∧
    (c < 4096 →
      let u := s.modCtx c fun y => { y with invSize := size }
      (v.getLsbD 30 = false ∨ x.invDone = false → exec (.tlbInvalidate c v) s = .next u) ∧
      (v.getLsbD 30 = true → x.invDone = true →
        let bits := if size = 0 then 16 else if size = 1 then 21 else 30
        let lo := x.invva.toNat / 2 ^ bits * 2 ^ bits
        let hit := fun (e : Nat × Nat × Nat × Nat × DWord) => decide (e.2.1 = c ∧
          (size = 3 ∨ (e.2.2.1 * 2 ^ e.2.2.2.1 < lo + 2 ^ bits ∧ lo < (e.2.2.1 + 1) * 2 ^ e.2.2.2.1)))
        let w := { u with tlb := s.tlb.filter fun e => !hit e }
        exec (.tlbInvalidate c v) s = .next (w.drain fun _ l => (w.launchAt l).ctx == c))) ∧
    (c < 4096 → x.exists_ = true → exec (.contextCreate c v) s = .next s) ∧
    (c < 4096 → x.exists_ = false → v.getLsbD 0 = false →
      exec (.contextCreate c v) s = .next (s.modCtx c fun y => { y with dbgPriv := v.getLsbD 1 })) ∧
    (c < 4096 → x.exists_ = false → v.getLsbD 0 = true →
      let ok := (x.featc &&& ~~~ s.devFeat) = 0 ∧ x.ptroot.toNat % 65536 = 0 ∧ x.localBase.toNat % 65536 = 0 ∧
        x.localStride.toNat % 65536 = 0 ∧ x.wdog ≠ 0 ∧
        ((s.ctxs.filter fun kv => kv.2.exists_ && kv.1 != c).map fun kv => kv.2.cquota.toNat).sum + x.cquota.toNat ≤ 4096
      (¬ ok → exec (.contextCreate c v) s = .next s) ∧
      (ok → ∃ u, exec (.contextCreate c v) s = .next u ∧ (u.ctxAt c).exists_ = true ∧ (u.ctxAt c).dbgPriv = v.getLsbD 1 ∧
        (u.ctxAt c).invDone = true ∧ (u.ctxAt c).stopped = false ∧ (u.ctxAt c).ptroot = x.ptroot ∧ u.mem = s.mem ∧
        ∀ k, k ≠ c → u.ctxAt k = s.ctxAt k)) ∧
    (x.exists_ = false ∨ (∃ kv ∈ s.queues, kv.2.en = true ∧ kv.2.ctx = c) ∨
        (∃ kv ∈ s.launches, kv.2.ctx = c ∧ kv.2.status.open_ = true) → exec (.contextDestroy c) s = .next s) ∧
    (x.exists_ = true → (∀ kv ∈ s.queues, kv.2.en = true → kv.2.ctx ≠ c) →
      (∀ kv ∈ s.launches, kv.2.status.open_ = true → kv.2.ctx ≠ c) →
      ∃ u, exec (.contextDestroy c) s = .next u ∧ (u.ctxAt c).exists_ = false ∧ (∀ e ∈ u.tlb, e.2.1 ≠ c) ∧
        (∀ kv ∈ u.slots, kv.2.ctx ≠ c) ∧ u.mem = s.mem ∧ u.launches = s.launches) ∧
    ((∀ b ∈ s.batches, b.die = die → b.num = num.toNat → b.written = false) → exec (.fresp die num) s = .next s) ∧
    (∀ b, s.batches.find? (fun b => b.die == die && b.num == num.toNat && b.written) = some b →
      (∀ w ∈ s.engineWait, w.die = die → w.batch = num.toNat → (∀ q, w.who ≠ .cpl q) ∧ ∀ k, w.who ≠ .packet k) →
      let u := State.answerPages die num.toNat (s.ringAt die).mask.toNat 0 b.entries s
      exec (.fresp die num) s = .next { u with batches := s.batches.filter fun y => !(y.die == die && y.num == num.toNat) }) ∧
    (∀ t ctx page, (SMap.get? s.threads t).isSome = true → s.ctxIdOf t = ctx →
      ∀ ws fetch kept, (s.thr t).park = some (.xlate die ws fetch kept) →
      let here := (num.toNat, page)
      let halted := (s.crewOf t).halted = true
      let retry := if kept = [] then none else some (Park.retry (.quad kept))
      let rest := ws.filter (· ≠ here)
      (here ∈ ws → ((s.answerPage die num.toNat ctx page false).thr t) =
        { s.thr t with
          park := if halted then some (.xlate die [] fetch kept) else retry, refused := page :: (s.thr t).refused }) ∧
      (here ∈ ws → ((s.answerPage die num.toNat ctx page true).thr t) =
        { s.thr t with park := if rest = [] ∧ ¬ halted then retry else some (.xlate die rest fetch kept) }) ∧
      (here ∉ ws → ∀ bit, (s.answerPage die num.toNat ctx page bit).thr t = s.thr t)) ∧
    (∀ t ctx page bit, s.ctxIdOf t ≠ ctx → (s.answerPage die num.toNat ctx page bit).thr t = s.thr t) ∧
    (4 ≤ die → exec (.frhead die v) s = .next s) ∧
    (die < 4 → let u := s.modRing die fun r => { r with head := v }
      exec (.frhead die v) s = .next (u.writeBatches die s.batches))

/-- The debugger (R393 to R400): attaching is refused while a queue of the context has a deadline class, and detaching lets the halted
crews of the context go on (DEDUCED, log 23); a mailbox begins with ACKSEQ and the bytes behind it 0 (that this is written when MBOX
is set, or once its page is there, is the model's choice, log 73); a watchpoint that would be the fifth armed on its core is refused; HALTREQ asks the named crews of an attached context to halt; the next
command of an attached context's mailbox resumes the lot, steps a thread or aborts the lot; a stop is recorded, then
counted, then announced. -/
def Obligations.DebuggerEvents : Prop :=
  ∀ (s : State) (c n : Nat) (v : Word) (d : DWord),
    let x := s.ctxAt c
    (c < 4096 →
      let want := v.getLsbD 0 && !x.dbgAttach
      let refused := want && s.queues.any fun kv => kv.2.ctx == c && kv.2.dclass != 0
      let done := fun (u : State) =>
        (if v.getLsbD 0 = false ∧ x.dbgAttach = true then u.detach c else u).modCtx c fun y => { y with
          dbgAttach := v.getLsbD 0 && !refused, mbox := v.getLsbD 1, mboxInit := y.mboxInit && v.getLsbD 1,
          attErr := if want then refused else y.attErr }
      (v.getLsbD 1 = false ∨ x.mbox = true → exec (.debugAttach c v) s = .next (done s)) ∧
      (v.getLsbD 1 = true → x.mbox = false → ∀ u,
        (s.devWrite (.queue (1024 + c)) 0 c (x.mbaddr.toNat + 0x80) (List.replicate 128 0) = .done u →
          exec (.debugAttach c v) s = .next (done (u.modCtx c fun y => { y with mboxInit := false }))) ∧
        (s.devWrite (.queue (1024 + c)) 0 c (x.mbaddr.toNat + 0x80) (List.replicate 128 0) = .waits u →
          exec (.debugAttach c v) s = .next (done (u.modCtx c fun y => { y with mboxInit := true }))))) ∧
    (SMap.sorted s.crews = true → ∀ k, (s.launchAt (s.crewAt k).launch).ctx = c →
      ((s.detach c).crewAt k).halted = false ∧ (s.detach c).mem = s.mem) ∧
    (4096 ≤ c ∨ 4 ≤ n → exec (.watchpointWrite c n d) s = .next s) ∧
    (c < 4096 → n < 4 →
      let w := d &&& 0xFF8007FFFFFFFFFF
      let core := d.toNat / 2 ^ 57
      let armed := (s.ctxs.map fun kv => ((List.range 4).filter fun i => (kv.1 != c || i != n) &&
        decide ((kv.2.wps.getD i 0).toNat / 2 ^ 57 = core) && decide ((kv.2.wps.getD i 0).toNat / 2 ^ 55 % 4 ≠ 0)).length).sum
      (d.toNat / 2 ^ 55 % 4 ≠ 0 → 4 ≤ armed →
        exec (.watchpointWrite c n d) s = .next (s.modCtx c fun y => { y with wpErr := true })) ∧
      (d.toNat / 2 ^ 55 % 4 = 0 ∨ armed < 4 →
        exec (.watchpointWrite c n d) s = .next (s.modCtx c fun y => { y with wps := y.wps.set n w, wpErr := false }))) ∧
    (4096 ≤ c ∨ x.dbgAttach = false → exec (.haltreq c d) s = .next s) ∧
    (c < 4096 → x.dbgAttach = true →
      let named := fun (k : Crew) => let l := s.launchAt k.launch
        l.ctx == c && l.lot == d.truncate 32 && l.status.open_ && k.status != .ended &&
          (d.getLsbD 63 || k.idx == d.toNat / 2 ^ 32 % 65536)
      exec (.haltreq c d) s = .next ((SMap.keys (s.crews.filter fun kv => named kv.2)).foldl State.askHalt s)) ∧
    (x.dbgAttach = false ∨ x.mbox = false → exec (.debugResume c) s = .next s ∧ exec (.debugStep c) s = .next s ∧
      exec (.debugAbort c) s = .next s) ∧
    (x.dbgAttach = true → x.mbox = true → ∀ u b st, s.rdAt (.queue (1024 + c)) c .D (x.mbaddr.toNat + 0x40) 12 = .ok u b →
      x.recorded = some st →
      let next := BitVec.ofNat 32 (leAt b 0 4) = x.lastCmd + 1
      let w := u.modCtx c fun y => { y with lastCmd := y.lastCmd + 1 }
      (¬ next → exec (.debugResume c) s = .next u ∧ exec (.debugStep c) s = .next u ∧ exec (.debugAbort c) s = .next u) ∧
      (next → leAt b 4 1 = 0 → exec (.debugResume c) s = .next (w.resumeLot c st (leAt b 5 1))) ∧
      (next → leAt b 4 1 = 1 → exec (.debugStep c) s = .next (w.stepThread c st (leAt b 8 4))) ∧
      (next → leAt b 4 1 = 2 → exec (.debugAbort c) s =
        .next (w.abortLot (w.crewAt st.crewUid).launch 0x04 0 0xFF false))) ∧
    (∀ st flags k, SMap.sorted s.crews = true → k ∈ s.launchCrews (s.crewAt st.crewUid).launch →
      ((s.resumeLot c st flags).crewAt k).halted = false ∧ (s.resumeLot c st flags).mem = s.mem) ∧
    (x.mboxInit = false → x.stops = [] ∨ x.mbox = false → exec (.stopRecordDelivery c) s = .next s) ∧
    (∀ u, x.mboxInit = true → s.devWrite (.queue (1024 + c)) 0 c (x.mbaddr.toNat + 0x80) (List.replicate 128 0) = .done u →
      exec (.stopRecordDelivery c) s = .next (u.modCtx c fun y => { y with mboxInit := false })) ∧
    ∀ st rest u v1 v2, x.mboxInit = false → x.stops = st :: rest → x.mbox = true → s.acknowledged c = .ok u true →
      u.devWrite (.queue (1024 + c)) 0 c (x.mbaddr.toNat + 4) st.body = .done v1 →
      v1.devWrite (.queue (1024 + c)) 0 c x.mbaddr.toNat (bytesOf 4 (x.stopSeq + 1).toNat) = .done v2 →
      exec (.stopRecordDelivery c) s = .next ((v2.modCtx c fun y => { y with
        stops := rest, stopSeq := x.stopSeq + 1, recorded := some st, earlier := y.recorded.toList ++ y.earlier }).raiseCtx c true)

/-- What the host does over PCIe (R420 to R424, R445, R446, R452): a write of a whole register of BAR0 writes it and an offset
with no block is ignored; HBM through BAR2 is written while the device's state leaves it open and read unless the device is deaf,
line by line, and a read of a retired line aborts; configuration and SPDM requests are answered, with both signatures where they are
signed. What HBM does in a checkpoint of a contained device (log 67), the codes of the SPDM responses with what their bodies hold
(log 65), what a configuration register holds (log 76), and that the measurements are the family, revision, version, SVN and digest of the
firmware that runs (derived from R424, R449 and R450) are the model's choices. -/
def Obligations.HostRequests : Prop :=
  ∀ (s : State) (off n : Nat) (v : DWord) (data : List Byte) (reg : Nat) (nonce : List Byte) (slot len : Nat),
    let isOpen := s.dev.dstate = .ready ∨ ((s.dev.dstate = .checkpoint ∨ s.dev.dstate = .restore) ∧
      ∃ c, s.dev.mbox.running = some c ∧ c.came = .ready)
    ((∀ i, i < n → blockAt (off + i) = none) → exec (.registerWrite off n v) s = .next s) ∧
    (∀ b r, blockAt off = some (b, r) → (r, n) ∈ b.regs →
      exec (.registerWrite off n v) s = .next (s.regWrite b r (v.toNat % 256 ^ n))) ∧
    (∀ q, q < 1024 → s.deaf = false → (s.queueAt q).en = false →
      exec (.registerWrite (64 * q + 8) 8 v) s = .next (s.modQueue q fun x => { x with sub := v }) ∧
      exec (.registerWrite (64 * q + 0x10) 8 v) s = .next (s.modQueue q fun x => { x with cpl := v })) ∧
    (∀ q, q < 1024 → (s.queueAt q).en = true → exec (.registerWrite (64 * q + 8) 8 v) s = .next s) ∧
    (∀ c, c < 4096 → (s.ctxAt c).exists_ = false →
      exec (.registerWrite (0x100000 + 256 * c) 8 v) s = .next (s.modCtx c fun x => { x with ptroot := v })) ∧
    (∀ c, c < 4096 → (s.ctxAt c).exists_ = true → exec (.registerWrite (0x100000 + 256 * c) 8 v) s = .next s) ∧
    (¬ isOpen → exec (.hostBar2Write off data) s = .next s) ∧
    (isOpen → s.mem.wf = true → off + data.length ≤ hbmSize →
      (∀ ln ∈ linesOf off data.length, ln ∉ s.dev.retired) →
      ∃ u, exec (.hostBar2Write off data) s = .next u ∧ u.dev = s.dev ∧ u.threads = s.threads ∧
        ∀ loc, u.mem.read loc = if off ≤ loc ∧ loc < off + data.length then data.getD (loc - off) 0 else s.mem.read loc) ∧
    (let k := min n (128 - off % 128)
     let u := { s with hostReads := s.hostReads.erase (off, n) ++ (if k < n then [(off + k, n - k)] else []) }
     (s.deaf = true → exec (.hostBar2Read off n) s = .next (u.send (.readData (List.replicate k 0)))) ∧
     (s.deaf = false → (∃ ln ∈ linesOf off k, ln ∈ s.dev.retired) → exec (.hostBar2Read off n) s = .next (u.send .completerAbort)) ∧
     (s.deaf = false → (∀ ln ∈ linesOf off k, ln ∉ s.dev.retired) → off + k ≤ hbmSize →
       exec (.hostBar2Read off n) s = .next (u.send (.readData (s.mem.readN off k))))) ∧
    (∃ w, exec (.configurationRequest reg) s = .next (s.send (.config w))) ∧
    (let plain := fun (code : Nat) (alg : Option SigAlg) (b : List Byte) => Out.spdm
       { code := code, major := 1, minor := 3, algorithm := alg, body := b, ed25519 := [], mlDsa65 := [] }
     let signed := fun (code : Nat) (b e m : List Byte) => Out.spdm
       { code := code, major := 1, minor := 3, algorithm := none, body := b, ed25519 := e, mlDsa65 := m }
     let u := { s with free := s.free + 2 }
     (∃ b, exec .getVersion s = .next (s.send (plain 0x84 none b))) ∧
     (∃ b, exec .getCapabilities s = .next (s.send (plain 0xE1 none b))) ∧
     (∃ b, exec .negotiateAlgorithms s = .next (s.send (plain 0xE3 (some .ed25519) b))) ∧
     (∃ b, exec .getDigests s = .next (s.send (plain 0x81 none b))) ∧
     (∃ b, exec (.getCertificate slot off len) s = .next (s.send (plain 0x82 none b))) ∧
     (∃ b e m, e.length = 64 ∧ m.length = 3309 ∧ exec (.challenge slot nonce) s = .next (u.send (signed 0x83 b e m))) ∧
     ∃ b e m, e.length = 64 ∧ m.length = 3309 ∧ exec (.getMeasurements reg) s = .next (u.send (signed 0xE0 (bytesOf 2 7 ++
       bytesOf 2 1 ++ bytesOf 4 (leAt s.dev.running 4 4) ++ bytesOf 4 (leAt s.dev.running 8 4) ++ sha384 s.dev.running ++ b) e m)))

/-- The fabric and the network on chip (R387, R425 to R429, R432, R433, R452): a request on a port that serves reads, writes
or changes HBM and is answered on its port; a part of a collective joins its group; a packet of a window is one reduction at its home, once its page translates; a mesh powers
its next subnetwork and loses any but subnetwork 0; a diversion is counted, and VC2 has none; a port's link follows its EN. That a window
packet waits for its page at die 0 (log 78), that FLUSH is off for what arrives (log 105), when the parts of a collective are
checked (log 54) and what a checkpoint leaves open (log 67) are the model's choices. -/
def Obligations.FabricEvents : Prop :=
  ∀ (s : State) (port src addr n off wid mesh : Nat) (req : FabReq) (data : List Byte) (op : AOp) (ty : Ty) (b c : DWord),
    let p := SMap.getD s.dev.ports port Port.reset
    let isOpen := s.dev.dstate = .ready ∨ ((s.dev.dstate = .checkpoint ∨ s.dev.dstate = .restore) ∧
      ∃ c, s.dev.mbox.running = some c ∧ c.came = .ready)
    let serves := port < 16 ∧ p.en = true ∧ p.up = true ∧ p.ckpt = false ∧ isOpen
    (¬ serves → exec (.fabricRequest port src req) s = .next s) ∧
    (serves →
      exec (.fabricRequest port src (.read addr n)) s = .next (s.send (.fabric port 1 src (.response 0
        (if (linesOf addr n).any s.dev.retired.contains then []
         else (List.range n).map fun i => if addr + i < hbmSize then s.mem.read (addr + i) else 0)))) ∧
      exec (.fabricRequest port src (.write addr data)) s = .next (s.putHbm addr data) ∧
      (∀ id, exec (.fabricRequest port src (.response id data)) s = .next s) ∧
      (∀ old, s.getHbm addr (tyBits ty / 8) = some old →
        let w := atomicNew false op ty (ofBytes old) b.toNat c.toNat
        let u := if atomicWrites op (ofBytes old) c.toNat then s.putHbm addr (bytesOf (tyBits ty / 8) w) else s
        exec (.fabricRequest port src (.atomic addr op ty b c)) s = .next (u.send (.fabric port 1 src (.response 0 old)))) ∧
      (s.getHbm addr (tyBits ty / 8) = none →
        exec (.fabricRequest port src (.atomic addr op ty b c)) s = .next (s.send (.fabric port 1 src (.response 0 [])))) ∧
      ∀ ctx grp inst rank count cop size, exec (.fabricRequest port src (.collective ctx grp inst rank count cop ty size data)) s =
        let part : CollPart := CollPart.mk ctx grp inst rank count cop ty size data
        .next ((State.collCheck { s with collIn := s.collIn ++ [part] } part).collResolve ctx grp inst)) ∧
    (s.homeWindow wid = none → exec (.windowPacketArrival wid off op ty n b) s = .next s) ∧
    (∀ w, s.homeWindow wid = some w → isOpen → windowOp op = true → windowTy ty = true →
      off + tyBits ty / 8 ≤ w.size.toNat →
      let pk : Packet := { wid := wid, off := off, op := op, ty := ty, operand := b }
      let v := { s with fresh := s.fresh + 1, packets := SMap.put s.packets s.fresh pk }
      (∀ u, v.engineTr (.packet s.fresh) 0 w.ctx (w.base.toNat + off) .D .atomic = .waits u →
        exec (.windowPacketArrival wid off op ty n b) s = .next u) ∧
      ∀ u loc host peer, v.engineTr (.packet s.fresh) 0 w.ctx (w.base.toNat + off) .D .atomic = .ok u loc host peer →
      let k := tyBits ty / 8
      exec (.windowPacketArrival wid off op ty n b) s = .next (State.dropWaits { u with
        mem := u.mem.writeN loc (bytesOf k (atomicNew false op ty (u.mem.readLE loc k) b.toNat 0)),
        packets := SMap.del u.packets s.fresh } (.packet s.fresh))) ∧
    (let m := SMap.getD s.dev.subnets mesh 1
     let up := fun k => s.modDev fun d => { d with subnets := SMap.put d.subnets mesh (m + 2 ^ k) }
     (8 ≤ mesh ∨ (testN m 1 = true ∧ testN m 2 = true ∧ testN m 3 = true) → exec (.subnetworkPowerUp mesh) s = .next s) ∧
     (mesh < 8 → testN m 1 = false → exec (.subnetworkPowerUp mesh) s = .next (up 1)) ∧
     (mesh < 8 → testN m 1 = true → testN m 2 = false → exec (.subnetworkPowerUp mesh) s = .next (up 2)) ∧
     (mesh < 8 → testN m 1 = true → testN m 2 = true → testN m 3 = false → exec (.subnetworkPowerUp mesh) s = .next (up 3)) ∧
     (mesh < 8 → 1 ≤ n → n ≤ 3 → testN m n = true → exec (.subnetworkPowerDown mesh n) s = .next (s.modDev fun d => { d with
       subnets := SMap.put d.subnets mesh (m - 2 ^ n) })) ∧
     (8 ≤ mesh ∨ n = 0 ∨ 3 < n ∨ testN m n = false → exec (.subnetworkPowerDown mesh n) s = .next s)) ∧
    exec (.escapeDiversion src ⟨addr, 2⟩) s = .next s ∧ (n ≠ 2 → exec (.escapeDiversion src ⟨addr, n⟩) s = .next (s.count 8)) ∧
    (16 ≤ port → exec (.portLinkChange port n) s = .next s) ∧
    (port < 16 → let k := if p.en then min n 8 else 0
      exec (.portLinkChange port n) s = .next (s.modDev fun d => { d with
        ports := SMap.put d.ports port { p with up := k != 0, lanes := k } }))

/-- The PTP clock (R434 to R437): TCFG is written while EN is 0 and its configuration is valid; a Sync of the port's own domain and transport moves the lock and
corrects the clock, and a locked clock keeps within 200 ppm; Announce chooses master or follower; the intervals send; a lost Sync
holds over, and 60 s later the clock is free. Without the daughter-board, or with EN 0, nothing of it happens. The order of the
comparison (PRESUMED, log 83), that a Sync in FREE is not counted, that Delay_Resp has no effect and what frequency is locked to (log 68), that a master
follows no Sync (DEDUCED, log 117), and that EN once set stays (log 47) are the model's choices.
Display outputs (R299, R438 to R442): OCFG is written while EN is 0, and EN is set only if the pixel rate fits the link;
OSTAT clears by writing 1; the link follows its event; at the start of the next frame the flips that are due are
released, and the surface is scanned out, after its reads of a peer's memory have left; a page that misses and a bad metadata byte are
noted. The link's net rates (log 69), the factor 132 / 128 (log 69), and that EN once set stays (log 47) are the model's choices. -/
def Obligations.ClockAndDisplayEvents : Prop :=
  (
    ∀ (s : State) (v : Word) (m : PtpMsg) (dom tr k pri qual pri2 : Nat) (off : Int) (gm : DWord) (best : Bool),
      let p := s.dev.ptp
      let en := p.tcfg.getLsbD 0 = true
      let mine := dom = p.tcfg.toNat / 2 ^ 8 % 2 ^ 7 ∧ tr = p.tcfg.toNat / 4 % 4
      (s.dev.form ≠ 2 ∨ en → exec (.ptpEnable v) s = .next s) ∧
      (s.dev.form = 2 → ¬ en →
        let tr := v.toNat / 4 % 4
        let ok := tr ≠ 3 ∧ (tr = 2 ∨ p.tip ≠ 0) ∧ (tr ≠ 1 ∨ p.tuni ≠ 0)
        (v.getLsbD 0 = false ∨ ok → exec (.ptpEnable v) s = .next (s.modDev fun d => { d with
          ptp := { d.ptp with tcfg := v &&& 0xFFFF7F1F, good := 0 } })) ∧
        (v.getLsbD 0 = true → ¬ ok → exec (.ptpEnable v) s = .next s)) ∧
      (s.dev.form ≠ 2 ∨ ¬ en ∨ ¬ mine → exec (.ptpEventMessage ⟨dom, tr, m⟩) s = .next s) ∧
      (s.dev.form ≠ 2 ∨ ¬ en → exec (.ptpMessageInterval k) s = .next s ∧
        exec (.announceReceiptTimeout best) s = .next s) ∧
      (s.dev.form = 2 → en → mine →
        (p.master = true → exec (.ptpEventMessage ⟨dom, tr, (.sync off gm)⟩) s = .next s) ∧
        (p.master = false → ∃ u, exec (.ptpEventMessage ⟨dom, tr, (.sync off gm)⟩) s = .next u ∧ u.dev.ptp.toff = BitVec.ofInt 64 off ∧
          u.dev.ptp.tgm = gm ∧ u.dev.ptp.master = false ∧ u.mem = s.mem ∧ u.threads = s.threads ∧
          (u.dev.ptp.lock = .locked → u.dev.ptp.freq.natAbs ≤ 200000) ∧
          (p.lock = .free → u.dev.ptp.lock = .acquiring) ∧
          (p.lock = .acquiring → 10 < off.natAbs → u.dev.ptp.lock = .acquiring ∧ u.dev.ptp.good = 0) ∧
          (p.lock = .acquiring → off.natAbs ≤ 10 → p.good + 1 < 16 → u.dev.ptp.lock = .acquiring ∧ u.dev.ptp.good = p.good + 1) ∧
          (p.lock = .acquiring → off.natAbs ≤ 10 → 16 ≤ p.good + 1 → u.dev.ptp.lock = .locked) ∧
          (p.lock = .locked → u.dev.ptp.lock = .locked ∧ u.ptime = s.ptime ∧ u.dev.ptp.tstep = p.tstep) ∧
          (p.lock = .holdover → u.dev.ptp.lock = if off.natAbs ≤ 10 then .locked else .acquiring)) ∧
        (let p1 := p.tcfg.toNat / 2 ^ 16 % 256
         let p2 := p.tcfg.toNat / 2 ^ 24 % 256
         let win := p.tcfg.getLsbD 4 = false ∧ (p1 < pri ∨ (p1 = pri ∧ (Config.clockQuality < qual ∨ (Config.clockQuality = qual ∧
           (p2 < pri2 ∨ (p2 = pri2 ∧ p.identity.toNat < gm.toNat))))))
         ∃ u, exec (.ptpEventMessage ⟨dom, tr, (.announce pri qual pri2 gm)⟩) s = .next u ∧ (win → u.dev.ptp.master = true ∧ u.dev.ptp.tgm = p.identity) ∧
           (¬ win → u.dev.ptp.master = false ∧ u.dev.ptp.tgm = gm)) ∧
        exec (.ptpEventMessage ⟨dom, tr, .delayReq⟩) s = .next (if p.master then s.send (.ptp 3) else s) ∧
        exec (.ptpEventMessage ⟨dom, tr, (.delayResp off)⟩) s = .next s) ∧
      (s.dev.form = 2 → en →
        (p.master = true → exec (.ptpMessageInterval 0) s = .next ((s.send (.ptp 0)).send (.ptp 4)) ∧
          exec (.ptpMessageInterval 1) s = .next (s.send (.ptp 1)) ∧ exec (.ptpMessageInterval 2) s = .next s) ∧
        (p.master = false → exec (.ptpMessageInterval 0) s = .next s ∧ exec (.ptpMessageInterval 1) s = .next s ∧
          exec (.ptpMessageInterval 2) s = .next (s.send (.ptp 2))) ∧
        ∃ u, exec (.announceReceiptTimeout best) s = .next u ∧ u.dev.ptp.master = (best && !p.tcfg.getLsbD 4)) ∧
      (p.lock = .locked → ∃ u, exec .syncLoss s = .next u ∧ u.dev.ptp.lock = .holdover ∧ u.dev.ptp.lostAt = s.now ∧
        s.Told u 0) ∧
      (p.lock ≠ .locked → exec .syncLoss s = .next s) ∧
      (p.lock = .holdover → p.lostAt + 6000000000 ≤ s.now → ∃ u, exec .holdoverTimeout s = .next u ∧ u.dev.ptp.lock = .free ∧
        s.Told u 0) ∧
      (p.lock ≠ .holdover ∨ s.now < p.lostAt + 6000000000 → exec .holdoverTimeout s = .next s)) ∧
  (
    ∀ (s : State) (o : Nat) (v : Word) (up : Bool),
      let x := s.output o
      let there := s.dev.form = 2 ∧ o < 4
      (¬ there → exec (.outputEnable o v) s = .next s ∧ exec (.ostatClear o v) s = .next s ∧
        exec (.outputLinkChange o up) s = .next s) ∧
      (there → x.ocfg.getLsbD 0 = true → exec (.outputEnable o v) s = .next s) ∧
      (there → x.ocfg.getLsbD 0 = false →
        let rate := if v.toNat / 4 % 4 = 1 then 54 else if v.toNat / 4 % 4 = 2 then 80 else 40
        let bits := if v.getLsbD 1 then 30 else 24
        let ok := x.pden ≠ 0 ∧ (x.tot.toNat % 65536 * (x.tot.toNat / 65536)) * x.pden.toNat * bits * 132 ≤
          x.pnum.toNat * rate * 128
        (v.getLsbD 0 = false ∨ ¬ ok → exec (.outputEnable o v) s = .next (s.modOutput o fun y => { y with ocfg := v &&& 0x3E })) ∧
        (v.getLsbD 0 = true → ok → ∃ u, exec (.outputEnable o v) s = .next u ∧ (u.output o).ocfg = v &&& 0x3F ∧
          (u.output o).cur = x.cur)) ∧
      (there → exec (.ostatClear o v) s = .next (s.modOutput o fun y => { y with
        xmiss := y.xmiss && !v.getLsbD 1, badmeta := y.badmeta && !v.getLsbD 2 })) ∧
      (there → exec (.outputLinkChange o up) s = .next (s.modOutput o fun y => { y with link := up })) ∧
      (let n := x.frame.toInt + 1
       let early := 4 ≤ o ∨ x.ocfg.getLsbD 0 = false ∨ (s.ptime.toNat : Int) < x.start n
       (early → exec (.frameStart o) s = .next s) ∧
       (¬ early →
         let u := s.modOutput o fun y => { y with frame := BitVec.ofInt 64 n }
         exec (.frameStart o) s = .next (((u.flipsDue o (x.start n)).foldl (State.releaseFlip o (x.start (n - 1))) u).scanOut o))) ∧
      (4 ≤ o ∨ x.ocfg.getLsbD 0 = false → exec (.frameStart o) s = .next s) ∧
      (x.cur = 0 → s.scanOut o = s) ∧
      (x.cur ≠ 0 → ∃ ms px, (s.scanOut o).outs = s.outs ++ ms ++ [.frame o x.frame x.cur px] ∧
        (∀ m ∈ ms, ∃ port vc dev a n, m = .fabric port vc dev (.read a n)) ∧
        let bs := (List.range (((x.osize.toNat % 2 ^ 14 + 1 + 7) / 8) * ((x.osize.toNat / 2 ^ 16 % 2 ^ 14 + 1 + 7) / 8))).map (s.scanBlock x)
        ((s.scanOut o).output o).xmiss = (x.xmiss || bs.contains .miss || bs.contains .both) ∧
        ((s.scanOut o).output o).badmeta = (x.badmeta || bs.contains .bad || bs.contains .both)) ∧
      (∀ n (kv : EOp) sp addr (t : DWord) k (before : Int), kv.kind = .dflip sp addr t k →
        State.releaseFlip o before s (n, kv) = State.finishEop (s.modOutput o fun y => { y with
          cur := BitVec.ofNat 64 addr, curCtx := kv.ctx, curSpace := sp == .G }) n (if before < t.toNat then 0 else 0x0D) 0))

/-- The command mailbox (R443 to R445, R449, R450, R454 to R456): a DOOR write starts its command where none runs and the state
allows it, and ends at once with 1 or 5 where it may not; the completion of a command does its work and writes RSTAT, RSEQ and
vector 0; a survey is written for each request, with the record of R454. Where an image stands and when it is found (IOERR
otherwise; log 62), what survives each reset (log 63, and log 9 for the phase of the ticks), and what a FWLOAD writes and when (log 64)
are the model's choices. -/
def Obligations.MailboxCommands : Prop :=
  ∀ (s : State),
    let m := s.dev.mbox
    let op := m.cmd.toNat % 256
    let cmd : Cmd := { op := op, seq := m.cseq, addr := m.addr, len := m.len, arg := m.arg, came := s.dev.dstate }
    let starts := fun (d : DState) => (s.modMbox fun y => { y with running := some cmd }).modDev fun e => { e with dstate := d }
    let refused := fun (st : Nat) => (s.modMbox fun y => { y with rstat := BitVec.ofNat 32 st, rseq := m.cseq }).raise 0
    let idle := ∀ kv ∈ s.ctxs, kv.2.exists_ = false
    let may2 := s.dev.dstate = .ready ∨ s.dev.dstate = .contained
    let may3 := s.dev.dstate = .ready ∧ idle
    let may4 := s.dev.dstate = .safe ∨ (s.dev.dstate = .ready ∧ idle)
    -- commands that start
    (op = 2 → m.running = none → may2 → exec .checkpoint s = .next (starts .checkpoint)) ∧
    (op = 3 → m.running = none → may3 → exec .restore s = .next (starts .restore)) ∧
    (op = 4 → m.running = none → may4 → exec .fwload s = .next (starts s.dev.dstate)) ∧
    (op = 5 → m.running = none → may2 → exec .warmreset s = .next (starts s.dev.dstate)) ∧
    (op = 6 → m.running = none → exec .coldreset s = .next (starts s.dev.dstate)) ∧
    -- commands that are turned away
    (op = 2 → m.running = none → ¬ may2 → exec .checkpoint s = .next (refused 5)) ∧
    (op = 3 → m.running = none → ¬ may3 → exec .restore s = .next (refused 5)) ∧
    (op = 4 → m.running = none → ¬ may4 → exec .fwload s = .next (refused 5)) ∧
    (op = 5 → m.running = none → ¬ may2 → exec .warmreset s = .next (refused 5)) ∧
    (m.running.isSome = true →
      (op = 2 → exec .checkpoint s = .next (refused 1)) ∧ (op = 3 → exec .restore s = .next (refused 1)) ∧
      (op = 4 → exec .fwload s = .next (refused 1)) ∧ (op = 5 → exec .warmreset s = .next (refused 1)) ∧
      (op = 6 → exec .coldreset s = .next (refused 1))) ∧
    -- the command that runs is completed
    (m.running = none → exec .commandCompletion s = .next s) ∧
    (∀ c, m.running = some c →
      let done := fun (u : State) (st : Nat) => u.dev.mbox.rstat = BitVec.ofNat 32 st ∧ u.dev.mbox.rseq = c.seq ∧
        u.dev.mbox.running = none ∧ (0 ∈ u.dev.msixPending ∨ ∃ os, u.outs = os ++ [.msix 0])
      (c.op = 2 → s.inFlight = true → exec .commandCompletion s = .next s) ∧
      (c.op = 2 → s.inFlight = false →
        let written := (s.mappedPages.map Prod.snd).sum
        let full := if c.arg.getLsbD 0 then s.ckptPorts = false else c.len.toNat < written + 64 + 16 * s.openLots.length
        ∃ u, exec .commandCompletion s = .next u ∧ u.dev.dstate = c.came ∧
          (full → done u 6 ∧ u.mem = s.mem ∧ u.ckpts = s.ckpts) ∧
          (¬ full → done u 0 ∧ ∃ k ∈ u.ckpts, k.mem = s.mem ∧ k.pages = s.mappedPages ∧ k.written = written ∧ k.last = s.lastCommitted ∧
            k.lots = (s.openLots.map fun x => (x.lot, x.queue, x.ticket)) ∧
            u.mem = if c.arg.getLsbD 0 then s.mem else s.mem.writeN (locHost c.addr.toNat) k.bytes)) ∧
      (c.op = 3 →
        let there := if c.arg.getLsbD 0 then
            (if s.ckptPorts then s.ckpts.find? fun k => k.ports && k.place == c.arg.toNat / 2 ^ 32 % 2 ^ 12 else none)
          else s.ckpts.reverse.find? fun k =>
            !k.ports && decide (k.size ≤ c.len.toNat) && s.mem.readN (locHost c.addr.toNat) k.size == k.bytes
        ∃ u, exec .commandCompletion s = .next u ∧ u.dev.dstate = .ready ∧
          (there = none → done u 6 ∧ u.mem = s.mem) ∧
          (∀ k, there = some k → done u 0 ∧ u.mem = restorePages s.mem k.mem k.pages)) ∧
      (c.op = 4 →
        let b := s.mem.readN (locHost c.addr.toNat) c.len.toNat
        let img := b.take (0xD80 + leAt b 0x0C 4)
        ∃ u, exec .commandCompletion s = .next u ∧ u.mem = s.mem ∧
          (fwVerifies img = false → done u 3) ∧
          (fwVerifies img = true → leAt img 8 4 < Config.fusedMinSvn → done u 4) ∧
          (fwVerifies img = true → Config.fusedMinSvn ≤ leAt img 8 4 → done u 0 ∧ u.dev.running = img ∧
            (c.arg.getLsbD 0 = true → u.dev.flash = img ∧ u.dev.dstate = .sounding) ∧
            (c.arg.getLsbD 0 = false → u.dev.flash = s.dev.flash ∧ u.dev.dstate = if c.came = .safe then .sounding else s.dev.dstate))) ∧
      (c.op = 5 → ∃ u, exec .commandCompletion s = .next u ∧ done u 0 ∧ u.dev.dstate = .ready ∧ u.mem = s.mem ∧
        u.rtime = s.rtime ∧ u.ptime = s.ptime ∧ u.phase = s.phase ∧ u.ctxs = [] ∧ u.queues = [] ∧ u.launches = [] ∧ u.slots = [] ∧ u.threads = []) ∧
      (c.op = 6 → ∃ u, exec .commandCompletion s = .next u ∧ done u 0 ∧ u.dev.dstate = .sounding ∧ u.dev.counters = s.dev.counters ∧
        u.mem = s.mem ∧ u.ctxs = [] ∧ u.threads = [])) ∧
    -- a survey
    (m.surveys = 0 → exec .survey s = .next s) ∧
    (m.surveys ≠ 0 → ∃ r : List Byte, r.length = 0x1000 ∧
      exec .survey s = .next (State.modMbox { s with mem := s.mem.writeN (locHost m.saddr.toNat) r } fun y =>
        { y with surveys := m.surveys - 1, sseq := m.sseq + 1 }) ∧
      (s.mem.wf = true → ∀ loc, (s.mem.writeN (locHost m.saddr.toNat) r).read loc =
        if locHost m.saddr.toNat ≤ loc ∧ loc < locHost m.saddr.toNat + 0x1000 then r.getD (loc - locHost m.saddr.toNat) 0
        else s.mem.read loc) ∧
      (let field := leAt r
       let f := s.dev.running
       let code := match s.dev.dstate with
         | .sounding => 0 | .ready => 1 | .safe => 2 | .contained => 3 | .checkpoint => 4 | .restore => 5
       let lock := match s.dev.ptp.lock with
         | .free => 0 | .acquiring => 1 | .locked => 2 | .holdover => 3
       let fold := ((SMap.vals s.launches).map fun x => if x.status = .committed then x.pages else 0).sum
       let pend := ((SMap.vals s.eops).filter fun o => o.outcome.isNone && (match o.kind with
         | .cboard _ _ _ => true
         | _ => false)).length
       field 0 4 = (m.sseq + 1).toNat ∧ field 4 2 = 7 ∧ field 6 2 = 1 ∧ field 8 1 = code ∧ field 9 1 = lock ∧
       field 0x0A 2 = ((List.range 8).map fun i => s.dev.sound.getD i 0 * 4 ^ i).sum % 2 ^ 16 ∧ field 0x0C 4 = s.dev.sdetail.toNat ∧
       field 0x10 8 = s.rtime.toNat ∧ field 0x18 8 = s.ptime.toNat ∧ field 0x20 8 = (if s.dev.form = 2 then 0x7FF else 0x67F) ∧
       field 0x28 4 = leAt f 4 4 ∧ field 0x2C 4 = leAt f 8 4 ∧ (r.drop 0x30).take 48 = sha384 f ∧ field 0x60 32 = 0 ∧
       (∀ i, i < 16 → field (0x80 + 8 * i) 8 = s.dev.counters.getD i 0 % 2 ^ 64) ∧
       field 0x100 8 = fold % 2 ^ 64 ∧ field 0x108 8 = (s.pagesHeld - fold) % 2 ^ 64 ∧ field 0x110 2 = s.openLots.length % 2 ^ 16 ∧
       field 0x112 2 = s.slots.length % 2 ^ 16 ∧ field 0x114 2 = pend % 2 ^ 16 ∧
       field 0x116 2 = (s.ctxs.filter fun kv => kv.2.exists_).length % 2 ^ 16 ∧
       field 0x118 8 = ((SMap.vals s.slots).map (·.version)).sum % 2 ^ 64 ∧ field 0x120 224 = 0 ∧
       (∀ q, q < 1024 → let x := s.queueAt q
         let b := field (0x200 + q) 1
         testN b 0 = x.en ∧ testN b 1 = s.queueBusy q ∧ testN b 2 = x.blocked ∧ testN b 3 = x.cplFull ∧ testN b 4 = x.kill ∧
           b / 32 = x.dclass % 8) ∧
       (∀ i, i < 256 → field (0x600 + 4 * i) 4 = (s.openLots.map fun x => x.lot.toNat).getD i 0) ∧
       (∀ c, c < 4096 → field (0xA00 + c / 4) 1 / 4 ^ (c % 4) % 4 =
         if (s.ctxAt c).exists_ = false then 0 else if (s.ctxAt c).stopped = true then 3
         else if ∃ kv ∈ s.crews, kv.2.status = .evicted ∧ (s.launchAt kv.2.launch).ctx = c then 2 else 1) ∧
       ∀ k, k < 4096 → testN (field (0xE00 + k / 8) 1) (k % 8) = (SMap.get? s.slots k).isSome))

/-- Sounding, errors, cooling and power (R445 to R453, R457, R458): sounding ends READY or SAFE with its steps, both clocks start
at 0 and vector 0 tells the host; scrubbing counts and retires; a fatal error contains the device and stops every port but those
that carry checkpoints; a throttled die and a hot stack are noted; a fundamental reset starts sounding, and a power loss leaves
no power, and in flash no image only where a FWLOAD could be writing it. That retired lines stay over a fundamental reset (log 63),
that step 0 tests the image that is to run (log 64), that a fatal error contains from READY, CHECKPOINT and RESTORE alone (log 67), what heat
does to a die (log 70), and that the phase of the ticks stays (log 9) are the model's choices. -/
def Obligations.BringUpEvents : Prop :=
  ∀ (s : State) (k die stack n : Nat) (w : Word) (bad : List Nat) (hot : Bool),
    let good := fwAccepted s.dev.running = true
    let refused := fun (u : State) => u.dev.dstate = .safe ∧ u.dev.sdetail = w ∧ u.dev.sound = [2, 0, 0, 0, 0, 0, 0, 0] ∧ u.mem = s.mem
    -- sounding
    (s.dev.dstate = .sounding → ∃ u, exec (.soundingComplete none w) s = .next u ∧ u.rtime = 0 ∧ u.ptime = 0 ∧ s.Told u 0 ∧
      (good → u.dev.dstate = .ready ∧ u.dev.sound = [1, 1, 1, 1, 1, 1, 1, 1] ∧ u.ctxs = s.ctxs) ∧ (¬ good → refused u)) ∧
    (s.dev.dstate = .sounding → 1 ≤ k → k ≤ 7 → ∃ u, exec (.soundingComplete (some k) w) s = .next u ∧ u.rtime = 0 ∧ u.ptime = 0 ∧
      s.Told u 0 ∧ u.dev.dstate = .safe ∧ u.dev.sdetail = w ∧ (k < 4 → u.mem = s.mem) ∧ (¬ good → refused u) ∧
      (good → ∀ i, i < 8 → u.dev.sound.getD i 0 = if i < k then 1 else if i = k then 2 else 0)) ∧
    (s.dev.dstate = .sounding → k = 0 ∨ 7 < k → ∃ u, exec (.soundingComplete (some k) w) s = .next u ∧ (good → u = s) ∧
      (¬ good → refused u)) ∧
    (s.dev.dstate ≠ .sounding → ∀ fail, exec (.soundingComplete fail w) s = .next s) ∧
    -- errors
    (s.dev.dstate ≠ .sounding → ∃ u, exec (.hbmScrub n bad) s = .next u ∧ u.mem = s.mem ∧ u.threads = s.threads ∧
      (∀ a ∈ bad, a < hbmSize → a / 128 ∈ u.dev.retired) ∧ (∀ ln ∈ s.dev.retired, ln ∈ u.dev.retired) ∧
      (s.dev.counters.length = 16 → u.dev.counters.getD 0 0 = s.dev.counters.getD 0 0 + n)) ∧
    (s.dev.dstate = .sounding → exec (.hbmScrub n bad) s = .next s) ∧
    (s.dev.dstate = .ready ∨ s.dev.dstate = .checkpoint ∨ s.dev.dstate = .restore →
      ∃ u, exec .fatalErrorContainment s = .next u ∧ u.dev.dstate = .contained ∧
        ∀ port, (SMap.getD u.dev.ports port Port.reset).up = true → (SMap.getD u.dev.ports port Port.reset).ckpt = true) ∧
    (s.dev.dstate ≠ .ready → s.dev.dstate ≠ .checkpoint → s.dev.dstate ≠ .restore →
      exec .fatalErrorContainment s = .next s) ∧
    -- cooling
    (die < 4 → die ∉ s.dev.throttled →
      exec (.thermalThrottle die) s = .next (s.modDev fun d => { d with throttled := d.throttled ++ [die] })) ∧
    (4 ≤ die ∨ die ∈ s.dev.throttled → exec (.thermalThrottle die) s = .next s) ∧
    exec (.throttleEnd die) s = .next (s.modDev fun d => { d with throttled := d.throttled.filter (· ≠ die) }) ∧
    (stack < 8 → exec (.hbmStackTemperatureChange stack hot) s = .next (s.modDev fun d => { d with
      hotStacks := (if hot = true then [stack] else []) ++ d.hotStacks.filter (· ≠ stack) })) ∧
    (8 ≤ stack → exec (.hbmStackTemperatureChange stack hot) s = .next s) ∧
    -- power
    (∃ u, exec .fundamentalReset s = .next u ∧ u.dev.dstate = .sounding ∧ u.dev.power = true ∧ u.mem = s.mem ∧ u.ctxs = [] ∧
      u.queues = [] ∧ u.launches = [] ∧ u.threads = [] ∧ u.phase = s.phase ∧ u.dev.sound = [0, 0, 0, 0, 0, 0, 0, 0] ∧ u.dev.retired = s.dev.retired) ∧
    ∃ u, exec .powerLoss s = .next u ∧ u.dev.power = false ∧ u.threads = [] ∧ u.launches = [] ∧ u.mem.gen = s.mem.gen + 1 ∧
      (u.dev.flash = s.dev.flash ∨ (u.dev.flash = [] ∧ ∃ c, s.dev.mbox.running = some c ∧ c.op = 4 ∧ c.arg.getLsbD 0 = true ∧
        let b := s.mem.readN (locHost c.addr.toNat) c.len.toNat
        fwAccepted (b.take (0xD80 + leAt b 0x0C 4)) = true))

/-- What reset leaves (R347, R355, R390, R394, R396, R422, R423, R437, R443, R445 to R447): the device is sounding with no step run, no context
exists and no work is in the device; registers hold the values that the rules give for reset, and memory is in canonical
form. That QCTX holds 0 is the model's choice (DESIGN CHOICE, log 1). -/
def Obligations.ResetState : Prop :=
  let s := State.reset
  s.dev.dstate = .sounding ∧ s.dev.sound = [0, 0, 0, 0, 0, 0, 0, 0] ∧ s.dev.rampcfg = 1 ∧ s.dev.mbox.saddr = 0 ∧
  (∀ i, s.dev.dshare.getD i 0 = 0) ∧
  (∀ q, let x := s.queueAt q;
    x.en = false ∧ x.kill = false ∧ x.prio = 0 ∧ x.dclass = 0 ∧ x.replay = 0 ∧ x.ctx = 0 ∧ x.sublog = 4 ∧ x.cpllog = 4) ∧
  (∀ c, let x := s.ctxAt c;
    x.exists_ = false ∧ x.invDone = true ∧ x.wdog = 10000000 ∧ x.dbgAttach = false ∧ x.vector = 0 ∧
      ∀ i, x.wps.getD i 0 = 0) ∧
  (let p := s.dev.ptp;
    p.tcfg = 0xFFFF7F02 ∧ p.tmac.toNat < 2 ^ 48 ∧ p.tip = 0 ∧ p.tmask = 0 ∧ p.tgw = 0 ∧ p.tuni = 0 ∧ p.tint = 0x03FDFEFD ∧ p.lock = .free ∧
      p.toff = 0 ∧ p.tgm = 0 ∧ p.tstep = 0) ∧
  s.launches = [] ∧ s.crews = [] ∧ s.threads = [] ∧ s.gangs = [] ∧ s.slots = [] ∧ s.eops = [] ∧ State.Canonical s

/-- A step runs the decoded instruction. A gang that issues next, at the word the agenda names, takes the words at its
lanes' address and decodes them; where their rate is the gang's and no decode check fails, the word begins in the active lanes (one lane
under ELECT), and the step is `exec` of the decoded instruction, followed by what follows every word. Where every active lane can
start the word and no breakpoint matches, it does begin, in those lanes. A word of another rate is gone past. An event that the
agenda names is a step of its own; what the time demands comes before both (`dueMove`), in the order that the agenda names; so is an
image that the loader tells of. The agenda, and that what the time demands comes first, are the model's own choice of an order (log 17), as is the order of
the checks at an issue (log 16) and the loader (log 61). -/
def Obligations.StepRunsDecoded : Prop :=
  ∀ (s : State) (g t : Nat) (rest : List Pick) (a : DWord) (lanes : List Nat) (v : State) (w next : Nat),
    s.dev.power = true →
    (s.agenda = .issue g 0 :: rest → s.dueMove = none →
      let u := { s with agenda := rest }
      u.mayIssue g = true → u.issueAt g = some (a, lanes) → lanes.headD 0 = t →
      let x := lanes.foldl (fun s t => (s.returnDue t).settle t) u
      (∀ l ∈ lanes, x.fetchRefused l a = none) → x.fetchWords (x.coreOf t) (x.ctxIdOf t) a = .ok v w next →
      ((∃ loc host peer pte bits, x.fetchAt (x.coreOf t) (x.ctxIdOf t) a = .ok loc host peer pte bits ∧ w = x.mem.readLE loc 16) ∧
        ((readCtl w).rate ≠ (v.gangAt g).rate → step s = .next (v.skipWord lanes (fieldN w 126 2))) ∧
        ∀ f, decodeWords w next = .ok f → f.ctl.rate = (v.gangAt g).rate → v.decodeFault t a (fieldN w 102 10) f = none →
          let active := if f.ctl.elect then lanes.take 1 else lanes
          (∀ b i n again, v.beginWord g a (fieldN w 102 10) f active = .run b i n again →
            i = f.ins ∧ ∀ r, exec f.ins b = .next r → step s = .next (r.afterIssue b g n again)) ∧
          ((∀ l ∈ active, (v.takeUp g a f active).startOf l (fieldN w 102 10) f.ctl (usesOf f.ins) = .run) → active ≠ [] → active.Nodup →
            (∀ l ∈ active, SMap.get? v.threads l ≠ none) → SMap.sorted v.threads = true → (∀ c p, v.breakpoint c p = none) →
            ∃ b n again, v.beginWord g a (fieldN w 102 10) f active = .run b f.ins n again ∧ b.iss.lanes = active ∧
              b.iss.addr = a ∧ b.iss.gang = g ∧ b.iss.len = (encode f).length ∧ b.iss.faults = [] ∧ b.mem = v.mem))) ∧
    (∀ i, s.agenda = .event i :: rest → isEvent i = true → i ≠ .fundamentalReset → s.dueMove = none →
      step s = exec i { s with agenda := rest }) ∧
    (∀ i, s.agenda = .event i :: rest → s.isDue i = true → s.dev.dstate ≠ .sounding → step s = exec i { s with agenda := rest }) ∧
    ∀ im, s.agenda = .image im :: rest → s.dueMove = none → step s = .next { s with
      agenda := rest, images := im :: s.images.filter fun x => x.ctx != im.ctx || !overlap x.base x.size im.base im.size }

/-- Words written out from the spec's encodings decode to the instructions they stand for (the worked examples of the
encodings in files 03, 05 to 11 and 15). -/
def Obligations.DecodeWords : Prop :=
  let n (st : BitVec 4) (p : BitVec 3) : Ctl := { stall := st, rate := .N, elect := false, pred := p, pneg := false }
  let m : FMods := { neg := 0, abs := 0 }
  let lead : Ctl := { stall := 0, rate := .N, elect := true, pred := 7, pneg := false }
  let atS : Ctl := { stall := 0, rate := .S, elect := false, pred := 7, pneg := false }
  let px : Half := { op := .ffma, d := 8, a := 1, b := 2, c := 3, ty := .f32, rm := .rne, fm := m }
  let py : Half := { op := .ffma, d := 13, a := 1, b := 4, c := 3, ty := .f32, rm := .rne, fm := m }
  let dec (w next : Nat) (k : Ctl) (i : Instr) : Prop := decodeWords w next = .ok { ctl := k, ins := i }
  dec 0x141040C2004080C01200000000000000 0 (n 5 2) (.ffma .rne m (.v 8) (.v 1) (.v 2) (.v 3)) ∧
  dec 0x543826100204060000261A0208060000 0 (n 5 7) (.pairedWord px py) ∧
  dec 0x0C38010100008000CE00100000000000 0 (n 3 7) (.add false .n32 (.v 4) (.v 0) (.reg (.v 2)) 1) ∧
  dec 0x143860028081C000E448000000000005 0 (n 5 7) (.cvt (.f8 false false 4) .f32 .sr .sat m false 0 (.v 10) (.v 2) (.v 7) .none) ∧
  dec 0x0038808200800003C350000000000040 0 (n 0 7) (.ldg { ord := 1, scope := 2, remote := false, disp := 64 } .b32 (.v 8) (.v 2)) ∧
  dec 0x0038A0000000003FC000000000000003 0 (n 0 7) (.bar 0 0 3) ∧
  dec 0x8078C00A02000003D290043000000000 0xC0000000000000000000000000000324 lead (.mma false false (.f8 false false 4) (.f8 false false 4) 0 0 2 3 12 (.v 40) (.v 8) .none .none) ∧
  dec 0x0338C48180800007D200000000000000 0 atS (.deriv false false (.v 6) (.h 2 0)) ∧
  dec 0x0038C84501014000C000000000000000 0 (n 0 7) (.ccatch { cpl := 0, che := false, sel := 0 } (.v 20) (.v 4) (.v 5)) ∧
  dec 0x0038E4400000003FC000000000000001 0 (n 0 7) (.tretSkip)

/-- Decode and encode agree for every instruction of every family (R85 to R96, R108): the words of a well-formed
instruction, with every operand at every value that its encoding admits, decode to it whatever word follows a single one, and each
is a word of 128 bits; and a word outside the hint region that decodes is spelled by what it decodes to. -/
def Obligations.DecodeOfEncode : Prop :=
  (∀ (f : Fetched) (w : Nat), f.wf = true → encode f = [w] → w < 2 ^ 128 ∧ ∀ next, decodeWords w next = .ok f) ∧
  (∀ (f : Fetched) (w next : Nat), f.wf = true → encode f = [w, next] →
    w < 2 ^ 128 ∧ next < 2 ^ 128 ∧ decodeWords w next = .ok f) ∧
  (∀ f : Fetched, f.wf = true → ∃ w, encode f = [w] ∨ ∃ next, encode f = [w, next]) ∧
  ∀ (f : Fetched) (w next : Nat), fieldN w 102 10 < 0x3C0 ∨ fieldN w 126 2 = 1 → decodeWords w next = .ok f →
    f.wf = true ∧ (encode f = [w] ∨ encode f = [w, next])

/-- Every step keeps memory in its canonical form: two memories that read alike stay the same list. -/
def Obligations.StepsKeepMemoryCanonical : Prop :=
  ∀ s t : State, s.mem.wf = true → step s = .next t → t.mem.wf = true
end

