-- ==== Sys2Proof/Laws/SMap.lean ====
section
/-! SUPPORT. Laws of the finite maps: what a key reads as after each operation, and that every operation keeps the keys
strictly rising. -/

namespace Sys2Proof.Machine

theorem SMap.get?_nil {α : Type} (i : Nat) : SMap.get? ([] : SMap α) i = none := rfl

theorem SMap.get?_cons {α : Type} (k : Nat) (v : α) (m : SMap α) (i : Nat) :
    SMap.get? ((k, v) :: m) i = if i = k then some v else SMap.get? m i := rfl

/-- A key reads as what was put there. -/
@[simp] theorem SMap.get?_put_self {α : Type} (m : SMap α) (i : Nat) (v : α) : SMap.get? (SMap.put m i v) i = some v := by
  induction m with
  | nil => simp [SMap.put, SMap.get?]
  | cons kw m ih =>
    obtain ⟨k, w⟩ := kw
    simp only [SMap.put]
    split
    · simp [SMap.get?]
    · split <;> simp_all [SMap.get?]

/-- Every other key reads as before a put. -/
theorem SMap.get?_put_ne {α : Type} (m : SMap α) {i j : Nat} (v : α) (h : j ≠ i) :
    SMap.get? (SMap.put m i v) j = SMap.get? m j := by
  induction m with
  | nil => simp [SMap.put, SMap.get?, h]
  | cons kw m ih =>
    obtain ⟨k, w⟩ := kw
    simp only [SMap.put]
    split
    · simp [SMap.get?, h]
    · split
      · subst k; simp [SMap.get?, h]
      · simp [SMap.get?, ih]

/-- What any key reads as after a put. -/
theorem SMap.get?_put {α : Type} (m : SMap α) (i j : Nat) (v : α) :
    SMap.get? (SMap.put m i v) j = if j = i then some v else SMap.get? m j := by
  split
  · subst j; simp
  · exact SMap.get?_put_ne m v ‹_›

@[simp] theorem SMap.getD_put_self {α : Type} (m : SMap α) (i : Nat) (v d : α) : SMap.getD (SMap.put m i v) i d = v := by
  simp [SMap.getD]

theorem SMap.getD_put_ne {α : Type} (m : SMap α) {i j : Nat} (v d : α) (h : j ≠ i) :
    SMap.getD (SMap.put m i v) j d = SMap.getD m j d := by
  simp [SMap.getD, SMap.get?_put_ne m v h]

/-- Every other key reads as before a deletion. -/
theorem SMap.get?_del_ne {α : Type} (m : SMap α) {i j : Nat} (h : j ≠ i) : SMap.get? (SMap.del m i) j = SMap.get? m j := by
  induction m with
  | nil => rfl
  | cons kw m ih =>
    obtain ⟨k, w⟩ := kw
    simp only [SMap.del]
    split
    · subst k; simp [SMap.get?, h]
    · split
      · rfl
      · simp [SMap.get?, ih]

/-- A change at a key. -/
@[simp] theorem SMap.get?_modify_self {α : Type} (m : SMap α) (i : Nat) (f : α → α) :
    SMap.get? (SMap.modify m i f) i = (SMap.get? m i).map f := by
  unfold SMap.modify
  cases h : SMap.get? m i <;> simp [h]

theorem SMap.get?_modify_ne {α : Type} (m : SMap α) {i j : Nat} (f : α → α) (h : j ≠ i) :
    SMap.get? (SMap.modify m i f) j = SMap.get? m j := by
  unfold SMap.modify
  cases SMap.get? m i
  · rfl
  · exact SMap.get?_put_ne m _ h

theorem SMap.get?_modify {α : Type} (m : SMap α) (i j : Nat) (f : α → α) :
    SMap.get? (SMap.modify m i f) j = if j = i then (SMap.get? m i).map f else SMap.get? m j := by
  split
  · subst j; simp
  · exact SMap.get?_modify_ne m f ‹_›

theorem SMap.getD_modify_ne {α : Type} (m : SMap α) {i j : Nat} (f : α → α) (d : α) (h : j ≠ i) :
    SMap.getD (SMap.modify m i f) j d = SMap.getD m j d := by
  simp [SMap.getD, SMap.get?_modify_ne m f h]

theorem SMap.get?_mapVals {α : Type} (f : Nat → α → α) (m : SMap α) (i : Nat) :
    SMap.get? (SMap.mapVals f m) i = (SMap.get? m i).map (f i) := by
  induction m with
  | nil => rfl
  | cons kv m ih =>
    obtain ⟨k, v⟩ := kv
    simp only [SMap.mapVals, List.map_cons, SMap.get?] at ih ⊢
    split
    · simp_all
    · exact ih

/-- The canonical form, said of the keys. -/
theorem SMap.sorted_iff {α : Type} (m : SMap α) : SMap.sorted m = true ↔ (SMap.keys m).Pairwise (· < ·) := by
  induction m with
  | nil => simp [SMap.sorted, SMap.keys]
  | cons kv m ih =>
    obtain ⟨k, v⟩ := kv
    cases m with
    | nil => simp [SMap.sorted, SMap.keys]
    | cons kw m =>
      obtain ⟨k', w⟩ := kw
      simp only [SMap.sorted, Bool.and_eq_true, decide_eq_true_eq, ih, SMap.keys, List.map_cons, List.pairwise_cons,
        List.mem_cons]
      constructor
      · rintro ⟨h, h1, h2⟩
        exact ⟨fun a ha => ha.elim (fun e => e ▸ h) (fun ha => lt_trans h (h1 a ha)), h1, h2⟩
      · rintro ⟨h, h1, h2⟩
        exact ⟨h k' (.inl rfl), h1, h2⟩

theorem SMap.mem_keys_put {α : Type} (m : SMap α) (i : Nat) (v : α) (k : Nat) :
    k ∈ SMap.keys (SMap.put m i v) → k = i ∨ k ∈ SMap.keys m := by
  induction m with
  | nil => simp [SMap.put, SMap.keys]
  | cons kw m ih =>
    obtain ⟨k', w⟩ := kw
    simp only [SMap.put, SMap.keys] at ih ⊢
    split
    · simp
    · split
      · simp only [List.map_cons, List.mem_cons]; tauto
      · simp only [List.map_cons, List.mem_cons]
        rintro (h | h)
        · exact .inr (.inl h)
        · rcases ih h with h | h
          · exact .inl h
          · exact .inr (.inr h)

/-- A put keeps the canonical form. -/
theorem SMap.sorted_put {α : Type} (m : SMap α) (i : Nat) (v : α) (h : SMap.sorted m = true) :
    SMap.sorted (SMap.put m i v) = true := by
  rw [SMap.sorted_iff] at h ⊢
  induction m with
  | nil => simp [SMap.put, SMap.keys]
  | cons kw m ih =>
    obtain ⟨k, w⟩ := kw
    have hk : (SMap.keys m).Pairwise (· < ·) := (List.pairwise_cons.mp h).2
    have hlt : ∀ a ∈ SMap.keys m, k < a := (List.pairwise_cons.mp h).1
    simp only [SMap.put]
    split
    · rename_i hi
      refine List.pairwise_cons.mpr ⟨?_, h⟩
      intro a ha
      rcases List.mem_cons.mp ha with rfl | ha
      · exact hi
      · exact lt_trans hi (hlt a ha)
    · split
      · subst k; exact h
      · rename_i h1 h2
        refine List.pairwise_cons.mpr ⟨?_, ih hk⟩
        intro a ha
        rcases SMap.mem_keys_put m i v a ha with rfl | ha
        · omega
        · exact hlt a ha

theorem SMap.del_sublist {α : Type} (m : SMap α) (i : Nat) : (SMap.del m i).Sublist m := by
  induction m with
  | nil => simp [SMap.del]
  | cons kw m ih =>
    obtain ⟨k, w⟩ := kw
    simp only [SMap.del]
    split
    · exact List.sublist_cons_self _ _
    · split
      · exact List.Sublist.refl _
      · exact ih.cons_cons _

/-- Part of a canonical map is canonical. -/
theorem SMap.sorted_sublist {α : Type} {m m' : SMap α} (hs : m'.Sublist m) (h : SMap.sorted m = true) :
    SMap.sorted m' = true := by
  rw [SMap.sorted_iff] at h ⊢
  exact h.sublist (hs.map _)

theorem SMap.sorted_del {α : Type} (m : SMap α) (i : Nat) (h : SMap.sorted m = true) : SMap.sorted (SMap.del m i) = true :=
  SMap.sorted_sublist (SMap.del_sublist m i) h

theorem SMap.sorted_keep {α : Type} (m : SMap α) (p : Nat → α → Bool) (h : SMap.sorted m = true) :
    SMap.sorted (SMap.keep m p) = true :=
  SMap.sorted_sublist List.filter_sublist h

theorem SMap.sorted_modify {α : Type} (m : SMap α) (i : Nat) (f : α → α) (h : SMap.sorted m = true) :
    SMap.sorted (SMap.modify m i f) = true := by
  unfold SMap.modify
  split
  · exact SMap.sorted_put m i _ h
  · exact h

theorem SMap.sorted_mapVals {α : Type} (f : Nat → α → α) (m : SMap α) (h : SMap.sorted m = true) :
    SMap.sorted (SMap.mapVals f m) = true := by
  rw [SMap.sorted_iff] at h ⊢
  simpa [SMap.keys, SMap.mapVals, List.map_map, Function.comp_def] using h

/-- A key below all keys of a map is not in it. -/
theorem SMap.get?_none_of_lt {α : Type} (m : SMap α) (i : Nat) (h : ∀ k ∈ SMap.keys m, i < k) : SMap.get? m i = none := by
  induction m with
  | nil => rfl
  | cons kw m ih =>
    obtain ⟨k, w⟩ := kw
    have hk : i < k := h k (by simp [SMap.keys])
    simp only [SMap.get?, Nat.ne_of_lt hk, if_false]
    exact ih fun a ha => h a (by simp only [SMap.keys, List.map_cons, List.mem_cons]; exact .inr ha)

/-- A deleted key of a canonical map is gone. -/
theorem SMap.get?_del_self {α : Type} (m : SMap α) (i : Nat) (h : SMap.sorted m = true) : SMap.get? (SMap.del m i) i = none := by
  rw [SMap.sorted_iff] at h
  induction m with
  | nil => rfl
  | cons kw m ih =>
    obtain ⟨k, w⟩ := kw
    have hk := List.pairwise_cons.mp h
    simp only [SMap.del]
    split
    · subst k; exact SMap.get?_none_of_lt m i hk.1
    · split
      · rename_i h1 h2
        refine SMap.get?_none_of_lt _ _ ?_
        intro a ha
        rcases List.mem_cons.mp ha with rfl | ha
        · exact h2
        · exact lt_trans h2 (hk.1 a ha)
      · rename_i h1 _
        simp only [SMap.get?, h1, if_false]
        exact ih hk.2

/-- Deleting keeps or drops what a key reads as. -/
theorem SMap.get?_del {α : Type} (m : SMap α) (i j : Nat) (h : SMap.sorted m = true) :
    SMap.get? (SMap.del m i) j = if j = i then none else SMap.get? m j := by
  split
  · subst j; exact SMap.get?_del_self m i h
  · exact SMap.get?_del_ne m ‹_›

/-- What a map holds at a key is one of its entries. -/
theorem SMap.mem_of_get? {α : Type} {m : SMap α} {i : Nat} {v : α} (h : SMap.get? m i = some v) : (i, v) ∈ m := by
  induction m with
  | nil => simp [SMap.get?] at h
  | cons kw m ih =>
    obtain ⟨k, w⟩ := kw
    simp only [SMap.get?] at h
    split at h
    · simp_all
    · exact List.mem_cons_of_mem _ (ih h)

/-- An entry of a canonical map is what it holds at its key. -/
theorem SMap.get?_of_mem {α : Type} {m : SMap α} {i : Nat} {v : α} (hs : SMap.sorted m = true) (h : (i, v) ∈ m) :
    SMap.get? m i = some v := by
  rw [SMap.sorted_iff] at hs
  induction m with
  | nil => simp at h
  | cons kw m ih =>
    obtain ⟨k, w⟩ := kw
    have hk := List.pairwise_cons.mp hs
    simp only [SMap.get?]
    rcases List.mem_cons.mp h with h | h
    · simp_all
    · have : k < i := hk.1 i (List.mem_map.mpr ⟨(i, v), h, rfl⟩)
      simp only [Nat.ne_of_gt this, if_false]
      exact ih hk.2 h

theorem SMap.mem_put {α : Type} {m : SMap α} {i : Nat} {v : α} {e : Nat × α} (h : e ∈ SMap.put m i v) :
    e = (i, v) ∨ e ∈ m := by
  induction m with
  | nil => simpa [SMap.put] using h
  | cons kw m ih =>
    obtain ⟨k, w⟩ := kw
    simp only [SMap.put] at h
    split at h
    · simpa using h
    · split at h
      · rcases List.mem_cons.mp h with h | h
        · exact .inl h
        · exact .inr (List.mem_cons_of_mem _ h)
      · rcases List.mem_cons.mp h with h | h
        · exact .inr (h ▸ List.mem_cons_self)
        · exact (ih h).imp id (List.mem_cons_of_mem _)

/-- Canonical maps that hold the same at every key are the same map. -/
theorem SMap.ext {α : Type} {m m' : SMap α} (h : SMap.sorted m = true) (h' : SMap.sorted m' = true)
    (hg : ∀ i, SMap.get? m i = SMap.get? m' i) : m = m' := by
  rw [SMap.sorted_iff] at h h'
  induction m generalizing m' with
  | nil =>
    cases m' with
    | nil => rfl
    | cons kw m' => obtain ⟨k, w⟩ := kw; simpa [SMap.get?] using hg k
  | cons kv m ih =>
    obtain ⟨k, v⟩ := kv
    cases m' with
    | nil => simpa [SMap.get?] using hg k
    | cons kw m' =>
      obtain ⟨k', w⟩ := kw
      have hk := List.pairwise_cons.mp h
      have hk' := List.pairwise_cons.mp h'
      have hlt : ∀ i, i ≤ k → SMap.get? m i = none := fun i hi =>
        SMap.get?_none_of_lt m i fun a ha => lt_of_le_of_lt hi (hk.1 a ha)
      have hlt' : ∀ i, i ≤ k' → SMap.get? m' i = none := fun i hi =>
        SMap.get?_none_of_lt m' i fun a ha => lt_of_le_of_lt hi (hk'.1 a ha)
      have e1 := hg k
      have e2 := hg k'
      simp only [SMap.get?, if_true] at e1 e2
      have ek : k = k' := by
        by_contra hne
        rcases Nat.lt_or_gt_of_ne hne with hl | hl
        · simp [hne, hlt' k (Nat.le_of_lt hl)] at e1
        · simp [Ne.symm hne, hlt k' (Nat.le_of_lt hl)] at e2
      subst ek
      simp only [if_true, Option.some.injEq] at e1
      subst e1
      have := ih hk.2 hk'.2 fun i => by
        by_cases hi : i ≤ k
        · rw [hlt i hi, hlt' i hi]
        · have := hg i
          simpa [SMap.get?, show i ≠ k by omega] using this
      rw [this]

end Sys2Proof.Machine
end

