-- ==== Sys2Proof/Laws/State.lean ====
section
/-! SUPPORT. What each update of the machine's state leaves in each of its fields. Every law holds by computation. -/

namespace Sys2Proof.Machine

@[simp] theorem State.modThr_cycle (s : State) (t : Nat) (f : Thread → Thread) : (s.modThr t f).cycle = s.cycle := rfl
@[simp] theorem State.modThr_rtime (s : State) (t : Nat) (f : Thread → Thread) : (s.modThr t f).rtime = s.rtime := rfl
@[simp] theorem State.modThr_ptime (s : State) (t : Nat) (f : Thread → Thread) : (s.modThr t f).ptime = s.ptime := rfl
@[simp] theorem State.modThr_phase (s : State) (t : Nat) (f : Thread → Thread) : (s.modThr t f).phase = s.phase := rfl
@[simp] theorem State.modThr_fresh (s : State) (t : Nat) (f : Thread → Thread) : (s.modThr t f).fresh = s.fresh := rfl
@[simp] theorem State.modThr_free (s : State) (t : Nat) (f : Thread → Thread) : (s.modThr t f).free = s.free := rfl
@[simp] theorem State.modThr_dev (s : State) (t : Nat) (f : Thread → Thread) : (s.modThr t f).dev = s.dev := rfl
@[simp] theorem State.modThr_mem (s : State) (t : Nat) (f : Thread → Thread) : (s.modThr t f).mem = s.mem := rfl
@[simp] theorem State.modThr_tlb (s : State) (t : Nat) (f : Thread → Thread) : (s.modThr t f).tlb = s.tlb := rfl
@[simp] theorem State.modThr_absent (s : State) (t : Nat) (f : Thread → Thread) : (s.modThr t f).absent = s.absent := rfl
@[simp] theorem State.modThr_ctxs (s : State) (t : Nat) (f : Thread → Thread) : (s.modThr t f).ctxs = s.ctxs := rfl
@[simp] theorem State.modThr_images (s : State) (t : Nat) (f : Thread → Thread) : (s.modThr t f).images = s.images := rfl
@[simp] theorem State.modThr_ckpts (s : State) (t : Nat) (f : Thread → Thread) : (s.modThr t f).ckpts = s.ckpts := rfl
@[simp] theorem State.modThr_queues (s : State) (t : Nat) (f : Thread → Thread) : (s.modThr t f).queues = s.queues := rfl
@[simp] theorem State.modThr_calendar (s : State) (t : Nat) (f : Thread → Thread) : (s.modThr t f).calendar = s.calendar := rfl
@[simp] theorem State.modThr_launches (s : State) (t : Nat) (f : Thread → Thread) : (s.modThr t f).launches = s.launches := rfl
@[simp] theorem State.modThr_nextLot (s : State) (t : Nat) (f : Thread → Thread) : (s.modThr t f).nextLot = s.nextLot := rfl
@[simp] theorem State.modThr_commits (s : State) (t : Nat) (f : Thread → Thread) : (s.modThr t f).commits = s.commits := rfl
@[simp] theorem State.modThr_waiting (s : State) (t : Nat) (f : Thread → Thread) : (s.modThr t f).waiting = s.waiting := rfl
@[simp] theorem State.modThr_crews (s : State) (t : Nat) (f : Thread → Thread) : (s.modThr t f).crews = s.crews := rfl
@[simp] theorem State.modThr_threads (s : State) (t : Nat) (f : Thread → Thread) : (s.modThr t f).threads = SMap.modify s.threads t f := rfl
@[simp] theorem State.modThr_gangs (s : State) (t : Nat) (f : Thread → Thread) : (s.modThr t f).gangs = s.gangs := rfl
@[simp] theorem State.modThr_formings (s : State) (t : Nat) (f : Thread → Thread) : (s.modThr t f).formings = s.formings := rfl
@[simp] theorem State.modThr_bins (s : State) (t : Nat) (f : Thread → Thread) : (s.modThr t f).bins = s.bins := rfl
@[simp] theorem State.modThr_bars (s : State) (t : Nat) (f : Thread → Thread) : (s.modThr t f).bars = s.bars := rfl
@[simp] theorem State.modThr_msgs (s : State) (t : Nat) (f : Thread → Thread) : (s.modThr t f).msgs = s.msgs := rfl
@[simp] theorem State.modThr_results (s : State) (t : Nat) (f : Thread → Thread) : (s.modThr t f).results = s.results := rfl
@[simp] theorem State.modThr_stores (s : State) (t : Nat) (f : Thread → Thread) : (s.modThr t f).stores = s.stores := rfl
@[simp] theorem State.modThr_buffers (s : State) (t : Nat) (f : Thread → Thread) : (s.modThr t f).buffers = s.buffers := rfl
@[simp] theorem State.modThr_rmws (s : State) (t : Nat) (f : Thread → Thread) : (s.modThr t f).rmws = s.rmws := rfl
@[simp] theorem State.modThr_eops (s : State) (t : Nat) (f : Thread → Thread) : (s.modThr t f).eops = s.eops := rfl
@[simp] theorem State.modThr_rides (s : State) (t : Nat) (f : Thread → Thread) : (s.modThr t f).rides = s.rides := rfl
@[simp] theorem State.modThr_packets (s : State) (t : Nat) (f : Thread → Thread) : (s.modThr t f).packets = s.packets := rfl
@[simp] theorem State.modThr_hostReads (s : State) (t : Nat) (f : Thread → Thread) : (s.modThr t f).hostReads = s.hostReads := rfl
@[simp] theorem State.modThr_slots (s : State) (t : Nat) (f : Thread → Thread) : (s.modThr t f).slots = s.slots := rfl
@[simp] theorem State.modThr_pairs (s : State) (t : Nat) (f : Thread → Thread) : (s.modThr t f).pairs = s.pairs := rfl
@[simp] theorem State.modThr_acc (s : State) (t : Nat) (f : Thread → Thread) : (s.modThr t f).acc = s.acc := rfl
@[simp] theorem State.modThr_tileStat (s : State) (t : Nat) (f : Thread → Thread) : (s.modThr t f).tileStat = s.tileStat := rfl
@[simp] theorem State.modThr_infers (s : State) (t : Nat) (f : Thread → Thread) : (s.modThr t f).infers = s.infers := rfl
@[simp] theorem State.modThr_collInst (s : State) (t : Nat) (f : Thread → Thread) : (s.modThr t f).collInst = s.collInst := rfl
@[simp] theorem State.modThr_collIn (s : State) (t : Nat) (f : Thread → Thread) : (s.modThr t f).collIn = s.collIn := rfl
@[simp] theorem State.modThr_collIssued (s : State) (t : Nat) (f : Thread → Thread) : (s.modThr t f).collIssued = s.collIssued := rfl
@[simp] theorem State.modThr_elems (s : State) (t : Nat) (f : Thread → Thread) : (s.modThr t f).elems = s.elems := rfl
@[simp] theorem State.modThr_creations (s : State) (t : Nat) (f : Thread → Thread) : (s.modThr t f).creations = s.creations := rfl
@[simp] theorem State.modThr_batches (s : State) (t : Nat) (f : Thread → Thread) : (s.modThr t f).batches = s.batches := rfl
@[simp] theorem State.modThr_engineWait (s : State) (t : Nat) (f : Thread → Thread) : (s.modThr t f).engineWait = s.engineWait := rfl
@[simp] theorem State.modThr_iss (s : State) (t : Nat) (f : Thread → Thread) : (s.modThr t f).iss = s.iss := rfl
@[simp] theorem State.modThr_outs (s : State) (t : Nat) (f : Thread → Thread) : (s.modThr t f).outs = s.outs := rfl
@[simp] theorem State.modThr_agenda (s : State) (t : Nat) (f : Thread → Thread) : (s.modThr t f).agenda = s.agenda := rfl

@[simp] theorem State.modCrew_cycle (s : State) (c : Nat) (f : Crew → Crew) : (s.modCrew c f).cycle = s.cycle := rfl
@[simp] theorem State.modCrew_rtime (s : State) (c : Nat) (f : Crew → Crew) : (s.modCrew c f).rtime = s.rtime := rfl
@[simp] theorem State.modCrew_ptime (s : State) (c : Nat) (f : Crew → Crew) : (s.modCrew c f).ptime = s.ptime := rfl
@[simp] theorem State.modCrew_phase (s : State) (c : Nat) (f : Crew → Crew) : (s.modCrew c f).phase = s.phase := rfl
@[simp] theorem State.modCrew_fresh (s : State) (c : Nat) (f : Crew → Crew) : (s.modCrew c f).fresh = s.fresh := rfl
@[simp] theorem State.modCrew_free (s : State) (c : Nat) (f : Crew → Crew) : (s.modCrew c f).free = s.free := rfl
@[simp] theorem State.modCrew_dev (s : State) (c : Nat) (f : Crew → Crew) : (s.modCrew c f).dev = s.dev := rfl
@[simp] theorem State.modCrew_mem (s : State) (c : Nat) (f : Crew → Crew) : (s.modCrew c f).mem = s.mem := rfl
@[simp] theorem State.modCrew_tlb (s : State) (c : Nat) (f : Crew → Crew) : (s.modCrew c f).tlb = s.tlb := rfl
@[simp] theorem State.modCrew_absent (s : State) (c : Nat) (f : Crew → Crew) : (s.modCrew c f).absent = s.absent := rfl
@[simp] theorem State.modCrew_ctxs (s : State) (c : Nat) (f : Crew → Crew) : (s.modCrew c f).ctxs = s.ctxs := rfl
@[simp] theorem State.modCrew_images (s : State) (c : Nat) (f : Crew → Crew) : (s.modCrew c f).images = s.images := rfl
@[simp] theorem State.modCrew_ckpts (s : State) (c : Nat) (f : Crew → Crew) : (s.modCrew c f).ckpts = s.ckpts := rfl
@[simp] theorem State.modCrew_queues (s : State) (c : Nat) (f : Crew → Crew) : (s.modCrew c f).queues = s.queues := rfl
@[simp] theorem State.modCrew_calendar (s : State) (c : Nat) (f : Crew → Crew) : (s.modCrew c f).calendar = s.calendar := rfl
@[simp] theorem State.modCrew_launches (s : State) (c : Nat) (f : Crew → Crew) : (s.modCrew c f).launches = s.launches := rfl
@[simp] theorem State.modCrew_nextLot (s : State) (c : Nat) (f : Crew → Crew) : (s.modCrew c f).nextLot = s.nextLot := rfl
@[simp] theorem State.modCrew_commits (s : State) (c : Nat) (f : Crew → Crew) : (s.modCrew c f).commits = s.commits := rfl
@[simp] theorem State.modCrew_waiting (s : State) (c : Nat) (f : Crew → Crew) : (s.modCrew c f).waiting = s.waiting := rfl
@[simp] theorem State.modCrew_crews (s : State) (c : Nat) (f : Crew → Crew) : (s.modCrew c f).crews = SMap.modify s.crews c f := rfl
@[simp] theorem State.modCrew_threads (s : State) (c : Nat) (f : Crew → Crew) : (s.modCrew c f).threads = s.threads := rfl
@[simp] theorem State.modCrew_gangs (s : State) (c : Nat) (f : Crew → Crew) : (s.modCrew c f).gangs = s.gangs := rfl
@[simp] theorem State.modCrew_formings (s : State) (c : Nat) (f : Crew → Crew) : (s.modCrew c f).formings = s.formings := rfl
@[simp] theorem State.modCrew_bins (s : State) (c : Nat) (f : Crew → Crew) : (s.modCrew c f).bins = s.bins := rfl
@[simp] theorem State.modCrew_bars (s : State) (c : Nat) (f : Crew → Crew) : (s.modCrew c f).bars = s.bars := rfl
@[simp] theorem State.modCrew_msgs (s : State) (c : Nat) (f : Crew → Crew) : (s.modCrew c f).msgs = s.msgs := rfl
@[simp] theorem State.modCrew_results (s : State) (c : Nat) (f : Crew → Crew) : (s.modCrew c f).results = s.results := rfl
@[simp] theorem State.modCrew_stores (s : State) (c : Nat) (f : Crew → Crew) : (s.modCrew c f).stores = s.stores := rfl
@[simp] theorem State.modCrew_buffers (s : State) (c : Nat) (f : Crew → Crew) : (s.modCrew c f).buffers = s.buffers := rfl
@[simp] theorem State.modCrew_rmws (s : State) (c : Nat) (f : Crew → Crew) : (s.modCrew c f).rmws = s.rmws := rfl
@[simp] theorem State.modCrew_eops (s : State) (c : Nat) (f : Crew → Crew) : (s.modCrew c f).eops = s.eops := rfl
@[simp] theorem State.modCrew_rides (s : State) (c : Nat) (f : Crew → Crew) : (s.modCrew c f).rides = s.rides := rfl
@[simp] theorem State.modCrew_packets (s : State) (c : Nat) (f : Crew → Crew) : (s.modCrew c f).packets = s.packets := rfl
@[simp] theorem State.modCrew_hostReads (s : State) (c : Nat) (f : Crew → Crew) : (s.modCrew c f).hostReads = s.hostReads := rfl
@[simp] theorem State.modCrew_slots (s : State) (c : Nat) (f : Crew → Crew) : (s.modCrew c f).slots = s.slots := rfl
@[simp] theorem State.modCrew_pairs (s : State) (c : Nat) (f : Crew → Crew) : (s.modCrew c f).pairs = s.pairs := rfl
@[simp] theorem State.modCrew_acc (s : State) (c : Nat) (f : Crew → Crew) : (s.modCrew c f).acc = s.acc := rfl
@[simp] theorem State.modCrew_tileStat (s : State) (c : Nat) (f : Crew → Crew) : (s.modCrew c f).tileStat = s.tileStat := rfl
@[simp] theorem State.modCrew_infers (s : State) (c : Nat) (f : Crew → Crew) : (s.modCrew c f).infers = s.infers := rfl
@[simp] theorem State.modCrew_collInst (s : State) (c : Nat) (f : Crew → Crew) : (s.modCrew c f).collInst = s.collInst := rfl
@[simp] theorem State.modCrew_collIn (s : State) (c : Nat) (f : Crew → Crew) : (s.modCrew c f).collIn = s.collIn := rfl
@[simp] theorem State.modCrew_collIssued (s : State) (c : Nat) (f : Crew → Crew) : (s.modCrew c f).collIssued = s.collIssued := rfl
@[simp] theorem State.modCrew_elems (s : State) (c : Nat) (f : Crew → Crew) : (s.modCrew c f).elems = s.elems := rfl
@[simp] theorem State.modCrew_creations (s : State) (c : Nat) (f : Crew → Crew) : (s.modCrew c f).creations = s.creations := rfl
@[simp] theorem State.modCrew_batches (s : State) (c : Nat) (f : Crew → Crew) : (s.modCrew c f).batches = s.batches := rfl
@[simp] theorem State.modCrew_engineWait (s : State) (c : Nat) (f : Crew → Crew) : (s.modCrew c f).engineWait = s.engineWait := rfl
@[simp] theorem State.modCrew_iss (s : State) (c : Nat) (f : Crew → Crew) : (s.modCrew c f).iss = s.iss := rfl
@[simp] theorem State.modCrew_outs (s : State) (c : Nat) (f : Crew → Crew) : (s.modCrew c f).outs = s.outs := rfl
@[simp] theorem State.modCrew_agenda (s : State) (c : Nat) (f : Crew → Crew) : (s.modCrew c f).agenda = s.agenda := rfl

@[simp] theorem State.modLaunch_cycle (s : State) (l : Nat) (f : Launch → Launch) : (s.modLaunch l f).cycle = s.cycle := rfl
@[simp] theorem State.modLaunch_rtime (s : State) (l : Nat) (f : Launch → Launch) : (s.modLaunch l f).rtime = s.rtime := rfl
@[simp] theorem State.modLaunch_ptime (s : State) (l : Nat) (f : Launch → Launch) : (s.modLaunch l f).ptime = s.ptime := rfl
@[simp] theorem State.modLaunch_phase (s : State) (l : Nat) (f : Launch → Launch) : (s.modLaunch l f).phase = s.phase := rfl
@[simp] theorem State.modLaunch_fresh (s : State) (l : Nat) (f : Launch → Launch) : (s.modLaunch l f).fresh = s.fresh := rfl
@[simp] theorem State.modLaunch_free (s : State) (l : Nat) (f : Launch → Launch) : (s.modLaunch l f).free = s.free := rfl
@[simp] theorem State.modLaunch_dev (s : State) (l : Nat) (f : Launch → Launch) : (s.modLaunch l f).dev = s.dev := rfl
@[simp] theorem State.modLaunch_mem (s : State) (l : Nat) (f : Launch → Launch) : (s.modLaunch l f).mem = s.mem := rfl
@[simp] theorem State.modLaunch_tlb (s : State) (l : Nat) (f : Launch → Launch) : (s.modLaunch l f).tlb = s.tlb := rfl
@[simp] theorem State.modLaunch_absent (s : State) (l : Nat) (f : Launch → Launch) : (s.modLaunch l f).absent = s.absent := rfl
@[simp] theorem State.modLaunch_ctxs (s : State) (l : Nat) (f : Launch → Launch) : (s.modLaunch l f).ctxs = s.ctxs := rfl
@[simp] theorem State.modLaunch_images (s : State) (l : Nat) (f : Launch → Launch) : (s.modLaunch l f).images = s.images := rfl
@[simp] theorem State.modLaunch_ckpts (s : State) (l : Nat) (f : Launch → Launch) : (s.modLaunch l f).ckpts = s.ckpts := rfl
@[simp] theorem State.modLaunch_queues (s : State) (l : Nat) (f : Launch → Launch) : (s.modLaunch l f).queues = s.queues := rfl
@[simp] theorem State.modLaunch_calendar (s : State) (l : Nat) (f : Launch → Launch) : (s.modLaunch l f).calendar = s.calendar := rfl
@[simp] theorem State.modLaunch_launches (s : State) (l : Nat) (f : Launch → Launch) : (s.modLaunch l f).launches = SMap.modify s.launches l f := rfl
@[simp] theorem State.modLaunch_nextLot (s : State) (l : Nat) (f : Launch → Launch) : (s.modLaunch l f).nextLot = s.nextLot := rfl
@[simp] theorem State.modLaunch_commits (s : State) (l : Nat) (f : Launch → Launch) : (s.modLaunch l f).commits = s.commits := rfl
@[simp] theorem State.modLaunch_waiting (s : State) (l : Nat) (f : Launch → Launch) : (s.modLaunch l f).waiting = s.waiting := rfl
@[simp] theorem State.modLaunch_crews (s : State) (l : Nat) (f : Launch → Launch) : (s.modLaunch l f).crews = s.crews := rfl
@[simp] theorem State.modLaunch_threads (s : State) (l : Nat) (f : Launch → Launch) : (s.modLaunch l f).threads = s.threads := rfl
@[simp] theorem State.modLaunch_gangs (s : State) (l : Nat) (f : Launch → Launch) : (s.modLaunch l f).gangs = s.gangs := rfl
@[simp] theorem State.modLaunch_formings (s : State) (l : Nat) (f : Launch → Launch) : (s.modLaunch l f).formings = s.formings := rfl
@[simp] theorem State.modLaunch_bins (s : State) (l : Nat) (f : Launch → Launch) : (s.modLaunch l f).bins = s.bins := rfl
@[simp] theorem State.modLaunch_bars (s : State) (l : Nat) (f : Launch → Launch) : (s.modLaunch l f).bars = s.bars := rfl
@[simp] theorem State.modLaunch_msgs (s : State) (l : Nat) (f : Launch → Launch) : (s.modLaunch l f).msgs = s.msgs := rfl
@[simp] theorem State.modLaunch_results (s : State) (l : Nat) (f : Launch → Launch) : (s.modLaunch l f).results = s.results := rfl
@[simp] theorem State.modLaunch_stores (s : State) (l : Nat) (f : Launch → Launch) : (s.modLaunch l f).stores = s.stores := rfl
@[simp] theorem State.modLaunch_buffers (s : State) (l : Nat) (f : Launch → Launch) : (s.modLaunch l f).buffers = s.buffers := rfl
@[simp] theorem State.modLaunch_rmws (s : State) (l : Nat) (f : Launch → Launch) : (s.modLaunch l f).rmws = s.rmws := rfl
@[simp] theorem State.modLaunch_eops (s : State) (l : Nat) (f : Launch → Launch) : (s.modLaunch l f).eops = s.eops := rfl
@[simp] theorem State.modLaunch_rides (s : State) (l : Nat) (f : Launch → Launch) : (s.modLaunch l f).rides = s.rides := rfl
@[simp] theorem State.modLaunch_packets (s : State) (l : Nat) (f : Launch → Launch) : (s.modLaunch l f).packets = s.packets := rfl
@[simp] theorem State.modLaunch_hostReads (s : State) (l : Nat) (f : Launch → Launch) : (s.modLaunch l f).hostReads = s.hostReads := rfl
@[simp] theorem State.modLaunch_slots (s : State) (l : Nat) (f : Launch → Launch) : (s.modLaunch l f).slots = s.slots := rfl
@[simp] theorem State.modLaunch_pairs (s : State) (l : Nat) (f : Launch → Launch) : (s.modLaunch l f).pairs = s.pairs := rfl
@[simp] theorem State.modLaunch_acc (s : State) (l : Nat) (f : Launch → Launch) : (s.modLaunch l f).acc = s.acc := rfl
@[simp] theorem State.modLaunch_tileStat (s : State) (l : Nat) (f : Launch → Launch) : (s.modLaunch l f).tileStat = s.tileStat := rfl
@[simp] theorem State.modLaunch_infers (s : State) (l : Nat) (f : Launch → Launch) : (s.modLaunch l f).infers = s.infers := rfl
@[simp] theorem State.modLaunch_collInst (s : State) (l : Nat) (f : Launch → Launch) : (s.modLaunch l f).collInst = s.collInst := rfl
@[simp] theorem State.modLaunch_collIn (s : State) (l : Nat) (f : Launch → Launch) : (s.modLaunch l f).collIn = s.collIn := rfl
@[simp] theorem State.modLaunch_collIssued (s : State) (l : Nat) (f : Launch → Launch) : (s.modLaunch l f).collIssued = s.collIssued := rfl
@[simp] theorem State.modLaunch_elems (s : State) (l : Nat) (f : Launch → Launch) : (s.modLaunch l f).elems = s.elems := rfl
@[simp] theorem State.modLaunch_creations (s : State) (l : Nat) (f : Launch → Launch) : (s.modLaunch l f).creations = s.creations := rfl
@[simp] theorem State.modLaunch_batches (s : State) (l : Nat) (f : Launch → Launch) : (s.modLaunch l f).batches = s.batches := rfl
@[simp] theorem State.modLaunch_engineWait (s : State) (l : Nat) (f : Launch → Launch) : (s.modLaunch l f).engineWait = s.engineWait := rfl
@[simp] theorem State.modLaunch_iss (s : State) (l : Nat) (f : Launch → Launch) : (s.modLaunch l f).iss = s.iss := rfl
@[simp] theorem State.modLaunch_outs (s : State) (l : Nat) (f : Launch → Launch) : (s.modLaunch l f).outs = s.outs := rfl
@[simp] theorem State.modLaunch_agenda (s : State) (l : Nat) (f : Launch → Launch) : (s.modLaunch l f).agenda = s.agenda := rfl

@[simp] theorem State.modGang_cycle (s : State) (g : Nat) (f : Gang → Gang) : (s.modGang g f).cycle = s.cycle := rfl
@[simp] theorem State.modGang_rtime (s : State) (g : Nat) (f : Gang → Gang) : (s.modGang g f).rtime = s.rtime := rfl
@[simp] theorem State.modGang_ptime (s : State) (g : Nat) (f : Gang → Gang) : (s.modGang g f).ptime = s.ptime := rfl
@[simp] theorem State.modGang_phase (s : State) (g : Nat) (f : Gang → Gang) : (s.modGang g f).phase = s.phase := rfl
@[simp] theorem State.modGang_fresh (s : State) (g : Nat) (f : Gang → Gang) : (s.modGang g f).fresh = s.fresh := rfl
@[simp] theorem State.modGang_free (s : State) (g : Nat) (f : Gang → Gang) : (s.modGang g f).free = s.free := rfl
@[simp] theorem State.modGang_dev (s : State) (g : Nat) (f : Gang → Gang) : (s.modGang g f).dev = s.dev := rfl
@[simp] theorem State.modGang_mem (s : State) (g : Nat) (f : Gang → Gang) : (s.modGang g f).mem = s.mem := rfl
@[simp] theorem State.modGang_tlb (s : State) (g : Nat) (f : Gang → Gang) : (s.modGang g f).tlb = s.tlb := rfl
@[simp] theorem State.modGang_absent (s : State) (g : Nat) (f : Gang → Gang) : (s.modGang g f).absent = s.absent := rfl
@[simp] theorem State.modGang_ctxs (s : State) (g : Nat) (f : Gang → Gang) : (s.modGang g f).ctxs = s.ctxs := rfl
@[simp] theorem State.modGang_images (s : State) (g : Nat) (f : Gang → Gang) : (s.modGang g f).images = s.images := rfl
@[simp] theorem State.modGang_ckpts (s : State) (g : Nat) (f : Gang → Gang) : (s.modGang g f).ckpts = s.ckpts := rfl
@[simp] theorem State.modGang_queues (s : State) (g : Nat) (f : Gang → Gang) : (s.modGang g f).queues = s.queues := rfl
@[simp] theorem State.modGang_calendar (s : State) (g : Nat) (f : Gang → Gang) : (s.modGang g f).calendar = s.calendar := rfl
@[simp] theorem State.modGang_launches (s : State) (g : Nat) (f : Gang → Gang) : (s.modGang g f).launches = s.launches := rfl
@[simp] theorem State.modGang_nextLot (s : State) (g : Nat) (f : Gang → Gang) : (s.modGang g f).nextLot = s.nextLot := rfl
@[simp] theorem State.modGang_commits (s : State) (g : Nat) (f : Gang → Gang) : (s.modGang g f).commits = s.commits := rfl
@[simp] theorem State.modGang_waiting (s : State) (g : Nat) (f : Gang → Gang) : (s.modGang g f).waiting = s.waiting := rfl
@[simp] theorem State.modGang_crews (s : State) (g : Nat) (f : Gang → Gang) : (s.modGang g f).crews = s.crews := rfl
@[simp] theorem State.modGang_threads (s : State) (g : Nat) (f : Gang → Gang) : (s.modGang g f).threads = s.threads := rfl
@[simp] theorem State.modGang_gangs (s : State) (g : Nat) (f : Gang → Gang) : (s.modGang g f).gangs = SMap.modify s.gangs g f := rfl
@[simp] theorem State.modGang_formings (s : State) (g : Nat) (f : Gang → Gang) : (s.modGang g f).formings = s.formings := rfl
@[simp] theorem State.modGang_bins (s : State) (g : Nat) (f : Gang → Gang) : (s.modGang g f).bins = s.bins := rfl
@[simp] theorem State.modGang_bars (s : State) (g : Nat) (f : Gang → Gang) : (s.modGang g f).bars = s.bars := rfl
@[simp] theorem State.modGang_msgs (s : State) (g : Nat) (f : Gang → Gang) : (s.modGang g f).msgs = s.msgs := rfl
@[simp] theorem State.modGang_results (s : State) (g : Nat) (f : Gang → Gang) : (s.modGang g f).results = s.results := rfl
@[simp] theorem State.modGang_stores (s : State) (g : Nat) (f : Gang → Gang) : (s.modGang g f).stores = s.stores := rfl
@[simp] theorem State.modGang_buffers (s : State) (g : Nat) (f : Gang → Gang) : (s.modGang g f).buffers = s.buffers := rfl
@[simp] theorem State.modGang_rmws (s : State) (g : Nat) (f : Gang → Gang) : (s.modGang g f).rmws = s.rmws := rfl
@[simp] theorem State.modGang_eops (s : State) (g : Nat) (f : Gang → Gang) : (s.modGang g f).eops = s.eops := rfl
@[simp] theorem State.modGang_rides (s : State) (g : Nat) (f : Gang → Gang) : (s.modGang g f).rides = s.rides := rfl
@[simp] theorem State.modGang_packets (s : State) (g : Nat) (f : Gang → Gang) : (s.modGang g f).packets = s.packets := rfl
@[simp] theorem State.modGang_hostReads (s : State) (g : Nat) (f : Gang → Gang) : (s.modGang g f).hostReads = s.hostReads := rfl
@[simp] theorem State.modGang_slots (s : State) (g : Nat) (f : Gang → Gang) : (s.modGang g f).slots = s.slots := rfl
@[simp] theorem State.modGang_pairs (s : State) (g : Nat) (f : Gang → Gang) : (s.modGang g f).pairs = s.pairs := rfl
@[simp] theorem State.modGang_acc (s : State) (g : Nat) (f : Gang → Gang) : (s.modGang g f).acc = s.acc := rfl
@[simp] theorem State.modGang_tileStat (s : State) (g : Nat) (f : Gang → Gang) : (s.modGang g f).tileStat = s.tileStat := rfl
@[simp] theorem State.modGang_infers (s : State) (g : Nat) (f : Gang → Gang) : (s.modGang g f).infers = s.infers := rfl
@[simp] theorem State.modGang_collInst (s : State) (g : Nat) (f : Gang → Gang) : (s.modGang g f).collInst = s.collInst := rfl
@[simp] theorem State.modGang_collIn (s : State) (g : Nat) (f : Gang → Gang) : (s.modGang g f).collIn = s.collIn := rfl
@[simp] theorem State.modGang_collIssued (s : State) (g : Nat) (f : Gang → Gang) : (s.modGang g f).collIssued = s.collIssued := rfl
@[simp] theorem State.modGang_elems (s : State) (g : Nat) (f : Gang → Gang) : (s.modGang g f).elems = s.elems := rfl
@[simp] theorem State.modGang_creations (s : State) (g : Nat) (f : Gang → Gang) : (s.modGang g f).creations = s.creations := rfl
@[simp] theorem State.modGang_batches (s : State) (g : Nat) (f : Gang → Gang) : (s.modGang g f).batches = s.batches := rfl
@[simp] theorem State.modGang_engineWait (s : State) (g : Nat) (f : Gang → Gang) : (s.modGang g f).engineWait = s.engineWait := rfl
@[simp] theorem State.modGang_iss (s : State) (g : Nat) (f : Gang → Gang) : (s.modGang g f).iss = s.iss := rfl
@[simp] theorem State.modGang_outs (s : State) (g : Nat) (f : Gang → Gang) : (s.modGang g f).outs = s.outs := rfl
@[simp] theorem State.modGang_agenda (s : State) (g : Nat) (f : Gang → Gang) : (s.modGang g f).agenda = s.agenda := rfl

@[simp] theorem State.modElem_cycle (s : State) (e : Nat) (f : Elem → Elem) : (s.modElem e f).cycle = s.cycle := rfl
@[simp] theorem State.modElem_rtime (s : State) (e : Nat) (f : Elem → Elem) : (s.modElem e f).rtime = s.rtime := rfl
@[simp] theorem State.modElem_ptime (s : State) (e : Nat) (f : Elem → Elem) : (s.modElem e f).ptime = s.ptime := rfl
@[simp] theorem State.modElem_phase (s : State) (e : Nat) (f : Elem → Elem) : (s.modElem e f).phase = s.phase := rfl
@[simp] theorem State.modElem_fresh (s : State) (e : Nat) (f : Elem → Elem) : (s.modElem e f).fresh = s.fresh := rfl
@[simp] theorem State.modElem_free (s : State) (e : Nat) (f : Elem → Elem) : (s.modElem e f).free = s.free := rfl
@[simp] theorem State.modElem_dev (s : State) (e : Nat) (f : Elem → Elem) : (s.modElem e f).dev = s.dev := rfl
@[simp] theorem State.modElem_mem (s : State) (e : Nat) (f : Elem → Elem) : (s.modElem e f).mem = s.mem := rfl
@[simp] theorem State.modElem_tlb (s : State) (e : Nat) (f : Elem → Elem) : (s.modElem e f).tlb = s.tlb := rfl
@[simp] theorem State.modElem_absent (s : State) (e : Nat) (f : Elem → Elem) : (s.modElem e f).absent = s.absent := rfl
@[simp] theorem State.modElem_ctxs (s : State) (e : Nat) (f : Elem → Elem) : (s.modElem e f).ctxs = s.ctxs := rfl
@[simp] theorem State.modElem_images (s : State) (e : Nat) (f : Elem → Elem) : (s.modElem e f).images = s.images := rfl
@[simp] theorem State.modElem_ckpts (s : State) (e : Nat) (f : Elem → Elem) : (s.modElem e f).ckpts = s.ckpts := rfl
@[simp] theorem State.modElem_queues (s : State) (e : Nat) (f : Elem → Elem) : (s.modElem e f).queues = s.queues := rfl
@[simp] theorem State.modElem_calendar (s : State) (e : Nat) (f : Elem → Elem) : (s.modElem e f).calendar = s.calendar := rfl
@[simp] theorem State.modElem_launches (s : State) (e : Nat) (f : Elem → Elem) : (s.modElem e f).launches = s.launches := rfl
@[simp] theorem State.modElem_nextLot (s : State) (e : Nat) (f : Elem → Elem) : (s.modElem e f).nextLot = s.nextLot := rfl
@[simp] theorem State.modElem_commits (s : State) (e : Nat) (f : Elem → Elem) : (s.modElem e f).commits = s.commits := rfl
@[simp] theorem State.modElem_waiting (s : State) (e : Nat) (f : Elem → Elem) : (s.modElem e f).waiting = s.waiting := rfl
@[simp] theorem State.modElem_crews (s : State) (e : Nat) (f : Elem → Elem) : (s.modElem e f).crews = s.crews := rfl
@[simp] theorem State.modElem_threads (s : State) (e : Nat) (f : Elem → Elem) : (s.modElem e f).threads = s.threads := rfl
@[simp] theorem State.modElem_gangs (s : State) (e : Nat) (f : Elem → Elem) : (s.modElem e f).gangs = s.gangs := rfl
@[simp] theorem State.modElem_formings (s : State) (e : Nat) (f : Elem → Elem) : (s.modElem e f).formings = s.formings := rfl
@[simp] theorem State.modElem_bins (s : State) (e : Nat) (f : Elem → Elem) : (s.modElem e f).bins = s.bins := rfl
@[simp] theorem State.modElem_bars (s : State) (e : Nat) (f : Elem → Elem) : (s.modElem e f).bars = s.bars := rfl
@[simp] theorem State.modElem_msgs (s : State) (e : Nat) (f : Elem → Elem) : (s.modElem e f).msgs = s.msgs := rfl
@[simp] theorem State.modElem_results (s : State) (e : Nat) (f : Elem → Elem) : (s.modElem e f).results = s.results := rfl
@[simp] theorem State.modElem_stores (s : State) (e : Nat) (f : Elem → Elem) : (s.modElem e f).stores = s.stores := rfl
@[simp] theorem State.modElem_buffers (s : State) (e : Nat) (f : Elem → Elem) : (s.modElem e f).buffers = s.buffers := rfl
@[simp] theorem State.modElem_rmws (s : State) (e : Nat) (f : Elem → Elem) : (s.modElem e f).rmws = s.rmws := rfl
@[simp] theorem State.modElem_eops (s : State) (e : Nat) (f : Elem → Elem) : (s.modElem e f).eops = s.eops := rfl
@[simp] theorem State.modElem_rides (s : State) (e : Nat) (f : Elem → Elem) : (s.modElem e f).rides = s.rides := rfl
@[simp] theorem State.modElem_packets (s : State) (e : Nat) (f : Elem → Elem) : (s.modElem e f).packets = s.packets := rfl
@[simp] theorem State.modElem_hostReads (s : State) (e : Nat) (f : Elem → Elem) : (s.modElem e f).hostReads = s.hostReads := rfl
@[simp] theorem State.modElem_slots (s : State) (e : Nat) (f : Elem → Elem) : (s.modElem e f).slots = s.slots := rfl
@[simp] theorem State.modElem_pairs (s : State) (e : Nat) (f : Elem → Elem) : (s.modElem e f).pairs = s.pairs := rfl
@[simp] theorem State.modElem_acc (s : State) (e : Nat) (f : Elem → Elem) : (s.modElem e f).acc = s.acc := rfl
@[simp] theorem State.modElem_tileStat (s : State) (e : Nat) (f : Elem → Elem) : (s.modElem e f).tileStat = s.tileStat := rfl
@[simp] theorem State.modElem_infers (s : State) (e : Nat) (f : Elem → Elem) : (s.modElem e f).infers = s.infers := rfl
@[simp] theorem State.modElem_collInst (s : State) (e : Nat) (f : Elem → Elem) : (s.modElem e f).collInst = s.collInst := rfl
@[simp] theorem State.modElem_collIn (s : State) (e : Nat) (f : Elem → Elem) : (s.modElem e f).collIn = s.collIn := rfl
@[simp] theorem State.modElem_collIssued (s : State) (e : Nat) (f : Elem → Elem) : (s.modElem e f).collIssued = s.collIssued := rfl
@[simp] theorem State.modElem_elems (s : State) (e : Nat) (f : Elem → Elem) : (s.modElem e f).elems = SMap.modify s.elems e f := rfl
@[simp] theorem State.modElem_creations (s : State) (e : Nat) (f : Elem → Elem) : (s.modElem e f).creations = s.creations := rfl
@[simp] theorem State.modElem_batches (s : State) (e : Nat) (f : Elem → Elem) : (s.modElem e f).batches = s.batches := rfl
@[simp] theorem State.modElem_engineWait (s : State) (e : Nat) (f : Elem → Elem) : (s.modElem e f).engineWait = s.engineWait := rfl
@[simp] theorem State.modElem_iss (s : State) (e : Nat) (f : Elem → Elem) : (s.modElem e f).iss = s.iss := rfl
@[simp] theorem State.modElem_outs (s : State) (e : Nat) (f : Elem → Elem) : (s.modElem e f).outs = s.outs := rfl
@[simp] theorem State.modElem_agenda (s : State) (e : Nat) (f : Elem → Elem) : (s.modElem e f).agenda = s.agenda := rfl

@[simp] theorem State.modCtx_cycle (s : State) (c : Nat) (f : Ctx → Ctx) : (s.modCtx c f).cycle = s.cycle := rfl
@[simp] theorem State.modCtx_rtime (s : State) (c : Nat) (f : Ctx → Ctx) : (s.modCtx c f).rtime = s.rtime := rfl
@[simp] theorem State.modCtx_ptime (s : State) (c : Nat) (f : Ctx → Ctx) : (s.modCtx c f).ptime = s.ptime := rfl
@[simp] theorem State.modCtx_phase (s : State) (c : Nat) (f : Ctx → Ctx) : (s.modCtx c f).phase = s.phase := rfl
@[simp] theorem State.modCtx_fresh (s : State) (c : Nat) (f : Ctx → Ctx) : (s.modCtx c f).fresh = s.fresh := rfl
@[simp] theorem State.modCtx_free (s : State) (c : Nat) (f : Ctx → Ctx) : (s.modCtx c f).free = s.free := rfl
@[simp] theorem State.modCtx_dev (s : State) (c : Nat) (f : Ctx → Ctx) : (s.modCtx c f).dev = s.dev := rfl
@[simp] theorem State.modCtx_mem (s : State) (c : Nat) (f : Ctx → Ctx) : (s.modCtx c f).mem = s.mem := rfl
@[simp] theorem State.modCtx_tlb (s : State) (c : Nat) (f : Ctx → Ctx) : (s.modCtx c f).tlb = s.tlb := rfl
@[simp] theorem State.modCtx_absent (s : State) (c : Nat) (f : Ctx → Ctx) : (s.modCtx c f).absent = s.absent := rfl
@[simp] theorem State.modCtx_ctxs (s : State) (c : Nat) (f : Ctx → Ctx) : (s.modCtx c f).ctxs = SMap.put s.ctxs c (f (s.ctxAt c)) := rfl
@[simp] theorem State.modCtx_images (s : State) (c : Nat) (f : Ctx → Ctx) : (s.modCtx c f).images = s.images := rfl
@[simp] theorem State.modCtx_ckpts (s : State) (c : Nat) (f : Ctx → Ctx) : (s.modCtx c f).ckpts = s.ckpts := rfl
@[simp] theorem State.modCtx_queues (s : State) (c : Nat) (f : Ctx → Ctx) : (s.modCtx c f).queues = s.queues := rfl
@[simp] theorem State.modCtx_calendar (s : State) (c : Nat) (f : Ctx → Ctx) : (s.modCtx c f).calendar = s.calendar := rfl
@[simp] theorem State.modCtx_launches (s : State) (c : Nat) (f : Ctx → Ctx) : (s.modCtx c f).launches = s.launches := rfl
@[simp] theorem State.modCtx_nextLot (s : State) (c : Nat) (f : Ctx → Ctx) : (s.modCtx c f).nextLot = s.nextLot := rfl
@[simp] theorem State.modCtx_commits (s : State) (c : Nat) (f : Ctx → Ctx) : (s.modCtx c f).commits = s.commits := rfl
@[simp] theorem State.modCtx_waiting (s : State) (c : Nat) (f : Ctx → Ctx) : (s.modCtx c f).waiting = s.waiting := rfl
@[simp] theorem State.modCtx_crews (s : State) (c : Nat) (f : Ctx → Ctx) : (s.modCtx c f).crews = s.crews := rfl
@[simp] theorem State.modCtx_threads (s : State) (c : Nat) (f : Ctx → Ctx) : (s.modCtx c f).threads = s.threads := rfl
@[simp] theorem State.modCtx_gangs (s : State) (c : Nat) (f : Ctx → Ctx) : (s.modCtx c f).gangs = s.gangs := rfl
@[simp] theorem State.modCtx_formings (s : State) (c : Nat) (f : Ctx → Ctx) : (s.modCtx c f).formings = s.formings := rfl
@[simp] theorem State.modCtx_bins (s : State) (c : Nat) (f : Ctx → Ctx) : (s.modCtx c f).bins = s.bins := rfl
@[simp] theorem State.modCtx_bars (s : State) (c : Nat) (f : Ctx → Ctx) : (s.modCtx c f).bars = s.bars := rfl
@[simp] theorem State.modCtx_msgs (s : State) (c : Nat) (f : Ctx → Ctx) : (s.modCtx c f).msgs = s.msgs := rfl
@[simp] theorem State.modCtx_results (s : State) (c : Nat) (f : Ctx → Ctx) : (s.modCtx c f).results = s.results := rfl
@[simp] theorem State.modCtx_stores (s : State) (c : Nat) (f : Ctx → Ctx) : (s.modCtx c f).stores = s.stores := rfl
@[simp] theorem State.modCtx_buffers (s : State) (c : Nat) (f : Ctx → Ctx) : (s.modCtx c f).buffers = s.buffers := rfl
@[simp] theorem State.modCtx_rmws (s : State) (c : Nat) (f : Ctx → Ctx) : (s.modCtx c f).rmws = s.rmws := rfl
@[simp] theorem State.modCtx_eops (s : State) (c : Nat) (f : Ctx → Ctx) : (s.modCtx c f).eops = s.eops := rfl
@[simp] theorem State.modCtx_rides (s : State) (c : Nat) (f : Ctx → Ctx) : (s.modCtx c f).rides = s.rides := rfl
@[simp] theorem State.modCtx_packets (s : State) (c : Nat) (f : Ctx → Ctx) : (s.modCtx c f).packets = s.packets := rfl
@[simp] theorem State.modCtx_hostReads (s : State) (c : Nat) (f : Ctx → Ctx) : (s.modCtx c f).hostReads = s.hostReads := rfl
@[simp] theorem State.modCtx_slots (s : State) (c : Nat) (f : Ctx → Ctx) : (s.modCtx c f).slots = s.slots := rfl
@[simp] theorem State.modCtx_pairs (s : State) (c : Nat) (f : Ctx → Ctx) : (s.modCtx c f).pairs = s.pairs := rfl
@[simp] theorem State.modCtx_acc (s : State) (c : Nat) (f : Ctx → Ctx) : (s.modCtx c f).acc = s.acc := rfl
@[simp] theorem State.modCtx_tileStat (s : State) (c : Nat) (f : Ctx → Ctx) : (s.modCtx c f).tileStat = s.tileStat := rfl
@[simp] theorem State.modCtx_infers (s : State) (c : Nat) (f : Ctx → Ctx) : (s.modCtx c f).infers = s.infers := rfl
@[simp] theorem State.modCtx_collInst (s : State) (c : Nat) (f : Ctx → Ctx) : (s.modCtx c f).collInst = s.collInst := rfl
@[simp] theorem State.modCtx_collIn (s : State) (c : Nat) (f : Ctx → Ctx) : (s.modCtx c f).collIn = s.collIn := rfl
@[simp] theorem State.modCtx_collIssued (s : State) (c : Nat) (f : Ctx → Ctx) : (s.modCtx c f).collIssued = s.collIssued := rfl
@[simp] theorem State.modCtx_elems (s : State) (c : Nat) (f : Ctx → Ctx) : (s.modCtx c f).elems = s.elems := rfl
@[simp] theorem State.modCtx_creations (s : State) (c : Nat) (f : Ctx → Ctx) : (s.modCtx c f).creations = s.creations := rfl
@[simp] theorem State.modCtx_batches (s : State) (c : Nat) (f : Ctx → Ctx) : (s.modCtx c f).batches = s.batches := rfl
@[simp] theorem State.modCtx_engineWait (s : State) (c : Nat) (f : Ctx → Ctx) : (s.modCtx c f).engineWait = s.engineWait := rfl
@[simp] theorem State.modCtx_iss (s : State) (c : Nat) (f : Ctx → Ctx) : (s.modCtx c f).iss = s.iss := rfl
@[simp] theorem State.modCtx_outs (s : State) (c : Nat) (f : Ctx → Ctx) : (s.modCtx c f).outs = s.outs := rfl
@[simp] theorem State.modCtx_agenda (s : State) (c : Nat) (f : Ctx → Ctx) : (s.modCtx c f).agenda = s.agenda := rfl

@[simp] theorem State.modQueue_cycle (s : State) (q : Nat) (f : Queue → Queue) : (s.modQueue q f).cycle = s.cycle := rfl
@[simp] theorem State.modQueue_rtime (s : State) (q : Nat) (f : Queue → Queue) : (s.modQueue q f).rtime = s.rtime := rfl
@[simp] theorem State.modQueue_ptime (s : State) (q : Nat) (f : Queue → Queue) : (s.modQueue q f).ptime = s.ptime := rfl
@[simp] theorem State.modQueue_phase (s : State) (q : Nat) (f : Queue → Queue) : (s.modQueue q f).phase = s.phase := rfl
@[simp] theorem State.modQueue_fresh (s : State) (q : Nat) (f : Queue → Queue) : (s.modQueue q f).fresh = s.fresh := rfl
@[simp] theorem State.modQueue_free (s : State) (q : Nat) (f : Queue → Queue) : (s.modQueue q f).free = s.free := rfl
@[simp] theorem State.modQueue_dev (s : State) (q : Nat) (f : Queue → Queue) : (s.modQueue q f).dev = s.dev := rfl
@[simp] theorem State.modQueue_mem (s : State) (q : Nat) (f : Queue → Queue) : (s.modQueue q f).mem = s.mem := rfl
@[simp] theorem State.modQueue_tlb (s : State) (q : Nat) (f : Queue → Queue) : (s.modQueue q f).tlb = s.tlb := rfl
@[simp] theorem State.modQueue_absent (s : State) (q : Nat) (f : Queue → Queue) : (s.modQueue q f).absent = s.absent := rfl
@[simp] theorem State.modQueue_ctxs (s : State) (q : Nat) (f : Queue → Queue) : (s.modQueue q f).ctxs = s.ctxs := rfl
@[simp] theorem State.modQueue_images (s : State) (q : Nat) (f : Queue → Queue) : (s.modQueue q f).images = s.images := rfl
@[simp] theorem State.modQueue_ckpts (s : State) (q : Nat) (f : Queue → Queue) : (s.modQueue q f).ckpts = s.ckpts := rfl
@[simp] theorem State.modQueue_queues (s : State) (q : Nat) (f : Queue → Queue) : (s.modQueue q f).queues = SMap.put s.queues q (f (s.queueAt q)) := rfl
@[simp] theorem State.modQueue_calendar (s : State) (q : Nat) (f : Queue → Queue) : (s.modQueue q f).calendar = s.calendar := rfl
@[simp] theorem State.modQueue_launches (s : State) (q : Nat) (f : Queue → Queue) : (s.modQueue q f).launches = s.launches := rfl
@[simp] theorem State.modQueue_nextLot (s : State) (q : Nat) (f : Queue → Queue) : (s.modQueue q f).nextLot = s.nextLot := rfl
@[simp] theorem State.modQueue_commits (s : State) (q : Nat) (f : Queue → Queue) : (s.modQueue q f).commits = s.commits := rfl
@[simp] theorem State.modQueue_waiting (s : State) (q : Nat) (f : Queue → Queue) : (s.modQueue q f).waiting = s.waiting := rfl
@[simp] theorem State.modQueue_crews (s : State) (q : Nat) (f : Queue → Queue) : (s.modQueue q f).crews = s.crews := rfl
@[simp] theorem State.modQueue_threads (s : State) (q : Nat) (f : Queue → Queue) : (s.modQueue q f).threads = s.threads := rfl
@[simp] theorem State.modQueue_gangs (s : State) (q : Nat) (f : Queue → Queue) : (s.modQueue q f).gangs = s.gangs := rfl
@[simp] theorem State.modQueue_formings (s : State) (q : Nat) (f : Queue → Queue) : (s.modQueue q f).formings = s.formings := rfl
@[simp] theorem State.modQueue_bins (s : State) (q : Nat) (f : Queue → Queue) : (s.modQueue q f).bins = s.bins := rfl
@[simp] theorem State.modQueue_bars (s : State) (q : Nat) (f : Queue → Queue) : (s.modQueue q f).bars = s.bars := rfl
@[simp] theorem State.modQueue_msgs (s : State) (q : Nat) (f : Queue → Queue) : (s.modQueue q f).msgs = s.msgs := rfl
@[simp] theorem State.modQueue_results (s : State) (q : Nat) (f : Queue → Queue) : (s.modQueue q f).results = s.results := rfl
@[simp] theorem State.modQueue_stores (s : State) (q : Nat) (f : Queue → Queue) : (s.modQueue q f).stores = s.stores := rfl
@[simp] theorem State.modQueue_buffers (s : State) (q : Nat) (f : Queue → Queue) : (s.modQueue q f).buffers = s.buffers := rfl
@[simp] theorem State.modQueue_rmws (s : State) (q : Nat) (f : Queue → Queue) : (s.modQueue q f).rmws = s.rmws := rfl
@[simp] theorem State.modQueue_eops (s : State) (q : Nat) (f : Queue → Queue) : (s.modQueue q f).eops = s.eops := rfl
@[simp] theorem State.modQueue_rides (s : State) (q : Nat) (f : Queue → Queue) : (s.modQueue q f).rides = s.rides := rfl
@[simp] theorem State.modQueue_packets (s : State) (q : Nat) (f : Queue → Queue) : (s.modQueue q f).packets = s.packets := rfl
@[simp] theorem State.modQueue_hostReads (s : State) (q : Nat) (f : Queue → Queue) : (s.modQueue q f).hostReads = s.hostReads := rfl
@[simp] theorem State.modQueue_slots (s : State) (q : Nat) (f : Queue → Queue) : (s.modQueue q f).slots = s.slots := rfl
@[simp] theorem State.modQueue_pairs (s : State) (q : Nat) (f : Queue → Queue) : (s.modQueue q f).pairs = s.pairs := rfl
@[simp] theorem State.modQueue_acc (s : State) (q : Nat) (f : Queue → Queue) : (s.modQueue q f).acc = s.acc := rfl
@[simp] theorem State.modQueue_tileStat (s : State) (q : Nat) (f : Queue → Queue) : (s.modQueue q f).tileStat = s.tileStat := rfl
@[simp] theorem State.modQueue_infers (s : State) (q : Nat) (f : Queue → Queue) : (s.modQueue q f).infers = s.infers := rfl
@[simp] theorem State.modQueue_collInst (s : State) (q : Nat) (f : Queue → Queue) : (s.modQueue q f).collInst = s.collInst := rfl
@[simp] theorem State.modQueue_collIn (s : State) (q : Nat) (f : Queue → Queue) : (s.modQueue q f).collIn = s.collIn := rfl
@[simp] theorem State.modQueue_collIssued (s : State) (q : Nat) (f : Queue → Queue) : (s.modQueue q f).collIssued = s.collIssued := rfl
@[simp] theorem State.modQueue_elems (s : State) (q : Nat) (f : Queue → Queue) : (s.modQueue q f).elems = s.elems := rfl
@[simp] theorem State.modQueue_creations (s : State) (q : Nat) (f : Queue → Queue) : (s.modQueue q f).creations = s.creations := rfl
@[simp] theorem State.modQueue_batches (s : State) (q : Nat) (f : Queue → Queue) : (s.modQueue q f).batches = s.batches := rfl
@[simp] theorem State.modQueue_engineWait (s : State) (q : Nat) (f : Queue → Queue) : (s.modQueue q f).engineWait = s.engineWait := rfl
@[simp] theorem State.modQueue_iss (s : State) (q : Nat) (f : Queue → Queue) : (s.modQueue q f).iss = s.iss := rfl
@[simp] theorem State.modQueue_outs (s : State) (q : Nat) (f : Queue → Queue) : (s.modQueue q f).outs = s.outs := rfl
@[simp] theorem State.modQueue_agenda (s : State) (q : Nat) (f : Queue → Queue) : (s.modQueue q f).agenda = s.agenda := rfl

@[simp] theorem State.modPair_cycle (s : State) (p : Nat) (f : Pair → Pair) : (s.modPair p f).cycle = s.cycle := rfl
@[simp] theorem State.modPair_rtime (s : State) (p : Nat) (f : Pair → Pair) : (s.modPair p f).rtime = s.rtime := rfl
@[simp] theorem State.modPair_ptime (s : State) (p : Nat) (f : Pair → Pair) : (s.modPair p f).ptime = s.ptime := rfl
@[simp] theorem State.modPair_phase (s : State) (p : Nat) (f : Pair → Pair) : (s.modPair p f).phase = s.phase := rfl
@[simp] theorem State.modPair_fresh (s : State) (p : Nat) (f : Pair → Pair) : (s.modPair p f).fresh = s.fresh := rfl
@[simp] theorem State.modPair_free (s : State) (p : Nat) (f : Pair → Pair) : (s.modPair p f).free = s.free := rfl
@[simp] theorem State.modPair_dev (s : State) (p : Nat) (f : Pair → Pair) : (s.modPair p f).dev = s.dev := rfl
@[simp] theorem State.modPair_mem (s : State) (p : Nat) (f : Pair → Pair) : (s.modPair p f).mem = s.mem := rfl
@[simp] theorem State.modPair_tlb (s : State) (p : Nat) (f : Pair → Pair) : (s.modPair p f).tlb = s.tlb := rfl
@[simp] theorem State.modPair_absent (s : State) (p : Nat) (f : Pair → Pair) : (s.modPair p f).absent = s.absent := rfl
@[simp] theorem State.modPair_ctxs (s : State) (p : Nat) (f : Pair → Pair) : (s.modPair p f).ctxs = s.ctxs := rfl
@[simp] theorem State.modPair_images (s : State) (p : Nat) (f : Pair → Pair) : (s.modPair p f).images = s.images := rfl
@[simp] theorem State.modPair_ckpts (s : State) (p : Nat) (f : Pair → Pair) : (s.modPair p f).ckpts = s.ckpts := rfl
@[simp] theorem State.modPair_queues (s : State) (p : Nat) (f : Pair → Pair) : (s.modPair p f).queues = s.queues := rfl
@[simp] theorem State.modPair_calendar (s : State) (p : Nat) (f : Pair → Pair) : (s.modPair p f).calendar = s.calendar := rfl
@[simp] theorem State.modPair_launches (s : State) (p : Nat) (f : Pair → Pair) : (s.modPair p f).launches = s.launches := rfl
@[simp] theorem State.modPair_nextLot (s : State) (p : Nat) (f : Pair → Pair) : (s.modPair p f).nextLot = s.nextLot := rfl
@[simp] theorem State.modPair_commits (s : State) (p : Nat) (f : Pair → Pair) : (s.modPair p f).commits = s.commits := rfl
@[simp] theorem State.modPair_waiting (s : State) (p : Nat) (f : Pair → Pair) : (s.modPair p f).waiting = s.waiting := rfl
@[simp] theorem State.modPair_crews (s : State) (p : Nat) (f : Pair → Pair) : (s.modPair p f).crews = s.crews := rfl
@[simp] theorem State.modPair_threads (s : State) (p : Nat) (f : Pair → Pair) : (s.modPair p f).threads = s.threads := rfl
@[simp] theorem State.modPair_gangs (s : State) (p : Nat) (f : Pair → Pair) : (s.modPair p f).gangs = s.gangs := rfl
@[simp] theorem State.modPair_formings (s : State) (p : Nat) (f : Pair → Pair) : (s.modPair p f).formings = s.formings := rfl
@[simp] theorem State.modPair_bins (s : State) (p : Nat) (f : Pair → Pair) : (s.modPair p f).bins = s.bins := rfl
@[simp] theorem State.modPair_bars (s : State) (p : Nat) (f : Pair → Pair) : (s.modPair p f).bars = s.bars := rfl
@[simp] theorem State.modPair_msgs (s : State) (p : Nat) (f : Pair → Pair) : (s.modPair p f).msgs = s.msgs := rfl
@[simp] theorem State.modPair_results (s : State) (p : Nat) (f : Pair → Pair) : (s.modPair p f).results = s.results := rfl
@[simp] theorem State.modPair_stores (s : State) (p : Nat) (f : Pair → Pair) : (s.modPair p f).stores = s.stores := rfl
@[simp] theorem State.modPair_buffers (s : State) (p : Nat) (f : Pair → Pair) : (s.modPair p f).buffers = s.buffers := rfl
@[simp] theorem State.modPair_rmws (s : State) (p : Nat) (f : Pair → Pair) : (s.modPair p f).rmws = s.rmws := rfl
@[simp] theorem State.modPair_eops (s : State) (p : Nat) (f : Pair → Pair) : (s.modPair p f).eops = s.eops := rfl
@[simp] theorem State.modPair_rides (s : State) (p : Nat) (f : Pair → Pair) : (s.modPair p f).rides = s.rides := rfl
@[simp] theorem State.modPair_packets (s : State) (p : Nat) (f : Pair → Pair) : (s.modPair p f).packets = s.packets := rfl
@[simp] theorem State.modPair_hostReads (s : State) (p : Nat) (f : Pair → Pair) : (s.modPair p f).hostReads = s.hostReads := rfl
@[simp] theorem State.modPair_slots (s : State) (p : Nat) (f : Pair → Pair) : (s.modPair p f).slots = s.slots := rfl
@[simp] theorem State.modPair_pairs (s : State) (p : Nat) (f : Pair → Pair) : (s.modPair p f).pairs = SMap.put s.pairs p (f (s.pairAt p)) := rfl
@[simp] theorem State.modPair_acc (s : State) (p : Nat) (f : Pair → Pair) : (s.modPair p f).acc = s.acc := rfl
@[simp] theorem State.modPair_tileStat (s : State) (p : Nat) (f : Pair → Pair) : (s.modPair p f).tileStat = s.tileStat := rfl
@[simp] theorem State.modPair_infers (s : State) (p : Nat) (f : Pair → Pair) : (s.modPair p f).infers = s.infers := rfl
@[simp] theorem State.modPair_collInst (s : State) (p : Nat) (f : Pair → Pair) : (s.modPair p f).collInst = s.collInst := rfl
@[simp] theorem State.modPair_collIn (s : State) (p : Nat) (f : Pair → Pair) : (s.modPair p f).collIn = s.collIn := rfl
@[simp] theorem State.modPair_collIssued (s : State) (p : Nat) (f : Pair → Pair) : (s.modPair p f).collIssued = s.collIssued := rfl
@[simp] theorem State.modPair_elems (s : State) (p : Nat) (f : Pair → Pair) : (s.modPair p f).elems = s.elems := rfl
@[simp] theorem State.modPair_creations (s : State) (p : Nat) (f : Pair → Pair) : (s.modPair p f).creations = s.creations := rfl
@[simp] theorem State.modPair_batches (s : State) (p : Nat) (f : Pair → Pair) : (s.modPair p f).batches = s.batches := rfl
@[simp] theorem State.modPair_engineWait (s : State) (p : Nat) (f : Pair → Pair) : (s.modPair p f).engineWait = s.engineWait := rfl
@[simp] theorem State.modPair_iss (s : State) (p : Nat) (f : Pair → Pair) : (s.modPair p f).iss = s.iss := rfl
@[simp] theorem State.modPair_outs (s : State) (p : Nat) (f : Pair → Pair) : (s.modPair p f).outs = s.outs := rfl
@[simp] theorem State.modPair_agenda (s : State) (p : Nat) (f : Pair → Pair) : (s.modPair p f).agenda = s.agenda := rfl

@[simp] theorem State.modDev_cycle (s : State) (f : Device → Device) : (s.modDev f).cycle = s.cycle := rfl
@[simp] theorem State.modDev_rtime (s : State) (f : Device → Device) : (s.modDev f).rtime = s.rtime := rfl
@[simp] theorem State.modDev_ptime (s : State) (f : Device → Device) : (s.modDev f).ptime = s.ptime := rfl
@[simp] theorem State.modDev_phase (s : State) (f : Device → Device) : (s.modDev f).phase = s.phase := rfl
@[simp] theorem State.modDev_fresh (s : State) (f : Device → Device) : (s.modDev f).fresh = s.fresh := rfl
@[simp] theorem State.modDev_free (s : State) (f : Device → Device) : (s.modDev f).free = s.free := rfl
@[simp] theorem State.modDev_dev (s : State) (f : Device → Device) : (s.modDev f).dev = f s.dev := rfl
@[simp] theorem State.modDev_mem (s : State) (f : Device → Device) : (s.modDev f).mem = s.mem := rfl
@[simp] theorem State.modDev_tlb (s : State) (f : Device → Device) : (s.modDev f).tlb = s.tlb := rfl
@[simp] theorem State.modDev_absent (s : State) (f : Device → Device) : (s.modDev f).absent = s.absent := rfl
@[simp] theorem State.modDev_ctxs (s : State) (f : Device → Device) : (s.modDev f).ctxs = s.ctxs := rfl
@[simp] theorem State.modDev_images (s : State) (f : Device → Device) : (s.modDev f).images = s.images := rfl
@[simp] theorem State.modDev_ckpts (s : State) (f : Device → Device) : (s.modDev f).ckpts = s.ckpts := rfl
@[simp] theorem State.modDev_queues (s : State) (f : Device → Device) : (s.modDev f).queues = s.queues := rfl
@[simp] theorem State.modDev_calendar (s : State) (f : Device → Device) : (s.modDev f).calendar = s.calendar := rfl
@[simp] theorem State.modDev_launches (s : State) (f : Device → Device) : (s.modDev f).launches = s.launches := rfl
@[simp] theorem State.modDev_nextLot (s : State) (f : Device → Device) : (s.modDev f).nextLot = s.nextLot := rfl
@[simp] theorem State.modDev_commits (s : State) (f : Device → Device) : (s.modDev f).commits = s.commits := rfl
@[simp] theorem State.modDev_waiting (s : State) (f : Device → Device) : (s.modDev f).waiting = s.waiting := rfl
@[simp] theorem State.modDev_crews (s : State) (f : Device → Device) : (s.modDev f).crews = s.crews := rfl
@[simp] theorem State.modDev_threads (s : State) (f : Device → Device) : (s.modDev f).threads = s.threads := rfl
@[simp] theorem State.modDev_gangs (s : State) (f : Device → Device) : (s.modDev f).gangs = s.gangs := rfl
@[simp] theorem State.modDev_formings (s : State) (f : Device → Device) : (s.modDev f).formings = s.formings := rfl
@[simp] theorem State.modDev_bins (s : State) (f : Device → Device) : (s.modDev f).bins = s.bins := rfl
@[simp] theorem State.modDev_bars (s : State) (f : Device → Device) : (s.modDev f).bars = s.bars := rfl
@[simp] theorem State.modDev_msgs (s : State) (f : Device → Device) : (s.modDev f).msgs = s.msgs := rfl
@[simp] theorem State.modDev_results (s : State) (f : Device → Device) : (s.modDev f).results = s.results := rfl
@[simp] theorem State.modDev_stores (s : State) (f : Device → Device) : (s.modDev f).stores = s.stores := rfl
@[simp] theorem State.modDev_buffers (s : State) (f : Device → Device) : (s.modDev f).buffers = s.buffers := rfl
@[simp] theorem State.modDev_rmws (s : State) (f : Device → Device) : (s.modDev f).rmws = s.rmws := rfl
@[simp] theorem State.modDev_eops (s : State) (f : Device → Device) : (s.modDev f).eops = s.eops := rfl
@[simp] theorem State.modDev_rides (s : State) (f : Device → Device) : (s.modDev f).rides = s.rides := rfl
@[simp] theorem State.modDev_packets (s : State) (f : Device → Device) : (s.modDev f).packets = s.packets := rfl
@[simp] theorem State.modDev_hostReads (s : State) (f : Device → Device) : (s.modDev f).hostReads = s.hostReads := rfl
@[simp] theorem State.modDev_slots (s : State) (f : Device → Device) : (s.modDev f).slots = s.slots := rfl
@[simp] theorem State.modDev_pairs (s : State) (f : Device → Device) : (s.modDev f).pairs = s.pairs := rfl
@[simp] theorem State.modDev_acc (s : State) (f : Device → Device) : (s.modDev f).acc = s.acc := rfl
@[simp] theorem State.modDev_tileStat (s : State) (f : Device → Device) : (s.modDev f).tileStat = s.tileStat := rfl
@[simp] theorem State.modDev_infers (s : State) (f : Device → Device) : (s.modDev f).infers = s.infers := rfl
@[simp] theorem State.modDev_collInst (s : State) (f : Device → Device) : (s.modDev f).collInst = s.collInst := rfl
@[simp] theorem State.modDev_collIn (s : State) (f : Device → Device) : (s.modDev f).collIn = s.collIn := rfl
@[simp] theorem State.modDev_collIssued (s : State) (f : Device → Device) : (s.modDev f).collIssued = s.collIssued := rfl
@[simp] theorem State.modDev_elems (s : State) (f : Device → Device) : (s.modDev f).elems = s.elems := rfl
@[simp] theorem State.modDev_creations (s : State) (f : Device → Device) : (s.modDev f).creations = s.creations := rfl
@[simp] theorem State.modDev_batches (s : State) (f : Device → Device) : (s.modDev f).batches = s.batches := rfl
@[simp] theorem State.modDev_engineWait (s : State) (f : Device → Device) : (s.modDev f).engineWait = s.engineWait := rfl
@[simp] theorem State.modDev_iss (s : State) (f : Device → Device) : (s.modDev f).iss = s.iss := rfl
@[simp] theorem State.modDev_outs (s : State) (f : Device → Device) : (s.modDev f).outs = s.outs := rfl
@[simp] theorem State.modDev_agenda (s : State) (f : Device → Device) : (s.modDev f).agenda = s.agenda := rfl

@[simp] theorem State.send_cycle (s : State) (o : Out) : (s.send o).cycle = s.cycle := rfl
@[simp] theorem State.send_rtime (s : State) (o : Out) : (s.send o).rtime = s.rtime := rfl
@[simp] theorem State.send_ptime (s : State) (o : Out) : (s.send o).ptime = s.ptime := rfl
@[simp] theorem State.send_phase (s : State) (o : Out) : (s.send o).phase = s.phase := rfl
@[simp] theorem State.send_fresh (s : State) (o : Out) : (s.send o).fresh = s.fresh := rfl
@[simp] theorem State.send_free (s : State) (o : Out) : (s.send o).free = s.free := rfl
@[simp] theorem State.send_dev (s : State) (o : Out) : (s.send o).dev = s.dev := rfl
@[simp] theorem State.send_mem (s : State) (o : Out) : (s.send o).mem = s.mem := rfl
@[simp] theorem State.send_tlb (s : State) (o : Out) : (s.send o).tlb = s.tlb := rfl
@[simp] theorem State.send_absent (s : State) (o : Out) : (s.send o).absent = s.absent := rfl
@[simp] theorem State.send_ctxs (s : State) (o : Out) : (s.send o).ctxs = s.ctxs := rfl
@[simp] theorem State.send_images (s : State) (o : Out) : (s.send o).images = s.images := rfl
@[simp] theorem State.send_ckpts (s : State) (o : Out) : (s.send o).ckpts = s.ckpts := rfl
@[simp] theorem State.send_queues (s : State) (o : Out) : (s.send o).queues = s.queues := rfl
@[simp] theorem State.send_calendar (s : State) (o : Out) : (s.send o).calendar = s.calendar := rfl
@[simp] theorem State.send_launches (s : State) (o : Out) : (s.send o).launches = s.launches := rfl
@[simp] theorem State.send_nextLot (s : State) (o : Out) : (s.send o).nextLot = s.nextLot := rfl
@[simp] theorem State.send_commits (s : State) (o : Out) : (s.send o).commits = s.commits := rfl
@[simp] theorem State.send_waiting (s : State) (o : Out) : (s.send o).waiting = s.waiting := rfl
@[simp] theorem State.send_crews (s : State) (o : Out) : (s.send o).crews = s.crews := rfl
@[simp] theorem State.send_threads (s : State) (o : Out) : (s.send o).threads = s.threads := rfl
@[simp] theorem State.send_gangs (s : State) (o : Out) : (s.send o).gangs = s.gangs := rfl
@[simp] theorem State.send_formings (s : State) (o : Out) : (s.send o).formings = s.formings := rfl
@[simp] theorem State.send_bins (s : State) (o : Out) : (s.send o).bins = s.bins := rfl
@[simp] theorem State.send_bars (s : State) (o : Out) : (s.send o).bars = s.bars := rfl
@[simp] theorem State.send_msgs (s : State) (o : Out) : (s.send o).msgs = s.msgs := rfl
@[simp] theorem State.send_results (s : State) (o : Out) : (s.send o).results = s.results := rfl
@[simp] theorem State.send_stores (s : State) (o : Out) : (s.send o).stores = s.stores := rfl
@[simp] theorem State.send_buffers (s : State) (o : Out) : (s.send o).buffers = s.buffers := rfl
@[simp] theorem State.send_rmws (s : State) (o : Out) : (s.send o).rmws = s.rmws := rfl
@[simp] theorem State.send_eops (s : State) (o : Out) : (s.send o).eops = s.eops := rfl
@[simp] theorem State.send_rides (s : State) (o : Out) : (s.send o).rides = s.rides := rfl
@[simp] theorem State.send_packets (s : State) (o : Out) : (s.send o).packets = s.packets := rfl
@[simp] theorem State.send_hostReads (s : State) (o : Out) : (s.send o).hostReads = s.hostReads := rfl
@[simp] theorem State.send_slots (s : State) (o : Out) : (s.send o).slots = s.slots := rfl
@[simp] theorem State.send_pairs (s : State) (o : Out) : (s.send o).pairs = s.pairs := rfl
@[simp] theorem State.send_acc (s : State) (o : Out) : (s.send o).acc = s.acc := rfl
@[simp] theorem State.send_tileStat (s : State) (o : Out) : (s.send o).tileStat = s.tileStat := rfl
@[simp] theorem State.send_infers (s : State) (o : Out) : (s.send o).infers = s.infers := rfl
@[simp] theorem State.send_collInst (s : State) (o : Out) : (s.send o).collInst = s.collInst := rfl
@[simp] theorem State.send_collIn (s : State) (o : Out) : (s.send o).collIn = s.collIn := rfl
@[simp] theorem State.send_collIssued (s : State) (o : Out) : (s.send o).collIssued = s.collIssued := rfl
@[simp] theorem State.send_elems (s : State) (o : Out) : (s.send o).elems = s.elems := rfl
@[simp] theorem State.send_creations (s : State) (o : Out) : (s.send o).creations = s.creations := rfl
@[simp] theorem State.send_batches (s : State) (o : Out) : (s.send o).batches = s.batches := rfl
@[simp] theorem State.send_engineWait (s : State) (o : Out) : (s.send o).engineWait = s.engineWait := rfl
@[simp] theorem State.send_iss (s : State) (o : Out) : (s.send o).iss = s.iss := rfl
@[simp] theorem State.send_outs (s : State) (o : Out) : (s.send o).outs = s.outs ++ [o] := rfl
@[simp] theorem State.send_agenda (s : State) (o : Out) : (s.send o).agenda = s.agenda := rfl

@[simp] theorem State.deliver_cycle (s : State) (r : Nat) (vs : List Word) : (s.deliver r vs).cycle = s.cycle := rfl
@[simp] theorem State.deliver_rtime (s : State) (r : Nat) (vs : List Word) : (s.deliver r vs).rtime = s.rtime := rfl
@[simp] theorem State.deliver_ptime (s : State) (r : Nat) (vs : List Word) : (s.deliver r vs).ptime = s.ptime := rfl
@[simp] theorem State.deliver_phase (s : State) (r : Nat) (vs : List Word) : (s.deliver r vs).phase = s.phase := rfl
@[simp] theorem State.deliver_fresh (s : State) (r : Nat) (vs : List Word) : (s.deliver r vs).fresh = s.fresh := rfl
@[simp] theorem State.deliver_free (s : State) (r : Nat) (vs : List Word) : (s.deliver r vs).free = s.free := rfl
@[simp] theorem State.deliver_dev (s : State) (r : Nat) (vs : List Word) : (s.deliver r vs).dev = s.dev := rfl
@[simp] theorem State.deliver_mem (s : State) (r : Nat) (vs : List Word) : (s.deliver r vs).mem = s.mem := rfl
@[simp] theorem State.deliver_tlb (s : State) (r : Nat) (vs : List Word) : (s.deliver r vs).tlb = s.tlb := rfl
@[simp] theorem State.deliver_absent (s : State) (r : Nat) (vs : List Word) : (s.deliver r vs).absent = s.absent := rfl
@[simp] theorem State.deliver_ctxs (s : State) (r : Nat) (vs : List Word) : (s.deliver r vs).ctxs = s.ctxs := rfl
@[simp] theorem State.deliver_images (s : State) (r : Nat) (vs : List Word) : (s.deliver r vs).images = s.images := rfl
@[simp] theorem State.deliver_ckpts (s : State) (r : Nat) (vs : List Word) : (s.deliver r vs).ckpts = s.ckpts := rfl
@[simp] theorem State.deliver_queues (s : State) (r : Nat) (vs : List Word) : (s.deliver r vs).queues = s.queues := rfl
@[simp] theorem State.deliver_calendar (s : State) (r : Nat) (vs : List Word) : (s.deliver r vs).calendar = s.calendar := rfl
@[simp] theorem State.deliver_launches (s : State) (r : Nat) (vs : List Word) : (s.deliver r vs).launches = s.launches := rfl
@[simp] theorem State.deliver_nextLot (s : State) (r : Nat) (vs : List Word) : (s.deliver r vs).nextLot = s.nextLot := rfl
@[simp] theorem State.deliver_commits (s : State) (r : Nat) (vs : List Word) : (s.deliver r vs).commits = s.commits := rfl
@[simp] theorem State.deliver_waiting (s : State) (r : Nat) (vs : List Word) : (s.deliver r vs).waiting = s.waiting := rfl
@[simp] theorem State.deliver_crews (s : State) (r : Nat) (vs : List Word) : (s.deliver r vs).crews = s.crews := rfl
@[simp] theorem State.deliver_threads (s : State) (r : Nat) (vs : List Word) : (s.deliver r vs).threads = s.threads := rfl
@[simp] theorem State.deliver_gangs (s : State) (r : Nat) (vs : List Word) : (s.deliver r vs).gangs = s.gangs := rfl
@[simp] theorem State.deliver_formings (s : State) (r : Nat) (vs : List Word) : (s.deliver r vs).formings = s.formings := rfl
@[simp] theorem State.deliver_bins (s : State) (r : Nat) (vs : List Word) : (s.deliver r vs).bins = s.bins := rfl
@[simp] theorem State.deliver_bars (s : State) (r : Nat) (vs : List Word) : (s.deliver r vs).bars = s.bars := rfl
@[simp] theorem State.deliver_msgs (s : State) (r : Nat) (vs : List Word) : (s.deliver r vs).msgs = s.msgs := rfl
@[simp] theorem State.deliver_results (s : State) (r : Nat) (vs : List Word) : (s.deliver r vs).results = SMap.modify s.results r fun x => { x with vals := some vs } := rfl
@[simp] theorem State.deliver_stores (s : State) (r : Nat) (vs : List Word) : (s.deliver r vs).stores = s.stores := rfl
@[simp] theorem State.deliver_buffers (s : State) (r : Nat) (vs : List Word) : (s.deliver r vs).buffers = s.buffers := rfl
@[simp] theorem State.deliver_rmws (s : State) (r : Nat) (vs : List Word) : (s.deliver r vs).rmws = s.rmws := rfl
@[simp] theorem State.deliver_eops (s : State) (r : Nat) (vs : List Word) : (s.deliver r vs).eops = s.eops := rfl
@[simp] theorem State.deliver_rides (s : State) (r : Nat) (vs : List Word) : (s.deliver r vs).rides = s.rides := rfl
@[simp] theorem State.deliver_packets (s : State) (r : Nat) (vs : List Word) : (s.deliver r vs).packets = s.packets := rfl
@[simp] theorem State.deliver_hostReads (s : State) (r : Nat) (vs : List Word) : (s.deliver r vs).hostReads = s.hostReads := rfl
@[simp] theorem State.deliver_slots (s : State) (r : Nat) (vs : List Word) : (s.deliver r vs).slots = s.slots := rfl
@[simp] theorem State.deliver_pairs (s : State) (r : Nat) (vs : List Word) : (s.deliver r vs).pairs = s.pairs := rfl
@[simp] theorem State.deliver_acc (s : State) (r : Nat) (vs : List Word) : (s.deliver r vs).acc = s.acc := rfl
@[simp] theorem State.deliver_tileStat (s : State) (r : Nat) (vs : List Word) : (s.deliver r vs).tileStat = s.tileStat := rfl
@[simp] theorem State.deliver_infers (s : State) (r : Nat) (vs : List Word) : (s.deliver r vs).infers = s.infers := rfl
@[simp] theorem State.deliver_collInst (s : State) (r : Nat) (vs : List Word) : (s.deliver r vs).collInst = s.collInst := rfl
@[simp] theorem State.deliver_collIn (s : State) (r : Nat) (vs : List Word) : (s.deliver r vs).collIn = s.collIn := rfl
@[simp] theorem State.deliver_collIssued (s : State) (r : Nat) (vs : List Word) : (s.deliver r vs).collIssued = s.collIssued := rfl
@[simp] theorem State.deliver_elems (s : State) (r : Nat) (vs : List Word) : (s.deliver r vs).elems = s.elems := rfl
@[simp] theorem State.deliver_creations (s : State) (r : Nat) (vs : List Word) : (s.deliver r vs).creations = s.creations := rfl
@[simp] theorem State.deliver_batches (s : State) (r : Nat) (vs : List Word) : (s.deliver r vs).batches = s.batches := rfl
@[simp] theorem State.deliver_engineWait (s : State) (r : Nat) (vs : List Word) : (s.deliver r vs).engineWait = s.engineWait := rfl
@[simp] theorem State.deliver_iss (s : State) (r : Nat) (vs : List Word) : (s.deliver r vs).iss = s.iss := rfl
@[simp] theorem State.deliver_outs (s : State) (r : Nat) (vs : List Word) : (s.deliver r vs).outs = s.outs := rfl
@[simp] theorem State.deliver_agenda (s : State) (r : Nat) (vs : List Word) : (s.deliver r vs).agenda = s.agenda := rfl

@[simp] theorem State.noteFaults_cycle (s : State) (n : Nat) : (s.noteFaults n).cycle = s.cycle := rfl
@[simp] theorem State.noteFaults_rtime (s : State) (n : Nat) : (s.noteFaults n).rtime = s.rtime := rfl
@[simp] theorem State.noteFaults_ptime (s : State) (n : Nat) : (s.noteFaults n).ptime = s.ptime := rfl
@[simp] theorem State.noteFaults_phase (s : State) (n : Nat) : (s.noteFaults n).phase = s.phase := rfl
@[simp] theorem State.noteFaults_fresh (s : State) (n : Nat) : (s.noteFaults n).fresh = s.fresh := rfl
@[simp] theorem State.noteFaults_free (s : State) (n : Nat) : (s.noteFaults n).free = s.free := rfl
@[simp] theorem State.noteFaults_dev (s : State) (n : Nat) : (s.noteFaults n).dev = s.dev := rfl
@[simp] theorem State.noteFaults_mem (s : State) (n : Nat) : (s.noteFaults n).mem = s.mem := rfl
@[simp] theorem State.noteFaults_tlb (s : State) (n : Nat) : (s.noteFaults n).tlb = s.tlb := rfl
@[simp] theorem State.noteFaults_absent (s : State) (n : Nat) : (s.noteFaults n).absent = s.absent := rfl
@[simp] theorem State.noteFaults_ctxs (s : State) (n : Nat) : (s.noteFaults n).ctxs = s.ctxs := rfl
@[simp] theorem State.noteFaults_images (s : State) (n : Nat) : (s.noteFaults n).images = s.images := rfl
@[simp] theorem State.noteFaults_ckpts (s : State) (n : Nat) : (s.noteFaults n).ckpts = s.ckpts := rfl
@[simp] theorem State.noteFaults_queues (s : State) (n : Nat) : (s.noteFaults n).queues = s.queues := rfl
@[simp] theorem State.noteFaults_calendar (s : State) (n : Nat) : (s.noteFaults n).calendar = s.calendar := rfl
@[simp] theorem State.noteFaults_launches (s : State) (n : Nat) : (s.noteFaults n).launches = s.launches := rfl
@[simp] theorem State.noteFaults_nextLot (s : State) (n : Nat) : (s.noteFaults n).nextLot = s.nextLot := rfl
@[simp] theorem State.noteFaults_commits (s : State) (n : Nat) : (s.noteFaults n).commits = s.commits := rfl
@[simp] theorem State.noteFaults_waiting (s : State) (n : Nat) : (s.noteFaults n).waiting = s.waiting := rfl
@[simp] theorem State.noteFaults_crews (s : State) (n : Nat) : (s.noteFaults n).crews = s.crews := rfl
@[simp] theorem State.noteFaults_threads (s : State) (n : Nat) : (s.noteFaults n).threads = s.threads := rfl
@[simp] theorem State.noteFaults_gangs (s : State) (n : Nat) : (s.noteFaults n).gangs = s.gangs := rfl
@[simp] theorem State.noteFaults_formings (s : State) (n : Nat) : (s.noteFaults n).formings = s.formings := rfl
@[simp] theorem State.noteFaults_bins (s : State) (n : Nat) : (s.noteFaults n).bins = s.bins := rfl
@[simp] theorem State.noteFaults_bars (s : State) (n : Nat) : (s.noteFaults n).bars = s.bars := rfl
@[simp] theorem State.noteFaults_msgs (s : State) (n : Nat) : (s.noteFaults n).msgs = s.msgs := rfl
@[simp] theorem State.noteFaults_results (s : State) (n : Nat) : (s.noteFaults n).results = s.results := rfl
@[simp] theorem State.noteFaults_stores (s : State) (n : Nat) : (s.noteFaults n).stores = s.stores := rfl
@[simp] theorem State.noteFaults_buffers (s : State) (n : Nat) : (s.noteFaults n).buffers = s.buffers := rfl
@[simp] theorem State.noteFaults_rmws (s : State) (n : Nat) : (s.noteFaults n).rmws = s.rmws := rfl
@[simp] theorem State.noteFaults_eops (s : State) (n : Nat) : (s.noteFaults n).eops = s.eops := rfl
@[simp] theorem State.noteFaults_rides (s : State) (n : Nat) : (s.noteFaults n).rides = s.rides := rfl
@[simp] theorem State.noteFaults_packets (s : State) (n : Nat) : (s.noteFaults n).packets = s.packets := rfl
@[simp] theorem State.noteFaults_hostReads (s : State) (n : Nat) : (s.noteFaults n).hostReads = s.hostReads := rfl
@[simp] theorem State.noteFaults_slots (s : State) (n : Nat) : (s.noteFaults n).slots = s.slots := rfl
@[simp] theorem State.noteFaults_pairs (s : State) (n : Nat) : (s.noteFaults n).pairs = s.pairs := rfl
@[simp] theorem State.noteFaults_acc (s : State) (n : Nat) : (s.noteFaults n).acc = s.acc := rfl
@[simp] theorem State.noteFaults_tileStat (s : State) (n : Nat) : (s.noteFaults n).tileStat = s.tileStat := rfl
@[simp] theorem State.noteFaults_infers (s : State) (n : Nat) : (s.noteFaults n).infers = s.infers := rfl
@[simp] theorem State.noteFaults_collInst (s : State) (n : Nat) : (s.noteFaults n).collInst = s.collInst := rfl
@[simp] theorem State.noteFaults_collIn (s : State) (n : Nat) : (s.noteFaults n).collIn = s.collIn := rfl
@[simp] theorem State.noteFaults_collIssued (s : State) (n : Nat) : (s.noteFaults n).collIssued = s.collIssued := rfl
@[simp] theorem State.noteFaults_elems (s : State) (n : Nat) : (s.noteFaults n).elems = s.elems := rfl
@[simp] theorem State.noteFaults_creations (s : State) (n : Nat) : (s.noteFaults n).creations = s.creations := rfl
@[simp] theorem State.noteFaults_batches (s : State) (n : Nat) : (s.noteFaults n).batches = s.batches := rfl
@[simp] theorem State.noteFaults_engineWait (s : State) (n : Nat) : (s.noteFaults n).engineWait = s.engineWait := rfl
@[simp] theorem State.noteFaults_iss (s : State) (n : Nat) : (s.noteFaults n).iss = { s.iss with faults := [], faulted := n } := rfl
@[simp] theorem State.noteFaults_outs (s : State) (n : Nat) : (s.noteFaults n).outs = s.outs := rfl
@[simp] theorem State.noteFaults_agenda (s : State) (n : Nat) : (s.noteFaults n).agenda = s.agenda := rfl

@[simp] theorem State.past_cycle (s : State) (t : Nat) : (s.past t).cycle = s.cycle := rfl
@[simp] theorem State.past_rtime (s : State) (t : Nat) : (s.past t).rtime = s.rtime := rfl
@[simp] theorem State.past_ptime (s : State) (t : Nat) : (s.past t).ptime = s.ptime := rfl
@[simp] theorem State.past_phase (s : State) (t : Nat) : (s.past t).phase = s.phase := rfl
@[simp] theorem State.past_fresh (s : State) (t : Nat) : (s.past t).fresh = s.fresh := rfl
@[simp] theorem State.past_free (s : State) (t : Nat) : (s.past t).free = s.free := rfl
@[simp] theorem State.past_dev (s : State) (t : Nat) : (s.past t).dev = s.dev := rfl
@[simp] theorem State.past_mem (s : State) (t : Nat) : (s.past t).mem = s.mem := rfl
@[simp] theorem State.past_tlb (s : State) (t : Nat) : (s.past t).tlb = s.tlb := rfl
@[simp] theorem State.past_absent (s : State) (t : Nat) : (s.past t).absent = s.absent := rfl
@[simp] theorem State.past_ctxs (s : State) (t : Nat) : (s.past t).ctxs = s.ctxs := rfl
@[simp] theorem State.past_images (s : State) (t : Nat) : (s.past t).images = s.images := rfl
@[simp] theorem State.past_ckpts (s : State) (t : Nat) : (s.past t).ckpts = s.ckpts := rfl
@[simp] theorem State.past_queues (s : State) (t : Nat) : (s.past t).queues = s.queues := rfl
@[simp] theorem State.past_calendar (s : State) (t : Nat) : (s.past t).calendar = s.calendar := rfl
@[simp] theorem State.past_launches (s : State) (t : Nat) : (s.past t).launches = s.launches := rfl
@[simp] theorem State.past_nextLot (s : State) (t : Nat) : (s.past t).nextLot = s.nextLot := rfl
@[simp] theorem State.past_commits (s : State) (t : Nat) : (s.past t).commits = s.commits := rfl
@[simp] theorem State.past_waiting (s : State) (t : Nat) : (s.past t).waiting = s.waiting := rfl
@[simp] theorem State.past_crews (s : State) (t : Nat) : (s.past t).crews = s.crews := rfl
@[simp] theorem State.past_threads (s : State) (t : Nat) : (s.past t).threads = SMap.modify s.threads t fun x =>
      { x with pc := x.pc + BitVec.ofNat 64 (16 * s.iss.len), viaTransfer := false, passOnce := false, refused := [] } := rfl
@[simp] theorem State.past_gangs (s : State) (t : Nat) : (s.past t).gangs = s.gangs := rfl
@[simp] theorem State.past_formings (s : State) (t : Nat) : (s.past t).formings = s.formings := rfl
@[simp] theorem State.past_bins (s : State) (t : Nat) : (s.past t).bins = s.bins := rfl
@[simp] theorem State.past_bars (s : State) (t : Nat) : (s.past t).bars = s.bars := rfl
@[simp] theorem State.past_msgs (s : State) (t : Nat) : (s.past t).msgs = s.msgs := rfl
@[simp] theorem State.past_results (s : State) (t : Nat) : (s.past t).results = s.results := rfl
@[simp] theorem State.past_stores (s : State) (t : Nat) : (s.past t).stores = s.stores := rfl
@[simp] theorem State.past_buffers (s : State) (t : Nat) : (s.past t).buffers = s.buffers := rfl
@[simp] theorem State.past_rmws (s : State) (t : Nat) : (s.past t).rmws = s.rmws := rfl
@[simp] theorem State.past_eops (s : State) (t : Nat) : (s.past t).eops = s.eops := rfl
@[simp] theorem State.past_rides (s : State) (t : Nat) : (s.past t).rides = s.rides := rfl
@[simp] theorem State.past_packets (s : State) (t : Nat) : (s.past t).packets = s.packets := rfl
@[simp] theorem State.past_hostReads (s : State) (t : Nat) : (s.past t).hostReads = s.hostReads := rfl
@[simp] theorem State.past_slots (s : State) (t : Nat) : (s.past t).slots = s.slots := rfl
@[simp] theorem State.past_pairs (s : State) (t : Nat) : (s.past t).pairs = s.pairs := rfl
@[simp] theorem State.past_acc (s : State) (t : Nat) : (s.past t).acc = s.acc := rfl
@[simp] theorem State.past_tileStat (s : State) (t : Nat) : (s.past t).tileStat = s.tileStat := rfl
@[simp] theorem State.past_infers (s : State) (t : Nat) : (s.past t).infers = s.infers := rfl
@[simp] theorem State.past_collInst (s : State) (t : Nat) : (s.past t).collInst = s.collInst := rfl
@[simp] theorem State.past_collIn (s : State) (t : Nat) : (s.past t).collIn = s.collIn := rfl
@[simp] theorem State.past_collIssued (s : State) (t : Nat) : (s.past t).collIssued = s.collIssued := rfl
@[simp] theorem State.past_elems (s : State) (t : Nat) : (s.past t).elems = s.elems := rfl
@[simp] theorem State.past_creations (s : State) (t : Nat) : (s.past t).creations = s.creations := rfl
@[simp] theorem State.past_batches (s : State) (t : Nat) : (s.past t).batches = s.batches := rfl
@[simp] theorem State.past_engineWait (s : State) (t : Nat) : (s.past t).engineWait = s.engineWait := rfl
@[simp] theorem State.past_iss (s : State) (t : Nat) : (s.past t).iss = s.iss := rfl
@[simp] theorem State.past_outs (s : State) (t : Nat) : (s.past t).outs = s.outs := rfl
@[simp] theorem State.past_agenda (s : State) (t : Nat) : (s.past t).agenda = s.agenda := rfl

@[simp] theorem State.goto_cycle (s : State) (t : Nat) (pc : DWord) : (s.goto_ t pc).cycle = s.cycle := rfl
@[simp] theorem State.goto_rtime (s : State) (t : Nat) (pc : DWord) : (s.goto_ t pc).rtime = s.rtime := rfl
@[simp] theorem State.goto_ptime (s : State) (t : Nat) (pc : DWord) : (s.goto_ t pc).ptime = s.ptime := rfl
@[simp] theorem State.goto_phase (s : State) (t : Nat) (pc : DWord) : (s.goto_ t pc).phase = s.phase := rfl
@[simp] theorem State.goto_fresh (s : State) (t : Nat) (pc : DWord) : (s.goto_ t pc).fresh = s.fresh := rfl
@[simp] theorem State.goto_free (s : State) (t : Nat) (pc : DWord) : (s.goto_ t pc).free = s.free := rfl
@[simp] theorem State.goto_dev (s : State) (t : Nat) (pc : DWord) : (s.goto_ t pc).dev = s.dev := rfl
@[simp] theorem State.goto_mem (s : State) (t : Nat) (pc : DWord) : (s.goto_ t pc).mem = s.mem := rfl
@[simp] theorem State.goto_tlb (s : State) (t : Nat) (pc : DWord) : (s.goto_ t pc).tlb = s.tlb := rfl
@[simp] theorem State.goto_absent (s : State) (t : Nat) (pc : DWord) : (s.goto_ t pc).absent = s.absent := rfl
@[simp] theorem State.goto_ctxs (s : State) (t : Nat) (pc : DWord) : (s.goto_ t pc).ctxs = s.ctxs := rfl
@[simp] theorem State.goto_images (s : State) (t : Nat) (pc : DWord) : (s.goto_ t pc).images = s.images := rfl
@[simp] theorem State.goto_ckpts (s : State) (t : Nat) (pc : DWord) : (s.goto_ t pc).ckpts = s.ckpts := rfl
@[simp] theorem State.goto_queues (s : State) (t : Nat) (pc : DWord) : (s.goto_ t pc).queues = s.queues := rfl
@[simp] theorem State.goto_calendar (s : State) (t : Nat) (pc : DWord) : (s.goto_ t pc).calendar = s.calendar := rfl
@[simp] theorem State.goto_launches (s : State) (t : Nat) (pc : DWord) : (s.goto_ t pc).launches = s.launches := rfl
@[simp] theorem State.goto_nextLot (s : State) (t : Nat) (pc : DWord) : (s.goto_ t pc).nextLot = s.nextLot := rfl
@[simp] theorem State.goto_commits (s : State) (t : Nat) (pc : DWord) : (s.goto_ t pc).commits = s.commits := rfl
@[simp] theorem State.goto_waiting (s : State) (t : Nat) (pc : DWord) : (s.goto_ t pc).waiting = s.waiting := rfl
@[simp] theorem State.goto_crews (s : State) (t : Nat) (pc : DWord) : (s.goto_ t pc).crews = s.crews := rfl
@[simp] theorem State.goto_threads (s : State) (t : Nat) (pc : DWord) : (s.goto_ t pc).threads = SMap.modify s.threads t fun x =>
      { x with pc := pc, viaTransfer := true, passOnce := false, refused := [] } := rfl
@[simp] theorem State.goto_gangs (s : State) (t : Nat) (pc : DWord) : (s.goto_ t pc).gangs = s.gangs := rfl
@[simp] theorem State.goto_formings (s : State) (t : Nat) (pc : DWord) : (s.goto_ t pc).formings = s.formings := rfl
@[simp] theorem State.goto_bins (s : State) (t : Nat) (pc : DWord) : (s.goto_ t pc).bins = s.bins := rfl
@[simp] theorem State.goto_bars (s : State) (t : Nat) (pc : DWord) : (s.goto_ t pc).bars = s.bars := rfl
@[simp] theorem State.goto_msgs (s : State) (t : Nat) (pc : DWord) : (s.goto_ t pc).msgs = s.msgs := rfl
@[simp] theorem State.goto_results (s : State) (t : Nat) (pc : DWord) : (s.goto_ t pc).results = s.results := rfl
@[simp] theorem State.goto_stores (s : State) (t : Nat) (pc : DWord) : (s.goto_ t pc).stores = s.stores := rfl
@[simp] theorem State.goto_buffers (s : State) (t : Nat) (pc : DWord) : (s.goto_ t pc).buffers = s.buffers := rfl
@[simp] theorem State.goto_rmws (s : State) (t : Nat) (pc : DWord) : (s.goto_ t pc).rmws = s.rmws := rfl
@[simp] theorem State.goto_eops (s : State) (t : Nat) (pc : DWord) : (s.goto_ t pc).eops = s.eops := rfl
@[simp] theorem State.goto_rides (s : State) (t : Nat) (pc : DWord) : (s.goto_ t pc).rides = s.rides := rfl
@[simp] theorem State.goto_packets (s : State) (t : Nat) (pc : DWord) : (s.goto_ t pc).packets = s.packets := rfl
@[simp] theorem State.goto_hostReads (s : State) (t : Nat) (pc : DWord) : (s.goto_ t pc).hostReads = s.hostReads := rfl
@[simp] theorem State.goto_slots (s : State) (t : Nat) (pc : DWord) : (s.goto_ t pc).slots = s.slots := rfl
@[simp] theorem State.goto_pairs (s : State) (t : Nat) (pc : DWord) : (s.goto_ t pc).pairs = s.pairs := rfl
@[simp] theorem State.goto_acc (s : State) (t : Nat) (pc : DWord) : (s.goto_ t pc).acc = s.acc := rfl
@[simp] theorem State.goto_tileStat (s : State) (t : Nat) (pc : DWord) : (s.goto_ t pc).tileStat = s.tileStat := rfl
@[simp] theorem State.goto_infers (s : State) (t : Nat) (pc : DWord) : (s.goto_ t pc).infers = s.infers := rfl
@[simp] theorem State.goto_collInst (s : State) (t : Nat) (pc : DWord) : (s.goto_ t pc).collInst = s.collInst := rfl
@[simp] theorem State.goto_collIn (s : State) (t : Nat) (pc : DWord) : (s.goto_ t pc).collIn = s.collIn := rfl
@[simp] theorem State.goto_collIssued (s : State) (t : Nat) (pc : DWord) : (s.goto_ t pc).collIssued = s.collIssued := rfl
@[simp] theorem State.goto_elems (s : State) (t : Nat) (pc : DWord) : (s.goto_ t pc).elems = s.elems := rfl
@[simp] theorem State.goto_creations (s : State) (t : Nat) (pc : DWord) : (s.goto_ t pc).creations = s.creations := rfl
@[simp] theorem State.goto_batches (s : State) (t : Nat) (pc : DWord) : (s.goto_ t pc).batches = s.batches := rfl
@[simp] theorem State.goto_engineWait (s : State) (t : Nat) (pc : DWord) : (s.goto_ t pc).engineWait = s.engineWait := rfl
@[simp] theorem State.goto_iss (s : State) (t : Nat) (pc : DWord) : (s.goto_ t pc).iss = s.iss := rfl
@[simp] theorem State.goto_outs (s : State) (t : Nat) (pc : DWord) : (s.goto_ t pc).outs = s.outs := rfl
@[simp] theorem State.goto_agenda (s : State) (t : Nat) (pc : DWord) : (s.goto_ t pc).agenda = s.agenda := rfl

@[simp] theorem State.take_cycle (s : State) : s.take.2.cycle = s.cycle := rfl
@[simp] theorem State.take_rtime (s : State) : s.take.2.rtime = s.rtime := rfl
@[simp] theorem State.take_ptime (s : State) : s.take.2.ptime = s.ptime := rfl
@[simp] theorem State.take_phase (s : State) : s.take.2.phase = s.phase := rfl
@[simp] theorem State.take_fresh (s : State) : s.take.2.fresh = s.fresh + 1 := rfl
@[simp] theorem State.take_free (s : State) : s.take.2.free = s.free := rfl
@[simp] theorem State.take_dev (s : State) : s.take.2.dev = s.dev := rfl
@[simp] theorem State.take_mem (s : State) : s.take.2.mem = s.mem := rfl
@[simp] theorem State.take_tlb (s : State) : s.take.2.tlb = s.tlb := rfl
@[simp] theorem State.take_absent (s : State) : s.take.2.absent = s.absent := rfl
@[simp] theorem State.take_ctxs (s : State) : s.take.2.ctxs = s.ctxs := rfl
@[simp] theorem State.take_images (s : State) : s.take.2.images = s.images := rfl
@[simp] theorem State.take_ckpts (s : State) : s.take.2.ckpts = s.ckpts := rfl
@[simp] theorem State.take_queues (s : State) : s.take.2.queues = s.queues := rfl
@[simp] theorem State.take_calendar (s : State) : s.take.2.calendar = s.calendar := rfl
@[simp] theorem State.take_launches (s : State) : s.take.2.launches = s.launches := rfl
@[simp] theorem State.take_nextLot (s : State) : s.take.2.nextLot = s.nextLot := rfl
@[simp] theorem State.take_commits (s : State) : s.take.2.commits = s.commits := rfl
@[simp] theorem State.take_waiting (s : State) : s.take.2.waiting = s.waiting := rfl
@[simp] theorem State.take_crews (s : State) : s.take.2.crews = s.crews := rfl
@[simp] theorem State.take_threads (s : State) : s.take.2.threads = s.threads := rfl
@[simp] theorem State.take_gangs (s : State) : s.take.2.gangs = s.gangs := rfl
@[simp] theorem State.take_formings (s : State) : s.take.2.formings = s.formings := rfl
@[simp] theorem State.take_bins (s : State) : s.take.2.bins = s.bins := rfl
@[simp] theorem State.take_bars (s : State) : s.take.2.bars = s.bars := rfl
@[simp] theorem State.take_msgs (s : State) : s.take.2.msgs = s.msgs := rfl
@[simp] theorem State.take_results (s : State) : s.take.2.results = s.results := rfl
@[simp] theorem State.take_stores (s : State) : s.take.2.stores = s.stores := rfl
@[simp] theorem State.take_buffers (s : State) : s.take.2.buffers = s.buffers := rfl
@[simp] theorem State.take_rmws (s : State) : s.take.2.rmws = s.rmws := rfl
@[simp] theorem State.take_eops (s : State) : s.take.2.eops = s.eops := rfl
@[simp] theorem State.take_rides (s : State) : s.take.2.rides = s.rides := rfl
@[simp] theorem State.take_packets (s : State) : s.take.2.packets = s.packets := rfl
@[simp] theorem State.take_hostReads (s : State) : s.take.2.hostReads = s.hostReads := rfl
@[simp] theorem State.take_slots (s : State) : s.take.2.slots = s.slots := rfl
@[simp] theorem State.take_pairs (s : State) : s.take.2.pairs = s.pairs := rfl
@[simp] theorem State.take_acc (s : State) : s.take.2.acc = s.acc := rfl
@[simp] theorem State.take_tileStat (s : State) : s.take.2.tileStat = s.tileStat := rfl
@[simp] theorem State.take_infers (s : State) : s.take.2.infers = s.infers := rfl
@[simp] theorem State.take_collInst (s : State) : s.take.2.collInst = s.collInst := rfl
@[simp] theorem State.take_collIn (s : State) : s.take.2.collIn = s.collIn := rfl
@[simp] theorem State.take_collIssued (s : State) : s.take.2.collIssued = s.collIssued := rfl
@[simp] theorem State.take_elems (s : State) : s.take.2.elems = s.elems := rfl
@[simp] theorem State.take_creations (s : State) : s.take.2.creations = s.creations := rfl
@[simp] theorem State.take_batches (s : State) : s.take.2.batches = s.batches := rfl
@[simp] theorem State.take_engineWait (s : State) : s.take.2.engineWait = s.engineWait := rfl
@[simp] theorem State.take_iss (s : State) : s.take.2.iss = s.iss := rfl
@[simp] theorem State.take_outs (s : State) : s.take.2.outs = s.outs := rfl
@[simp] theorem State.take_agenda (s : State) : s.take.2.agenda = s.agenda := rfl
@[simp] theorem State.take_number (s : State) : s.take.1 = s.fresh := rfl

@[simp] theorem State.freeWord_cycle (s : State) : s.freeWord.2.cycle = s.cycle := rfl
@[simp] theorem State.freeWord_rtime (s : State) : s.freeWord.2.rtime = s.rtime := rfl
@[simp] theorem State.freeWord_ptime (s : State) : s.freeWord.2.ptime = s.ptime := rfl
@[simp] theorem State.freeWord_phase (s : State) : s.freeWord.2.phase = s.phase := rfl
@[simp] theorem State.freeWord_fresh (s : State) : s.freeWord.2.fresh = s.fresh := rfl
@[simp] theorem State.freeWord_free (s : State) : s.freeWord.2.free = s.free + 1 := rfl
@[simp] theorem State.freeWord_dev (s : State) : s.freeWord.2.dev = s.dev := rfl
@[simp] theorem State.freeWord_mem (s : State) : s.freeWord.2.mem = s.mem := rfl
@[simp] theorem State.freeWord_tlb (s : State) : s.freeWord.2.tlb = s.tlb := rfl
@[simp] theorem State.freeWord_absent (s : State) : s.freeWord.2.absent = s.absent := rfl
@[simp] theorem State.freeWord_ctxs (s : State) : s.freeWord.2.ctxs = s.ctxs := rfl
@[simp] theorem State.freeWord_images (s : State) : s.freeWord.2.images = s.images := rfl
@[simp] theorem State.freeWord_ckpts (s : State) : s.freeWord.2.ckpts = s.ckpts := rfl
@[simp] theorem State.freeWord_queues (s : State) : s.freeWord.2.queues = s.queues := rfl
@[simp] theorem State.freeWord_calendar (s : State) : s.freeWord.2.calendar = s.calendar := rfl
@[simp] theorem State.freeWord_launches (s : State) : s.freeWord.2.launches = s.launches := rfl
@[simp] theorem State.freeWord_nextLot (s : State) : s.freeWord.2.nextLot = s.nextLot := rfl
@[simp] theorem State.freeWord_commits (s : State) : s.freeWord.2.commits = s.commits := rfl
@[simp] theorem State.freeWord_waiting (s : State) : s.freeWord.2.waiting = s.waiting := rfl
@[simp] theorem State.freeWord_crews (s : State) : s.freeWord.2.crews = s.crews := rfl
@[simp] theorem State.freeWord_threads (s : State) : s.freeWord.2.threads = s.threads := rfl
@[simp] theorem State.freeWord_gangs (s : State) : s.freeWord.2.gangs = s.gangs := rfl
@[simp] theorem State.freeWord_formings (s : State) : s.freeWord.2.formings = s.formings := rfl
@[simp] theorem State.freeWord_bins (s : State) : s.freeWord.2.bins = s.bins := rfl
@[simp] theorem State.freeWord_bars (s : State) : s.freeWord.2.bars = s.bars := rfl
@[simp] theorem State.freeWord_msgs (s : State) : s.freeWord.2.msgs = s.msgs := rfl
@[simp] theorem State.freeWord_results (s : State) : s.freeWord.2.results = s.results := rfl
@[simp] theorem State.freeWord_stores (s : State) : s.freeWord.2.stores = s.stores := rfl
@[simp] theorem State.freeWord_buffers (s : State) : s.freeWord.2.buffers = s.buffers := rfl
@[simp] theorem State.freeWord_rmws (s : State) : s.freeWord.2.rmws = s.rmws := rfl
@[simp] theorem State.freeWord_eops (s : State) : s.freeWord.2.eops = s.eops := rfl
@[simp] theorem State.freeWord_rides (s : State) : s.freeWord.2.rides = s.rides := rfl
@[simp] theorem State.freeWord_packets (s : State) : s.freeWord.2.packets = s.packets := rfl
@[simp] theorem State.freeWord_hostReads (s : State) : s.freeWord.2.hostReads = s.hostReads := rfl
@[simp] theorem State.freeWord_slots (s : State) : s.freeWord.2.slots = s.slots := rfl
@[simp] theorem State.freeWord_pairs (s : State) : s.freeWord.2.pairs = s.pairs := rfl
@[simp] theorem State.freeWord_acc (s : State) : s.freeWord.2.acc = s.acc := rfl
@[simp] theorem State.freeWord_tileStat (s : State) : s.freeWord.2.tileStat = s.tileStat := rfl
@[simp] theorem State.freeWord_infers (s : State) : s.freeWord.2.infers = s.infers := rfl
@[simp] theorem State.freeWord_collInst (s : State) : s.freeWord.2.collInst = s.collInst := rfl
@[simp] theorem State.freeWord_collIn (s : State) : s.freeWord.2.collIn = s.collIn := rfl
@[simp] theorem State.freeWord_collIssued (s : State) : s.freeWord.2.collIssued = s.collIssued := rfl
@[simp] theorem State.freeWord_elems (s : State) : s.freeWord.2.elems = s.elems := rfl
@[simp] theorem State.freeWord_creations (s : State) : s.freeWord.2.creations = s.creations := rfl
@[simp] theorem State.freeWord_batches (s : State) : s.freeWord.2.batches = s.batches := rfl
@[simp] theorem State.freeWord_engineWait (s : State) : s.freeWord.2.engineWait = s.engineWait := rfl
@[simp] theorem State.freeWord_iss (s : State) : s.freeWord.2.iss = s.iss := rfl
@[simp] theorem State.freeWord_outs (s : State) : s.freeWord.2.outs = s.outs := rfl
@[simp] theorem State.freeWord_agenda (s : State) : s.freeWord.2.agenda = s.agenda := rfl
@[simp] theorem State.freeWord_value (s : State) : s.freeWord.1 = Config.freeWord s.free := rfl
@[simp] theorem State.raise_cycle (s : State) (v : Nat) :
    (s.raise v).cycle = s.cycle := by
  unfold State.raise; split <;> rfl
@[simp] theorem State.raise_rtime (s : State) (v : Nat) :
    (s.raise v).rtime = s.rtime := by
  unfold State.raise; split <;> rfl
@[simp] theorem State.raise_ptime (s : State) (v : Nat) :
    (s.raise v).ptime = s.ptime := by
  unfold State.raise; split <;> rfl
@[simp] theorem State.raise_phase (s : State) (v : Nat) :
    (s.raise v).phase = s.phase := by
  unfold State.raise; split <;> rfl
@[simp] theorem State.raise_fresh (s : State) (v : Nat) :
    (s.raise v).fresh = s.fresh := by
  unfold State.raise; split <;> rfl
@[simp] theorem State.raise_free (s : State) (v : Nat) :
    (s.raise v).free = s.free := by
  unfold State.raise; split <;> rfl
@[simp] theorem State.raise_dev (s : State) (v : Nat) :
    (s.raise v).dev = if s.masked v then { s.dev with msixPending := if s.dev.msixPending.contains v then s.dev.msixPending else v :: s.dev.msixPending } else s.dev := by
  unfold State.raise; split <;> rfl
@[simp] theorem State.raise_mem (s : State) (v : Nat) :
    (s.raise v).mem = s.mem := by
  unfold State.raise; split <;> rfl
@[simp] theorem State.raise_tlb (s : State) (v : Nat) :
    (s.raise v).tlb = s.tlb := by
  unfold State.raise; split <;> rfl
@[simp] theorem State.raise_absent (s : State) (v : Nat) :
    (s.raise v).absent = s.absent := by
  unfold State.raise; split <;> rfl
@[simp] theorem State.raise_ctxs (s : State) (v : Nat) :
    (s.raise v).ctxs = s.ctxs := by
  unfold State.raise; split <;> rfl
@[simp] theorem State.raise_images (s : State) (v : Nat) :
    (s.raise v).images = s.images := by
  unfold State.raise; split <;> rfl
@[simp] theorem State.raise_ckpts (s : State) (v : Nat) :
    (s.raise v).ckpts = s.ckpts := by
  unfold State.raise; split <;> rfl
@[simp] theorem State.raise_queues (s : State) (v : Nat) :
    (s.raise v).queues = s.queues := by
  unfold State.raise; split <;> rfl
@[simp] theorem State.raise_calendar (s : State) (v : Nat) :
    (s.raise v).calendar = s.calendar := by
  unfold State.raise; split <;> rfl
@[simp] theorem State.raise_launches (s : State) (v : Nat) :
    (s.raise v).launches = s.launches := by
  unfold State.raise; split <;> rfl
@[simp] theorem State.raise_nextLot (s : State) (v : Nat) :
    (s.raise v).nextLot = s.nextLot := by
  unfold State.raise; split <;> rfl
@[simp] theorem State.raise_commits (s : State) (v : Nat) :
    (s.raise v).commits = s.commits := by
  unfold State.raise; split <;> rfl
@[simp] theorem State.raise_waiting (s : State) (v : Nat) :
    (s.raise v).waiting = s.waiting := by
  unfold State.raise; split <;> rfl
@[simp] theorem State.raise_crews (s : State) (v : Nat) :
    (s.raise v).crews = s.crews := by
  unfold State.raise; split <;> rfl
@[simp] theorem State.raise_threads (s : State) (v : Nat) :
    (s.raise v).threads = s.threads := by
  unfold State.raise; split <;> rfl
@[simp] theorem State.raise_gangs (s : State) (v : Nat) :
    (s.raise v).gangs = s.gangs := by
  unfold State.raise; split <;> rfl
@[simp] theorem State.raise_formings (s : State) (v : Nat) :
    (s.raise v).formings = s.formings := by
  unfold State.raise; split <;> rfl
@[simp] theorem State.raise_bins (s : State) (v : Nat) :
    (s.raise v).bins = s.bins := by
  unfold State.raise; split <;> rfl
@[simp] theorem State.raise_bars (s : State) (v : Nat) :
    (s.raise v).bars = s.bars := by
  unfold State.raise; split <;> rfl
@[simp] theorem State.raise_msgs (s : State) (v : Nat) :
    (s.raise v).msgs = s.msgs := by
  unfold State.raise; split <;> rfl
@[simp] theorem State.raise_results (s : State) (v : Nat) :
    (s.raise v).results = s.results := by
  unfold State.raise; split <;> rfl
@[simp] theorem State.raise_stores (s : State) (v : Nat) :
    (s.raise v).stores = s.stores := by
  unfold State.raise; split <;> rfl
@[simp] theorem State.raise_buffers (s : State) (v : Nat) :
    (s.raise v).buffers = s.buffers := by
  unfold State.raise; split <;> rfl
@[simp] theorem State.raise_rmws (s : State) (v : Nat) :
    (s.raise v).rmws = s.rmws := by
  unfold State.raise; split <;> rfl
@[simp] theorem State.raise_eops (s : State) (v : Nat) :
    (s.raise v).eops = s.eops := by
  unfold State.raise; split <;> rfl
@[simp] theorem State.raise_rides (s : State) (v : Nat) :
    (s.raise v).rides = s.rides := by
  unfold State.raise; split <;> rfl
@[simp] theorem State.raise_packets (s : State) (v : Nat) :
    (s.raise v).packets = s.packets := by
  unfold State.raise; split <;> rfl
@[simp] theorem State.raise_hostReads (s : State) (v : Nat) :
    (s.raise v).hostReads = s.hostReads := by
  unfold State.raise; split <;> rfl
@[simp] theorem State.raise_slots (s : State) (v : Nat) :
    (s.raise v).slots = s.slots := by
  unfold State.raise; split <;> rfl
@[simp] theorem State.raise_pairs (s : State) (v : Nat) :
    (s.raise v).pairs = s.pairs := by
  unfold State.raise; split <;> rfl
@[simp] theorem State.raise_acc (s : State) (v : Nat) :
    (s.raise v).acc = s.acc := by
  unfold State.raise; split <;> rfl
@[simp] theorem State.raise_tileStat (s : State) (v : Nat) :
    (s.raise v).tileStat = s.tileStat := by
  unfold State.raise; split <;> rfl
@[simp] theorem State.raise_infers (s : State) (v : Nat) :
    (s.raise v).infers = s.infers := by
  unfold State.raise; split <;> rfl
@[simp] theorem State.raise_collInst (s : State) (v : Nat) :
    (s.raise v).collInst = s.collInst := by
  unfold State.raise; split <;> rfl
@[simp] theorem State.raise_collIn (s : State) (v : Nat) :
    (s.raise v).collIn = s.collIn := by
  unfold State.raise; split <;> rfl
@[simp] theorem State.raise_collIssued (s : State) (v : Nat) :
    (s.raise v).collIssued = s.collIssued := by
  unfold State.raise; split <;> rfl
@[simp] theorem State.raise_elems (s : State) (v : Nat) :
    (s.raise v).elems = s.elems := by
  unfold State.raise; split <;> rfl
@[simp] theorem State.raise_creations (s : State) (v : Nat) :
    (s.raise v).creations = s.creations := by
  unfold State.raise; split <;> rfl
@[simp] theorem State.raise_batches (s : State) (v : Nat) :
    (s.raise v).batches = s.batches := by
  unfold State.raise; split <;> rfl
@[simp] theorem State.raise_engineWait (s : State) (v : Nat) :
    (s.raise v).engineWait = s.engineWait := by
  unfold State.raise; split <;> rfl
@[simp] theorem State.raise_iss (s : State) (v : Nat) :
    (s.raise v).iss = s.iss := by
  unfold State.raise; split <;> rfl
@[simp] theorem State.raise_outs (s : State) (v : Nat) :
    (s.raise v).outs = if s.masked v then s.outs else s.outs ++ [.msix v] := by
  unfold State.raise; split <;> rfl
@[simp] theorem State.raise_agenda (s : State) (v : Nat) :
    (s.raise v).agenda = s.agenda := by
  unfold State.raise; split <;> rfl

@[simp] theorem State.setCount_cycle (s : State) (i n : Nat) : (s.setCount i n).cycle = s.cycle := by
  unfold State.setCount; dsimp only; split <;> simp
@[simp] theorem State.count_cycle (s : State) (i : Nat) : (s.count i).cycle = s.cycle := State.setCount_cycle s i _
@[simp] theorem State.setCount_rtime (s : State) (i n : Nat) : (s.setCount i n).rtime = s.rtime := by
  unfold State.setCount; dsimp only; split <;> simp
@[simp] theorem State.count_rtime (s : State) (i : Nat) : (s.count i).rtime = s.rtime := State.setCount_rtime s i _
@[simp] theorem State.setCount_ptime (s : State) (i n : Nat) : (s.setCount i n).ptime = s.ptime := by
  unfold State.setCount; dsimp only; split <;> simp
@[simp] theorem State.count_ptime (s : State) (i : Nat) : (s.count i).ptime = s.ptime := State.setCount_ptime s i _
@[simp] theorem State.setCount_phase (s : State) (i n : Nat) : (s.setCount i n).phase = s.phase := by
  unfold State.setCount; dsimp only; split <;> simp
@[simp] theorem State.count_phase (s : State) (i : Nat) : (s.count i).phase = s.phase := State.setCount_phase s i _
@[simp] theorem State.setCount_fresh (s : State) (i n : Nat) : (s.setCount i n).fresh = s.fresh := by
  unfold State.setCount; dsimp only; split <;> simp
@[simp] theorem State.count_fresh (s : State) (i : Nat) : (s.count i).fresh = s.fresh := State.setCount_fresh s i _
@[simp] theorem State.setCount_free (s : State) (i n : Nat) : (s.setCount i n).free = s.free := by
  unfold State.setCount; dsimp only; split <;> simp
@[simp] theorem State.count_free (s : State) (i : Nat) : (s.count i).free = s.free := State.setCount_free s i _
@[simp] theorem State.setCount_mem (s : State) (i n : Nat) : (s.setCount i n).mem = s.mem := by
  unfold State.setCount; dsimp only; split <;> simp
@[simp] theorem State.count_mem (s : State) (i : Nat) : (s.count i).mem = s.mem := State.setCount_mem s i _
@[simp] theorem State.setCount_tlb (s : State) (i n : Nat) : (s.setCount i n).tlb = s.tlb := by
  unfold State.setCount; dsimp only; split <;> simp
@[simp] theorem State.count_tlb (s : State) (i : Nat) : (s.count i).tlb = s.tlb := State.setCount_tlb s i _
@[simp] theorem State.setCount_absent (s : State) (i n : Nat) : (s.setCount i n).absent = s.absent := by
  unfold State.setCount; dsimp only; split <;> simp
@[simp] theorem State.count_absent (s : State) (i : Nat) : (s.count i).absent = s.absent := State.setCount_absent s i _
@[simp] theorem State.setCount_ctxs (s : State) (i n : Nat) : (s.setCount i n).ctxs = s.ctxs := by
  unfold State.setCount; dsimp only; split <;> simp
@[simp] theorem State.count_ctxs (s : State) (i : Nat) : (s.count i).ctxs = s.ctxs := State.setCount_ctxs s i _
@[simp] theorem State.setCount_images (s : State) (i n : Nat) : (s.setCount i n).images = s.images := by
  unfold State.setCount; dsimp only; split <;> simp
@[simp] theorem State.count_images (s : State) (i : Nat) : (s.count i).images = s.images := State.setCount_images s i _
@[simp] theorem State.setCount_ckpts (s : State) (i n : Nat) : (s.setCount i n).ckpts = s.ckpts := by
  unfold State.setCount; dsimp only; split <;> simp
@[simp] theorem State.count_ckpts (s : State) (i : Nat) : (s.count i).ckpts = s.ckpts := State.setCount_ckpts s i _
@[simp] theorem State.setCount_queues (s : State) (i n : Nat) : (s.setCount i n).queues = s.queues := by
  unfold State.setCount; dsimp only; split <;> simp
@[simp] theorem State.count_queues (s : State) (i : Nat) : (s.count i).queues = s.queues := State.setCount_queues s i _
@[simp] theorem State.setCount_calendar (s : State) (i n : Nat) : (s.setCount i n).calendar = s.calendar := by
  unfold State.setCount; dsimp only; split <;> simp
@[simp] theorem State.count_calendar (s : State) (i : Nat) : (s.count i).calendar = s.calendar := State.setCount_calendar s i _
@[simp] theorem State.setCount_launches (s : State) (i n : Nat) : (s.setCount i n).launches = s.launches := by
  unfold State.setCount; dsimp only; split <;> simp
@[simp] theorem State.count_launches (s : State) (i : Nat) : (s.count i).launches = s.launches := State.setCount_launches s i _
@[simp] theorem State.setCount_nextLot (s : State) (i n : Nat) : (s.setCount i n).nextLot = s.nextLot := by
  unfold State.setCount; dsimp only; split <;> simp
@[simp] theorem State.count_nextLot (s : State) (i : Nat) : (s.count i).nextLot = s.nextLot := State.setCount_nextLot s i _
@[simp] theorem State.setCount_commits (s : State) (i n : Nat) : (s.setCount i n).commits = s.commits := by
  unfold State.setCount; dsimp only; split <;> simp
@[simp] theorem State.count_commits (s : State) (i : Nat) : (s.count i).commits = s.commits := State.setCount_commits s i _
@[simp] theorem State.setCount_waiting (s : State) (i n : Nat) : (s.setCount i n).waiting = s.waiting := by
  unfold State.setCount; dsimp only; split <;> simp
@[simp] theorem State.count_waiting (s : State) (i : Nat) : (s.count i).waiting = s.waiting := State.setCount_waiting s i _
@[simp] theorem State.setCount_crews (s : State) (i n : Nat) : (s.setCount i n).crews = s.crews := by
  unfold State.setCount; dsimp only; split <;> simp
@[simp] theorem State.count_crews (s : State) (i : Nat) : (s.count i).crews = s.crews := State.setCount_crews s i _
@[simp] theorem State.setCount_threads (s : State) (i n : Nat) : (s.setCount i n).threads = s.threads := by
  unfold State.setCount; dsimp only; split <;> simp
@[simp] theorem State.count_threads (s : State) (i : Nat) : (s.count i).threads = s.threads := State.setCount_threads s i _
@[simp] theorem State.setCount_gangs (s : State) (i n : Nat) : (s.setCount i n).gangs = s.gangs := by
  unfold State.setCount; dsimp only; split <;> simp
@[simp] theorem State.count_gangs (s : State) (i : Nat) : (s.count i).gangs = s.gangs := State.setCount_gangs s i _
@[simp] theorem State.setCount_formings (s : State) (i n : Nat) : (s.setCount i n).formings = s.formings := by
  unfold State.setCount; dsimp only; split <;> simp
@[simp] theorem State.count_formings (s : State) (i : Nat) : (s.count i).formings = s.formings := State.setCount_formings s i _
@[simp] theorem State.setCount_bins (s : State) (i n : Nat) : (s.setCount i n).bins = s.bins := by
  unfold State.setCount; dsimp only; split <;> simp
@[simp] theorem State.count_bins (s : State) (i : Nat) : (s.count i).bins = s.bins := State.setCount_bins s i _
@[simp] theorem State.setCount_bars (s : State) (i n : Nat) : (s.setCount i n).bars = s.bars := by
  unfold State.setCount; dsimp only; split <;> simp
@[simp] theorem State.count_bars (s : State) (i : Nat) : (s.count i).bars = s.bars := State.setCount_bars s i _
@[simp] theorem State.setCount_msgs (s : State) (i n : Nat) : (s.setCount i n).msgs = s.msgs := by
  unfold State.setCount; dsimp only; split <;> simp
@[simp] theorem State.count_msgs (s : State) (i : Nat) : (s.count i).msgs = s.msgs := State.setCount_msgs s i _
@[simp] theorem State.setCount_results (s : State) (i n : Nat) : (s.setCount i n).results = s.results := by
  unfold State.setCount; dsimp only; split <;> simp
@[simp] theorem State.count_results (s : State) (i : Nat) : (s.count i).results = s.results := State.setCount_results s i _
@[simp] theorem State.setCount_stores (s : State) (i n : Nat) : (s.setCount i n).stores = s.stores := by
  unfold State.setCount; dsimp only; split <;> simp
@[simp] theorem State.count_stores (s : State) (i : Nat) : (s.count i).stores = s.stores := State.setCount_stores s i _
@[simp] theorem State.setCount_buffers (s : State) (i n : Nat) : (s.setCount i n).buffers = s.buffers := by
  unfold State.setCount; dsimp only; split <;> simp
@[simp] theorem State.count_buffers (s : State) (i : Nat) : (s.count i).buffers = s.buffers := State.setCount_buffers s i _
@[simp] theorem State.setCount_rmws (s : State) (i n : Nat) : (s.setCount i n).rmws = s.rmws := by
  unfold State.setCount; dsimp only; split <;> simp
@[simp] theorem State.count_rmws (s : State) (i : Nat) : (s.count i).rmws = s.rmws := State.setCount_rmws s i _
@[simp] theorem State.setCount_eops (s : State) (i n : Nat) : (s.setCount i n).eops = s.eops := by
  unfold State.setCount; dsimp only; split <;> simp
@[simp] theorem State.count_eops (s : State) (i : Nat) : (s.count i).eops = s.eops := State.setCount_eops s i _
@[simp] theorem State.setCount_rides (s : State) (i n : Nat) : (s.setCount i n).rides = s.rides := by
  unfold State.setCount; dsimp only; split <;> simp
@[simp] theorem State.count_rides (s : State) (i : Nat) : (s.count i).rides = s.rides := State.setCount_rides s i _
@[simp] theorem State.setCount_packets (s : State) (i n : Nat) : (s.setCount i n).packets = s.packets := by
  unfold State.setCount; dsimp only; split <;> simp
@[simp] theorem State.count_packets (s : State) (i : Nat) : (s.count i).packets = s.packets := State.setCount_packets s i _
@[simp] theorem State.setCount_hostReads (s : State) (i n : Nat) : (s.setCount i n).hostReads = s.hostReads := by
  unfold State.setCount; dsimp only; split <;> simp
@[simp] theorem State.count_hostReads (s : State) (i : Nat) : (s.count i).hostReads = s.hostReads := State.setCount_hostReads s i _
@[simp] theorem State.setCount_slots (s : State) (i n : Nat) : (s.setCount i n).slots = s.slots := by
  unfold State.setCount; dsimp only; split <;> simp
@[simp] theorem State.count_slots (s : State) (i : Nat) : (s.count i).slots = s.slots := State.setCount_slots s i _
@[simp] theorem State.setCount_pairs (s : State) (i n : Nat) : (s.setCount i n).pairs = s.pairs := by
  unfold State.setCount; dsimp only; split <;> simp
@[simp] theorem State.count_pairs (s : State) (i : Nat) : (s.count i).pairs = s.pairs := State.setCount_pairs s i _
@[simp] theorem State.setCount_acc (s : State) (i n : Nat) : (s.setCount i n).acc = s.acc := by
  unfold State.setCount; dsimp only; split <;> simp
@[simp] theorem State.count_acc (s : State) (i : Nat) : (s.count i).acc = s.acc := State.setCount_acc s i _
@[simp] theorem State.setCount_tileStat (s : State) (i n : Nat) : (s.setCount i n).tileStat = s.tileStat := by
  unfold State.setCount; dsimp only; split <;> simp
@[simp] theorem State.count_tileStat (s : State) (i : Nat) : (s.count i).tileStat = s.tileStat := State.setCount_tileStat s i _
@[simp] theorem State.setCount_infers (s : State) (i n : Nat) : (s.setCount i n).infers = s.infers := by
  unfold State.setCount; dsimp only; split <;> simp
@[simp] theorem State.count_infers (s : State) (i : Nat) : (s.count i).infers = s.infers := State.setCount_infers s i _
@[simp] theorem State.setCount_collInst (s : State) (i n : Nat) : (s.setCount i n).collInst = s.collInst := by
  unfold State.setCount; dsimp only; split <;> simp
@[simp] theorem State.count_collInst (s : State) (i : Nat) : (s.count i).collInst = s.collInst := State.setCount_collInst s i _
@[simp] theorem State.setCount_collIn (s : State) (i n : Nat) : (s.setCount i n).collIn = s.collIn := by
  unfold State.setCount; dsimp only; split <;> simp
@[simp] theorem State.count_collIn (s : State) (i : Nat) : (s.count i).collIn = s.collIn := State.setCount_collIn s i _
@[simp] theorem State.setCount_collIssued (s : State) (i n : Nat) : (s.setCount i n).collIssued = s.collIssued := by
  unfold State.setCount; dsimp only; split <;> simp
@[simp] theorem State.count_collIssued (s : State) (i : Nat) : (s.count i).collIssued = s.collIssued := State.setCount_collIssued s i _
@[simp] theorem State.setCount_elems (s : State) (i n : Nat) : (s.setCount i n).elems = s.elems := by
  unfold State.setCount; dsimp only; split <;> simp
@[simp] theorem State.count_elems (s : State) (i : Nat) : (s.count i).elems = s.elems := State.setCount_elems s i _
@[simp] theorem State.setCount_creations (s : State) (i n : Nat) : (s.setCount i n).creations = s.creations := by
  unfold State.setCount; dsimp only; split <;> simp
@[simp] theorem State.count_creations (s : State) (i : Nat) : (s.count i).creations = s.creations := State.setCount_creations s i _
@[simp] theorem State.setCount_batches (s : State) (i n : Nat) : (s.setCount i n).batches = s.batches := by
  unfold State.setCount; dsimp only; split <;> simp
@[simp] theorem State.count_batches (s : State) (i : Nat) : (s.count i).batches = s.batches := State.setCount_batches s i _
@[simp] theorem State.setCount_engineWait (s : State) (i n : Nat) : (s.setCount i n).engineWait = s.engineWait := by
  unfold State.setCount; dsimp only; split <;> simp
@[simp] theorem State.count_engineWait (s : State) (i : Nat) : (s.count i).engineWait = s.engineWait := State.setCount_engineWait s i _
@[simp] theorem State.setCount_iss (s : State) (i n : Nat) : (s.setCount i n).iss = s.iss := by
  unfold State.setCount; dsimp only; split <;> simp
@[simp] theorem State.count_iss (s : State) (i : Nat) : (s.count i).iss = s.iss := State.setCount_iss s i _
@[simp] theorem State.setCount_agenda (s : State) (i n : Nat) : (s.setCount i n).agenda = s.agenda := by
  unfold State.setCount; dsimp only; split <;> simp
@[simp] theorem State.count_agenda (s : State) (i : Nat) : (s.count i).agenda = s.agenda := State.setCount_agenda s i _

end Sys2Proof.Machine
end

