-- ==== Sys2Proof/Laws/Lanes.lean ====
section
/-! SUPPORT. How a word runs in its lanes: what reading a thread gives after a change, what a lane's operands depend on,
and what `forLanes` answers when every lane completes. -/

namespace Sys2Proof.Machine

/-- Only threads differ between two states, and thread `t` is the same in both. -/
def State.SameFor (s u : State) (t : Nat) : Prop :=
  u = { s with threads := u.threads } ∧ SMap.get? u.threads t = SMap.get? s.threads t

theorem State.sameFor_refl (s : State) (t : Nat) : s.SameFor s t := ⟨rfl, rfl⟩

theorem State.sameFor_trans {s u v : State} {t : Nat} (h : s.SameFor u t) (h' : u.SameFor v t) : s.SameFor v t := by
  obtain ⟨h1, h2⟩ := h
  obtain ⟨h3, h4⟩ := h'
  refine ⟨?_, h4.trans h2⟩
  rw [h3, h1]

/-- A change of one thread leaves the others. -/
theorem State.sameFor_modThr (s : State) {t t' : Nat} (f : Thread → Thread) (h : t' ≠ t) : s.SameFor (s.modThr t f) t' :=
  ⟨rfl, SMap.get?_modify_ne s.threads f h⟩

@[simp] theorem State.thr_modThr_ne (s : State) {t t' : Nat} (f : Thread → Thread) (h : t' ≠ t) :
    (s.modThr t f).thr t' = s.thr t' := SMap.getD_modify_ne s.threads f Thread.zero h

/-- A thread that exists reads as it was changed. -/
theorem State.thr_modThr_self (s : State) (t : Nat) (f : Thread → Thread) (h : SMap.get? s.threads t ≠ none) :
    (s.modThr t f).thr t = f (s.thr t) := by
  obtain ⟨x, hx⟩ := Option.ne_none_iff_exists'.mp h
  simp [State.thr, SMap.getD, State.modThr, hx]

theorem State.sameFor_thr {s u : State} {t : Nat} (h : s.SameFor u t) : u.thr t = s.thr t := by
  simp [State.thr, SMap.getD, h.2]

theorem State.sameFor_later (s : State) {t t' : Nat} (lat : Nat) (r : Res) (v : Word) (h : t' ≠ t) :
    s.SameFor (s.later t lat r v) t' := State.sameFor_modThr s _ h

theorem State.sameFor_laterAll (s : State) {t t' : Nat} (lat : Nat) (ws : List (Res × Word)) (h : t' ≠ t) :
    s.SameFor (s.laterAll t lat ws) t' := by
  induction ws generalizing s with
  | nil => exact s.sameFor_refl t'
  | cons w ws ih => exact State.sameFor_trans (s.sameFor_later lat w.1 w.2 h) (ih _)

theorem State.sameFor_past (s : State) {t t' : Nat} (h : t' ≠ t) : s.SameFor (s.past t) t' := State.sameFor_modThr s _ h

theorem State.sameFor_goto (s : State) {t t' : Nat} (pc : DWord) (h : t' ≠ t) : s.SameFor (s.goto_ t pc) t' :=
  State.sameFor_modThr s _ h

/-! What a lane reads depends on nothing but its own thread and what no lane changes. -/

theorem State.src_congr {s u : State} {t : Nat} (h : s.SameFor u t) (w : Nat) (o : Opd) : u.src t w o = s.src t w o := by
  have ht : SMap.getD u.threads t Thread.zero = SMap.getD s.threads t Thread.zero := State.sameFor_thr h
  rw [h.1]
  cases o <;>
    simp only [State.src, State.special, State.heldRead, State.rd, State.rd64, State.thr, State.crewOf, State.launchOf,
      State.launchIdOf, State.crewAt, State.launchAt, State.ctxIdOf, State.ctxOf, State.ctxAt, State.ancIdx, State.elemAt,
      State.heldOwner, State.imageAt, State.flush, State.interpolate, ht]
  rfl

theorem State.srcI_congr {s u : State} {t : Nat} (h : s.SameFor u t) (w : Nat) (g : Bool) (o : SrcI) :
    u.srcI t w g o = s.srcI t w g o := by
  cases o with
  | reg o => exact State.src_congr h w o
  | imm v => rfl

theorem State.dstFault_congr {s u : State} {t : Nat} (h : s.SameFor u t) (o : Opd) : u.dstFault t o = s.dstFault t o := by
  have ht : SMap.getD u.threads t Thread.zero = SMap.getD s.threads t Thread.zero := State.sameFor_thr h
  rw [h.1]
  cases o <;>
    simp only [State.dstFault, State.heldWritable, State.thr, State.heldOwner, State.imageAt, State.ctxIdOf,
      State.launchOf, State.launchIdOf, State.crewOf, State.crewAt, State.launchAt, State.elemAt, ht]
  rfl

theorem State.pr_congr {s u : State} {t : Nat} (h : s.SameFor u t) (n : Nat) : u.pr t n = s.pr t n := by
  simp [State.pr, State.sameFor_thr h]

theorem State.prx_congr {s u : State} {t : Nat} (h : s.SameFor u t) (n : BitVec 3) (g : Bool) : u.prx t n g = s.prx t n g := by
  simp [State.prx, State.pr_congr h]

theorem State.flush_congr {s u : State} {t : Nat} (h : s.SameFor u t) : u.flush t = s.flush t := by
  have ht : SMap.getD u.threads t Thread.zero = SMap.getD s.threads t Thread.zero := State.sameFor_thr h
  rw [h.1]
  simp only [State.flush, State.launchOf, State.launchIdOf, State.crewOf, State.thr, State.crewAt, State.launchAt, ht]

theorem State.rd_congr {s u : State} {t : Nat} (h : s.SameFor u t) (n : Nat) : u.rd t n = s.rd t n := by
  simp [State.rd, State.sameFor_thr h]

/-! The word in issue. -/

@[simp] theorem State.takeFault_nil (s : State) (g i b : Nat) : s.takeFault g i b [] = s := rfl

/-- Lanes that all complete, one after the other. -/
theorem runLanes_done (body : State → Nat → LaneRes) (f : State → Nat → State) (s : State)
    (hf : ∀ (u : State) (t t' : Nat), t' ≠ t → u.SameFor (f u t) t') (ts : List Nat) (hn : ts.Nodup) (fs : List (Nat × Cause × DWord))
    (hb : ∀ (u : State), ∀ t ∈ ts, s.SameFor u t → body u t = .done (f u t)) (u : State) (hu : ∀ t ∈ ts, s.SameFor u t) :
    runLanes body ts u fs = (ts.foldl (fun u t => (f u t).past t) u, fs) := by
  induction ts generalizing u with
  | nil => rfl
  | cons t ts ih =>
    obtain ⟨hnt, hn⟩ := List.nodup_cons.mp hn
    rw [runLanes, hb u t List.mem_cons_self (hu t List.mem_cons_self)]
    refine ih hn (fun u' t' h' => hb u' t' (List.mem_cons_of_mem _ h')) _ fun t' h' => ?_
    have hne : t' ≠ t := fun e => hnt (e ▸ h')
    exact State.sameFor_trans (hu t' (List.mem_cons_of_mem _ h'))
      (State.sameFor_trans (hf u t t' hne) (State.sameFor_past _ hne))

/-- A word that completes in every lane, each lane changing its own thread only. -/
theorem forLanes_each (s : State) (body : State → Nat → LaneRes) (f : State → Nat → State) (hs : s.Issues)
    (hf : ∀ (u : State) (t t' : Nat), t' ≠ t → u.SameFor (f u t) t')
    (hb : ∀ (u : State), ∀ t ∈ s.iss.lanes, s.SameFor u t → body u t = .done (f u t)) : forLanes s body = .next (s.each f) := by
  have h := runLanes_done body f s hf s.iss.lanes hs.2 [] hb s fun t _ => s.sameFor_refl t
  simp only [forLanes, hs.1, h, List.length_nil, State.takeFault_nil, State.each]

/-- A word of fixed latency whose lanes all compute their results. -/
theorem alu_yields (s : State) (lat : Nat) (d : Opd) (f : State → Nat → Except Cause (List (Res × Word)))
    (r : Nat → List (Res × Word)) (hs : s.Issues) (hd : s.Writes d)
    (hf : ∀ (u : State), ∀ t ∈ s.iss.lanes, s.SameFor u t → f u t = .ok (r t)) : alu s lat d f = .next (s.yields lat r) := by
  refine forLanes_each s _ (fun u t => u.laterAll t lat (r t)) hs (fun u t t' h => u.sameFor_laterAll lat _ h) ?_
  intro u t ht hu
  simp only [State.dstFault_congr hu, hd t ht, hf u t ht hu]

end Sys2Proof.Machine
end

