-- ==== Sys2Proof/Laws/Runs.lean ====
section
/-! SUPPORT. The shared ways in which a word runs in its lanes, each said once: what `forLanes` and `memLanes` answer when
every lane goes past the word, transfers control, stays or is held, and when some lanes fault. -/

namespace Sys2Proof.Machine

/-- Lanes that fail to complete stay failed. -/
theorem foldl_bind_none {α β : Type} (f : α → β → Option α) (l : List β) :
    l.foldl (fun (o : Option α) x => o.bind fun u => f u x) none = none := by
  induction l with
  | nil => rfl
  | cons x l ih => exact ih

/-- One lane's step of a fold that every lane must complete. -/
theorem foldl_bind_cons {α β : Type} (f : α → β → Option α) (x : β) (l : List β) (u v : α) :
    (x :: l).foldl (fun (o : Option α) x => o.bind fun u => f u x) (some u) = some v ↔
      ∃ w, f u x = some w ∧ l.foldl (fun (o : Option α) x => o.bind fun u => f u x) (some w) = some v := by
  rw [List.foldl_cons, Option.bind_some]
  cases h : f u x with
  | none => simp [foldl_bind_none f l]
  | some w => simp

/-- How a lane ends when nothing faults: the state it leaves. -/
def LaneRes.left (s : State) (t : Nat) : LaneRes → Option State
  | .done u => some (u.past t)
  | .jump u pc => some (u.goto_ t pc)
  | .stay u => some u
  | .park b => some (s.setPark t (.retry b))
  | .fault _ _ => none

/-- Lanes none of which faults, one after the other. -/
theorem runLanes_left (body : State → Nat → LaneRes) (f : State → Nat → Option State)
    (hb : ∀ (u : State) (t : Nat) (v : State), f u t = some v → (body u t).left u t = some v) (ts : List Nat) (u v : State)
    (fs : List (Nat × Cause × DWord))
    (h : ts.foldl (fun (o : Option State) t => o.bind fun u => f u t) (some u) = some v) :
    runLanes body ts u fs = (v, fs) := by
  induction ts generalizing u with
  | nil => cases h; rfl
  | cons t ts ih =>
    obtain ⟨w, hw, hr⟩ := (foldl_bind_cons f t ts u v).mp h
    have hl := hb u t w hw
    rw [runLanes]
    cases hc : body u t <;> simp only [hc, LaneRes.left, Option.some.injEq, reduceCtorEq] at hl <;> subst hl <;> exact ih _ hr

/-- A word whose every lane ends as `f` says. -/
theorem forLanes_does (s u : State) (body : State → Nat → LaneRes) (f : State → Nat → Option State) (hs : s.iss.faults = [])
    (hb : ∀ (u : State) (t : Nat) (v : State), f u t = some v → (body u t).left u t = some v) (h : s.does f = some u) :
    forLanes s body = .next u := by
  simp only [State.does, Option.map_eq_some_iff] at h
  obtain ⟨v, hv, rfl⟩ := h
  simp only [forLanes, hs, runLanes_left body f hb s.iss.lanes s v [] hv, List.length_nil, State.takeFault_nil]

/-- A word whose every lane goes past it with the effect `f`. -/
theorem forLanes_runs (s u : State) (body : State → Nat → LaneRes) (f : State → Nat → Option State) (hs : s.iss.faults = [])
    (hb : ∀ (u : State) (t : Nat) (v : State), f u t = some v → body u t = .done v) (h : s.runs f = some u) :
    forLanes s body = .next u :=
  forLanes_does s u body _ hs (fun u t v hv => by
    obtain ⟨w, hw, rfl⟩ := Option.map_eq_some_iff.mp hv
    rw [hb u t w hw]; rfl) h

/-- A word whose every lane transfers control with the effect `f`. -/
theorem forLanes_jumps (s u : State) (body : State → Nat → LaneRes) (f : State → Nat → Option (State × DWord))
    (hs : s.iss.faults = []) (hb : ∀ (u : State) (t : Nat) (v : State × DWord), f u t = some v → body u t = .jump v.1 v.2)
    (h : s.jumps f = some u) : forLanes s body = .next u :=
  forLanes_does s u body _ hs (fun u t v hv => by
    obtain ⟨w, hw, rfl⟩ := Option.map_eq_some_iff.mp hv
    rw [hb u t w hw]; rfl) h

/-- A word that moves bytes, whose every lane goes past it with the effect `f`: its launch is cut if a bound was passed. -/
theorem memLanes_runs (s u : State) (body : State → Nat → LaneRes) (f : State → Nat → Option State) (hs : s.iss.faults = [])
    (hb : ∀ (u : State) (t : Nat) (v : State), f u t = some v → body u t = .done v) (h : s.runs f = some u) :
    memLanes s body = .next (u.cut s.issLaunch) := by
  rw [memLanes, forLanes_runs s u body f hs hb h]

/-- A word that runs in one lane. -/
theorem runLanes_one (body : State → Nat → LaneRes) (t : Nat) (s : State) (fs : List (Nat × Cause × DWord)) :
    runLanes body [t] s fs = (match body s t with
      | .done s' => (s'.past t, fs)
      | .jump s' pc => (s'.goto_ t pc, fs)
      | .stay s' => (s', fs)
      | .fault c ea => (s, fs ++ [(t, c, ea)])
      | .park b => (s.setPark t (.retry b), fs)) := by
  rw [runLanes]; cases body s t <;> rfl

/-- A lane that faults in a word of one lane: nothing of the word is kept, and its fault is taken (R98). -/
theorem forLanes_fault (s : State) (body : State → Nat → LaneRes) (t : Nat) (c : Cause) (ea : DWord)
    (hs : s.iss.faults = []) (hl : s.iss.lanes = [t]) (hb : body s t = .fault c ea) :
    forLanes s body = .next ((s.noteFaults 1).takeFault s.iss.gang 0xFF 0 [(t, c, ea)]) := by
  simp only [forLanes, hl, runLanes_one, hb, hs, List.nil_append, List.length_singleton]

/-- A lane that is held in a word of one lane: it stays at the word, parked. -/
theorem forLanes_park (s : State) (body : State → Nat → LaneRes) (t : Nat) (b : Block) (hs : s.iss.faults = [])
    (hl : s.iss.lanes = [t]) (hb : body s t = .park b) :
    forLanes s body = .next ((s.setPark t (.retry b)).noteFaults 0) := by
  simp only [forLanes, hl, runLanes_one, hb, hs, List.length_nil, State.takeFault_nil]

/-- Lanes of which those named by `bad` fault and the others complete, each changing its own thread only. -/
theorem runLanes_partly (body : State → Nat → LaneRes) (f : State → Nat → State) (bad : Nat → Option (Cause × DWord)) (s : State)
    (hf : ∀ (u : State) (t t' : Nat), t' ≠ t → u.SameFor (f u t) t') (ts : List Nat) (hn : ts.Nodup)
    (fs : List (Nat × Cause × DWord))
    (hb : ∀ (u : State), ∀ t ∈ ts, s.SameFor u t → body u t = (match bad t with
      | some c => .fault c.1 c.2
      | none => .done (f u t)))
    (u : State) (hu : ∀ t ∈ ts, s.SameFor u t) :
    runLanes body ts u fs = (ts.foldl (fun u t => if (bad t).isSome then u else (f u t).past t) u,
      fs ++ ts.filterMap fun t => (bad t).map fun c => (t, c.1, c.2)) := by
  induction ts generalizing u fs with
  | nil => simp [runLanes]
  | cons t ts ih =>
    obtain ⟨hnt, hn⟩ := List.nodup_cons.mp hn
    rw [runLanes, hb u t List.mem_cons_self (hu t List.mem_cons_self)]
    have hb' : ∀ (u : State), ∀ t ∈ ts, s.SameFor u t → body u t = (match bad t with
      | some c => .fault c.1 c.2
      | none => .done (f u t)) := fun u' t' h' => hb u' t' (List.mem_cons_of_mem _ h')
    cases hc : bad t with
    | some c =>
      simp only [List.foldl_cons, hc, Option.isSome_some, if_true, List.filterMap_cons, Option.map_some]
      rw [ih hn _ hb' u fun t' h' => hu t' (List.mem_cons_of_mem _ h')]
      simp
    | none =>
      simp only [List.foldl_cons, hc, Option.isSome_none, Bool.false_eq_true, if_false, List.filterMap_cons, Option.map_none]
      refine ih hn _ hb' _ fun t' h' => ?_
      have hne : t' ≠ t := fun e => hnt (e ▸ h')
      exact State.sameFor_trans (hu t' (List.mem_cons_of_mem _ h'))
        (State.sameFor_trans (hf u t t' hne) (State.sameFor_past _ hne))

/-- A word of which the lanes named by `bad` fault, and the others complete. -/
theorem forLanes_partly (s : State) (body : State → Nat → LaneRes) (f : State → Nat → State)
    (bad : Nat → Option (Cause × DWord)) (hs : s.Issues) (hf : ∀ (u : State) (t t' : Nat), t' ≠ t → u.SameFor (f u t) t')
    (hb : ∀ (u : State), ∀ t ∈ s.iss.lanes, s.SameFor u t → body u t = (match bad t with
      | some c => .fault c.1 c.2
      | none => .done (f u t))) : forLanes s body = .next (s.partly bad f) := by
  have h := runLanes_partly body f bad s hf s.iss.lanes hs.2 [] hb s fun t _ => s.sameFor_refl t
  simp only [forLanes, hs.1, h, List.nil_append, State.partly]

end Sys2Proof.Machine
end

