-- ==== Sys2Proof/Laws/Integer.lean ====
section
/-! SUPPORT. The shared shapes of the integer words: what each answers once its operands can be read and its destination
written. -/

namespace Sys2Proof.Machine

theorem State.Reads.of_sameFor {s u : State} {w : Nat} {o : Opd} {x : Nat → Nat} {t : Nat} (h : s.Reads w o x)
    (ht : t ∈ s.iss.lanes) (hu : s.SameFor u t) : u.src t w o = .ok (x t) := (State.src_congr hu w o).trans (h t ht)

theorem State.ReadsI.of_sameFor {s u : State} {w : Nat} {g : Bool} {o : SrcI} {x : Nat → Nat} {t : Nat} (h : s.ReadsI w g o x)
    (ht : t ∈ s.iss.lanes) (hu : s.SameFor u t) : u.srcI t w g o = .ok (x t) := (State.srcI_congr hu w g o).trans (h t ht)

/-- A word of one source. -/
theorem int1_yields (s : State) (lat w : Nat) (d a : Opd) (f : Nat → List (Res × Word)) (x : Nat → Nat) (hs : s.Issues)
    (hd : s.Writes d) (ha : s.Reads w a x) : int1 s lat w d a f = .next (s.yields lat fun t => f (x t)) :=
  alu_yields s lat d _ _ hs hd fun u t ht hu => by rw [ha.of_sameFor ht hu]; rfl

/-- A word of two sources. -/
theorem int2_yields (s : State) (lat w wb : Nat) (g : Bool) (d a : Opd) (b : SrcI) (f : Nat → Nat → List (Res × Word))
    (x y : Nat → Nat) (hs : s.Issues) (hd : s.Writes d) (ha : s.Reads w a x) (hb : s.ReadsI wb g b y) :
    int2 s lat w wb g d a b f = .next (s.yields lat fun t => f (x t) (y t)) :=
  alu_yields s lat d _ _ hs hd fun u t ht hu => by rw [ha.of_sameFor ht hu, hb.of_sameFor ht hu]; rfl

/-- A word of three sources. -/
theorem int3_yields (s : State) (lat w wc : Nat) (g : Bool) (d a b : Opd) (c : SrcI) (f : Nat → Nat → Nat → List (Res × Word))
    (x y z : Nat → Nat) (hs : s.Issues) (hd : s.Writes d) (ha : s.Reads w a x) (hb : s.Reads w b y) (hc : s.ReadsI wc g c z) :
    int3 s lat w wc g d a b c f = .next (s.yields lat fun t => f (x t) (y t) (z t)) :=
  alu_yields s lat d _ _ hs hd fun u t ht hu => by
    rw [ha.of_sameFor ht hu, hb.of_sameFor ht hu, hc.of_sameFor ht hu]; rfl

/-- A register source can always be read. -/
theorem State.reads_v (s : State) (w : Nat) (n : BitVec 8) : ∃ x, s.Reads w (.v n) x :=
  ⟨fun t => if w ≤ 32 then (s.rd t n.toNat).toNat % 2 ^ w
    else if w = 64 then (s.rd64 t n.toNat).toNat
    else (s.rd64 t (n.toNat + 2)).toNat * 2 ^ 64 + (s.rd64 t n.toNat).toNat,
   fun t _ => by simp only [State.src]; split; · rfl
                 split <;> rfl⟩

/-- A register destination can always be written, and so can one that discards. -/
theorem State.writes_v (s : State) (n : BitVec 8) : s.Writes (.v n) := fun _ _ => rfl

end Sys2Proof.Machine
end

