-- ==== Sys2Proof/Laws/Float.lean ====
section
/-! SUPPORT. The shared shapes of the floating-point words: what each answers once its operands can be read and its
destination written. -/

namespace Sys2Proof.Machine

/-- A word of one 32-bit source. -/
theorem flt1_yields (s : State) (lat : Nat) (d a : Opd) (f : Bool → Nat → Word) (x : Nat → Nat) (hs : s.Issues)
    (hd : s.Writes d) (ha : s.Reads 32 a x) :
    flt1 s lat d a f = .next (s.yields lat fun t => dstWords 32 d (f (s.flush t) (x t)).toNat) :=
  alu_yields s lat d _ _ hs hd fun u t ht hu => by rw [ha.of_sameFor ht hu, State.flush_congr hu]; rfl

/-- A word of two 32-bit sources. -/
theorem flt2_yields (s : State) (lat : Nat) (d a b : Opd) (f : Bool → Nat → Nat → Word) (x y : Nat → Nat) (hs : s.Issues)
    (hd : s.Writes d) (ha : s.Reads 32 a x) (hb : s.Reads 32 b y) :
    flt2 s lat d a b f = .next (s.yields lat fun t => dstWords 32 d (f (s.flush t) (x t) (y t)).toNat) :=
  alu_yields s lat d _ _ hs hd fun u t ht hu => by
    rw [ha.of_sameFor ht hu, hb.of_sameFor ht hu, State.flush_congr hu]; rfl

/-- A word of three 32-bit sources. -/
theorem flt3_yields (s : State) (lat : Nat) (d a b c : Opd) (f : Bool → Nat → Nat → Nat → Word) (x y z : Nat → Nat)
    (hs : s.Issues) (hd : s.Writes d) (ha : s.Reads 32 a x) (hb : s.Reads 32 b y) (hc : s.Reads 32 c z) :
    flt3 s lat d a b c f = .next (s.yields lat fun t => dstWords 32 d (f (s.flush t) (x t) (y t) (z t)).toNat) :=
  alu_yields s lat d _ _ hs hd fun u t ht hu => by
    rw [ha.of_sameFor ht hu, hb.of_sameFor ht hu, hc.of_sameFor ht hu, State.flush_congr hu]; rfl

end Sys2Proof.Machine
end

