-- ==== Sys2Proof/Laws/Memory.lean ====
section
/-! SUPPORT. Laws of memory: a read after a write, and that every operation keeps the canonical form. -/

namespace Sys2Proof.Machine

/-- The canonical form, said of the keys and of each cell. -/
theorem Memory.wf_iff (m : Memory) :
    m.wf = true ↔ SMap.sorted m.cells = true ∧ ∀ c ∈ m.cells, c.2 ≠ Memory.unlisted m.gen c.1 := by
  simp [Memory.wf]

@[simp] theorem Memory.write_gen (m : Memory) (loc : Nat) (b : Byte) : (m.write loc b).gen = m.gen := by
  unfold Memory.write; split <;> rfl

@[simp] theorem Memory.writeN_gen (m : Memory) (loc : Nat) (bs : List Byte) : (m.writeN loc bs).gen = m.gen := by
  induction bs generalizing m loc with
  | nil => rfl
  | cons b bs ih => simp [Memory.writeN, ih]

/-- A byte reads as what was written there. -/
theorem Memory.read_write_self (m : Memory) (loc : Nat) (b : Byte) (h : m.wf = true) : (m.write loc b).read loc = b := by
  unfold Memory.write Memory.read
  split
  · rename_i hb
    simp [SMap.getD, SMap.get?_del_self _ _ ((Memory.wf_iff m).mp h).1, hb]
  · simp

/-- Every other byte reads as before a write. -/
theorem Memory.read_write_ne (m : Memory) {loc loc' : Nat} (b : Byte) (h : loc' ≠ loc) :
    (m.write loc b).read loc' = m.read loc' := by
  unfold Memory.write Memory.read
  split
  · simp [SMap.getD, SMap.get?_del_ne _ h]
  · simp [SMap.getD, SMap.get?_put_ne _ _ h]

/-- What any byte reads as after a write. -/
theorem Memory.read_write (m : Memory) (loc loc' : Nat) (b : Byte) (h : m.wf = true) :
    (m.write loc b).read loc' = if loc' = loc then b else m.read loc' := by
  split
  · subst loc'; exact Memory.read_write_self m loc b h
  · exact Memory.read_write_ne m b ‹_›

/-- A write keeps the canonical form. -/
theorem Memory.wf_write (m : Memory) (loc : Nat) (b : Byte) (h : m.wf = true) : (m.write loc b).wf = true := by
  obtain ⟨hs, hc⟩ := (Memory.wf_iff m).mp h
  rw [Memory.wf_iff, Memory.write_gen]
  unfold Memory.write
  split
  · exact ⟨SMap.sorted_del _ _ hs, fun c hm => hc c ((SMap.del_sublist _ _).subset hm)⟩
  · rename_i hb
    refine ⟨SMap.sorted_put _ _ _ hs, fun c hm => ?_⟩
    rcases SMap.mem_put hm with rfl | hm
    · exact hb
    · exact hc c hm

/-- Writing bytes keeps the canonical form. -/
theorem Memory.wf_writeN (m : Memory) (loc : Nat) (bs : List Byte) (h : m.wf = true) : (m.writeN loc bs).wf = true := by
  induction bs generalizing m loc with
  | nil => exact h
  | cons b bs ih => exact ih _ _ (Memory.wf_write m loc b h)

/-- Bytes outside those written read as before. -/
theorem Memory.read_writeN_ne (m : Memory) (loc : Nat) (bs : List Byte) (a : Nat) (h : a < loc ∨ loc + bs.length ≤ a) :
    (m.writeN loc bs).read a = m.read a := by
  induction bs generalizing m loc with
  | nil => rfl
  | cons b bs ih =>
    simp only [List.length_cons] at h
    rw [Memory.writeN, ih _ _ (by omega), Memory.read_write_ne m b (by omega)]

/-- Each written byte reads as what was written there. -/
theorem Memory.read_writeN (m : Memory) (loc : Nat) (bs : List Byte) (h : m.wf = true) (i : Nat) (hi : i < bs.length) :
    (m.writeN loc bs).read (loc + i) = bs[i] := by
  induction bs generalizing m loc i with
  | nil => simp at hi
  | cons b bs ih =>
    rw [Memory.writeN]
    cases i with
    | zero =>
      rw [Memory.read_writeN_ne _ _ _ _ (by omega)]
      simpa using Memory.read_write_self m loc b h
    | succ j =>
      have := ih (m.write loc b) (loc + 1) (Memory.wf_write m loc b h) j (by simpa using hi)
      rw [show loc + (j + 1) = loc + 1 + j by omega, this]; rfl

@[simp] theorem Memory.readN_length (m : Memory) (loc n : Nat) : (m.readN loc n).length = n := by
  induction n generalizing loc with
  | zero => rfl
  | succ n ih => simp [Memory.readN, ih]

theorem Memory.readN_getElem (m : Memory) (loc n i : Nat) (h : i < (m.readN loc n).length) :
    (m.readN loc n)[i] = m.read (loc + i) := by
  induction n generalizing loc i with
  | zero => simp [Memory.readN] at h
  | succ n ih =>
    cases i with
    | zero => rfl
    | succ j =>
      have hj : j < (m.readN (loc + 1) n).length := by simpa [Memory.readN] using h
      simp only [Memory.readN, List.getElem_cons_succ, ih _ _ hj]
      congr 1; omega

/-- Reading back what was written. -/
theorem Memory.readN_writeN (m : Memory) (loc : Nat) (bs : List Byte) (h : m.wf = true) :
    (m.writeN loc bs).readN loc bs.length = bs := by
  apply List.ext_getElem
  · simp
  · intro i h1 h2
    rw [Memory.readN_getElem, Memory.read_writeN m loc bs h i h2]

/-- Clearing keeps the canonical form. -/
theorem Memory.wf_clear (m : Memory) (loc n : Nat) (h : m.wf = true) : (m.clear loc n).wf = true := by
  obtain ⟨hs, hc⟩ := (Memory.wf_iff m).mp h
  exact (Memory.wf_iff _).mpr ⟨SMap.sorted_keep m.cells (fun k _ => decide (k < loc) || decide (loc + n ≤ k)) hs, fun c hm => hc c (List.filter_sublist.subset hm)⟩

/-- Only what lies below HBM's end depends on the sounding. -/
theorem Memory.unlisted_gen (g g' loc : Nat) (h : 2 ^ 60 ≤ loc) : Memory.unlisted g loc = Memory.unlisted g' loc := by
  unfold Memory.unlisted
  rw [if_neg (Nat.not_lt.mpr h), if_neg (Nat.not_lt.mpr h)]

/-- A sounding keeps the canonical form. -/
theorem Memory.wf_scramble (m : Memory) (h : m.wf = true) : m.scramble.wf = true := by
  obtain ⟨hs, hc⟩ := (Memory.wf_iff m).mp h
  refine (Memory.wf_iff _).mpr ⟨SMap.sorted_keep m.cells (fun k _ => decide (2 ^ 60 ≤ k)) hs, fun c hm => ?_⟩
  obtain ⟨hm, hk⟩ := List.mem_filter.mp hm
  show c.2 ≠ Memory.unlisted (m.gen + 1) c.1
  rw [Memory.unlisted_gen (m.gen + 1) m.gen c.1 (by simpa using hk)]
  exact hc c hm

/-- A fold of writes keeps the canonical form. -/
theorem Memory.wf_foldl {α : Type} (f : Memory → α → Memory) (hf : ∀ m a, m.wf = true → (f m a).wf = true) (l : List α)
    (m : Memory) (h : m.wf = true) : (l.foldl f m).wf = true := by
  induction l generalizing m with
  | nil => exact h
  | cons a l ih => exact ih _ (hf m a h)

theorem Memory.read_none (m : Memory) (loc : Nat) (h : SMap.get? m.cells loc = none) :
    m.read loc = Memory.unlisted m.gen loc := by simp [Memory.read, SMap.getD, h]

theorem Memory.read_some (m : Memory) (loc : Nat) (b : Byte) (h : SMap.get? m.cells loc = some b) : m.read loc = b := by
  simp [Memory.read, SMap.getD, h]

/-- Memories in canonical form that read alike everywhere, after the same soundings, are the same memory. -/
theorem Memory.ext_read (m m' : Memory) (h : m.wf = true) (h' : m'.wf = true) (hg : m.gen = m'.gen)
    (hr : ∀ loc, m.read loc = m'.read loc) : m = m' := by
  obtain ⟨hs, hc⟩ := (Memory.wf_iff m).mp h
  obtain ⟨hs', hc'⟩ := (Memory.wf_iff m').mp h'
  have hcells : m.cells = m'.cells := by
    refine SMap.ext hs hs' fun i => ?_
    cases h1 : SMap.get? m.cells i with
    | none =>
      cases h2 : SMap.get? m'.cells i with
      | none => rfl
      | some b =>
        have := hr i
        rw [Memory.read_none m i h1, Memory.read_some m' i b h2, hg] at this
        exact absurd this.symm (hc' _ (SMap.mem_of_get? h2))
    | some a =>
      cases h2 : SMap.get? m'.cells i with
      | none =>
        have := hr i
        rw [Memory.read_some m i a h1, Memory.read_none m' i h2, ← hg] at this
        exact absurd this (hc _ (SMap.mem_of_get? h1))
      | some b =>
        have := hr i
        rw [Memory.read_some m i a h1, Memory.read_some m' i b h2] at this
        rw [this]
  cases m; cases m'; simp_all

end Sys2Proof.Machine
end

