-- ==== Sys2Proof/Laws/PerInstr.lean ====
section
/-! SUPPORT. The per-instruction family `Encoding`: a well-formed instruction is a word of a program and has an encoding of
one or two words, and an event has none. -/

open Sys2Proof Sys2Proof.Machine

/-- A well-formed instruction is no event, and is spelled by one or two words. -/
def Sys2Proof.Laws.Encoding.Statement (i : Instr) : Prop :=
  ∀ k, i.wf k = true → isEvent i = false ∧
    ((encode { ctl := k, ins := i }).length = 1 ∨ (encode { ctl := k, ins := i }).length = 2)

namespace Sys2Proof.Laws.Encoding

theorem mov (ty : Ty) (d a : Opd) : Statement (.mov ty d a) :=
  fun _ _ => ⟨rfl, .inl rfl⟩

theorem movi32 (ty : Ty) (d : Opd) (imm : BitVec 32) : Statement (.movi32 ty d imm) :=
  fun _ _ => ⟨rfl, .inl rfl⟩

theorem movi64 (ty : Ty) (d : Opd) (imm : BitVec 64) : Statement (.movi64 ty d imm) :=
  fun _ _ => ⟨rfl, .inr rfl⟩

theorem sel (ty : Ty) (d a : Opd) (b : SrcI) (ps : BitVec 3) (psn : Bool) : Statement (.sel ty d a b ps psn) :=
  fun _ _ => ⟨rfl, .inl rfl⟩

theorem add (sat : Bool) (ty : Ty) (d a : Opd) (b : SrcI) (po : BitVec 3) : Statement (.add sat ty d a b po) :=
  fun _ _ => ⟨rfl, .inl rfl⟩

theorem addc (ty : Ty) (d a : Opd) (b : SrcI) (pi po : BitVec 3) : Statement (.addc ty d a b pi po) :=
  fun _ _ => ⟨rfl, .inl rfl⟩

theorem sub (sat : Bool) (ty : Ty) (d a : Opd) (b : SrcI) (po : BitVec 3) : Statement (.sub sat ty d a b po) :=
  fun _ _ => ⟨rfl, .inl rfl⟩

theorem subb (ty : Ty) (d a : Opd) (b : SrcI) (pi po : BitVec 3) : Statement (.subb ty d a b pi po) :=
  fun _ _ => ⟨rfl, .inl rfl⟩

theorem neg (sat : Bool) (ty : Ty) (d a : Opd) : Statement (.neg sat ty d a) :=
  fun _ _ => ⟨rfl, .inl rfl⟩

theorem abs (sat : Bool) (ty : Ty) (d a : Opd) : Statement (.abs sat ty d a) :=
  fun _ _ => ⟨rfl, .inl rfl⟩

theorem mul (ty : Ty) (d a : Opd) (b : SrcI) : Statement (.mul ty d a b) :=
  fun _ _ => ⟨rfl, .inl rfl⟩

theorem mulhi (ty : Ty) (d a : Opd) (b : SrcI) : Statement (.mulhi ty d a b) :=
  fun _ _ => ⟨rfl, .inl rfl⟩

theorem mad (ty : Ty) (d a b : Opd) (c : SrcI) : Statement (.mad ty d a b c) :=
  fun _ _ => ⟨rfl, .inl rfl⟩

theorem madw (ty : Ty) (d a b : Opd) (c : SrcI) : Statement (.madw ty d a b c) :=
  fun _ _ => ⟨rfl, .inl rfl⟩

theorem div (ty : Ty) (d a : Opd) (b : SrcI) : Statement (.div ty d a b) :=
  fun _ _ => ⟨rfl, .inl rfl⟩

theorem rem (ty : Ty) (d a : Opd) (b : SrcI) : Statement (.rem ty d a b) :=
  fun _ _ => ⟨rfl, .inl rfl⟩

theorem min (ty : Ty) (d a : Opd) (b : SrcI) : Statement (.min ty d a b) :=
  fun _ _ => ⟨rfl, .inl rfl⟩

theorem max (ty : Ty) (d a : Opd) (b : SrcI) : Statement (.max ty d a b) :=
  fun _ _ => ⟨rfl, .inl rfl⟩

theorem and (ty : Ty) (d a : Opd) (b : SrcI) : Statement (.and ty d a b) :=
  fun _ _ => ⟨rfl, .inl rfl⟩

theorem or (ty : Ty) (d a : Opd) (b : SrcI) : Statement (.or ty d a b) :=
  fun _ _ => ⟨rfl, .inl rfl⟩

theorem xor (ty : Ty) (d a : Opd) (b : SrcI) : Statement (.xor ty d a b) :=
  fun _ _ => ⟨rfl, .inl rfl⟩

theorem not (ty : Ty) (d a : Opd) : Statement (.not ty d a) :=
  fun _ _ => ⟨rfl, .inl rfl⟩

theorem andn (ty : Ty) (d a : Opd) (b : SrcI) : Statement (.andn ty d a b) :=
  fun _ _ => ⟨rfl, .inl rfl⟩

theorem orn (ty : Ty) (d a : Opd) (b : SrcI) : Statement (.orn ty d a b) :=
  fun _ _ => ⟨rfl, .inl rfl⟩

theorem shl (ty : Ty) (d a : Opd) (b : SrcI) : Statement (.shl ty d a b) :=
  fun _ _ => ⟨rfl, .inl rfl⟩

theorem shr (ty : Ty) (d a : Opd) (b : SrcI) : Statement (.shr ty d a b) :=
  fun _ _ => ⟨rfl, .inl rfl⟩

theorem sar (ty : Ty) (d a : Opd) (b : SrcI) : Statement (.sar ty d a b) :=
  fun _ _ => ⟨rfl, .inl rfl⟩

theorem rot (ty : Ty) (d a : Opd) (b : SrcI) : Statement (.rot ty d a b) :=
  fun _ _ => ⟨rfl, .inl rfl⟩

theorem fshl (ty : Ty) (d a b : Opd) (c : SrcI) : Statement (.fshl ty d a b c) :=
  fun _ _ => ⟨rfl, .inl rfl⟩

theorem bfx (ty : Ty) (d a : Opd) (b : SrcI) : Statement (.bfx ty d a b) :=
  fun _ _ => ⟨rfl, .inl rfl⟩

theorem bfi (ty : Ty) (d a b : Opd) (c : SrcI) : Statement (.bfi ty d a b c) :=
  fun _ _ => ⟨rfl, .inl rfl⟩

theorem popc (ty : Ty) (d a : Opd) : Statement (.popc ty d a) :=
  fun _ _ => ⟨rfl, .inl rfl⟩

theorem clz (ty : Ty) (d a : Opd) : Statement (.clz ty d a) :=
  fun _ _ => ⟨rfl, .inl rfl⟩

theorem ctz (ty : Ty) (d a : Opd) : Statement (.ctz ty d a) :=
  fun _ _ => ⟨rfl, .inl rfl⟩

theorem brev (ty : Ty) (d a : Opd) : Statement (.brev ty d a) :=
  fun _ _ => ⟨rfl, .inl rfl⟩

theorem permb (ty : Ty) (d a b : Opd) (c : SrcI) : Statement (.permb ty d a b c) :=
  fun _ _ => ⟨rfl, .inl rfl⟩

theorem lea (ty : Ty) (d a : Opd) (b : SrcI) (sh : BitVec 5) : Statement (.lea ty d a b sh) :=
  fun _ _ => ⟨rfl, .inl rfl⟩

theorem cmp (ty : Ty) (cond : Cond) (bop : Bop) (pd ps : BitVec 3) (psn : Bool) (a : Opd) (b : SrcI) : Statement (.cmp ty cond bop pd ps psn a b) :=
  fun _ _ => ⟨rfl, .inl rfl⟩

theorem plop (pd pa pb pc : BitVec 3) (table : BitVec 8) : Statement (.plop pd pa pb pc table) :=
  fun _ _ => ⟨rfl, .inl rfl⟩

theorem pmov (d : Opd) : Statement (.pmov d) :=
  fun _ _ => ⟨rfl, .inl rfl⟩

theorem pmovSet (a : Opd) (mask : BitVec 7) : Statement (.pmovSet a mask) :=
  fun _ _ => ⟨rfl, .inl rfl⟩

theorem pairedWord (x y : Half) : Statement (.pairedWord x y) :=
  fun _ _ => ⟨rfl, .inl rfl⟩

theorem nop : Statement (.nop) :=
  fun _ _ => ⟨rfl, .inl rfl⟩

theorem bra (off : BitVec 32) : Statement (.bra off) :=
  fun _ _ => ⟨rfl, .inl rfl⟩

theorem jmp (a : Opd) : Statement (.jmp a) :=
  fun _ _ => ⟨rfl, .inl rfl⟩

theorem call (d : Opd) (off : BitVec 32) : Statement (.call d off) :=
  fun _ _ => ⟨rfl, .inl rfl⟩

theorem callr (d a : Opd) : Statement (.callr d a) :=
  fun _ _ => ⟨rfl, .inl rfl⟩

theorem ret (a : Opd) : Statement (.ret a) :=
  fun _ _ => ⟨rfl, .inl rfl⟩

theorem reconv (regroup : Bool) (a : Opd) (off : BitVec 32) : Statement (.reconv regroup a off) :=
  fun _ _ => ⟨rfl, .inl rfl⟩

theorem exit : Statement (.exit) :=
  fun _ _ => ⟨rfl, .inl rfl⟩

theorem yield : Statement (.yield) :=
  fun _ _ => ⟨rfl, .inl rfl⟩

theorem sleep (n : SrcI) : Statement (.sleep n) :=
  fun _ _ => ⟨rfl, .inl rfl⟩

theorem sleepExpiry (t : Nat) : Statement (.sleepExpiry t) :=
  fun _ h => nomatch h

theorem fadd (rm : Rm) (m : FMods) (d a b : Opd) : Statement (.fadd rm m d a b) :=
  fun _ _ => ⟨rfl, .inl rfl⟩

theorem fsub (rm : Rm) (m : FMods) (d a b : Opd) : Statement (.fsub rm m d a b) :=
  fun _ _ => ⟨rfl, .inl rfl⟩

theorem fmul (rm : Rm) (m : FMods) (d a b : Opd) : Statement (.fmul rm m d a b) :=
  fun _ _ => ⟨rfl, .inl rfl⟩

theorem ffma (rm : Rm) (m : FMods) (d a b c : Opd) : Statement (.ffma rm m d a b c) :=
  fun _ _ => ⟨rfl, .inl rfl⟩

theorem fmin (m : FMods) (d a b : Opd) : Statement (.fmin m d a b) :=
  fun _ _ => ⟨rfl, .inl rfl⟩

theorem fmax (m : FMods) (d a b : Opd) : Statement (.fmax m d a b) :=
  fun _ _ => ⟨rfl, .inl rfl⟩

theorem fcmp (cond : BitVec 4) (bop : Bop) (pd ps : BitVec 3) (psn : Bool) (m : FMods) (a b : Opd) : Statement (.fcmp cond bop pd ps psn m a b) :=
  fun _ _ => ⟨rfl, .inl rfl⟩

theorem fclass (d a : Opd) : Statement (.fclass d a) :=
  fun _ _ => ⟨rfl, .inl rfl⟩

theorem frnd (rm : Rm) (m : FMods) (d a : Opd) : Statement (.frnd rm m d a) :=
  fun _ _ => ⟨rfl, .inl rfl⟩

theorem ffrac (m : FMods) (d a : Opd) : Statement (.ffrac m d a) :=
  fun _ _ => ⟨rfl, .inl rfl⟩

theorem fdiv (rm : Rm) (m : FMods) (d a b : Opd) : Statement (.fdiv rm m d a b) :=
  fun _ _ => ⟨rfl, .inl rfl⟩

theorem fsqrt (rm : Rm) (m : FMods) (d a : Opd) : Statement (.fsqrt rm m d a) :=
  fun _ _ => ⟨rfl, .inl rfl⟩

theorem rcp (m : FMods) (d a : Opd) : Statement (.rcp m d a) :=
  fun _ _ => ⟨rfl, .inl rfl⟩

theorem rsq (m : FMods) (d a : Opd) : Statement (.rsq m d a) :=
  fun _ _ => ⟨rfl, .inl rfl⟩

theorem exp2 (m : FMods) (d a : Opd) : Statement (.exp2 m d a) :=
  fun _ _ => ⟨rfl, .inl rfl⟩

theorem log2 (m : FMods) (d a : Opd) : Statement (.log2 m d a) :=
  fun _ _ => ⟨rfl, .inl rfl⟩

theorem sinr (m : FMods) (d a : Opd) : Statement (.sinr m d a) :=
  fun _ _ => ⟨rfl, .inl rfl⟩

theorem cosr (m : FMods) (d a : Opd) : Statement (.cosr m d a) :=
  fun _ _ => ⟨rfl, .inl rfl⟩

theorem tanh (m : FMods) (d a : Opd) : Statement (.tanh m d a) :=
  fun _ _ => ⟨rfl, .inl rfl⟩

theorem pkadd (ty : Ty) (rm : Rm) (m : FMods) (d a b : Opd) : Statement (.pkadd ty rm m d a b) :=
  fun _ _ => ⟨rfl, .inl rfl⟩

theorem pkmul (ty : Ty) (rm : Rm) (m : FMods) (d a b : Opd) : Statement (.pkmul ty rm m d a b) :=
  fun _ _ => ⟨rfl, .inl rfl⟩

theorem pkfma (ty : Ty) (rm : Rm) (m : FMods) (d a b c : Opd) : Statement (.pkfma ty rm m d a b c) :=
  fun _ _ => ⟨rfl, .inl rfl⟩

theorem dot2h (sty : Ty) (rm : Rm) (m : FMods) (d a b c : Opd) : Statement (.dot2h sty rm m d a b c) :=
  fun _ _ => ⟨rfl, .inl rfl⟩

theorem dot4b8 (sty : Ty) (rm : Rm) (m : FMods) (d a b c : Opd) : Statement (.dot4b8 sty rm m d a b c) :=
  fun _ _ => ⟨rfl, .inl rfl⟩

theorem cvt (ty sty : Ty) (rm : Rm) (pol : Pol) (m : FMods) (scl : Bool) (k : BitVec 2) (d a r sc : Opd) : Statement (.cvt ty sty rm pol m scl k d a r sc) :=
  fun _ _ => ⟨rfl, .inl rfl⟩

theorem cvts (ty sty : Ty) (rm : Rm) (pol : Pol) (m : FMods) (k : BitVec 2) (d a r sc : Opd) : Statement (.cvts ty sty rm pol m k d a r sc) :=
  fun _ _ => ⟨rfl, .inl rfl⟩

theorem pack2 (ty sty : Ty) (rm : Rm) (pol : Pol) (m : FMods) (hi : Bool) (d a b r : Opd) : Statement (.pack2 ty sty rm pol m hi d a b r) :=
  fun _ _ => ⟨rfl, .inl rfl⟩

theorem unpack (sty : Ty) (rm : Rm) (pol : Pol) (scl : Bool) (k : BitVec 2) (d a sc : Opd) : Statement (.unpack sty rm pol scl k d a sc) :=
  fun _ _ => ⟨rfl, .inl rfl⟩

theorem scale (rm : Rm) (pol : Pol) (m : FMods) (scl : Bool) (k : BitVec 2) (d a b : Opd) : Statement (.scale rm pol m scl k d a b) :=
  fun _ _ => ⟨rfl, .inl rfl⟩

theorem shfl (mode : ShMode) (seg : BitVec 3) (ty : Ty) (pd : BitVec 3) (d a : Opd) (b : SrcI) (m : Opd) : Statement (.shfl mode seg ty pd d a b m) :=
  fun _ _ => ⟨rfl, .inl rfl⟩

theorem vote (op : VOp) (ps : BitVec 3) (psn : Bool) (pd : BitVec 3) (d m : Opd) : Statement (.vote op ps psn pd d m) :=
  fun _ _ => ⟨rfl, .inl rfl⟩

theorem matchKeys (all : Bool) (ty : Ty) (pd : BitVec 3) (d a m : Opd) : Statement (.matchKeys all ty pd d a m) :=
  fun _ _ => ⟨rfl, .inl rfl⟩

theorem redux (op : ROp) (ty : Ty) (d a m : Opd) : Statement (.redux op ty d a m) :=
  fun _ _ => ⟨rfl, .inl rfl⟩

theorem scan (op : ROp) (incl : Bool) (ty : Ty) (d a m : Opd) : Statement (.scan op incl ty d a m) :=
  fun _ _ => ⟨rfl, .inl rfl⟩

theorem lds (mm : MemMods) (ty : Ty) (d a : Opd) : Statement (.lds mm ty d a) :=
  fun _ _ => ⟨rfl, .inl rfl⟩

theorem sts (mm : MemMods) (ty : Ty) (a b : Opd) : Statement (.sts mm ty a b) :=
  fun _ _ => ⟨rfl, .inl rfl⟩

theorem ldg (mm : MemMods) (ty : Ty) (d a : Opd) : Statement (.ldg mm ty d a) :=
  fun _ _ => ⟨rfl, .inl rfl⟩

theorem stg (mm : MemMods) (ty : Ty) (a b : Opd) : Statement (.stg mm ty a b) :=
  fun _ _ => ⟨rfl, .inl rfl⟩

theorem ldd (mm : MemMods) (ty : Ty) (d a : Opd) : Statement (.ldd mm ty d a) :=
  fun _ _ => ⟨rfl, .inl rfl⟩

theorem std (mm : MemMods) (ty : Ty) (a b : Opd) : Statement (.std mm ty a b) :=
  fun _ _ => ⟨rfl, .inl rfl⟩

theorem ldl (mm : MemMods) (ty : Ty) (d a : Opd) : Statement (.ldl mm ty d a) :=
  fun _ _ => ⟨rfl, .inl rfl⟩

theorem stl (mm : MemMods) (ty : Ty) (a b : Opd) : Statement (.stl mm ty a b) :=
  fun _ _ => ⟨rfl, .inl rfl⟩

theorem ldk (mm : MemMods) (ty : Ty) (d a : Opd) : Statement (.ldk mm ty d a) :=
  fun _ _ => ⟨rfl, .inl rfl⟩

theorem ldw (mm : MemMods) (ty : Ty) (d a : Opd) : Statement (.ldw mm ty d a) :=
  fun _ _ => ⟨rfl, .inl rfl⟩

theorem stw (mm : MemMods) (ty : Ty) (a b : Opd) : Statement (.stw mm ty a b) :=
  fun _ _ => ⟨rfl, .inl rfl⟩

theorem pres (mm : MemMods) (d a : Opd) : Statement (.pres mm d a) :=
  fun _ _ => ⟨rfl, .inl rfl⟩

theorem atoms (op : AOp) (mm : MemMods) (ty : Ty) (d a b c : Opd) : Statement (.atoms op mm ty d a b c) :=
  fun _ _ => ⟨rfl, .inl rfl⟩

theorem atomd (op : AOp) (mm : MemMods) (ty : Ty) (d a b c : Opd) : Statement (.atomd op mm ty d a b c) :=
  fun _ _ => ⟨rfl, .inl rfl⟩

theorem atomg (op : AOp) (mm : MemMods) (ty : Ty) (d a b c : Opd) : Statement (.atomg op mm ty d a b c) :=
  fun _ _ => ⟨rfl, .inl rfl⟩

theorem redg (op : AOp) (mm : MemMods) (ty : Ty) (a b : Opd) : Statement (.redg op mm ty a b) :=
  fun _ _ => ⟨rfl, .inl rfl⟩

theorem redd (op : AOp) (mm : MemMods) (ty : Ty) (a b : Opd) : Statement (.redd op mm ty a b) :=
  fun _ _ => ⟨rfl, .inl rfl⟩

theorem fence (ord : BitVec 2) (scope : BitVec 3) : Statement (.fence ord scope) :=
  fun _ _ => ⟨rfl, .inl rfl⟩

theorem bar (level op : BitVec 2) (id : BitVec 4) : Statement (.bar level op id) :=
  fun _ _ => ⟨rfl, .inl rfl⟩

theorem chdrop (try_ : Bool) (pd : BitVec 3) (sel : BitVec 6) (a : Opd) : Statement (.chdrop try_ pd sel a) :=
  fun _ _ => ⟨rfl, .inl rfl⟩

theorem chtake (try_ : Bool) (pd : BitVec 3) (sel : BitVec 6) (d : Opd) : Statement (.chtake try_ pd sel d) :=
  fun _ _ => ⟨rfl, .inl rfl⟩

theorem chfree (sel : BitVec 6) : Statement (.chfree sel) :=
  fun _ _ => ⟨rfl, .inl rfl⟩

theorem wait (all : Bool) (nc : BitVec 2) (scope : BitVec 3) (d w : Opd) (b : SrcI) : Statement (.wait all nc scope d w b) :=
  fun _ _ => ⟨rfl, .inl rfl⟩

theorem waitEvaluation (t : Nat) : Statement (.waitEvaluation t) :=
  fun _ h => nomatch h

theorem msend (len : BitVec 9) (d a b c : Opd) : Statement (.msend len d a b c) :=
  fun _ _ => ⟨rfl, .inl rfl⟩

theorem mrecv (len : BitVec 9) (d a b c : Opd) : Statement (.mrecv len d a b c) :=
  fun _ _ => ⟨rfl, .inl rfl⟩

theorem mprobe (d b c : Opd) : Statement (.mprobe d b c) :=
  fun _ _ => ⟨rfl, .inl rfl⟩

theorem messageDelivery (m : Nat) : Statement (.messageDelivery m) :=
  fun _ h => nomatch h

theorem spawn (nohold : Bool) (a b : Opd) : Statement (.spawn nohold a b) :=
  fun _ _ => ⟨rfl, .inl rfl⟩

theorem binTimerExpiry (bin : Nat) : Statement (.binTimerExpiry bin) :=
  fun _ h => nomatch h

theorem binflush (a : Opd) : Statement (.binflush a) :=
  fun _ _ => ⟨rfl, .inl rfl⟩

theorem wsplit (d a b : Opd) : Statement (.wsplit d a b) :=
  fun _ _ => ⟨rfl, .inl rfl⟩

theorem grow (count : BitVec 6) : Statement (.grow count) :=
  fun _ _ => ⟨rfl, .inl rfl⟩

theorem growGrant (crew : Nat) : Statement (.growGrant crew) :=
  fun _ h => nomatch h

theorem shrink (count : BitVec 6) : Statement (.shrink count) :=
  fun _ _ => ⟨rfl, .inl rfl⟩

theorem launch (defer : Bool) (d a : Opd) (queue : BitVec 10) : Statement (.launch defer d a queue) :=
  fun _ _ => ⟨rfl, .inr rfl⟩

theorem signal (defer irq : Bool) (vec : BitVec 11) (a b : Opd) : Statement (.signal defer irq vec a b) :=
  fun _ _ => ⟨rfl, .inl rfl⟩

theorem mma (z scl : Bool) (ta tb : Ty) (ka kb : BitVec 2) (tile : BitVec 3) (ksm1 : BitVec 5) (vw : BitVec 8) (d l sa sb : Opd) : Statement (.mma z scl ta tb ka kb tile ksm1 vw d l sa sb) :=
  fun _ _ => ⟨rfl, .inr rfl⟩

theorem mmaStep (pair : Nat) : Statement (.mmaStep pair) :=
  fun _ h => nomatch h

theorem matrixQueueEntry (pair : Nat) : Statement (.matrixQueueEntry pair) :=
  fun _ h => nomatch h

theorem mmag (scl : Bool) (ta tb : Ty) (ka kb : BitVec 2) (sa sb : BitVec 8) (d a b c : Opd) : Statement (.mmag scl ta tb ka kb sa sb d a b c) :=
  fun _ _ => ⟨rfl, .inl rfl⟩

theorem mloadb (d a b c : Opd) : Statement (.mloadb d a b c) :=
  fun _ _ => ⟨rfl, .inl rfl⟩

theorem mrd (tile : BitVec 3) (d a b : Opd) : Statement (.mrd tile d a b) :=
  fun _ _ => ⟨rfl, .inl rfl⟩

theorem mrdSt (tile : BitVec 3) (d : Opd) : Statement (.mrdSt tile d) :=
  fun _ _ => ⟨rfl, .inl rfl⟩

theorem mst (ty : Ty) (rm : Rm) (pol : Pol) (rsel : BitVec 2) (tile : BitVec 3) (d l : Opd) : Statement (.mst ty rm pol rsel tile d l) :=
  fun _ _ => ⟨rfl, .inl rfl⟩

theorem mzero (mask : BitVec 8) : Statement (.mzero mask) :=
  fun _ _ => ⟨rfl, .inl rfl⟩

theorem mburst (len : BitVec 16) : Statement (.mburst len) :=
  fun _ _ => ⟨rfl, .inl rfl⟩

theorem rampFillersDone (core : Nat) : Statement (.rampFillersDone core) :=
  fun _ h => nomatch h

theorem burstHoldExpiry (core : Nat) : Statement (.burstHoldExpiry core) :=
  fun _ h => nomatch h

theorem kill : Statement (.kill) :=
  fun _ _ => ⟨rfl, .inl rfl⟩

theorem hrel : Statement (.hrel) :=
  fun _ _ => ⟨rfl, .inl rfl⟩

theorem deriv (axis fine : Bool) (d a : Opd) : Statement (.deriv axis fine d a) :=
  fun _ _ => ⟨rfl, .inl rfl⟩

theorem bary (lin : Bool) (k : BitVec 2) (d : Opd) : Statement (.bary lin k d) :=
  fun _ _ => ⟨rfl, .inl rfl⟩

theorem emit (z : Bool) (ty : Ty) (a b : Opd) : Statement (.emit z ty a b) :=
  fun _ _ => ⟨rfl, .inl rfl⟩

theorem tex (dim : BitVec 2) (pd : BitVec 3) (d a b : Opd) : Statement (.tex dim pd d a b) :=
  fun _ _ => ⟨rfl, .inl rfl⟩

theorem texl (dim : BitVec 2) (pd : BitVec 3) (d a b c : Opd) : Statement (.texl dim pd d a b c) :=
  fun _ _ => ⟨rfl, .inl rfl⟩

theorem texg (ch dim : BitVec 2) (pd : BitVec 3) (d a b c : Opd) : Statement (.texg ch dim pd d a b c) :=
  fun _ _ => ⟨rfl, .inl rfl⟩

theorem texq (d b c : Opd) : Statement (.texq d b c) :=
  fun _ _ => ⟨rfl, .inl rfl⟩

theorem dice (d a b : Opd) : Statement (.dice d a b) :=
  fun _ _ => ⟨rfl, .inl rfl⟩

theorem trace (mode : BitVec 2) (mask : BitVec 8) (d a b : Opd) : Statement (.trace mode mask d a b) :=
  fun _ _ => ⟨rfl, .inr rfl⟩

theorem infer (nin : BitVec 5) (nout : BitVec 4) (d a b : Opd) : Statement (.infer nin nout d a b) :=
  fun _ _ => ⟨rfl, .inl rfl⟩

theorem inferBatchService (die : Nat) : Statement (.inferBatchService die) :=
  fun _ h => nomatch h

theorem cboard (e : EngMods) (sp : ESp) (d a b : Opd) : Statement (.cboard e sp d a b) :=
  fun _ _ => ⟨rfl, .inl rfl⟩

theorem ccatch (e : EngMods) (d a b : Opd) : Statement (.ccatch e d a b) :=
  fun _ _ => ⟨rfl, .inl rfl⟩

theorem creplace (e : EngMods) (masked : Bool) (d a b c : Opd) : Statement (.creplace e masked d a b c) :=
  fun _ _ => ⟨rfl, .inl rfl⟩

theorem calight (e : EngMods) (copy : Bool) (d a b : Opd) : Statement (.calight e copy d a b) :=
  fun _ _ => ⟨rfl, .inl rfl⟩

theorem cquery (d b : Opd) : Statement (.cquery d b) :=
  fun _ _ => ⟨rfl, .inl rfl⟩

theorem carouselPassage (die : Nat) (slot : Ride) : Statement (.carouselPassage die slot) :=
  fun _ h => nomatch h

theorem labort (code : BitVec 8) : Statement (.labort code) :=
  fun _ _ => ⟨rfl, .inl rfl⟩

theorem lotq (d a : Opd) : Statement (.lotq d a) :=
  fun _ _ => ⟨rfl, .inl rfl⟩

theorem hcopy (e : EngMods) (sp dp : ESp) (d a b c : Opd) : Statement (.hcopy e sp dp d a b c) :=
  fun _ _ => ⟨rfl, .inl rfl⟩

theorem hlayout (e : EngMods) (sp dp : ESp) (ty : Ty) (n0 n1 n2 : BitVec 16) (p1 p2 : BitVec 32) (d a b : Opd) : Statement (.hlayout e sp dp ty n0 n1 n2 p1 p2 d a b) :=
  fun _ _ => ⟨rfl, .inr rfl⟩

theorem hgather (e : EngMods) (sp : ESp) (rlen : BitVec 8) (d a b c : Opd) : Statement (.hgather e sp rlen d a b c) :=
  fun _ _ => ⟨rfl, .inl rfl⟩

theorem hscatter (e : EngMods) (dp : ESp) (rlen : BitVec 8) (d a b c : Opd) : Statement (.hscatter e dp rlen d a b c) :=
  fun _ _ => ⟨rfl, .inl rfl⟩

theorem hcoll (op : COp) (e : EngMods) (sp dp : ESp) (ty : Ty) (grp : BitVec 16) (rank sizem1 : BitVec 8) (d a b c : Opd) : Statement (.hcoll op e sp dp ty grp rank sizem1 d a b c) :=
  fun _ _ => ⟨rfl, .inr rfl⟩

theorem engineCompletion (op : Nat) : Statement (.engineCompletion op) :=
  fun _ h => nomatch h

theorem trackedResultReturn (r : Nat) : Statement (.trackedResultReturn r) :=
  fun _ h => nomatch h

theorem homeRmwPerform (r : Nat) : Statement (.homeRmwPerform r) :=
  fun _ h => nomatch h

theorem trap (n : BitVec 7) : Statement (.trap n) :=
  fun _ _ => ⟨rfl, .inl rfl⟩

theorem handlerEntry (gang : Nat) : Statement (.handlerEntry gang) :=
  fun _ h => nomatch h

theorem tretReplay : Statement (.tretReplay) :=
  fun _ _ => ⟨rfl, .inl rfl⟩

theorem tretSkip : Statement (.tretSkip) :=
  fun _ _ => ⟨rfl, .inl rfl⟩

theorem brk (n : BitVec 16) : Statement (.brk n) :=
  fun _ _ => ⟨rfl, .inl rfl⟩

theorem getsr (sr : BitVec 8) (d : Opd) : Statement (.getsr sr d) :=
  fun _ _ => ⟨rfl, .inl rfl⟩

theorem setsr (sr : BitVec 8) (a : Opd) : Statement (.setsr sr a) :=
  fun _ _ => ⟨rfl, .inl rfl⟩

theorem dflip (e : EngMods) (sp : ESp) (d a b c : Opd) : Statement (.dflip e sp d a b c) :=
  fun _ _ => ⟨rfl, .inl rfl⟩

theorem dbgmbGet (d a : Opd) : Statement (.dbgmbGet d a) :=
  fun _ _ => ⟨rfl, .inl rfl⟩

theorem dbgmbPut (irq : Bool) (a b : Opd) : Statement (.dbgmbPut irq a b) :=
  fun _ _ => ⟨rfl, .inl rfl⟩

theorem pref (space : BitVec 2) (tlb : Bool) (disp : BitVec 24) (a : Opd) : Statement (.pref space tlb disp a) :=
  fun _ _ => ⟨rfl, .inl rfl⟩

theorem fetchTranslationFault (gang : Nat) : Statement (.fetchTranslationFault gang) :=
  fun _ h => nomatch h

theorem starvationPromotion (gang : Nat) : Statement (.starvationPromotion gang) :=
  fun _ h => nomatch h

theorem watchdogFire (ctx : Nat) : Statement (.watchdogFire ctx) :=
  fun _ h => nomatch h

theorem residencyBatchTimeout (die : Nat) : Statement (.residencyBatchTimeout die) :=
  fun _ h => nomatch h

theorem qdoor (q : Nat) (v : Word) : Statement (.qdoor q v) :=
  fun _ h => nomatch h

theorem qcfgWrite (q : Nat) (v : Word) : Statement (.qcfgWrite q v) :=
  fun _ h => nomatch h

theorem qchead (q : Nat) (v : Word) : Statement (.qchead q v) :=
  fun _ h => nomatch h

theorem recordTake (q : Nat) : Statement (.recordTake q) :=
  fun _ h => nomatch h

theorem launchAdmission (l : Nat) : Statement (.launchAdmission l) :=
  fun _ h => nomatch h

theorem crewPlacement (crew : Nat) : Statement (.crewPlacement crew) :=
  fun _ h => nomatch h

theorem evictionSaveComplete (crew : Nat) : Statement (.evictionSaveComplete crew) :=
  fun _ h => nomatch h

theorem crewRestore (crew : Nat) : Statement (.crewRestore crew) :=
  fun _ h => nomatch h

theorem restoreWaitTimeout (crew : Nat) : Statement (.restoreWaitTimeout crew) :=
  fun _ h => nomatch h

theorem deadlineCut (l : Nat) : Statement (.deadlineCut l) :=
  fun _ h => nomatch h

theorem fallbackAdmission (q : Nat) : Statement (.fallbackAdmission q) :=
  fun _ h => nomatch h

theorem lotCommit (l : Nat) : Statement (.lotCommit l) :=
  fun _ h => nomatch h

theorem dresserFold (l line : Nat) : Statement (.dresserFold l line) :=
  fun _ h => nomatch h

theorem elementCreation (r : Nat) : Statement (.elementCreation r) :=
  fun _ h => nomatch h

theorem stockpileStallLimit (r : Nat) : Statement (.stockpileStallLimit r) :=
  fun _ h => nomatch h

theorem primitiveRasterise (l p : Nat) : Statement (.primitiveRasterise l p) :=
  fun _ h => nomatch h

theorem sampleResolve (l i : Nat) : Statement (.sampleResolve l i) :=
  fun _ h => nomatch h

theorem drawWriteOut (l : Nat) : Statement (.drawWriteOut l) :=
  fun _ h => nomatch h

theorem frameStart (out : Nat) : Statement (.frameStart out) :=
  fun _ h => nomatch h

theorem fresp (die : Nat) (batch : BitVec 16) : Statement (.fresp die batch) :=
  fun _ h => nomatch h

theorem tlbInvalidate (ctx : Nat) (v : Word) : Statement (.tlbInvalidate ctx v) :=
  fun _ h => nomatch h

theorem contextCreate (ctx : Nat) (v : Word) : Statement (.contextCreate ctx v) :=
  fun _ h => nomatch h

theorem contextDestroy (ctx : Nat) : Statement (.contextDestroy ctx) :=
  fun _ h => nomatch h

theorem debugAttach (ctx : Nat) (v : Word) : Statement (.debugAttach ctx v) :=
  fun _ h => nomatch h

theorem watchpointWrite (ctx n : Nat) (v : DWord) : Statement (.watchpointWrite ctx n v) :=
  fun _ h => nomatch h

theorem haltreq (ctx : Nat) (v : DWord) : Statement (.haltreq ctx v) :=
  fun _ h => nomatch h

theorem debugResume (ctx : Nat) : Statement (.debugResume ctx) :=
  fun _ h => nomatch h

theorem debugStep (ctx : Nat) : Statement (.debugStep ctx) :=
  fun _ h => nomatch h

theorem debugAbort (ctx : Nat) : Statement (.debugAbort ctx) :=
  fun _ h => nomatch h

theorem stopRecordDelivery (ctx : Nat) : Statement (.stopRecordDelivery ctx) :=
  fun _ h => nomatch h

theorem registerWrite (off width : Nat) (v : DWord) : Statement (.registerWrite off width v) :=
  fun _ h => nomatch h

theorem hostBar2Write (addr : Nat) (data : List Byte) : Statement (.hostBar2Write addr data) :=
  fun _ h => nomatch h

theorem hostBar2Read (addr n : Nat) : Statement (.hostBar2Read addr n) :=
  fun _ h => nomatch h

theorem configurationRequest (reg : Nat) : Statement (.configurationRequest reg) :=
  fun _ h => nomatch h

theorem getCertificate (slot off len : Nat) : Statement (.getCertificate slot off len) :=
  fun _ h => nomatch h

theorem challenge (slot : Nat) (nonce : List Byte) : Statement (.challenge slot nonce) :=
  fun _ h => nomatch h

theorem getMeasurements (idx : Nat) : Statement (.getMeasurements idx) :=
  fun _ h => nomatch h

theorem fabricRequest (port src : Nat) (req : FabReq) : Statement (.fabricRequest port src req) :=
  fun _ h => nomatch h

theorem windowPacketArrival (wid off : Nat) (op : AOp) (ty : Ty) (count : Nat) (operand : DWord) : Statement (.windowPacketArrival wid off op ty count operand) :=
  fun _ h => nomatch h

theorem subnetworkPowerUp (mesh : Nat) : Statement (.subnetworkPowerUp mesh) :=
  fun _ h => nomatch h

theorem subnetworkPowerDown (mesh n : Nat) : Statement (.subnetworkPowerDown mesh n) :=
  fun _ h => nomatch h

theorem escapeDiversion (src : Nat) (dst : Hop) : Statement (.escapeDiversion src dst) :=
  fun _ h => nomatch h

theorem ptpEnable (v : Word) : Statement (.ptpEnable v) :=
  fun _ h => nomatch h

theorem ptpEventMessage (m : PtpPacket) : Statement (.ptpEventMessage m) :=
  fun _ h => nomatch h

theorem outputEnable (out : Nat) (v : Word) : Statement (.outputEnable out v) :=
  fun _ h => nomatch h

theorem ostatClear (out : Nat) (v : Word) : Statement (.ostatClear out v) :=
  fun _ h => nomatch h

theorem soundingComplete (fail : Option Nat) (detail : Word) : Statement (.soundingComplete fail detail) :=
  fun _ h => nomatch h

theorem hbmScrub (corrected : Nat) (bad : List Nat) : Statement (.hbmScrub corrected bad) :=
  fun _ h => nomatch h

theorem thermalThrottle (die : Nat) : Statement (.thermalThrottle die) :=
  fun _ h => nomatch h

theorem storePerformed (st : Nat) : Statement (.storePerformed st) :=
  fun _ h => nomatch h

theorem engineLineDelivery (op line : Nat) : Statement (.engineLineDelivery op line) :=
  fun _ h => nomatch h

theorem frhead (die : Nat) (v : Word) : Statement (.frhead die v) :=
  fun _ h => nomatch h

theorem portLinkChange (port lanes : Nat) : Statement (.portLinkChange port lanes) :=
  fun _ h => nomatch h

theorem outputLinkChange (out : Nat) (up : Bool) : Statement (.outputLinkChange out up) :=
  fun _ h => nomatch h

theorem announceReceiptTimeout (best : Bool) : Statement (.announceReceiptTimeout best) :=
  fun _ h => nomatch h

theorem ptpMessageInterval (kind : Nat) : Statement (.ptpMessageInterval kind) :=
  fun _ h => nomatch h

theorem throttleEnd (die : Nat) : Statement (.throttleEnd die) :=
  fun _ h => nomatch h

theorem hbmStackTemperatureChange (stack : Nat) (hot : Bool) : Statement (.hbmStackTemperatureChange stack hot) :=
  fun _ h => nomatch h

theorem contextResume (ctx : Nat) : Statement (.contextResume ctx) :=
  fun _ h => nomatch h

theorem getVersion : Statement (.getVersion) :=
  fun _ h => nomatch h

theorem getCapabilities : Statement (.getCapabilities) :=
  fun _ h => nomatch h

theorem negotiateAlgorithms : Statement (.negotiateAlgorithms) :=
  fun _ h => nomatch h

theorem getDigests : Statement (.getDigests) :=
  fun _ h => nomatch h

theorem syncLoss : Statement (.syncLoss) :=
  fun _ h => nomatch h

theorem holdoverTimeout : Statement (.holdoverTimeout) :=
  fun _ h => nomatch h

theorem checkpoint : Statement (.checkpoint) :=
  fun _ h => nomatch h

theorem restore : Statement (.restore) :=
  fun _ h => nomatch h

theorem fwload : Statement (.fwload) :=
  fun _ h => nomatch h

theorem warmreset : Statement (.warmreset) :=
  fun _ h => nomatch h

theorem coldreset : Statement (.coldreset) :=
  fun _ h => nomatch h

theorem survey : Statement (.survey) :=
  fun _ h => nomatch h

theorem commandCompletion : Statement (.commandCompletion) :=
  fun _ h => nomatch h

theorem fundamentalReset : Statement (.fundamentalReset) :=
  fun _ h => nomatch h

theorem fatalErrorContainment : Statement (.fatalErrorContainment) :=
  fun _ h => nomatch h

theorem powerLoss : Statement (.powerLoss) :=
  fun _ h => nomatch h

theorem behindTest : Statement (.behindTest) :=
  fun _ h => nomatch h

theorem congestionSample : Statement (.congestionSample) :=
  fun _ h => nomatch h

end Sys2Proof.Laws.Encoding
end

