-- ==== Sys2Proof/Laws/Results.lean ====
section
/-! SUPPORT. Results: what writing, starting, completing and returning them changes, each said once. -/

namespace Sys2Proof.Machine

/-- Nothing but one thread, and held registers of elements, differs between two states. -/
def State.OwnOnly (s u : State) (t : Nat) : Prop :=
  u = { s with threads := u.threads, elems := u.elems } ∧
    ∀ t', t' ≠ t → SMap.get? u.threads t' = SMap.get? s.threads t'

theorem State.ownOnly_refl (s : State) (t : Nat) : s.OwnOnly s t := ⟨rfl, fun _ _ => rfl⟩

theorem State.ownOnly_trans {s u v : State} {t : Nat} (h : s.OwnOnly u t) (h' : u.OwnOnly v t) : s.OwnOnly v t := by
  obtain ⟨h1, h2⟩ := h
  obtain ⟨h3, h4⟩ := h'
  refine ⟨?_, fun t' ht => (h4 t' ht).trans (h2 t' ht)⟩
  rw [h3, h1]

theorem State.ownOnly_modThr (s : State) (t : Nat) (f : Thread → Thread) : s.OwnOnly (s.modThr t f) t :=
  ⟨rfl, fun _ h => SMap.get?_modify_ne s.threads f h⟩

/-- Writing a result changes its thread, or the held registers of its thread's element. -/
theorem State.ownOnly_putRes (s : State) (t : Nat) (r : Res) (v : Word) : s.OwnOnly (s.putRes t r v) t := by
  cases r with
  | v n => exact s.ownOnly_modThr t _
  | p n =>
    simp only [State.putRes]
    split
    · exact s.ownOnly_refl t
    · exact s.ownOnly_modThr t _
  | h n =>
    simp only [State.putRes]
    split
    · exact ⟨rfl, fun _ _ => rfl⟩
    · exact s.ownOnly_refl t

theorem State.ownOnly_putAll (s : State) (t : Nat) (ws : List (Res × Word)) : s.OwnOnly (s.putAll t ws) t := by
  induction ws generalizing s with
  | nil => exact s.ownOnly_refl t
  | cons w ws ih => exact State.ownOnly_trans (s.ownOnly_putRes t w.1 w.2) (ih _)

theorem State.ownOnly_applyPend (s : State) (t : Nat) (l : List Pend) : s.OwnOnly (s.applyPend t l) t := by
  induction l generalizing s with
  | nil => exact s.ownOnly_refl t
  | cons p l ih => exact State.ownOnly_trans (s.ownOnly_putRes t p.res p.val) (ih _)

/-- Completing what is due changes its thread only. -/
theorem State.ownOnly_settle (s : State) (t : Nat) : s.OwnOnly (s.settle t) t :=
  State.ownOnly_trans (s.ownOnly_applyPend t _) (State.ownOnly_modThr _ t _)

/-- Completing everything in flight changes its thread only. -/
theorem State.ownOnly_settleAll (s : State) (t : Nat) : s.OwnOnly (s.settleAll t) t :=
  State.ownOnly_trans (s.ownOnly_applyPend t _) (State.ownOnly_modThr _ t _)

/-- Parking changes its thread only. -/
theorem State.ownOnly_setPark (s : State) (t : Nat) (p : Park) : s.OwnOnly (s.setPark t p) t :=
  State.ownOnly_trans (s.ownOnly_settleAll t) (State.ownOnly_modThr _ t _)

/-- Starting results changes its thread only. -/
theorem State.ownOnly_laterAll (s : State) (t lat : Nat) (ws : List (Res × Word)) : s.OwnOnly (s.laterAll t lat ws) t := by
  induction ws generalizing s with
  | nil => exact s.ownOnly_refl t
  | cons w ws ih => exact State.ownOnly_trans (s.ownOnly_modThr t _) (ih _)

/-- A thread that is there stays there. -/
theorem State.isSome_modThr (s : State) (t t' : Nat) (f : Thread → Thread) :
    (SMap.get? (s.modThr t f).threads t').isSome = (SMap.get? s.threads t').isSome := by
  by_cases h : t' = t
  · subst t'; simp
  · simp [SMap.get?_modify_ne s.threads f h]

theorem State.isSome_putRes (s : State) (t t' : Nat) (r : Res) (v : Word) :
    (SMap.get? (s.putRes t r v).threads t').isSome = (SMap.get? s.threads t').isSome := by
  cases r with
  | v n => exact s.isSome_modThr t t' _
  | p n =>
    simp only [State.putRes]
    split
    · rfl
    · exact s.isSome_modThr t t' _
  | h n =>
    simp only [State.putRes]
    split <;> rfl

/-- A thread as it is changed, or the empty thread where there is none. -/
theorem State.thr_modThr (s : State) (t : Nat) (f : Thread → Thread) :
    (s.modThr t f).thr t = if (SMap.get? s.threads t).isSome then f (s.thr t) else s.thr t := by
  simp only [State.thr, SMap.getD, State.modThr_threads, SMap.get?_modify_self]
  cases SMap.get? s.threads t <;> rfl

/-- Writing a result leaves a thread's results in flight, its pc, its trap registers and its park as they were. -/
theorem State.putRes_thr (s : State) (t : Nat) (r : Res) (v : Word) :
    ∃ rs ps, (s.putRes t r v).thr t = { s.thr t with regs := rs, preds := ps } := by
  cases r with
  | v n =>
    simp only [State.putRes, State.thr_modThr]
    split
    · exact ⟨_, _, rfl⟩
    · exact ⟨_, _, rfl⟩
  | p n =>
    simp only [State.putRes]
    split
    · exact ⟨_, _, rfl⟩
    · rw [State.thr_modThr]
      split
      · exact ⟨_, _, rfl⟩
      · exact ⟨_, _, rfl⟩
  | h n =>
    simp only [State.putRes]
    split <;> exact ⟨_, _, rfl⟩

theorem State.applyPend_thr (s : State) (t : Nat) (l : List Pend) :
    ∃ rs ps, (s.applyPend t l).thr t = { s.thr t with regs := rs, preds := ps } := by
  induction l generalizing s with
  | nil => exact ⟨_, _, rfl⟩
  | cons p l ih =>
    obtain ⟨rs, ps, h⟩ := s.putRes_thr t p.res p.val
    obtain ⟨rs', ps', h'⟩ := ih (s.putRes t p.res p.val)
    exact ⟨rs', ps', by rw [State.applyPend, h', h]⟩

theorem State.isSome_applyPend (s : State) (t t' : Nat) (l : List Pend) :
    (SMap.get? (s.applyPend t l).threads t').isSome = (SMap.get? s.threads t').isSome := by
  induction l generalizing s with
  | nil => rfl
  | cons p l ih => rw [State.applyPend, ih, State.isSome_putRes]

/-- A parked thread: its results are complete, and where it stands is as before (R107). -/
theorem State.setPark_thr (s : State) (t : Nat) (p : Park) (h : (SMap.get? s.threads t).isSome) :
    ∃ rs ps, (s.setPark t p).thr t = { s.thr t with regs := rs, preds := ps, pend := [], park := some p } := by
  obtain ⟨rs, ps, h1⟩ := s.applyPend_thr t (s.thr t).pend
  refine ⟨rs, ps, ?_⟩
  rw [State.setPark, State.thr_modThr, State.settleAll, State.isSome_modThr, State.isSome_applyPend, if_pos h,
    State.thr_modThr, State.isSome_applyPend, if_pos h, h1]

end Sys2Proof.Machine
end

