-- ==== Sys2Proof/Laws/Stores.lean ====
section
/-! SUPPORT. The operations of the machine that write memory, each of which keeps its canonical form, and what a write of
bytes at a location changes. -/

namespace Sys2Proof.Machine

/-- Memory is in canonical form after reset. -/
theorem State.reset_mem_wf : State.reset.mem.wf = true := rfl

/-- A commit keeps the canonical form (R283). -/
theorem Memory.wf_fold (m : Memory) (l : List (Nat × Byte)) (h : m.wf = true) : (m.fold l).wf = true := by
  induction l generalizing m with
  | nil => exact h
  | cons c l ih => exact ih _ (Memory.wf_write m c.1 c.2 h)

@[simp] theorem Memory.fold_gen (m : Memory) (l : List (Nat × Byte)) : (m.fold l).gen = m.gen := by
  induction l generalizing m with
  | nil => rfl
  | cons c l ih => rw [Memory.fold, ih, Memory.write_gen]

/-- A byte that a commit does not name is as it was. -/
theorem Memory.read_fold_ne (m : Memory) (l : SMap Byte) (loc : Nat) (h : SMap.get? l loc = none) :
    (m.fold l).read loc = m.read loc := by
  induction l generalizing m with
  | nil => rfl
  | cons c l ih =>
    obtain ⟨k, b⟩ := c
    rw [SMap.get?_cons] at h
    split at h
    · simp at h
    · rw [Memory.fold, ih _ h, Memory.read_write_ne m b ‹_›]

/-- A byte that a commit names is the byte of the shadow (R283). -/
theorem Memory.read_fold (m : Memory) (l : SMap Byte) (loc : Nat) (b : Byte) (hl : SMap.sorted l = true) (hm : m.wf = true)
    (h : SMap.get? l loc = some b) : (m.fold l).read loc = b := by
  induction l generalizing m with
  | nil => simp [SMap.get?_nil] at h
  | cons c l ih =>
    obtain ⟨k, x⟩ := c
    have hs : SMap.sorted l = true := SMap.sorted_sublist (List.sublist_cons_self _ _) hl
    rw [SMap.get?_cons] at h
    split at h
    · subst k
      cases h
      rw [Memory.fold, Memory.read_fold_ne, Memory.read_write_self m loc b hm]
      refine SMap.get?_none_of_lt l loc fun k hk => ?_
      exact (List.pairwise_cons.mp ((SMap.sorted_iff _).mp hl)).1 k hk
    · exact ih (m.write k x) hs (Memory.wf_write m k x hm) h

/-- A batch written to its ring keeps the canonical form (R392). -/
theorem wf_writeRing (m : Memory) (base log : Nat) (b : Batch) (tail i : Nat) (es : List (Nat × Nat × Nat × Nat))
    (h : m.wf = true) : (writeRing m base log b tail i es).wf = true := by
  induction es generalizing m tail i with
  | nil => exact h
  | cons e es ih => exact ih _ _ _ (Memory.wf_writeN m _ _ h)

/-- A restored image keeps the canonical form (R456). -/
theorem wf_restorePages (m k : Memory) (ps : List (Nat × Nat)) (h : m.wf = true) : (restorePages m k ps).wf = true := by
  induction ps generalizing m with
  | nil => exact h
  | cons p ps ih => exact ih _ (Memory.wf_writeN m _ _ h)

/-- A write to a window's byte is no write to memory. -/
@[simp] theorem State.putWindow_mem (s : State) (loc : Nat) (v : Byte) : (s.putWindow loc v).mem = s.mem := by
  delta State.putWindow
  extract_lets core off
  clear_value core off
  split
  · rename_i b _
    clear_value b
    split
    · rfl
    · dsimp only
      split <;> rfl
  · split <;> rfl

/-- Writing bytes at a location keeps the canonical form. -/
theorem State.wf_putBytes (s : State) (loc : Nat) (bs : List Byte) (h : s.mem.wf = true) : (s.putBytes loc bs).mem.wf = true := by
  induction bs generalizing s loc with
  | nil => exact h
  | cons b bs ih =>
    rw [State.putBytes]
    split
    · exact ih _ _ (by simpa using h)
    · exact ih _ _ (Memory.wf_write s.mem loc b h)

/-- Below the windows, writing bytes is writing them to memory. -/
theorem State.putBytes_eq (s : State) (loc : Nat) (bs : List Byte) (h : loc + bs.length ≤ 2 ^ 82) :
    s.putBytes loc bs = { s with mem := s.mem.writeN loc bs } := by
  induction bs generalizing s loc with
  | nil => rfl
  | cons b bs ih =>
    simp only [List.length_cons] at h
    rw [State.putBytes, if_neg (by omega), ih _ _ (by omega)]
    rfl

end Sys2Proof.Machine
end

