-- ==== Sys2Proof/Tests/Slice0.lean ====
section
/-! SUPPORT.
The model's own tests: decoding checked against words written out from the encoding
tables, one ill-formed term for each well-formedness check, the worked examples of the spec, and a
witness for the hypotheses of every statement of the certificate.
-/

set_option maxRecDepth 100000

namespace Sys2Proof.Tests

open Sys2Proof Sys2Proof.Machine

/-- Whether a word and the word after it decode to an instruction under a control field. -/
def reads (w next : Nat) (k : Ctl) (i : Instr) : Bool :=
  match decodeWords w next with
  | .ok f => f == { ctl := k, ins := i }
  | .error _ => false

/-- Why a word does not decode. -/
def rejects (w next : Nat) : Option Reject :=
  match decodeWords w next with
  | .ok _ => none
  | .error r => some r

def plain : Ctl := { stall := 0, rate := .N, elect := false, pred := 7, pneg := false }

def at_ (r : Rate) : Ctl := { plain with rate := r }

def lead : Ctl := { plain with elect := true }

/-- No modifiers. -/
def m0 : FMods := { neg := 0, abs := 0 }

/-- A plain access. -/
def mem0 : MemMods := { ord := 0, scope := 0, remote := false, disp := 0 }

/-- Completion by a chute catch word. -/
def eng0 : EngMods := { cpl := 0, che := false, sel := 0 }

/-- A half that is well formed by itself. -/
def half0 : Half := { op := .add, d := 0, a := 4, b := 8, c := 0, ty := .s32, rm := .rne, fm := m0 }


theorem test_decode_integer1 :
    reads 0x0038004203000003C500000000000000 0 plain (.mov .b128 (.v 8) (.v 12)) = true ∧
    reads 0x003800414800000BC300000000000000 0 plain (.mov .b32 (.v 5) (.c 0x20)) = true ∧
    reads 0x003800818000000FCB00000080000001 0 plain (.movi32 .s64 (.v 6) 0x80000001) = true ∧
    reads 0x803800818000000FC400000000000000 0xC0000000000000000123456789ABCDEF plain (.movi64 .b64 (.v 6) 0x0123456789ABCDEF) = true ∧
    reads 0x003800C081018000C400070000000000 0 plain (.sel .b64 (.v 2) (.v 4) (.reg (.v 6)) 3 true) = true ∧
    reads 0x0038010100000003C980F00000007FFF 0 plain (.add true .s16 (.v 4) (.v 0) (.imm 0x7FFF) 7) = true ∧
    reads 0x0038014100008000CF00220000000000 0 plain (.addc .n64 (.v 4) (.v 0) (.reg (.v 2)) 1 2) = true ∧
    reads 0x0038018240440002CE00600000000000 0 plain (.sub false .n32 (.v 9) (.v 1) (.reg (.c 0x10)) 6) = true ∧
    reads 0x003801C100408000CA000A0000000000 0 plain (.subb .s32 (.v 4) (.v 1) (.reg (.v 2)) 5 0) = true ∧
    reads 0x0038020040800003C800800000000000 0 plain (.neg true .s8 (.v 1) (.v 2)) = true ∧
    reads 0x0038024081000003CB00000000000000 0 plain (.abs false .s64 (.v 2) (.v 4)) = true ∧
    reads 0x003802804080C000CD00000000000000 0 plain (.mul .n16 (.v 1) (.v 2) (.reg (.v 3))) = true ∧
    reads 0x003802C081018000CB00000000000000 0 plain (.mulhi .s64 (.v 2) (.v 4) (.reg (.v 6))) = true ∧
    reads 0x003803004080C1000C00000000000000 0 plain (.mad .n8 (.v 1) (.v 2) (.v 3) (.reg (.v 4))) = true := by
  decide

theorem test_decode_integer2 :
    reads 0x003803408141C000CA800000FFFFFFFF 0 plain (.madw .s32 (.v 2) (.v 5) (.v 7) (.imm 0xFFFFFFFF)) = true ∧
    reads 0x003803804080C000CA00000000000000 0 plain (.div .s32 (.v 1) (.v 2) (.reg (.v 3))) = true ∧
    reads 0x003803C081018000CF00000000000000 0 plain (.rem .n64 (.v 2) (.v 4) (.reg (.v 6))) = true ∧
    reads 0x003804004080C000CA00000000000000 0 plain (.min .s32 (.v 1) (.v 2) (.reg (.v 3))) = true ∧
    reads 0x003804404080C000CE00000000000000 0 plain (.max .n32 (.v 1) (.v 2) (.reg (.v 3))) = true ∧
    reads 0x0038048040800003C3800000000000FF 0 plain (.and .b32 (.v 1) (.v 2) (.imm 0xFF)) = true ∧
    reads 0x003804C081018000C400000000000000 0 plain (.or .b64 (.v 2) (.v 4) (.reg (.v 6))) = true ∧
    reads 0x003805004080C000C300000000000000 0 plain (.xor .b32 (.v 1) (.v 2) (.reg (.v 3))) = true ∧
    reads 0x0038054040800003C300000000000000 0 plain (.not .b32 (.v 1) (.v 2)) = true ∧
    reads 0x003805804080C000C300000000000000 0 plain (.andn .b32 (.v 1) (.v 2) (.reg (.v 3))) = true ∧
    reads 0x003805C04080C000C300000000000000 0 plain (.orn .b32 (.v 1) (.v 2) (.reg (.v 3))) = true ∧
    reads 0x003806008100C000C400000000000000 0 plain (.shl .b64 (.v 2) (.v 4) (.reg (.v 3))) = true ∧
    reads 0x0038064040800003C38000000000001F 0 plain (.shr .b32 (.v 1) (.v 2) (.imm 31)) = true ∧
    reads 0x003806804080C000C300000000000000 0 plain (.sar .b32 (.v 1) (.v 2) (.reg (.v 3))) = true := by
  decide

theorem test_decode_integer3 :
    reads 0x003806C04080C000C300000000000000 0 plain (.rot .b32 (.v 1) (.v 2) (.reg (.v 3))) = true ∧
    reads 0x003807004080C000C380000000000008 0 plain (.fshl .b32 (.v 1) (.v 2) (.v 3) (.imm 8)) = true ∧
    reads 0x0038074040800003CA80000000000804 0 plain (.bfx .s32 (.v 1) (.v 2) (.imm 0x0804)) = true ∧
    reads 0x003807804080C1000300000000000000 0 plain (.bfi .b32 (.v 1) (.v 2) (.v 3) (.reg (.v 4))) = true ∧
    reads 0x003807C040800003C400000000000000 0 plain (.popc .b64 (.v 1) (.v 2)) = true ∧
    reads 0x0038080040800003C300000000000000 0 plain (.clz .b32 (.v 1) (.v 2)) = true ∧
    reads 0x0038084040800003C300000000000000 0 plain (.ctz .b32 (.v 1) (.v 2)) = true ∧
    reads 0x0038088081000003C400000000000000 0 plain (.brev .b64 (.v 2) (.v 4)) = true ∧
    reads 0x003808C04080C000C380000000003210 0 plain (.permb .b32 (.v 1) (.v 2) (.v 3) (.imm 0x3210)) = true ∧
    reads 0x003809008100C000CB00000300000000 0 plain (.lea .s64 (.v 2) (.v 4) (.reg (.v 3)) 3) = true ∧
    reads 0x0038094000400033CA8029B800000009 0 plain (.cmp .s32 .ge .xor 2 4 true (.v 1) (.imm 9)) = true ∧
    reads 0x003809800000003FC00014E000000096 0 plain (.plop 1 2 3 4 0x96) = true ∧
    reads 0x003809C0C000000FC000000000000000 0 plain (.pmov (.v 3)) = true ∧
    reads 0x003809C000C00033C000550100000000 0 plain (.pmovSet (.v 3) 0x55) = true := by
  decide

theorem test_decode_control :
    reads 0x3FBC20000000003FC000000000000000 0 { stall := 15, rate := .Y, elect := false, pred := 7, pneg := true } (.nop) = true ∧
    reads 0x001C20400000003FC0000000FFFFFFF0 0 { stall := 0, rate := .N, elect := false, pred := 3, pneg := true } (.bra 0xFFFFFFF0) = true ∧
    reads 0x0038208002800033C000000000000000 0 plain (.jmp (.v 10)) = true ∧
    reads 0x003820C78000000FC000000000000040 0 plain (.call (.v 30) 0x40) = true ∧
    reads 0x0038210782800003C000000000000000 0 plain (.callr (.v 30) (.v 10)) = true ∧
    reads 0x0038214007800033C000000000000000 0 plain (.ret (.v 30)) = true ∧
    reads 0x0038218001000033C000800000000010 0 plain (.reconv true (.v 4) 16) = true ∧
    reads 0x003821C00000003FC000000000000000 0 plain (.exit) = true ∧
    reads 0x003822000000003FC000000000000000 0 plain (.yield) = true ∧
    reads 0x003822400000003FC080000000000064 0 plain (.sleep (.imm 100)) = true ∧
    reads 0x0038224000800033C000000000000000 0 plain (.sleep (.reg (.v 2))) = true := by
  decide

theorem test_decode_float1 :
    reads 0x02B840004090C001D200000000000281 0 (at_ .K) (.fadd .rtz { neg := 2, abs := 4 } (.v 1) (.v 2) (.h 3 1)) = true ∧
    reads 0x003840404080C000D200000000000002 0 plain (.fsub .rup { neg := 0, abs := 0 } (.v 1) (.v 2) (.v 3)) = true ∧
    reads 0x003840804080C000D200000000000603 0 plain (.fmul .rdn { neg := 6, abs := 0 } (.v 1) (.v 2) (.v 3)) = true ∧
    reads 0x003840C04080C1001200000000000104 0 plain (.ffma .rna { neg := 1, abs := 0 } (.v 1) (.v 2) (.v 3) (.v 4)) = true ∧
    reads 0x003841004080C000D200000000000040 0 plain (.fmin { neg := 0, abs := 2 } (.v 1) (.v 2) (.v 3)) = true ∧
    reads 0x003841404080C000D200000000000000 0 plain (.fmax { neg := 0, abs := 0 } (.v 1) (.v 2) (.v 3)) = true ∧
    reads 0x003841800080C030D20015D800000400 0 plain (.fcmp 13 .or 1 2 true { neg := 4, abs := 0 } (.v 2) (.v 3)) = true ∧
    reads 0x003841C040800003D200000000000000 0 plain (.fclass (.v 1) (.v 2)) = true ∧
    reads 0x0038420040800003D200000000000003 0 plain (.frnd .rdn { neg := 0, abs := 0 } (.v 1) (.v 2)) = true ∧
    reads 0x0038424040800003D200000000000480 0 plain (.ffrac { neg := 4, abs := 4 } (.v 1) (.v 2)) = true ∧
    reads 0x003842804080C000D200000000000000 0 plain (.fdiv .rne { neg := 0, abs := 0 } (.v 1) (.v 2) (.v 3)) = true ∧
    reads 0x003842C040800003D200000000000080 0 plain (.fsqrt .rne { neg := 0, abs := 4 } (.v 1) (.v 2)) = true ∧
    reads 0x0038430040800003D200000000000000 0 plain (.rcp { neg := 0, abs := 0 } (.v 1) (.v 2)) = true ∧
    reads 0x0038434040800003D200000000000400 0 plain (.rsq { neg := 4, abs := 0 } (.v 1) (.v 2)) = true := by
  decide

theorem test_decode_float2 :
    reads 0x0038438040800003D200000000000000 0 plain (.exp2 { neg := 0, abs := 0 } (.v 1) (.v 2)) = true ∧
    reads 0x003843C040800003D200000000000400 0 plain (.log2 { neg := 4, abs := 0 } (.v 1) (.v 2)) = true ∧
    reads 0x0038440040800003D200000000000000 0 plain (.sinr { neg := 0, abs := 0 } (.v 1) (.v 2)) = true ∧
    reads 0x0038444040800003D200000000000400 0 plain (.cosr { neg := 4, abs := 0 } (.v 1) (.v 2)) = true ∧
    reads 0x0038448040800003D200000000000000 0 plain (.tanh { neg := 0, abs := 0 } (.v 1) (.v 2)) = true ∧
    reads 0x003844C04080C000D000000000000400 0 plain (.pkadd .f16 .rne { neg := 4, abs := 0 } (.v 1) (.v 2) (.v 3)) = true ∧
    reads 0x003845004080C000D100000000000001 0 plain (.pkmul .bf16 .rtz { neg := 0, abs := 0 } (.v 1) (.v 2) (.v 3)) = true ∧
    reads 0x003845404080C1001100000000000020 0 plain (.pkfma .bf16 .rne { neg := 0, abs := 1 } (.v 1) (.v 2) (.v 3) (.v 4)) = true ∧
    reads 0x003845804080C1001240000000000000 0 plain (.dot2h .f16 .rne { neg := 0, abs := 0 } (.v 1) (.v 2) (.v 3) (.v 4)) = true ∧
    reads 0x003845C04080C10012CC000000000122 0 plain (.dot4b8 (.f8 true false 3) .rup { neg := 1, abs := 1 } (.v 1) (.v 2) (.v 3) (.v 4)) = true := by
  decide

theorem test_decode_conversion :
    reads 0x00386002808001C312B2800000000400 0 plain (.cvt .f32 (.f8 false true 4) .rne .sat { neg := 4, abs := 0 } true 2 (.v 10) (.v 2) .none (.v 7)) = true ∧
    reads 0x0038600280800003C848000000000011 0 plain (.cvt .s8 .f32 .rtz .nan { neg := 0, abs := 0 } false 0 (.v 10) (.v 2) .none .none) = true ∧
    reads 0x003860428081C200254780000000000D 0 plain (.cvts (.f8 false false 5) .bf16 .sr .inf { neg := 0, abs := 0 } 3 (.v 10) (.v 2) (.v 7) (.v 8)) = true ∧
    reads 0x003860828080C000FD49000000000298 0 plain (.pack2 (.f8 true true 5) .f32 .rne .trap { neg := 2, abs := 4 } true (.v 10) (.v 2) (.v 3) .none) = true ∧
    reads 0x003860C280800003D241000000000000 0 plain (.unpack .f16 .rne .sat false 1 (.v 10) (.v 2) .none) = true ∧
    reads 0x0038610280814000D203800000000003 0 plain (.scale .rdn .sat { neg := 0, abs := 0 } true 3 (.v 10) (.v 2) (.v 5)) = true := by
  decide

theorem test_decode_crossLane :
    reads 0x00386801418008038392020000000003 0 plain (.shfl .fwd 2 .b32 1 (.v 5) (.v 6) (.imm 3) (.c 0x20)) = true ∧
    reads 0x003868414000018F0073280000000000 0 plain (.vote .ballot 2 true 7 (.v 5) (.v 6)) = true ∧
    reads 0x00386840000001BF0042200000000000 0 plain (.vote .eq 2 false 4 .none (.v 6)) = true ∧
    reads 0x00386881418002030431000000000000 0 plain (.matchKeys true .b64 3 (.v 5) (.v 6) (.v 8)) = true ∧
    reads 0x003868C1418002030A00000000000000 0 plain (.redux .add .s32 (.v 5) (.v 6) (.v 8)) = true ∧
    reads 0x00386901418002030E02800000000000 0 plain (.scan .max true .n32 (.v 5) (.v 6) (.v 8)) = true := by
  decide

theorem test_decode_memory1 :
    reads 0x0038800200C00003C500000000FFFFF0 0 plain (.lds { ord := 0, scope := 0, remote := false, disp := 0xFFFFF0 } .b128 (.v 8) (.v 3)) = true ∧
    reads 0x003880400800C038C180000000000000 0 plain (.sts { ord := 2, scope := 0, remote := false, disp := 0x0 } .b8 (.c 0x20) (.v 3)) = true ∧
    reads 0x003880820000000FC900000000000100 0 plain (.ldg { ord := 0, scope := 0, remote := false, disp := 0x100 } .s16 (.v 8) .none) = true ∧
    reads 0x003880C000810030C490000000000000 0 plain (.stg { ord := 2, scope := 2, remote := false, disp := 0x0 } .b64 (.v 2) (.v 4)) = true ∧
    reads 0x0038810200800003C354000000000000 0 plain (.ldd { ord := 1, scope := 2, remote := true, disp := 0x0 } .b32 (.v 8) (.v 2)) = true ∧
    reads 0x0038814000814030C298000000000000 0 plain (.std { ord := 2, scope := 3, remote := false, disp := 0x0 } .b16 (.v 2) (.v 5)) = true ∧
    reads 0x0038818200400003CC00000000000000 0 plain (.ldl { ord := 0, scope := 0, remote := false, disp := 0x0 } .n8 (.v 8) (.v 1)) = true ∧
    reads 0x003881C000414030C300000000000004 0 plain (.stl { ord := 0, scope := 0, remote := false, disp := 0x4 } .b32 (.v 1) (.v 5)) = true ∧
    reads 0x0038820200800003C400000000000000 0 plain (.ldk { ord := 0, scope := 0, remote := false, disp := 0x0 } .b64 (.v 8) (.v 2)) = true ∧
    reads 0x0038824200400003C350000000000000 0 plain (.ldw { ord := 1, scope := 2, remote := false, disp := 0x0 } .b32 (.v 8) (.v 1)) = true ∧
    reads 0x0038828000414030C300000000000000 0 plain (.stw { ord := 0, scope := 0, remote := false, disp := 0x0 } .b32 (.v 1) (.v 5)) = true ∧
    reads 0x003882C200400003C000000000000000 0 plain (.pres { ord := 0, scope := 0, remote := false, disp := 0x0 } (.v 8) (.v 1)) = true ∧
    reads 0x00388402004080C003C0700000000000 0 plain (.atoms .cas { ord := 3, scope := 0, remote := false, disp := 0x0 } .b32 (.v 8) (.v 1) (.v 2) (.v 3)) = true ∧
    reads 0x0038844001008030D200A00000000008 0 plain (.atomd .fadd { ord := 0, scope := 0, remote := false, disp := 0x8 } .f32 .none (.v 4) (.v 2) .none) = true := by
  decide

theorem test_decode_memory2 :
    reads 0x0038848201008000CF94900000000000 0 plain (.atomg .dec { ord := 2, scope := 2, remote := true, disp := 0x0 } .n64 (.v 8) (.v 4) (.v 2) .none) = true ∧
    reads 0x003884C001008030C300500000000000 0 plain (.redg .xor { ord := 0, scope := 0, remote := false, disp := 0x0 } .b32 (.v 4) (.v 2)) = true ∧
    reads 0x0038850001008030CE98000000000000 0 plain (.redd .add { ord := 2, scope := 3, remote := false, disp := 0x0 } .n32 (.v 4) (.v 2)) = true ∧
    reads 0x003886000000003FC0E0000000000000 0 plain (.fence 3 4) = true := by
  decide

theorem test_decode_synchronisation1 :
    reads 0x0038A0000000003FC000600000000007 0 plain (.bar 1 2 7) = true ∧
    reads 0x0038A04001000033C000B00000000025 0 plain (.chdrop true 3 0x25 (.v 4)) = true ∧
    reads 0x0038A0810000000FC00070000000001F 0 plain (.chtake false 7 0x1F (.v 4)) = true ∧
    reads 0x0038A0C00000003FC000000000000030 0 plain (.chfree 0x30) = true ∧
    reads 0x0038A10142000003C080D000000003E8 0 plain (.wait true 2 4 (.v 5) (.v 8) (.imm 1000)) = true ∧
    reads 0x0038A1404080C8408000010000000000 0 plain (.msend 256 (.v 1) (.v 2) (.v 3) (.c 0x21)) = true ∧
    reads 0x0038A1808040C1000000000100000000 0 plain (.mrecv 1 (.v 2) (.v 1) (.v 3) (.v 4)) = true ∧
    reads 0x0038A1C08000C10C0000000000000000 0 plain (.mprobe (.v 2) (.v 3) (.v 4)) = true ∧
    reads 0x0308A20000820030C000800000000000 0 { stall := 0, rate := .S, elect := false, pred := 1, pneg := false } (.spawn true (.v 2) (.v 8)) = true ∧
    reads 0x0038A24000800033C000000000000000 0 plain (.binflush (.v 2)) = true ∧
    reads 0x0038A28100488002C000000000000000 0 plain (.wsplit (.v 4) (.v 1) (.c 0x22)) = true ∧
    reads 0x0038A2C00000003FC000000000000020 0 plain (.grow 32) = true ∧
    reads 0x0038A3000000003FC000000000000001 0 plain (.shrink 1) = true ∧
    reads 0x8038A34102000003C000800000000000 0xC00000000000000000000000000003FF plain (.launch true (.v 4) (.v 8) 1023) = true := by
  decide

theorem test_decode_synchronisation2 :
    reads 0x0038A3800100C030C000C00000000155 0 plain (.signal true true 0x155 (.v 4) (.v 3)) = true := by
  decide

theorem test_decode_matrix :
    reads 0x8078C00A020505401241BBF000000000 0xC0000000000000000000000000000311 lead (.mma true true .f16 .bf16 1 2 5 31 12 (.v 40) (.v 8) (.v 20) (.v 21)) = true ∧
    reads 0x0038C0440102060012936CC242800000 0 plain (.mmag true (.f8 false false 4) (.f8 true false 3) 3 1 9 10 (.v 16) (.v 4) (.v 8) (.v 24)) = true ∧
    reads 0x0078C0804080C1000000000000000000 0 lead (.mloadb (.v 1) (.v 2) (.v 3) (.v 4)) = true ∧
    reads 0x0038C0C081080002C0000C0000000000 0 plain (.mrd 6 (.v 2) (.v 4) (.c 0x20)) = true ∧
    reads 0x0038C0C08000000FC0000F0000000000 0 plain (.mrdSt 7 (.v 2)) = true ∧
    reads 0x0078C10042000003E400070000000014 0 lead (.mst (.f8 false false 4) .rna .nan 2 3 (.v 1) (.v 8)) = true ∧
    reads 0x0078C1400000003FC000000000000081 0 lead (.mzero 0x81) = true ∧
    reads 0x0038F0400000003FC000000000001234 0 plain (.mburst 0x1234) = true := by
  decide

theorem test_decode_rendering :
    reads 0x02B8C4000000003FC000000000000000 0 (at_ .K) (.kill) = true ∧
    reads 0x00B8C4400000003FC000000000000000 0 (at_ .F) (.hrel) = true ∧
    reads 0x02B8C48190800007D200000000000003 0 (at_ .K) (.deriv true true (.v 6) (.h 2 1)) = true ∧
    reads 0x03B8C4C18000000FD200000000000006 0 (at_ .Y) (.bary true 2 (.v 6)) = true ∧
    reads 0x0338C50001024030D200000000000001 0 (at_ .S) (.emit true .f32 (.v 4) (.v 9)) = true ∧
    reads 0x01B8C5000000003FC000000000000000 0 (at_ .C) (.emit false .none .none .none) = true ∧
    reads 0x0338C54201018000D200000000000021 0 (at_ .S) (.tex 1 2 (.v 8) (.v 4) (.v 6)) = true ∧
    reads 0x0038C582010180C01200000000000072 0 plain (.texl 2 7 (.v 8) (.v 4) (.v 6) (.v 3)) = true ∧
    reads 0x0038C5C2010180C01200000000000371 0 plain (.texg 3 1 7 (.v 8) (.v 4) (.v 6) (.v 3)) = true ∧
    reads 0x0038C602000180CC0000000000000000 0 plain (.texq (.v 8) (.v 6) (.v 3)) = true ∧
    reads 0x01B8C6420180C001C000000000000000 0 (at_ .C) (.dice (.v 8) (.v 6) (.h 3 0)) = true ∧
    reads 0x8038C68204018000D200000000000000 0xC00000000000000000000000000002A5 plain (.trace 2 0xA5 (.v 8) (.v 16) (.v 6)) = true ∧
    reads 0x0038C6C20C818000C000000000001F0F 0 plain (.infer 31 15 (.v 8) (.v 50) (.v 6)) = true := by
  decide

theorem test_decode_engines :
    reads 0x0038C80040810000C000612000000000 0 plain (.cboard { cpl := 0, che := true, sel := 0x21 } .G (.v 1) (.v 2) (.v 4)) = true ∧
    reads 0x0038C84501014000C001000000000000 0 plain (.ccatch { cpl := 2, che := false, sel := 0x0 } (.v 20) (.v 4) (.v 5)) = true ∧
    reads 0x0038C880010141B00000800200000000 0 plain (.creplace { cpl := 1, che := false, sel := 0x0 } true .none (.v 4) (.v 5) (.v 6)) = true ∧
    reads 0x0038C8C501014000C000000200000000 0 plain (.calight { cpl := 0, che := false, sel := 0x0 } true (.v 20) (.v 4) (.v 5)) = true ∧
    reads 0x0038C9050004000EC000000000000000 0 plain (.cquery (.v 20) (.c 0x10)) = true ∧
    reads 0x0038E2050101C4008000005000000000 0 plain (.hcopy { cpl := 0, che := false, sel := 0x0 } .D .W (.v 20) (.v 4) (.v 7) (.c 0x10)) = true ∧
    reads 0x8038E24501020000C200000400000000 0xC0000000008000000040000300020001 plain (.hlayout { cpl := 0, che := false, sel := 0x0 } .S .G .b16 1 2 3 0x40 0x80 (.v 20) (.v 4) (.v 8)) = true ∧
    reads 0x0038E285010200C0000000600000000F 0 plain (.hgather { cpl := 0, che := false, sel := 0x0 } .K 0x0F (.v 20) (.v 4) (.v 8) (.v 3)) = true ∧
    reads 0x0038E2C5010200C000000008000000FF 0 plain (.hscatter { cpl := 0, che := false, sel := 0x0 } .D 0xFF (.v 20) (.v 4) (.v 8) (.v 3)) = true ∧
    reads 0x8038E305010240C01260002000000000 0xC0000000000000000000000003021234 plain (.hcoll .redsct { cpl := 0, che := false, sel := 0x0 } .G .S .f32 0x1234 2 3 (.v 20) (.v 4) (.v 9) (.v 3)) = true ∧
    reads 0x0038E605010180C00001004000000000 0 plain (.dflip { cpl := 2, che := false, sel := 0x0 } .D (.v 20) (.v 4) (.v 6) (.v 3)) = true := by
  decide

theorem test_decode_system :
    reads 0x0038E0000000003FC00000000000007F 0 plain (.labort 0x7F) = true ∧
    reads 0x0038E04081400003C000000000000000 0 plain (.lotq (.v 2) (.v 5)) = true ∧
    reads 0x0038E4000000003FC000000000000040 0 plain (.trap 0x40) = true ∧
    reads 0x0038E4400000003FC000000000000000 0 plain (.tretReplay) = true ∧
    reads 0x0038E4400000003FC000000000000001 0 plain (.tretSkip) = true ∧
    reads 0x0038E4800000003FC00000000000BEEF 0 plain (.brk 0xBEEF) = true ∧
    reads 0x0038E4C08000000FC000000000000000 0 plain (.getsr 0x00 (.v 2)) = true ∧
    reads 0x0038E50000800033C000000000000000 0 plain (.setsr 0x00 (.v 2)) = true ∧
    reads 0x0038E64080C00003C000000000000000 0 plain (.dbgmbGet (.v 2) (.v 3)) = true ∧
    reads 0x0038E6400080C030C000000000000003 0 plain (.dbgmbPut true (.v 2) (.v 3)) = true ∧
    reads 0x0038F00000800033C0A0000000FFFFF8 0 plain (.pref 2 true 0xFFFFF8 (.v 2)) = true := by
  decide

theorem test_decode_paired :
    reads 0x403818000204066000400A0200000200 0 plain (.pairedWord { op := .mad, d := 0, a := 1, b := 2, c := 3, ty := .s32, rm := .rne, fm := { neg := 0, abs := 0 } } { op := .rcp, d := 5, a := 1, b := 0, c := 0, ty := .f32, rm := .rne, fm := { neg := 4, abs := 0 } }) = true ∧
    reads 0x403836080204064C10160E020000A000 0 plain (.pairedWord { op := .dot2h, d := 4, a := 1, b := 2, c := 3, ty := .bf16, rm := .rdn, fm := { neg := 0, abs := 1 } } { op := .mov, d := 7, a := 1, b := 0, c := 0, ty := .b32, rm := .rne, fm := { neg := 0, abs := 0 } }) = true := by
  decide


/-- Every one of these is ill formed under this control field. -/
def ill (k : Ctl) (l : List Instr) : Bool := l.all fun i => !i.wf k

/-- R143: types, misaligned pairs, classes, SAT with PO, a wide immediate, a combining predicate without BOP (R150). -/
theorem test_ill_integer :
    ill plain [.mov .s32 (.v 1) (.v 2), .mov .b64 (.v 1) (.v 2), .mov .b128 (.v 4) (.v 6), .mov .b64 (.h 1 0) (.v 2),
      .mov .b32 (.h 1 1) (.v 2), .mov .b32 (.c 1) (.v 2), .mov .b32 (.v 1) (.h 1 3), .mov .b32 (.v 1) (.c 0x31),
      .mov .b64 (.v 2) (.c 0x10), .movi32 .b16 (.v 1) 0, .movi32 .b64 (.v 1) 0, .movi64 .b32 (.v 2) 0, .movi64 .b64 (.v 3) 0,
      .sel .s32 (.v 1) (.v 2) (.imm 0) 7 false, .sel .b128 (.v 4) (.v 8) (.imm 0) 7 false,
      .add true .s32 (.v 1) (.v 2) (.imm 0) 3, .add false .b32 (.v 1) (.v 2) (.imm 0) 7, .addc .s16 (.v 1) (.v 2) (.imm 0) 0 1,
      .sub true .n32 (.v 1) (.v 2) (.imm 0) 0, .sub false .s64 (.v 2) (.v 4) (.reg (.v 5)) 7, .subb .n8 (.v 1) (.v 2) (.imm 0) 0 1,
      .neg false .n32 (.v 1) (.v 2), .abs false .n32 (.v 1) (.v 2)] = true := by decide

theorem test_ill_integer2 :
    ill plain [.mul .b32 (.v 1) (.v 2) (.imm 1), .mulhi .s64 (.v 1) (.v 2) (.imm 1), .mad .b32 (.v 1) (.v 2) (.v 3) (.imm 1),
      .madw .s64 (.v 2) (.v 3) (.v 4) (.reg (.v 6)), .madw .s32 (.v 1) (.v 3) (.v 4) (.reg (.v 6)),
      .madw .s32 (.v 2) (.v 3) (.v 4) (.reg (.v 5)), .div .f32 (.v 1) (.v 2) (.imm 1), .rem .b32 (.v 1) (.v 2) (.imm 1),
      .min .b32 (.v 1) (.v 2) (.imm 1), .max .f32 (.v 1) (.v 2) (.imm 1), .and .s32 (.v 1) (.v 2) (.imm 1),
      .or .b16 (.v 1) (.v 2) (.imm 1), .xor .b64 (.v 1) (.v 2) (.imm 1), .not .n32 (.v 1) (.v 2), .andn .b8 (.v 1) (.v 2) (.imm 1),
      .orn .s32 (.v 1) (.v 2) (.imm 1), .shl .s32 (.v 1) (.v 2) (.imm 1), .shr .b64 (.v 2) (.v 3) (.imm 1),
      .sar .s32 (.v 1) (.v 2) (.imm 1), .rot .b16 (.v 1) (.v 2) (.imm 1), .fshl .b64 (.v 2) (.v 4) (.v 5) (.imm 1),
      .bfx .b32 (.v 1) (.v 2) (.imm 1), .bfx .s32 (.v 1) (.v 2) (.imm 0x10000), .bfi .b32 (.v 1) (.v 2) (.v 3) (.imm 0x10000),
      .bfi .s32 (.v 1) (.v 2) (.v 3) (.imm 1), .popc .b64 (.v 1) (.v 3), .clz .s32 (.v 1) (.v 2), .ctz .b16 (.v 1) (.v 2),
      .brev .b64 (.v 1) (.v 2), .permb .b64 (.v 2) (.v 4) (.v 6) (.imm 1), .lea .s32 (.v 1) (.v 2) (.imm 1) 0,
      .cmp .b32 .lt .none 0 7 false (.v 1) (.imm 1), .cmp .s32 .lt .none 0 3 false (.v 1) (.imm 1),
      .cmp .s32 .lt .none 0 7 true (.v 1) (.imm 1), .cmp .f32 .eq .none 0 7 false (.v 1) (.imm 1), .pmov (.c 1),
      .pmovSet .none 1] = true := by decide

/-- R92 to R95: unused sources zero, types, modifiers, rounding, destination banks, two specials, operand banks. -/
theorem test_ill_paired :
    ill plain [.pairedWord half0 half0, .pairedWord { half0 with c := 4 } { half0 with d := 1 },
      .pairedWord half0 { half0 with d := 1, ty := .b32 }, .pairedWord half0 { half0 with d := 1, rm := .rtz },
      .pairedWord half0 { half0 with d := 1, fm := { neg := 4, abs := 0 } }, .pairedWord half0 { half0 with d := 1, b := 12 },
      .pairedWord { half0 with op := .mov, ty := .b32, b := 0 } { half0 with op := .mov, ty := .b32, b := 4, d := 1 },
      .pairedWord { half0 with op := .rcp, ty := .f32, b := 0 } { half0 with op := .rsq, ty := .f32, b := 0, d := 1 },
      .pairedWord half0 { half0 with op := .fadd, ty := .f32, rm := .sr, d := 1 }] = true := by decide

/-- R129: pair alignment and operand classes. -/
theorem test_ill_control :
    ill plain [.jmp (.v 1), .call (.v 1) 0, .callr (.v 2) (.v 1), .callr (.v 1) (.v 2), .ret (.c 0x2A), .reconv false (.h 1 0) 0,
      .sleep (.reg .none), .sleep (.reg (.h 1 0))] = true := by decide

/-- R154 to R166: no stochastic rounding, modifiers only on sources present, conditions to 13, types of packed forms. -/
theorem test_ill_float :
    ill plain [.fadd .sr m0 (.v 1) (.v 2) (.v 3), .fsub .rne { neg := 1, abs := 0 } (.v 1) (.v 2) (.v 3),
      .fmul .rne { neg := 0, abs := 1 } (.v 1) (.v 2) (.v 3), .ffma .sr m0 (.v 1) (.v 2) (.v 3) (.v 4), .fmin m0 (.v 1) .none (.v 3),
      .fmax m0 (.c 1) (.v 2) (.v 3), .fcmp 14 .none 0 7 false m0 (.v 1) (.v 2), .fcmp 1 .none 0 0 false m0 (.v 1) (.v 2),
      .fclass (.v 1) .none, .frnd .sr m0 (.v 1) (.v 2), .ffrac { neg := 2, abs := 0 } (.v 1) (.v 2),
      .fdiv .sr m0 (.v 1) (.v 2) (.v 3), .fsqrt .sr m0 (.v 1) (.v 2), .rcp { neg := 2, abs := 0 } (.v 1) (.v 2),
      .rsq m0 .none (.v 2), .exp2 m0 (.v 1) .none, .log2 { neg := 0, abs := 3 } (.v 1) (.v 2), .sinr m0 (.v 1) (.h 1 3),
      .cosr m0 (.h 1 2) (.v 2), .tanh m0 (.v 1) (.c 0x40), .pkadd .f32 .rne m0 (.v 1) (.v 2) (.v 3),
      .pkmul .f16 .sr m0 (.v 1) (.v 2) (.v 3), .pkfma .b32 .rne m0 (.v 1) (.v 2) (.v 3) (.v 4),
      .dot2h .f32 .rne m0 (.v 1) (.v 2) (.v 3) (.v 4), .dot4b8 .f16 .rne m0 (.v 1) (.v 2) (.v 3) (.v 4),
      .dot4b8 (.f8 false false 4) .rne { neg := 4, abs := 0 } (.v 1) (.v 2) (.v 3) (.v 4)] = true := by decide

/-- R167 to R172: types, the random register with SR alone, the scale register with SCL alone, group index below 2. -/
theorem test_ill_conversion :
    ill plain [.cvt .b32 .f32 .rne .sat m0 false 0 (.v 1) (.v 2) .none .none, .cvt .s32 .n32 .rtz .sat m0 false 0 (.v 1) (.v 2) .none .none,
      .cvt .f32 .s32 .rne .sat m0 true 0 (.v 1) (.v 2) .none (.v 3), .cvt .f16 .f32 .rne .sat m0 false 1 (.v 1) (.v 2) .none .none,
      .cvt .f16 .f32 .sr .sat m0 false 0 (.v 1) (.v 2) .none .none, .cvt .f16 .f32 .rne .sat m0 false 0 (.v 1) (.v 2) (.v 3) .none,
      .cvt .f16 .f32 .rne .sat m0 true 0 (.v 1) (.v 2) .none .none, .cvts .f32 .f16 .rne .sat m0 0 (.v 1) (.v 2) .none (.v 3),
      .cvts .f16 .f32 .rne .sat m0 0 (.v 1) (.v 2) .none .none, .pack2 .b16 .f32 .rne .sat m0 false (.v 1) (.v 2) (.v 3) .none,
      .pack2 .f16 .f32 .rne .sat m0 true (.v 1) (.v 2) (.v 3) .none, .unpack .f32 .rne .sat false 0 (.v 1) (.v 2) .none,
      .unpack .f16 .rne .sat false 2 (.v 1) (.v 2) .none, .scale .sr .sat m0 true 0 (.v 1) (.v 2) (.v 3),
      .scale .rne .sat m0 false 1 (.v 1) (.v 2) (.v 3)] = true := by decide

/-- R196: ELECT is refused; segments to 4, an immediate index below 32, and D or PD as the operation needs (R200). -/
theorem test_ill_lanes :
    ill lead [.shfl .pick 0 .b32 7 (.v 1) (.v 2) (.imm 0) (.c 0x20), .vote .ballot 7 false 7 (.v 1) (.c 0x20),
      .matchKeys true .b32 7 (.v 1) (.v 2) (.c 0x20), .redux .add .s32 (.v 1) (.v 2) (.c 0x20),
      .scan .add true .s32 (.v 1) (.v 2) (.c 0x20)] = true ∧
    ill plain [.shfl .pick 5 .b32 7 (.v 1) (.v 2) (.imm 0) (.c 0x20), .shfl .pick 0 .b32 7 (.v 1) (.v 2) (.imm 32) (.c 0x20),
      .shfl .pick 0 .b64 7 (.v 1) (.v 2) (.imm 0) (.c 0x20), .vote .all 7 false 7 .none (.c 0x20),
      .vote .ballot 7 false 7 .none (.c 0x20), .matchKeys false .b32 3 (.v 1) (.v 2) (.c 0x20),
      .redux .add .b32 (.v 1) (.v 2) (.c 0x20), .redux .fadd .s32 (.v 1) (.v 2) (.c 0x20),
      .scan .xor true .s32 (.v 1) (.v 2) (.c 0x20)] = true := by decide

/-- R177 to R186: order, scope and REMOTE by space, types, bases and atomic operand forms. -/
theorem test_ill_memory :
    ill plain [.lds { mem0 with ord := 2 } .b32 (.v 1) (.v 2), .lds mem0 .f32 (.v 1) (.v 2), .lds mem0 .b64 (.v 1) (.v 2),
      .sts { mem0 with ord := 1 } .b32 (.v 2) (.v 1), .sts mem0 .s32 (.v 2) (.v 1), .ldg { mem0 with scope := 2 } .b32 (.v 1) (.v 2),
      .ldg { mem0 with ord := 1, scope := 3 } .b32 (.v 1) (.v 2), .ldg mem0 .b32 (.v 1) (.v 3),
      .ldg { mem0 with remote := true, scope := 2 } .b32 (.v 1) (.v 2), .stg { mem0 with ord := 2, scope := 2, remote := true } .b32 (.v 2) (.v 1),
      .ldd { mem0 with ord := 1, scope := 5 } .b32 (.v 1) (.v 2), .std { mem0 with ord := 3 } .b32 (.v 2) (.v 1),
      .ldl { mem0 with ord := 1 } .b32 (.v 1) (.v 2), .stl { mem0 with ord := 2 } .b32 (.v 2) (.v 1), .ldk { mem0 with ord := 1 } .b32 (.v 1) (.v 2),
      .ldw { mem0 with ord := 1, scope := 3 } .b32 (.v 1) (.v 2), .stw mem0 .b64 (.v 2) (.v 1), .pres { mem0 with ord := 1 } (.v 1) (.v 2),
      .atoms .add { mem0 with scope := 1 } .s32 (.v 1) (.v 2) (.v 3) .none, .atoms .add mem0 .b32 (.v 1) (.v 2) (.v 3) .none,
      .atoms .cas mem0 .b32 (.v 1) (.v 2) (.v 3) .none, .atomd .add mem0 .s32 (.v 1) (.v 3) (.v 4) .none,
      .atomd .inc mem0 .s32 (.v 1) (.v 2) (.v 4) .none, .atomg .fadd mem0 .s32 (.v 1) (.v 2) (.v 4) .none,
      .atomg .add mem0 .s64 (.v 1) (.v 2) (.v 4) .none, .redg .cas mem0 .b32 (.v 2) (.v 4), .redg .add { mem0 with ord := 1 } .s32 (.v 2) (.v 4),
      .redd .exch mem0 .b32 (.v 2) (.v 4), .fence 0 0, .fence 1 5, .pref 3 false 0 (.v 2), .pref 0 false 0 (.v 3)] = true := by decide

/-- R202 to R223: ELECT, levels and numbers, scopes, quad and block alignment, lengths and counts, rates. -/
theorem test_ill_sync :
    ill lead [.bar 0 0 0, .grow 1, .shrink 1] = true ∧ ill (at_ .F) [.wsplit (.v 4) (.v 1) (.v 2), .grow 1, .shrink 1,
      .launch false (.v 4) (.v 2) 0] = true ∧
    ill plain [.bar 3 0 0, .bar 0 3 0, .bar 1 0 8, .bar 2 0 4, .chdrop false 7 0 .none, .chtake false 7 0 (.h 1 0),
      .wait false 0 5 (.v 1) (.v 4) (.imm 0), .wait false 0 0 (.v 1) (.v 5) (.imm 0), .msend 0 (.v 1) (.v 2) (.v 3) (.v 4),
      .msend 257 (.v 1) (.v 2) (.v 3) (.v 4), .mrecv 1 (.v 1) (.v 2) (.v 3) (.v 4), .mprobe (.v 1) (.v 2) (.v 3),
      .spawn true (.v 2) (.v 8), .spawn false (.v 2) (.v 4), .binflush (.v 1), .wsplit (.v 2) (.v 1) (.v 2), .grow 0, .grow 33,
      .shrink 0, .launch false (.v 2) (.v 2) 0, .signal false false 1 (.v 2) (.v 1), .signal false false 0 (.v 1) (.v 1)] = true := by decide

/-- R224 to R240: ELECT, types, blocks of eight and quads, scale operands. -/
theorem test_ill_matrix :
    ill plain [.mma false false .f16 .f16 0 0 0 0 0 (.v 1) (.v 4) .none .none, .mloadb (.v 1) (.v 2) (.v 3) (.v 4),
      .mst .f32 .rne .sat 0 0 (.v 1) (.v 4), .mzero 1, .mmag false .f16 .f16 0 0 0 0 (.v 8) (.v 2) (.v 4) (.v 16),
      .mmag false .f16 .f16 1 0 0 0 (.v 8) (.v 4) (.v 4) (.v 16), .mrd 0 (.v 1) (.v 2) (.v 3), .mrdSt 0 (.v 1)] = true ∧
    ill lead [.mma false false .f16 .f32 0 0 0 0 0 (.v 1) (.v 4) .none .none, .mma false false .f16 .f16 1 0 0 0 0 (.v 1) (.v 4) .none .none,
      .mma false true .f16 .f16 0 0 0 0 0 (.v 1) (.v 4) .none .none, .mma false false .f16 (.f8 false false 4) 0 0 0 0 0 (.v 1) (.v 4) .none .none,
      .mmag false .f16 .f16 0 0 0 0 (.v 8) (.v 4) (.v 4) (.v 16), .mloadb (.v 1) (.h 2 0) (.v 3) (.v 4), .mst .s32 .rne .sat 0 0 (.v 1) (.v 4),
      .mst .f32 .sr .sat 0 0 (.v 1) (.v 4), .mst .f32 .rne .trap 0 0 (.v 1) (.v 4), .mst .f32 .rne .sat 3 0 (.v 1) (.v 4),
      .mzero 0] = true := by decide

/-- R249 to R264: rates, ELECT, dimensions and blocks. -/
theorem test_ill_rate :
    ill plain [.kill, .hrel, .deriv false false (.v 1) (.v 2), .bary false 0 (.v 1), .emit false .none .none .none,
      .tex 0 7 (.v 4) (.v 1) (.v 2), .texl 3 7 (.v 4) (.v 1) (.v 2) (.v 3), .texg 0 2 7 (.v 4) (.v 1) (.v 2) (.v 3),
      .texq (.v 2) (.v 2) (.v 3), .dice (.v 1) (.v 2) (.v 3), .trace 3 0 (.v 8) (.v 8) (.v 2), .trace 0 0 (.v 4) (.v 8) (.v 2),
      .infer 0 0 (.v 1) (.v 1) (.v 1)] = true ∧
    ill (at_ .V) [.kill, .bary false 0 (.v 1), .emit true .f32 (.v 4) .none, .emit false .f32 (.v 2) .none, .dice (.v 1) (.v 2) (.v 3)] = true ∧
    ill (at_ .K) [.bary false 3 (.v 1), .emit true .f32 (.v 4) .none, .tex 3 7 (.v 4) (.v 1) (.v 2), .tex 0 7 (.v 4) (.v 1) (.v 1)] = true := by
  decide

/-- R272 to R293: completion fields, spaces, address classes, counts. -/
theorem test_ill_engine :
    ill plain [.cboard eng0 .D (.v 1) (.v 2) (.v 3), .cboard { eng0 with sel := 1 } .S (.v 1) (.v 2) (.v 3), .cboard { eng0 with cpl := 3 } .S (.v 1) (.v 2) (.v 3),
      .cboard { eng0 with cpl := 1 } .S (.v 1) (.v 2) (.v 3), .cboard { eng0 with cpl := 2 } .S (.v 1) (.v 2) (.v 3), .ccatch eng0 (.v 1) (.c 1) (.v 3),
      .creplace eng0 false (.v 1) (.v 2) (.v 3) (.v 4), .calight eng0 true (.v 1) .none (.v 3), .cquery (.v 1) (.v 3), .lotq (.v 1) (.v 3),
      .hcopy eng0 .G .K (.v 1) (.v 2) (.v 4) (.v 3), .hcopy eng0 .G .S (.v 1) (.v 3) (.v 4) (.v 3),
      .hlayout eng0 .S .S .b32 0 0 0 0 0 (.v 1) (.v 4) (.v 2), .hlayout eng0 .S .G .s32 0 0 0 0 0 (.v 1) (.v 4) (.v 2),
      .hgather eng0 .S 0 (.v 1) (.v 2) (.v 4) (.v 3), .hscatter eng0 .K 0 (.v 1) (.v 2) (.v 4) (.v 3),
      .hcoll .bcast eng0 .W .G .s32 0 0 0 (.v 1) (.v 2) (.v 4) (.v 3), .hcoll .bcast eng0 .G .G .b32 0 0 1 (.v 1) (.v 2) (.v 4) (.v 3),
      .hcoll .bcast eng0 .G .G .s32 0 0 0 (.v 1) (.v 2) (.v 4) (.v 3), .hcoll .bcast eng0 .G .G .s32 0 2 1 (.v 1) (.v 2) (.v 4) (.v 3),
      .dflip eng0 .G (.v 1) (.v 2) (.v 4) (.v 3), .dflip { eng0 with cpl := 1 } .S .none (.v 2) (.v 4) (.v 3)] = true := by decide

/-- R294 to R300: raised causes from 0x40, register numbers to 0x0F, pairs for 64-bit registers; an event is no word. -/
theorem test_ill_system :
    ill plain [.trap 0x3F, .getsr 0x10 (.v 2), .getsr 0 (.v 1), .setsr 0x10 (.v 2), .setsr 0 (.v 1), .setsr 3 (.h 1 0), .dbgmbGet (.h 1 0) (.v 1),
      .dbgmbPut false (.h 1 0) (.v 1), .checkpoint, .powerLoss, .storePerformed 0] = true := by decide


/-- R85 to R89, R99: a word of zeros or an unassigned opcode, a continuation word met alone, the reserved control bits, a type,
class, unused field or modifier bit that the entry does not define, reserved type codes, and a head whose continuation word
is missing, carries another rate or sets a payload bit the entry does not define. -/
theorem test_rejects :
    rejects 0x00000000000000000000000000000000 0 = some .illegalOp ∧
    rejects 0xC0000000000000000000000000000000 0 = some .continuation ∧
    rejects 0x003920000000003FC000000000000000 0 = some .illegalEnc ∧
    rejects 0x003A20000000003FC000000000000000 0 = some .illegalEnc ∧
    rejects 0x003820000000003FC300000000000000 0 = some .illegalEnc ∧
    rejects 0x003820000000000FC000000000000000 0 = some .illegalEnc ∧
    rejects 0x003820004000003FC000000000000000 0 = some .illegalEnc ∧
    rejects 0x003820000000003FC000000000000001 0 = some .illegalEnc ∧
    rejects 0x0038004141800003C600000000000000 0 = some .illegalEnc ∧
    rejects 0x0038004141800003E000000000000000 0 = some .illegalEnc ∧
    rejects 0x0038EFC00000003FC000000000000000 0 = some .illegalOp ∧
    rejects 0x803800818000000FC400000000000000 0 = some .illegalEnc ∧
    rejects 0x803800818000000FC400000000000000 0xC0800000000000000000000000000005 = some .illegalEnc ∧
    rejects 0x803800818000000FC400000000000000 0xC0000000000000010000000000000005 = some .illegalEnc := by decide

/-- R4, R85: a list of bytes too short for a word, or for the second word of a head. -/
theorem test_truncated :
    decode [] = .error .truncated ∧ decode (List.replicate 15 0) = .error .truncated ∧
    decode (List.replicate 15 0 ++ [0x80]) = .error .truncated := by decide

/-- R99: a single word with an unassigned opcode from 0x3C0 does nothing. -/
theorem test_hints : reads 0x0038FFC00000003FC000000000000000 0 plain .nop = true := by decide

/-- A machine with one thread of one gang about to issue a word at location 65,536, on a core of the first die. Besides its
page of code it has a page each of spaces G, D, K and L, at 0x20000, 0x30000, 0x40000 and 0x50000. -/
def st : State :=
  let s := State.reset.placeWord 0 0
  let leaf := fun (p tag : Nat) => (128, 0, p, 16, BitVec.ofNat 64 (p * 65536 + 4 * tag + 35))
  let c := SMap.getD s.ctxs 0 Ctx.reset
  let l := SMap.getD s.launches 1 Launch.zero
  { s with iss := { s.iss with gang := 1, addr := 0x10000, len := 1, lanes := [1], faults := [] }, agenda := [],
           tlb := s.tlb ++ [leaf 2 0, leaf 3 1, leaf 4 2, leaf 5 3],
           ctxs := SMap.put s.ctxs 0 { c with localBase := 0x50000, localStride := 0x1000, mbox := true, mbaddr := 0x30000 },
           launches := SMap.put s.launches 1 { l with lrec := { l.lrec with quota := 1, localSize := 64, resid := true } } }

/-- The thread's registers. -/
def regs (s : State) (l : List (Nat × Word)) : State := s.modThr 1 fun x => { x with regs := l }

/-- Registers for the arithmetic words: v2 and v3 hold 5 and −3, the pair v4 holds 7, v6 holds a random word. -/
def sA : State := regs st [(2, 5), (3, 0xFFFFFFFD), (4, 7), (6, 0x12345678)]

/-- Operands of every width are readable, a destination is writable, and no divisor is 0. -/
theorem witness_IntegerArithmetic :
    sA.Issues ∧ sA.Writes (.v 1) ∧ sA.Reads 32 (.v 2) (fun _ => 5) ∧ sA.Reads 32 (.v 3) (fun _ => 0xFFFFFFFD) ∧
    sA.ReadsI 32 true (.reg (.v 3)) (fun _ => 0xFFFFFFFD) ∧ sA.ReadsI 64 true (.imm 0xFFFFFFFF) (fun _ => 2 ^ 64 - 1) ∧
    ∀ t ∈ sA.iss.lanes, readInt 32 true 0xFFFFFFFD ≠ 0 := by
  unfold State.Issues State.Writes State.Reads State.ReadsI
  decide

/-- A lane whose divisor is 0 is one that IntegerArithmetic says faults. -/
theorem witness_IntegerArithmetic_zero :
    sA.Issues ∧ sA.Writes (.v 1) ∧ sA.Reads 32 (.v 2) (fun _ => 5) ∧ sA.ReadsI 32 true (.imm 0) (fun _ => 0) := by
  unfold State.Issues State.Writes State.Reads State.ReadsI
  decide

theorem witness_IntegerReadWrite : (8 = 8 ∨ 8 = 16 ∨ 8 = 32 ∨ 8 = 64) ∧ (64 = 8 ∨ 64 = 16 ∨ 64 = 32 ∨ 64 = 64) := by decide

theorem witness_LogicAndShifts :
    sA.Issues ∧ sA.Writes (.v 8) ∧ sA.Reads 64 (.v 4) (fun _ => 7) ∧ sA.Reads 64 (.v 2) (fun _ => 5 + 2 ^ 32 * 0xFFFFFFFD) ∧
    sA.ReadsI 64 false (.imm 3) (fun _ => 3) ∧ sA.ReadsI 32 false (.imm 0x804) (fun _ => 0x804) ∧
    sA.Reads 32 (.v 2) (fun _ => 5) := by
  unfold State.Issues State.Writes State.Reads State.ReadsI
  decide

theorem witness_MovesAndAddresses :
    sA.Issues ∧ sA.Writes (.v 8) ∧ sA.Reads 64 (.v 4) (fun _ => 7) ∧ sA.ReadsI 64 true (.reg (.v 4)) (fun _ => 7) ∧
    sA.ReadsI 32 false (.reg (.v 3)) (fun _ => 0xFFFFFFFD) ∧ sA.Reads 32 (.v 2) (fun _ => 5) := by
  unfold State.Issues State.Writes State.Reads State.ReadsI
  decide

theorem witness_Predicates :
    sA.Issues ∧ sA.Reads 32 (.v 2) (fun _ => 5) ∧ sA.ReadsI 32 true (.imm 0x80000000) (fun _ => 0x80000000) := by
  unfold State.Issues State.Reads State.ReadsI
  decide

theorem witness_FloatArithmetic :
    sA.Issues ∧ sA.Writes (.v 8) ∧ sA.Reads 32 (.v 2) (fun _ => 5) ∧ sA.Reads 32 (.v 3) (fun _ => 0xFFFFFFFD) ∧
    sA.Reads 32 (.v 4) (fun _ => 7) := by
  unfold State.Issues State.Writes State.Reads
  decide

/-- The least and the greatest condition of FCMP. -/
theorem witness_FloatComparison :
    sA.Issues ∧ sA.Writes (.v 8) ∧ sA.Reads 32 (.v 2) (fun _ => 5) ∧ sA.Reads 32 (.v 3) (fun _ => 0xFFFFFFFD) ∧
    (0 : BitVec 4).toNat < 14 ∧ (13 : BitVec 4).toNat < 14 := by
  unfold State.Issues State.Writes State.Reads
  decide

theorem witness_RoundingAndSpecialFunctions : sA.Issues ∧ sA.Writes (.v 8) ∧ sA.Reads 32 (.v 2) (fun _ => 5) := by
  unfold State.Issues State.Writes State.Reads
  decide

theorem witness_PackedAndDotProducts :
    sA.Issues ∧ sA.Writes (.v 8) ∧ fmtOf .f16 = some .f16 ∧ fmtOf (.f8 false false 4) = some (.f8 false false 4) ∧
    sA.Reads 32 (.v 2) (fun _ => 5) ∧ sA.Reads 32 (.v 3) (fun _ => 0xFFFFFFFD) ∧ sA.Reads 32 (.v 4) (fun _ => 7) := by
  unfold State.Issues State.Writes State.Reads
  decide

/-- A conversion of an integer pair, one of a 32-bit register, and a PACK2 whose results have codes. -/
theorem witness_Conversions :
    (∃ T S, fmtOf .f16 = some T ∧ fmtOf .s64 = some S) ∧ sA.Issues ∧ sA.Writes (.v 8) ∧ sA.Reads 64 (.v 4) (fun _ => 7) ∧
    sA.Reads 32 (.v 2) (fun _ => 5) ∧ sA.Reads 32 (.v 3) (fun _ => 0xFFFFFFFD) ∧ sA.Reads 32 (.v 6) (fun _ => 0x12345678) ∧
    sA.Reads 32 .none (fun _ => 0) ∧ sA.Reads 32 (.v 8) (fun _ => 0) ∧
    roundToFormat false (operandF false .f32 m0 0 5) .f16 .sr (polOf .sat) 0x5678 = some 0 := by
  refine ⟨⟨_, _, rfl, rfl⟩, ?_⟩
  unfold State.Issues State.Writes State.Reads
  decide

/-- A PACK2 to binary8 codes, with the half that is kept. -/
theorem witness_Conversions_narrow :
    ∃ p q, (∀ t ∈ sA.iss.lanes,
      roundToFormat (sA.flush t) (operandF (sA.flush t) .f32 m0 0 0x3F800000) (.f8 false false 4) .rne (polOf .sat) 0 = some p ∧
      roundToFormat (sA.flush t) (operandF (sA.flush t) .f32 m0 1 0xC0000000) (.f8 false false 4) .rne (polOf .sat) 0 = some q) ∧
      p < 2 ^ 8 ∧ q < 2 ^ 8 := ⟨0x40, 0xC8, by decide⟩

/-- The largest finite code of each kind of format. -/
theorem witness_CodesRoundTrip :
    0x7F7FFFFF < 2 ^ Fmt.f32.bits ∧ (valueOf .f32 0x7F7FFFFF).isNan = false ∧ (valueOf .f16 0xFBFF).isNan = false ∧
    (valueOf .bf16 0xFF7F).isNan = false ∧ (valueOf (.f8 true false 8) 0).isNan = false ∧
    (valueOf (.f8 false true 1) 0x7F).isNan = false ∧ (1 ≤ 8 ∧ if true then 8 ≤ 8 else 8 ≤ 7) := by decide

/-- The halves of the worked example of a paired word. -/
def halves : Half × Half :=
  ({ op := .ffma, d := 8, a := 1, b := 2, c := 3, ty := .f32, rm := .rne, fm := m0 },
   { op := .ffma, d := 13, a := 1, b := 4, c := 3, ty := .f32, rm := .rne, fm := m0 })

theorem witness_PairedWords :
    sA.Issues ∧ halves.1.wf = true ∧ halves.2.wf = true ∧ pairOk halves.1 halves.2 = true := by
  unfold State.Issues
  decide

/-- One half: finite, between 1/2 and 2, with a power of two that FP32 holds. -/
theorem witness_SpecialFunctionBounds :
    (valueOf .f32 (0x3F000000 : Word).toNat).isFin = true ∧ (valueOf .f32 (0x3F000000 : Word).toNat).rat = 1 / 2 ∧
    (2 : ℝ) ^ ((1 / 2 : ℚ) : ℝ) ≤ (2 ^ 24 - 1) * 2 ^ 104 := by
  have e : valueOf .f32 (0x3F000000 : Word).toNat = .fin false (2 ^ 23) (-24) false := by decide
  refine ⟨by decide, by rw [e]; norm_num [FVal.rat, sgnMul], ?_⟩
  calc (2 : ℝ) ^ ((1 / 2 : ℚ) : ℝ) ≤ 2 ^ (1 : ℝ) := Real.rpow_le_rpow_of_exponent_le (by norm_num) (by norm_num)
    _ ≤ _ := by norm_num


/-- A statement about every result of an option, at an option that has one. -/
theorem ran {o : Option State} {x : Host.Outcome State Fault Refusal} {f : State → State}
    (h : ∀ u, o = some u → x = .next (f u)) (d : o.isSome = true) : ∃ u, x = .next u :=
  ⟨_, h _ (Option.some_get d).symm⟩

/-- The machine with a second lane in the gang, at an address before the word. -/
def two : State :=
  let x := st.thr 1
  { st with threads := st.threads ++ [(2, { x with lane := 1, tid := 1, pc := 0xFFF0, regs := [] })] }

/-- A mask of the lane itself is complete; a mask without it, or with a lane that is gone, faults; a lane that is behind holds
the word. -/
theorem witness_CrossLaneOperations (h : Obligations.CrossLaneOperations) :
    (∃ u, exec (.redux .add .s32 (.v 1) (.v 2) (.v 9)) (regs st [(2, 5), (9, 1)]) = .next u) ∧
    (∃ u, exec (.redux .add .s32 (.v 1) (.v 2) (.v 9)) (regs st [(9, 2)]) = .next u) ∧
    (∃ u, exec (.redux .add .s32 (.v 1) (.v 2) (.v 9)) (regs st [(9, 3)]) = .next u) ∧
    ∃ u, exec (.redux .add .s32 (.v 1) (.v 2) (.v 9)) (regs two [(9, 3)]) = .next u := by
  refine ⟨⟨_, ((h.2 (regs st [(2, 5), (9, 1)]) .pick 0 7 7 false true true .all .add .s32 (.v 1) (.v 2) (.v 9) (.imm 0) (fun _ => 5)
    (fun _ => 0) ?_ ?_ ?_).2.2.2 ?_).1⟩, ⟨_, (h.1 (regs st [(9, 2)]) .pick 0 7 7 false true true .all .add .s32 (.v 1) (.v 2) (.v 9)
    (.imm 0) ?_ _ (by simp)).1 (.inl ?_)⟩, ⟨_, (h.1 (regs st [(9, 3)]) .pick 0 7 7 false true true .all .add .s32 (.v 1) (.v 2) (.v 9)
    (.imm 0) ?_ _ (by simp)).1 (.inr ⟨1, ?_⟩)⟩, ⟨_, (h.1 (regs two [(9, 3)]) .pick 0 7 7 false true true .all .add .s32 (.v 1) (.v 2)
    (.v 9) (.imm 0) ?_ _ (by simp)).2 ?_ ?_ ⟨1, ?_⟩⟩⟩
  all_goals first | decide | (unfold State.Issues; decide) | (unfold State.ReadsI; decide) | (unfold State.Reads; decide)

/-- The targets: the word's own page, a word past it, one that is not aligned, and one beyond 52 bits. -/
theorem witness_Transfers (h : Obligations.Transfers) :
    (∃ u, exec (.bra 16) st = .next u) ∧ (∃ u, exec (.ret (.v 4)) (regs st [(4, 0x10020)]) = .next u) ∧
    (∃ u, exec (.call (.v 6) 32) st = .next u) ∧ (∃ u, exec (.callr (.v 4) (.v 4)) (regs st [(4, 0x10020)]) = .next u) ∧
    (∃ u, exec (.bra 8) st = .next u) ∧ (∃ u, exec (.jmp (.v 4)) (regs st [(5, 0x100000)]) = .next u) ∧
    ∃ u, exec (.bra 16) { st with mem := st.mem.write 0x1001F 0xC0 } = .next u :=
  ⟨ran (h.1 st 16 (.v 6) (.v 4) (by decide)).1 (by decide),
   ⟨_, ((h.1 (regs st [(4, 0x10020)]) 16 (.v 6) (.v 4) (by decide)).2.1 _ (Option.some_get (by decide)).symm).2⟩,
   ran (h.1 st 32 (.v 6) (.v 4) (by decide)).2.2.1 (by decide),
   ran (h.1 (regs st [(4, 0x10020)]) 16 (.v 4) (.v 4) (by decide)).2.2.2 (by decide),
   ⟨_, (h.2 st 1 8 (.v 6) (.v 4) (by decide) (by decide)).1.2.1 (by decide) (by decide)⟩,
   ⟨_, (h.2 (regs st [(5, 0x100000)]) 1 8 (.v 6) (.v 4) (by decide) (by decide)).2.2.1.1 (by decide)⟩,
   ⟨_, (h.2 { st with mem := st.mem.write 0x1001F 0xC0 } 1 16 (.v 6) (.v 4) (by decide) (by decide)).1.2.2 (by decide) (by decide)
     (by decide)⟩⟩

/-- The only lane, with no mask operand, branching to the next word. -/
theorem witness_Reconvergence (h : Obligations.Reconvergence) :
    ∃ u, exec (.reconv false .none 16) st = .next u ∧ (u.thr 1).pc = 0x10010 ∧ (u.thr 1).park = none := by
  obtain ⟨u, h1, h2, h3⟩ := (h st false .none 16 (fun _ => 0xFFFFFFFF) (by decide) (by decide) (by decide)).2 1 (st.thr 1) (by decide)
    (by decide) (by decide) (by decide) (by decide) (by decide)
    (by intro i hi _; by_cases h0 : i = 0
        · subst h0; exact .inr (.inl (by decide))
        · exact .inl (by revert i; decide)) (by decide) (.inl rfl)
  exact ⟨u, h1, h2.trans (by decide), h3⟩

/-- A condition of WAIT on a word of the scratchpad: equal to 1. -/
def cond1 : WCond := { kind := 0, addr := 0, val := 1, ext := false, sgn := false, cmp := 0 }

/-- A lane that is asleep while its crew has a status. -/
def asleep (c : CrewStatus) : State := (st.setPark 1 (.sleep 0)).modCrew 1 fun x => { x with status := c }

/-- A lane that ends, one that sleeps till 100 and is looked at before and at that time, one of an evicted crew, and one that
waits with a timeout. -/
theorem witness_EndAndWaiting (h : Obligations.EndAndWaiting) :
    (∃ u, exec .exit st = .next u) ∧ (∃ u, exec (.sleep (.imm 100)) st = .next u) ∧
    exec (.sleepExpiry 1) (st.setPark 1 (.sleep 100)) = .next (st.setPark 1 (.sleep 100)) ∧
    (∃ u, exec (.sleepExpiry 1) (st.setPark 1 (.sleep 0)) = .next u) ∧
    exec (.sleepExpiry 1) (asleep .evicted) = .next (asleep .evicted) ∧
    exec (.waitEvaluation 1) (asleep .evicted) = .next (asleep .evicted) ∧
    (∃ u, exec (.waitEvaluation 1) (st.setPark 1 (.wait 0 0 true [] 0 2)) = .next u) ∧
    (∃ u, exec (.waitEvaluation 1) (st.setPark 1 (.wait 0 0 false [cond1] 0 2)) = .next u) ∧
    exec (.waitEvaluation 1) (st.setPark 1 (.wait 0 1 false [] 0 2)) = .next (st.setPark 1 (.wait 0 1 false [] 0 2)) :=
  ⟨⟨_, (h.1 st 1 [] (by decide)).1⟩,
   ⟨_, ((h.2 st (.imm 100) (fun _ => 100) 1 0 0 0 0 0 true []).1 (by unfold State.Issues; decide)).2.2 (by unfold State.ReadsI; decide)⟩,
   ((h.2 (st.setPark 1 (.sleep 100)) (.imm 0) (fun _ => 0) 1 100 0 0 0 0 true []).2.1 (by decide) (by decide)).2 (by decide),
   ⟨_, ((h.2 (st.setPark 1 (.sleep 0)) (.imm 0) (fun _ => 0) 1 0 0 0 0 0 true []).2.1 (by decide) (by decide)).1 (by decide)⟩,
   ((h.2 (asleep .evicted) (.imm 0) (fun _ => 0) 1 0 0 0 0 0 true []).2.2.1 (by decide)).1,
   ((h.2 (asleep .evicted) (.imm 0) (fun _ => 0) 1 0 0 0 0 0 true []).2.2.1 (by decide)).2,
   ⟨_, ((h.2 (st.setPark 1 (.wait 0 0 true [] 0 2)) (.imm 0) (fun _ => 0) 1 0 0 0 0 2 true []).2.2.2 (by decide) (by decide)).1 (by decide)⟩,
   ⟨_, ((h.2 (st.setPark 1 (.wait 0 0 false [cond1] 0 2)) (.imm 0) (fun _ => 0) 1 0 0 0 0 2 false [cond1]).2.2.2 (by decide) (by decide)).2.1 (by decide)
     (by decide) (by decide)⟩,
   ((h.2 (st.setPark 1 (.wait 0 1 false [] 0 2)) (.imm 0) (fun _ => 0) 1 0 0 1 0 2 false []).2.2.2 (by decide) (by decide)).2.2 (by decide)
     (.inr (by decide))⟩

/-- v2 holds a value, v3 a scratchpad address, and the pairs v4, v6, v8 and v10 addresses of spaces G, D, K and L. -/
def sM : State := regs st [(2, 5), (3, 64), (4, 0x20000), (6, 0x30000), (8, 0x40000), (10, 32), (12, 7)]

/-- The last word of the allocation, and one that is not aligned, past the allocation, or on an absent line. -/
theorem witness_ScratchpadWords (h : Obligations.ScratchpadWords) :
    (∃ u, exec (.lds mem0 .b32 (.v 1) (.v 3)) sM = .next u) ∧ (∃ u, exec (.sts mem0 .b32 (.v 3) (.v 2)) sM = .next u) ∧
    (∃ u, exec (.atoms .cas mem0 .b32 (.v 1) (.v 3) (.v 2) (.v 12)) sM = .next u) ∧
    (∃ u, exec (.pres mem0 (.v 1) (.v 14)) sM = .next u) ∧
    (∃ u, exec (.lds { mem0 with disp := 1 } .b32 (.v 1) (.v 3)) sM = .next u) ∧
    (∃ u, exec (.lds { mem0 with disp := 0x10000 } .b32 (.v 1) .none) sM = .next u) ∧
    (∃ u, exec (.lds mem0 .b32 (.v 1) (.v 3)) { sM with absent := [locScratch 0 0 / 128] } = .next u) ∧
    sM.reachS 1 0xFFFC 4 1 = .ok sM (locScratch 0 0xFFFC) false false :=
  ⟨ran (h.1 sM .cas mem0 .b32 (.v 1) (.v 3) (.v 2) (.v 12) (by decide)).1 (by decide),
   ran (h.1 sM .cas mem0 .b32 (.v 1) (.v 3) (.v 2) (.v 12) (by decide)).2.1 (by decide),
   ran (h.1 sM .cas mem0 .b32 (.v 1) (.v 3) (.v 2) (.v 12) (by decide)).2.2.1 (by decide),
   ran (h.1 sM .cas mem0 .b32 (.v 1) (.v 14) (.v 2) (.v 12) (by decide)).2.2.2 (by decide),
   ⟨_, (h.2 sM 1 64 { mem0 with disp := 1 } .b32 (.v 1) (.v 3) (by decide) (by decide) (by decide)).1 (by decide)⟩,
   ⟨_, (h.2 sM 1 0 { mem0 with disp := 0x10000 } .b32 (.v 1) .none (by decide) (by decide) (by decide)).2.1 (by decide) (by decide)⟩,
   ⟨_, (h.2 { sM with absent := [locScratch 0 0 / 128] } 1 64 mem0 .b32 (.v 1) (.v 3) (by decide) (by decide) (by decide)).2.2.1 (by decide)
     (by decide) (by decide) (by decide)⟩,
   (h.2 sM 1 0 { mem0 with disp := 0xFFFC } .b32 (.v 1) .none (by decide) (by decide) (by decide)).2.2.2 (by decide) (by decide) (by decide) (by decide)⟩

/-- A store of a byte to space G by the thread of the machine, numbered `seq`. -/
def store1 (seq : Nat) : Store :=
  { thread := 1, launch := 1, core := 0, scope := 3, after := [], glob := true, loc := 0x20000, data := [7], release := false, irq := none, seq := seq }

/-- A load of that byte's word that is on its way. -/
def req1 : LoadReq := { glob := false, loc := 0x20000, n := 4, ty := .n32, dst := .v 1, acquire := false, remote := false }

def late1 : Result := { thread := 1, regs := [.v 1], vals := none, due := none, load := some req1 }

/-- Loads of each space, and one on its way before and after a store to its bytes is performed. -/
theorem witness_Loads (h : Obligations.Loads) :
    (∃ u, exec (.ldg mem0 .b64 (.v 14) (.v 4)) sM = .next u) ∧
    (∃ u, exec (.ldd { mem0 with ord := 1, scope := 2 } .b32 (.v 1) (.v 6)) sM = .next u) ∧
    (∃ u, exec (.ldl mem0 .b32 (.v 1) (.v 10)) sM = .next u) ∧ (∃ u, exec (.ldk mem0 .n8 (.v 1) (.v 8)) sM = .next u) ∧
    (∃ u, exec (.ldw mem0 .b32 (.v 1) (.v 3)) sM = .next u) ∧
    (let s := { sM with results := [(5, late1)], stores := [(4, { store1 4 with glob := false })] }
     exec (.trackedResultReturn 5) s = .next s) ∧
    ∃ u, exec (.trackedResultReturn 5) { sM with results := [(5, late1)] } = .next u :=
  ⟨ran (h sM mem0 .b64 (.v 14) (.v 4) (by decide)).1 (by decide),
   ran (h sM { mem0 with ord := 1, scope := 2 } .b32 (.v 1) (.v 6) (by decide)).2.1 (by decide),
   ran (h sM mem0 .b32 (.v 1) (.v 10) (by decide)).2.2.1 (by decide),
   ran (h sM mem0 .n8 (.v 1) (.v 8) (by decide)).2.2.2.1 (by decide),
   ran (h sM mem0 .b32 (.v 1) (.v 3) (by decide)).2.2.2.2.1 (by decide),
   ((h { sM with results := [(5, late1)], stores := [(4, { store1 4 with glob := false })] } mem0 .b32 .none .none (by decide)).2.2.2.2.2
     1 5 1 0 req1 late1 (by decide) rfl rfl rfl).1 (by decide),
   (((h { sM with results := [(5, late1)] } mem0 .b32 .none .none (by decide)).2.2.2.2.2 1 5 1 0 req1 late1 (by decide) rfl rfl rfl).2
     (by decide) (by decide) (by decide) (by decide) rfl (by decide) rfl (.inl ⟨rfl, by decide⟩)).imp fun _ h => h.1⟩

theorem witness_Stores (h : Obligations.Stores) :
    (∃ u, exec (.stg mem0 .b32 (.v 4) (.v 2)) sM = .next u) ∧
    (∃ u, exec (.std { mem0 with ord := 2, scope := 2 } .b32 (.v 6) (.v 2)) sM = .next u) ∧
    (∃ u, exec (.stl mem0 .b32 (.v 10) (.v 2)) sM = .next u) ∧ (∃ u, exec (.stw mem0 .b32 (.v 3) (.v 2)) sM = .next u) ∧
    (∃ u, exec (.signal false true 3 (.v 6) (.v 2)) sM = .next u) ∧ ∃ u, exec (.signal true false 0 (.v 6) (.v 2)) sM = .next u :=
  ⟨ran (h sM mem0 .b32 false false 0 (.v 4) (.v 2) (by decide)).1 (by decide),
   ran (h sM { mem0 with ord := 2, scope := 2 } .b32 false false 0 (.v 6) (.v 2) (by decide)).2.1 (by decide),
   ran (h sM mem0 .b32 false false 0 (.v 10) (.v 2) (by decide)).2.2.1 (by decide),
   ran (h sM mem0 .b32 false false 0 (.v 3) (.v 2) (by decide)).2.2.2.1 (by decide),
   ran (h sM mem0 .b32 false true 3 (.v 6) (.v 2) (by decide)).2.2.2.2 (by decide),
   ran (h sM mem0 .b32 true false 0 (.v 6) (.v 2) (by decide)).2.2.2.2 (by decide)⟩

theorem witness_HomeAtomics (h : Obligations.HomeAtomics) :
    (∃ u, exec (.atomg .add mem0 .s32 (.v 1) (.v 4) (.v 2) .none) sM = .next u) ∧
    (∃ u, exec (.redg .max mem0 .n32 (.v 4) (.v 2)) sM = .next u) ∧
    (∃ u, exec (.atomd .cas { mem0 with scope := 2 } .b32 (.v 1) (.v 6) (.v 2) (.v 12)) sM = .next u) ∧
    ∃ u, exec (.redd .fadd { mem0 with scope := 2 } .f32 (.v 6) (.v 2)) sM = .next u :=
  ⟨ran (h sM .add mem0 .s32 (.v 1) (.v 4) (.v 2) .none (by decide)).1 (by decide),
   ran (h sM .max mem0 .n32 (.v 1) (.v 4) (.v 2) .none (by decide)).2.1 (by decide),
   ran (h sM .cas { mem0 with scope := 2 } .b32 (.v 1) (.v 6) (.v 2) (.v 12) (by decide)).2.2.1 (by decide),
   ran (h sM .fadd { mem0 with scope := 2 } .f32 (.v 1) (.v 6) (.v 2) .none (by decide)).2.2.2 (by decide)⟩

/-- An atomic of the thread on a word of memory. -/
def rmw1 (seq : Nat) : Rmw :=
  { thread := 1, launch := 1, core := 0, scope := 3, remote := false, glob := false, loc := 0x30000, op := .add, ty := .n32, b := 1, c := 0, release := false, acquire := false,
    reduction := false, result := none, window := none, flush := false, seq := seq }

/-- A store and an atomic that nothing holds back, a release store and an atomic that an earlier store holds back, a release
store at cluster scope, and a reduction into a window of another home. -/
theorem witness_HomePerforms (h : Obligations.HomePerforms) :
    (∃ u, exec (.storePerformed 5) { sM with stores := [(5, store1 5)] } = .next u) ∧
    (let s := { sM with stores := [(5, store1 5), (6, { store1 6 with release := true })] }
     exec (.storePerformed 6) s = .next s) ∧
    (∃ u, exec (.storePerformed 6) { sM with stores := [(6, { store1 6 with release := true, scope := 1 })] } = .next u) ∧
    (∃ u, exec (.homeRmwPerform 5) { sM with rmws := [(5, rmw1 5)] } = .next u) ∧
    (let s := { sM with stores := [(5, store1 5)], rmws := [(6, { rmw1 6 with release := true })] }
     exec (.homeRmwPerform 6) s = .next s) ∧
    (∃ u, exec (.homeRmwPerform 5) { sM with rmws := [(5, { rmw1 5 with window := some (2, 8) })] } = .next u) ∧
    atomicNew false .inc .n64 (2 ^ 64 - 1) (2 ^ 64 - 1) 0 = 0 :=
  ⟨⟨_, And.left (((h.1 { sM with stores := [(5, store1 5)] } 5).1 (store1 5) (by decide)).2 (by decide)) (.inl rfl)⟩,
   ((h.1 { sM with stores := [(5, store1 5), (6, { store1 6 with release := true })] } 6).1 { store1 6 with release := true } (by decide)).1
     (by decide),
   ⟨_, And.left (((h.1 { sM with stores := [(6, { store1 6 with release := true, scope := 1 })] } 6).1 { store1 6 with release := true, scope := 1 }
     (by decide)).2 (by decide)) (.inl rfl)⟩,
   ⟨_, And.right (And.right (And.right ((h.1 { sM with rmws := [(5, rmw1 5)] } 5).2 (rmw1 5) (by decide)))) (by decide) (by decide) (by decide)⟩,
   ((h.1 { sM with stores := [(5, store1 5)], rmws := [(6, { rmw1 6 with release := true })] } 6).2 { rmw1 6 with release := true }
     (by decide)).1 (by decide),
   ⟨_, ((h.1 { sM with rmws := [(5, { rmw1 5 with window := some (2, 8) })] } 5).2 { rmw1 5 with window := some (2, 8) } (by decide)).2.2.1 2 8
     (by decide) (by decide) rfl (by decide) rfl⟩,
   (h.2.1 false .n64 (2 ^ 64 - 1) (2 ^ 64 - 1) 0 (by decide) (by decide) (by decide) (by decide)).2.2.2.2.2.2.2.2.1⟩

/-- A FENCE with nothing on its way at cluster scope and at device scope, one with a store on its way, and a PREF. -/
theorem witness_FenceAndPrefetch (h : Obligations.FenceAndPrefetch) :
    (∃ u, exec (.fence 3 1) st = .next u) ∧ (∃ u, exec (.fence 3 2) st = .next u) ∧
    (∃ u, exec (.fence 3 2) { st with stores := [(5, store1 5)] } = .next u) ∧
    (∃ v, State.releaseAt { st with stores := [(5, store1 5)] } 1 1 = some v) ∧ ∃ u, exec (.pref 0 true 0 (.v 4)) sM = .next u :=
  ⟨⟨_, (h st 3 0 1 false 0 .none (by unfold State.Issues; decide)).1 _ (Option.some_get (by decide)).symm⟩,
   ⟨_, (h st 3 0 2 false 0 .none (by unfold State.Issues; decide)).2.1 (by decide) (by decide)⟩,
   ⟨_, (h { st with stores := [(5, store1 5)] } 3 0 2 false 0 .none (by unfold State.Issues; decide)).2.2.1 1 (by decide)
     (.inl (by decide))⟩,
   let ⟨v, e, _⟩ := (h { st with stores := [(5, store1 5)] } 3 0 1 false 0 .none (by unfold State.Issues; decide)).2.2.2.1 1 (by decide)
     (by decide)
   ⟨v, e⟩,
   let ⟨_, e, _⟩ := (h sM 3 0 2 true 0 (.v 4) (by unfold State.Issues; decide)).2.2.2.2
   ⟨_, e⟩⟩

theorem witness_MemoryReadsBackWrites : st.mem.wf = true ∧ State.reset.mem.wf = true := by decide

/-- An STS, an ATOMS, an LDS and a PRES that complete, with what the statement asks of them. -/
theorem witness_ScratchpadStoreFrame :
    sM.iss.faults = [] ∧ sM.iss.lanes = [1] ∧ sM.ea32 1 (.v 3) 0 = .ok 64 ∧ sM.mem.wf = true ∧ sM.src 1 32 (.v 2) = .ok 5 ∧
    sM.src 1 32 .none = .ok 0 ∧ (sM.releaseAt 1 0).isSome = true ∧
    locScratch (sM.crewOf 1).core ((sM.crewOf 1).sBase + 64) + 4 ≤ 2 ^ 82 ∧ sM.ea32 1 (.v 3) 64 = .ok 128 := by
  decide

/-- The reach of the three accesses. -/
theorem witness_ScratchpadStoreFrame_reach :
    sM.reachS 1 64 4 1 = .ok sM (locScratch 0 64) false false ∧ sM.reachS 1 64 4 2 = .ok sM (locScratch 0 64) false false ∧
    sM.reachS 1 64 4 3 = .ok sM (locScratch 0 64) false false ∧ sM.mayGo 1 0 0 = some sM := ⟨rfl, rfl, rfl, rfl⟩

/-- The four forms answer a next state there. -/
theorem witness_ScratchpadStoreFrame_next :
    ([Instr.sts mem0 .b32 (.v 3) (.v 2), .atoms .add mem0 .n32 (.v 1) (.v 3) (.v 2) .none, .lds mem0 .b32 (.v 1) (.v 3),
      .pres { mem0 with disp := 64 } (.v 1) (.v 3)].all fun i => match exec i sM with
        | .next _ => true
        | _ => false) = true := by decide

/-- A MOV ends as `yields` says (MovesAndAddresses), and the thread exists. -/
theorem witness_FixedLatencyFrame (h : Obligations.MovesAndAddresses) :
    sM.Issues ∧ (∃ u, exec (.mov .b32 (.v 1) (.v 2)) sM = .next u ∧ u = sM.yields 4 fun _ => dstWords 32 (.v 1) 5) ∧
    ∀ t ∈ sM.iss.lanes, (SMap.get? sM.threads t).isSome := by
  refine ⟨by unfold State.Issues; decide, ⟨_, (h sM .b32 (.v 1) (.v 2) (.imm 0) 7 false 0 0 0 0 (fun _ => 5) (fun _ => 0)
    (by unfold State.Issues; decide) (by unfold State.Writes; decide)).1 (by unfold State.Reads; decide), rfl⟩, by decide⟩

/-- The machine with a result in flight to v1, due at a cycle. -/
def flying (due : Nat) : State := st.modThr 1 fun x => { x with pend := [{ due := due, res := .v 1, val := 9 }] }

/-- A tracked result for v1. -/
def owed (vals : Option (List Word)) : State :=
  { st with results := [(4, { thread := 1, regs := [.v 1], vals := vals, due := none, load := none })] }

/-- A result that is due this cycle, one that is due in the next, a tracked one with its value and one without. -/
theorem witness_ResultsReturn (h : Obligations.ResultsReturn) :
    ((flying 0).settle 1).rd 1 1 = 9 ∧ (((flying 1).settle 1).thr 1).pend = [{ due := 1, res := .v 1, val := 9 }] ∧
    exec (.trackedResultReturn 4) (owed none) = .next (owed none) ∧ ∃ u, exec (.trackedResultReturn 4) (owed (some [9])) = .next u :=
  ⟨((h.1 (flying 0) 1 1 ((flying 0).thr 1) _ (by decide) rfl rfl).1 (by decide)).2.2,
   ((h.1 (flying 1) 1 1 ((flying 1).thr 1) _ (by decide) rfl rfl).2 (by decide)).2,
   (h.2 (owed none) 4 _ rfl rfl).1 rfl,
   let ⟨u, e, _⟩ := (h.2 (owed (some [9])) 4 _ rfl rfl).2 [9] rfl
   ⟨u, e⟩⟩

theorem witness_BarriersAndRegisterRequests (h : Obligations.BarriersAndRegisterRequests) :
    (∃ u, exec (.bar 0 0 3) st = .next u) ∧ (∃ u, exec (.bar 2 1 3) st = .next u) ∧ (∃ u, exec (.bar 1 2 7) st = .next u) ∧
    (∃ u, exec (.grow 32) st = .next u) ∧ ∃ u, exec (.shrink 8) st = .next u :=
  ⟨ran ((h st).1 0 0 3 · (by decide)) (by decide), ran ((h st).1 2 1 3 · (by decide)) (by decide),
   ran ((h st).1 1 2 7 · (by decide)) (by decide), ran ((h st).2.2.1 true 32 · (by decide)) (by decide),
   ran ((h st).2.2.1 false 8 · (by decide)) (by decide)⟩

/-- The thread has asked for a SHRINK to 64 registers with results on their way to v3 and v70. -/
def shrinking : State :=
  { st.setPark 1 (.collective false 64 0x10010) with results := [(9, { thread := 1, regs := [.v 3, .v 70], vals := none, due := none, load := none })] }

/-- A phase that its only thread has ended, a SHRINK that it has asked for, and a GROW that can be granted. -/
theorem witness_BarriersAndRegisterRequests_phase (h : Obligations.BarriersAndRegisterRequests) :
    (let s := { st with bars := [(barKey 0 1 3, { phase := 4, arrived := [1] })] }.setPark 1 (.barrier (barKey 0 1 3) 4 0x10010)
     ((s.completeBar (barKey 0 1 3)).thr 1).pc = 0x10010) ∧
    (((st.setPark 1 (.collective false 64 0x10010)).completeCollective 1).crewAt 1).nreg = 64 ∧
    (∃ y, SMap.get? (shrinking.completeCollective 1).results 9 = some y ∧ ∀ i, Res.v i ∈ y.regs → i < 64) ∧
    (∃ u, exec (.growGrant 1) (st.modCrew 1 fun c => { c with nreg := 64, growWant := some (128, 0) }) = .next u) ∧
    exec (.growGrant 1) (st.modCrew 1 fun c => { c with halted := true }) = .next (st.modCrew 1 fun c => { c with halted := true }) := by
  refine ⟨?_, ?_, ?_, ?_, ((h (st.modCrew 1 fun c => { c with halted := true })).2.2.2.2.2.1 1 rfl).2⟩
  · exact (((h ({ st with bars := [(barKey 0 1 3, { phase := 4, arrived := [1] })] }.setPark 1
      (.barrier (barKey 0 1 3) 4 0x10010))).2.1 (barKey 0 1 3) (by decide) (by decide)).2 1 _ 0x10010 rfl rfl rfl).1
  · exact ((h (st.setPark 1 (.collective false 64 0x10010))).2.2.2.1 1 64 fetchCrew (by decide) rfl (by decide) (by decide)).1
  · exact ⟨_, (Option.some_get (by decide)).symm, (h shrinking).2.2.2.2.1 1 64 fetchCrew 9 _ (by decide) rfl (by decide) (by decide) rfl
      (by decide) _ (Option.some_get (by decide)).symm⟩
  · obtain ⟨u, e, _⟩ := (h (st.modCrew 1 fun c => { c with nreg := 64, growWant := some (128, 0) })).2.2.2.2.2.2 1 128 0 0 _ rfl rfl rfl rfl
      (by
        intro d y m a hy hd
        change SMap.get? [(1, _)] d = some y at hy
        rw [SMap.get?_cons, if_neg hd] at hy
        cases hy) (by decide) (by decide)
    exact ⟨u, e⟩

/-- A chute of the crew with an element that holds a token, and whose consumer holds another's permit. -/
def chuted : State := regs (st.modChute 1 0 fun x => { x with toks := [7], held := 1 }) [(2, 5), (3, 64), (4, 64), (7, 2)]

theorem witness_ChutesAndWait (h : Obligations.ChutesAndWait) :
    (∃ u, exec (.chdrop false 7 0 (.v 2)) chuted = .next u) ∧ (∃ u, exec (.chtake true 1 0 (.v 8)) chuted = .next u) ∧
    (∃ u, exec (.chtake true 1 1 (.v 8)) chuted = .next u) ∧
    (∃ u, exec (.chfree 0) chuted = .next u) ∧ ∃ u, exec (.wait false 0 0 (.v 1) (.v 4) (.imm 10)) chuted = .next u :=
  ⟨ran (h chuted false false 7 0 0 0 (.v 1) (.v 2) (.v 4) (.imm 10) (by decide)).1 (by decide),
   ran (h chuted true false 1 0 0 0 (.v 8) (.v 2) (.v 4) (.imm 10) (by decide)).2.1 (by decide),
   ran (h chuted true false 1 0 1 0 (.v 8) (.v 2) (.v 4) (.imm 10) (by decide)).2.1 (by decide),
   ran (h chuted false false 7 0 0 0 (.v 8) (.v 2) (.v 4) (.imm 10) (by decide)).2.2.1 (by decide),
   ran (h chuted false false 7 0 0 0 (.v 1) (.v 2) (.v 4) (.imm 10) (by decide)).2.2.2 (by decide)⟩

/-- Registers for a message of 16 bytes at 64, to and from crew 0 with tag 9. -/
def sG : State := regs st [(2, 64), (3, 0), (4, 9)]

/-- A message on its way to crew 0, and one to a crew that is not there. -/
def letter (dst : Nat) : Msg :=
  { launch := 1, src := 0, dst := dst, tag := 9, data := List.replicate 16 7, result := 2, queued := false, heldBack := false, place := 0 }

/-- The longest and the shortest message. -/
theorem witness_Messages (h : Obligations.Messages) :
    (∃ u, exec (.msend 256 (.v 1) (.v 2) (.v 3) (.v 4)) sG = .next u) ∧ (∃ u, exec (.mrecv 1 (.v 6) (.v 2) (.v 3) (.v 4)) sG = .next u) ∧
    (∃ u, exec (.mrecv 1 (.v 6) (.v 2) (.v 3) (.v 4)) { sG with msgs := [(1, { letter 0 with queued := true })] } = .next u) ∧
    (∃ u, exec (.mprobe (.v 6) (.v 3) (.v 4)) sG = .next u) ∧
    (∃ u, exec (.messageDelivery 5) { sG with msgs := [(5, letter 1)] } = .next u) ∧
    ∃ u, exec (.messageDelivery 5) ({ sG with msgs := [(5, letter 0)] }.modCrew 1 fun c =>
      { c with posted := [{ src := 0xFFFFFFFF, tag := 9, off := 64, len := 16, result := 3 }] }) = .next u :=
  ⟨ran (h sG 256 (.v 1) (.v 2) (.v 3) (.v 4) (by decide)).1 (by decide),
   ran ((h sG 1 (.v 6) (.v 2) (.v 3) (.v 4) (by decide)).2.1 (by decide)).1 (by decide),
   ran ((h { sG with msgs := [(1, { letter 0 with queued := true })] } 1 (.v 6) (.v 2) (.v 3) (.v 4) (by decide)).2.1 (by decide)).1 (by decide),
   ⟨_, ((h sG 1 (.v 6) (.v 2) (.v 3) (.v 4) (by decide)).2.1 (by decide)).2 _ (Option.some_get (by decide)).symm (by decide)⟩,
   ⟨_, ((h { sG with msgs := [(5, letter 1)] } 1 (.v 6) (.v 2) (.v 3) (.v 4) (by decide)).2.2 5 1 (letter 1) (sG.crewAt 1) (by decide) (by decide)
     (by decide)).1 (by decide)⟩,
   ⟨_, ((h ({ sG with msgs := [(5, letter 0)] }.modCrew 1 fun c =>
      { c with posted := [{ src := 0xFFFFFFFF, tag := 9, off := 64, len := 16, result := 3 }] }) 1 (.v 6) (.v 2) (.v 3) (.v 4) (by decide)).2.2
      5 1 (letter 0) _ (by decide) (by decide) (by decide)).2 rfl (by decide) (by decide) _ rfl⟩⟩

/-- A bin of the crew. -/
def bin1 (timer : Nat) : Bin := { crew := 1, entry := 0x10000, core := 0, timer := timer, left := 0, expired := false, threads := [], seq := 0 }

/-- A spawn to the code page, a flush, a bin whose timer has run out and one whose has not, and a split among one crew. -/
theorem witness_SpawnsAndBins (h : Obligations.SpawnsAndBins) :
    (∃ u, exec (.spawn false (.v 4) (.v 8)) (regs st [(4, 0x10000)]) = .next u) ∧
    (∃ u, exec (.binflush .none) { st with bins := [(3, bin1 9)] } = .next u) ∧
    (∃ u, exec (.binTimerExpiry 3) { st with bins := [(3, bin1 0)] } = .next u) ∧
    (∃ u, exec (.binTimerExpiry 3) { st with bins := [(3, bin1 1)] } = .next u) ∧
    (∃ u, exec (.wsplit (.v 4) (.v 2) (.v 3)) (regs st [(2, 10), (3, 4)]) = .next u) ∧
    ∃ u, exec (.wsplit (.v 4) (.v 2) (.v 3)) (regs st [(2, 10)]) = .next u :=
  ⟨ran (h (regs st [(4, 0x10000)]) false (.v 4) (.v 4) (.v 8) (by decide)).1 (by decide),
   ran (h { st with bins := [(3, bin1 9)] } false (.v 4) .none (.v 8) (by decide)).2.2.1 (by decide),
   ⟨_, ((h { st with bins := [(3, bin1 0)] } false (.v 4) .none (.v 8) (by decide)).2.2.2.1 3 _ rfl).1 (by decide) (by decide) (by decide)⟩,
   ⟨_, ((h { st with bins := [(3, bin1 1)] } false (.v 4) .none (.v 8) (by decide)).2.2.2.1 3 _ rfl).2 (by decide)⟩,
   ⟨_, ((h (regs st [(2, 10), (3, 4)]) false (.v 4) (.v 2) (.v 3) (by decide)).2.2.2.2 (fun _ => 10) (fun _ => 4) (by decide)
     (by unfold State.Reads; decide) (by unfold State.Reads; decide)).2 (by decide)⟩,
   ⟨_, ((h (regs st [(2, 10)]) false (.v 4) (.v 2) (.v 3) (by decide)).2.2.2.2 (fun _ => 10) (fun _ => 0) (by decide)
     (by unfold State.Reads; decide) (by unfold State.Reads; decide)).1⟩⟩

/-- Registers of zeros for a layout, and 64, 0 and 32 for a copy to the weight store. -/
def sW : State := regs st [(20, 64), (22, 32)]

theorem witness_MatrixWords (h : Obligations.MatrixWords) :
    (∃ u, exec (.mma true false .f16 .bf16 0 0 7 31 30 (.v 1) (.v 4) .none .none) sW = .next u) ∧
    (∃ u, exec (.mloadb (.v 1) (.v 20) (.v 21) (.v 22)) sW = .next u) ∧ (∃ u, exec (.mzero 0x81) sW = .next u) ∧
    (∃ u, exec (.mburst 0) sW = .next u) ∧ (∃ u, exec (.mburst 0xFFFF) sW = .next u) ∧
    (∃ u, exec (.mrd 7 (.v 2) (.v 8) (.v 9)) (regs st [(8, 255), (9, 127)]) = .next u) ∧ ∃ u, exec (.mrdSt 7 (.v 2)) st = .next u :=
  ⟨ran (fun u e => (h.1 sW true false .f16 .bf16 .f32 0 0 0 7 31 30 0 0 .rne .sat (.v 1) (.v 2) (.v 3) (.v 8) (.v 4) .none .none
     (by decide)).1 u e (fun k => nomatch k)) (by decide),
   ran (h.1 sW true false .f16 .bf16 .f32 0 0 0 7 31 30 0 0 .rne .sat (.v 1) (.v 20) (.v 21) (.v 22) (.v 4) .none .none (by decide)).2.1
     (by decide),
   ran (h.1 sW true false .f16 .bf16 .f32 0 0 0 7 31 30 0x81 0 .rne .sat (.v 1) (.v 2) (.v 3) (.v 8) (.v 4) .none .none (by decide)).2.2.2.1
     (by decide),
   ran (h.1 sW true false .f16 .bf16 .f32 0 0 0 7 31 30 0 0 .rne .sat (.v 1) (.v 2) (.v 3) (.v 8) (.v 4) .none .none (by decide)).2.2.2.2
     (by decide),
   ran (h.1 sW true false .f16 .bf16 .f32 0 0 0 7 31 30 0 0xFFFF .rne .sat (.v 1) (.v 2) (.v 3) (.v 8) (.v 4) .none .none (by decide)).2.2.2.2
     (by decide),
   ran (h.2 (regs st [(8, 255), (9, 127)]) 7 false .f16 .f16 0 0 0 0 (.v 2) (.v 8) (.v 9) (.v 16) (by decide)).1 (by decide),
   ran (h.2 st 7 false .f16 .f16 0 0 0 0 (.v 2) (.v 8) (.v 9) (.v 16) (by decide)).2.1 (by decide)⟩

theorem ran_one {s : State} {t : Nat} {f : State → Nat → Option State} (hl : s.iss.lanes = [t]) (hf : (f s t).isSome = true) :
    (s.runs f).isSome = true := by
  simp only [State.runs, State.does, hl, List.foldl, Option.bind_some, Option.isSome_map, hf]

theorem ite_some {c : Prop} [Decidable c] {x : State} (h : c) : (if c then some x else none).isSome = true := by simp [h]

theorem witness_MatrixWords_store (h : Obligations.MatrixWords) : ∃ u, exec (.mst .f32 .rne .sat 1 0 (.v 1) (.v 4)) sW = .next u := by
  have nothing : ∀ l : List Nat, (l.filter sW.absent.contains).isEmpty = true := by
    intro l
    have e : sW.absent = [] := by decide
    simp [e]
  have := (h.1 sW true false .f16 .bf16 .f32 0 0 1 0 31 30 0 0 .rne .sat (.v 1) (.v 2) (.v 3) (.v 8) (.v 4) .none .none (by decide)).2.2.1 
  refine ran this (ran_one (t := 1) rfl ?_)
  clear this
  refine ite_some ⟨?_, ?_, ?_, nothing _⟩
  · decide
  · decide
  · decide

/-- The gang with all its 32 lanes at the word, on arrays at full current. -/
def crowd : State :=
  let x := st.thr 1
  { st with threads := (List.range 32).map fun i => (i + 1, { x with lane := i, tid := i }),
            iss := { st.iss with lanes := (List.range 32).map (· + 1) } }.modPair 0 fun p => { p with ramp := [.hot, .hot] }

/-- Its first lane alone, at a word with ELECT. -/
def led : State := { crowd with iss := { crowd.iss with lanes := [1] } }

theorem witness_MatrixWords_scaled (h : Obligations.MatrixWords) :
    ∃ u, exec (.mma true true .f16 .f16 0 1 7 0 30 (.v 1) (.v 4) (.v 12) (.v 16)) led = .next u :=
  ran (fun u e => (h.1 led true true .f16 .f16 .f32 0 1 0 7 0 30 0 0 .rne .sat (.v 1) (.v 2) (.v 3) (.v 8) (.v 4) (.v 12) (.v 16)
    (by decide)).1 u e (fun _ => ⟨by decide, by decide⟩)) (by decide)

theorem witness_MatrixWords_gang (h : Obligations.MatrixWords) :
    ∃ u, exec (.mmag true .f16 .f16 0 0 0 0 (.v 16) (.v 4) (.v 8) (.v 24)) crowd = .next u :=
  ⟨_, (h.2 crowd 0 true .f16 .f16 0 0 0 0 (.v 16) (.v 4) (.v 8) (.v 24) (by decide)).2.2 (by decide) (by decide) (by decide) (by decide)⟩

/-- An entry at the head of pair 0's queue, for the bank of the context. -/
def entry (k : MKind) (started : Bool) : MEntry :=
  { thread := 1, crew := 1, launch := 1, ctx := 0, bank := 3, kind := k, result := none, started := started, seq := 4 }

def mmaOf : MKind := .mma true false .f16 .f16 2 1 0 0 0 0 0 [] [] 0 0

def queued (e : MEntry) : State := st.modPair 0 fun p => { p with queue := [e], ramp := [.hot, .hot] }

theorem witness_MatrixQueue (h : Obligations.MatrixQueue) :
    (∃ u, exec (.matrixQueueEntry 0) (queued (entry mmaOf false)) = .next u) ∧
    (∃ u, exec (.matrixQueueEntry 0) (queued (entry mmaOf true)) = .next u) ∧
    (∃ u, exec (.mmaStep 0) (queued (entry mmaOf true)) = .next u) ∧
    (∃ u, exec (.matrixQueueEntry 0) (queued (entry (.mloadb 64 0 16) false)) = .next u) ∧
    (let s := { queued (entry (.mloadb 64 0 16) false) with absent := [locScratch 0 0 / 128] }
     exec (.matrixQueueEntry 0) s = .next s) ∧
    (∃ u, exec (.matrixQueueEntry 0) (queued (entry (.mst .f32 .rne .sat 2 0 0 0 0 0) false)) = .next u) ∧
    ∃ u, exec (.matrixQueueEntry 0) (queued (entry (.mzero 0x81) false)) = .next u := by
  refine ⟨⟨_, And.left (And.left ((h (queued (entry mmaOf false)) 0 0).1 _ rfl) _ _ _ _ _ _ _ _ _ _ _ _ _ _ _ rfl) rfl⟩,
    ⟨_, And.left (And.right (And.left ((h (queued (entry mmaOf true)) 0 0).1 _ rfl) _ _ _ _ _ _ _ _ _ _ _ _ _ _ _ rfl)) rfl⟩, ?_,
    ⟨_, And.left (And.left (And.right ((h (queued (entry (.mloadb 64 0 16) false)) 0 0).1 _ rfl)) _ _ _ rfl) (by decide)⟩,
    And.right (And.left (And.right ((h { queued (entry (.mloadb 64 0 16) false) with absent := [locScratch 0 0 / 128] } 0 0).1 _ rfl)) _ _ _ rfl)
      (by decide),
    ⟨_, And.left (And.right (And.right ((h (queued (entry (.mst .f32 .rne .sat 2 0 0 0 0 0) false)) 0 0).1 _ rfl)))
      _ .f32 _ _ _ _ _ _ _ _ rfl rfl (by decide)⟩,
    ⟨_, And.left (And.right (And.right (And.right ((h (queued (entry (.mzero 0x81) false)) 0 0).1 _ rfl)))) _ rfl⟩⟩
  have nothing : ∀ l : List Nat, ∀ ln ∈ l, ln ∉ (queued (entry mmaOf true)).absent := by
    have e : (queued (entry mmaOf true)).absent = [] := by decide
    simp [e]
  have e : ((queued (entry mmaOf true)).decodeChunk 0 2 128 0).isSome = true := by decide
  obtain ⟨⟨cols, next⟩, e⟩ := Option.isSome_iff_exists.mp e
  exact ⟨_, And.left (And.right (And.right (And.right (And.left ((h (queued (entry mmaOf true)) 0 0).1 _ rfl)
    _ _ _ _ _ _ _ _ _ _ _ _ _ _ _ rfl)) rfl (by decide) (by decide) (.inr (nothing _))) cols next e)⟩

/-- A ramp-up at its end and one before it, and idle arrays whose hold has passed. -/
theorem witness_MatrixQueue_current (h : Obligations.MatrixQueue) :
    (∃ u, exec (.rampFillersDone 1) (st.modPair 0 fun p => { p with ramp := [.cold, .up 0] }) = .next u) ∧
    (∃ u, exec (.rampFillersDone 1) (st.modPair 0 fun p => { p with ramp := [.cold, .up 1] }) = .next u) ∧
    (∃ u, exec (.rampFillersDone 1) { st.modPair 0 (fun p => { p with ramp := [.cold, .down 0] }) with cycle := 4096 } = .next u) ∧
    ∃ u, exec (.burstHoldExpiry 1) (st.modPair 0 fun p => { p with ramp := [.cold, .hot] }) = .next u :=
  ⟨let ⟨u, e, _⟩ := ((h (st.modPair 0 fun p => { p with ramp := [.cold, .up 0] }) 0 1).2.1 0 (by decide) (by decide)).1 (by decide)
   ⟨u, e⟩,
   ⟨_, ((h (st.modPair 0 fun p => { p with ramp := [.cold, .up 1] }) 0 1).2.1 1 (by decide) (by decide)).2 (by decide)⟩,
   ⟨_, (h { st.modPair 0 (fun p => { p with ramp := [.cold, .down 0] }) with cycle := 4096 } 0 1).2.2.1 0 (by decide) (by decide)⟩,
   ⟨_, (h (st.modPair 0 fun p => { p with ramp := [.cold, .hot] }) 0 1).2.2.2 (by decide) (by decide) (by decide) (by decide)⟩⟩

/-- A trap with a handler, and the thread in that handler. -/
def trapping : State := (regs st [(2, 0x10000), (4, 0x104), (5, 7)]).modCrew 1 fun c => { c with handler := 0x10000 }

def handling : State := trapping.modThr 1 fun x => { x with inHandler := true, epc := 0x10020 }

/-- The first and the last software cause; a return to EPC and one past it; the system registers; the mailbox. -/
theorem witness_SystemWords (h : Obligations.SystemWords) :
    (∃ u, exec (.trap 0x40) trapping = .next u) ∧ (∃ u, exec (.trap 0x7F) trapping = .next u) ∧ (∃ u, exec (.brk 0xFFFF) trapping = .next u) ∧
    (∃ u, exec .tretSkip handling = .next u) ∧ (∃ u, exec .tretReplay handling = .next u) ∧
    (∃ u, exec (.getsr 0x0F (.v 8)) st = .next u) ∧ (∃ u, exec (.setsr 0 (.v 2)) trapping = .next u) ∧
    (∃ u, exec (.setsr 1 (.v 2)) handling = .next u) ∧ (∃ u, exec (.setsr 0x0D (.v 5)) trapping = .next u) ∧
    (∃ u, exec (.dbgmbGet (.v 8) (.v 4)) trapping = .next u) ∧ ∃ u, exec (.dbgmbPut true (.v 4) (.v 5)) trapping = .next u :=
  ⟨⟨_, (h trapping 0x40 0xFFFF 0 false false (.v 8) (.v 2) (.v 5) (by decide)).1⟩,
   ⟨_, (h trapping 0x7F 0xFFFF 0 false false (.v 8) (.v 2) (.v 5) (by decide)).1⟩,
   ⟨_, (h trapping 0x7F 0xFFFF 0 false false (.v 8) (.v 2) (.v 5) (by decide)).2.1⟩,
   ran (h handling 0 0 0 false true (.v 8) (.v 2) (.v 5) (by decide)).2.2.1 (by decide),
   ran (h handling 0 0 0 false false (.v 8) (.v 2) (.v 5) (by decide)).2.2.1 (by decide),
   ran (h st 0 0 0x0F false false (.v 8) (.v 2) (.v 5) (by decide)).2.2.2.1 (by decide),
   ran (h trapping 0 0 0 false false (.v 8) (.v 2) (.v 5) (by decide)).2.2.2.2.1 (by decide),
   ran (h handling 0 0 1 false false (.v 8) (.v 2) (.v 5) (by decide)).2.2.2.2.1 (by decide),
   ran (h trapping 0 0 0 false false (.v 8) (.v 5) (.v 5) (by decide)).2.2.2.2.2.1 (by decide),
   ran (h trapping 0 0 0 false false (.v 8) (.v 4) (.v 5) (by decide)).2.2.2.2.2.2.1 (by decide),
   ran (h trapping 0 0 0 true false (.v 8) (.v 4) (.v 5) (by decide)).2.2.2.2.2.2.2 (by decide)⟩

/-- A sub-gang that waits for its handler. -/
def parked : State := trapping.setPark 1 .trapped

theorem witness_FaultsAndHandlers (h : Obligations.FaultsAndHandlers) :
    ((trapping.takeFault 1 0xFF 0 [(1, .arith, 0)]).thr 1).park = some .trapped ∧
    st.takeFault 1 0xFF 0 [(1, .arith, 0)] = st.abortLot 1 0x01 0x20 0 false ∧
    handling.takeFault 1 0xFF 0 [(1, .align, 8), (1, .arith, 0)] = handling.abortLot 1 0x01 0x12 0 false ∧
    (∃ u, exec (.handlerEntry 1) (st.setPark 1 .trapped) = .next u) ∧ ∃ u, exec (.handlerEntry 1) parked = .next u :=
  ⟨((h trapping 1 1 1 1 .arith 0 [] (by decide) (by decide) (by decide)).1 (by decide) (by decide)).1 _ (.head _) rfl |>.2.1,
   (h st 1 1 1 1 .arith 0 [] (by decide) (by decide) (by decide)).2.1 (.inr (by decide)),
   (h handling 1 1 1 1 .align 8 [(1, .arith, 0)] (by decide) (by decide) (by decide)).2.1 (.inl ⟨_, .head _, by decide⟩),
   ⟨_, ((h (st.setPark 1 .trapped) 1 1 1 1 .arith 0 [] (by decide) (by decide) (by decide)).2.2 1 [] (by decide) (by decide) (by decide)
     (by decide) (by decide)).1 (by decide)⟩,
   let ⟨u, e, _⟩ := ((h parked 1 1 1 1 .arith 0 [] (by decide) (by decide) (by decide)).2.2 1 [] (by decide) (by decide) (by decide) (by decide)
     (by decide)).2 (by decide) (by decide) ⟨_, _, _, _, _, rfl⟩
   ⟨u, e⟩⟩

/-- The machine about to issue a word of rate K, in an element of it with three vertices. -/
def stK : State :=
  let s := State.reset.placeWord (5 * 2 ^ 119) 0
  let leaf := fun (p tag : Nat) => (128, 0, p, 16, BitVec.ofNat 64 (p * 65536 + 4 * tag + 35))
  { s with iss := { s.iss with gang := 1, addr := 0x10000, len := 1, lanes := [1], faults := [] }, agenda := [],
           tlb := s.tlb ++ [leaf 2 0, leaf 4 2] }.modElem 1 fun e => { e with verts := [1, 1, 1], qs := [0x3F800000, 0x3F800000, 0x3F800000] }

theorem witness_ElementWords (h : Obligations.ElementWords) :
    (∃ u, exec .kill stK = .next u) ∧ (∃ u, exec .hrel (stK.modElem 1 fun e => { e with frozen := true }) = .next u) ∧
    (∃ u, exec (.bary false 2 (.v 1)) stK = .next u) ∧ ∃ u, exec (.deriv true false (.v 1) (.v 2)) (regs stK [(2, 5)]) = .next u :=
  ⟨ran (h stK false false false 0 (.v 1) (.v 2) (fun _ => 0) (by decide)).1 (by decide),
   ran (h (stK.modElem 1 fun e => { e with frozen := true }) false false false 0 (.v 1) (.v 2) (fun _ => 0) (by decide)).2.1 (by decide),
   ⟨_, (h stK false false false 2 (.v 1) (.v 2) (fun _ => 0) (by decide)).2.2.1 (by unfold State.Writes; decide)
     (by
       intro t ht
       have e : stK.iss.lanes = [1] := by decide
       rw [e, List.mem_singleton] at ht
       subst ht
       exact ⟨1, _, rfl, by decide⟩)⟩,
   ⟨_, (h (regs stK [(2, 5)]) false true false 0 (.v 1) (.v 2) (fun _ => 5) (by decide)).2.2.2 (by unfold State.Reads; decide) (by decide)⟩⟩

/-- A draw whose cluster 0 holds two patches. -/
def patches : DrawRec :=
  { stall := 0, share := 0x100000, reserves := [], objects := [], clusters := [(false, 0, 0, 2, 0)], indices := [], nobj := 0, objTab := 0, clTab := 0 }

/-- The machine in an element of rate C of that draw, in a program without rate V. -/
def stC : State :=
  let s := State.reset.placeWord (3 * 2 ^ 119) 0
  let s := s.modLaunch 1 fun l => { l with lrec := { l.lrec with entry := 0x10000 }, ext := { l.ext with draw := some patches }, draw := some (s.drawOf 1) }
  { s with iss := { s.iss with gang := 1, addr := 0x10000, len := 1, lanes := [1], faults := [] }, agenda := [],
           images := s.images.map fun i => { i with rates := List.replicate 4 true ++ List.replicate 4 false } }

/-- The smallest and the largest grid of the last patch. -/
theorem witness_EmitAndDice (h : Obligations.EmitAndDice) :
    (∃ u, exec (.emit false .f32 (.v 4) .none) stK = .next u) ∧ (∃ u, exec (.emit true .f32 (.v 4) (.v 1)) stK = .next u) ∧
    (∃ u, exec (.dice (.v 1) (.v 2) (.v 3)) (regs stC [(2, 0x0101), (3, 1)]) = .next u) ∧
    ∃ u, exec (.dice (.v 1) (.v 2) (.v 3)) (regs stC [(2, 0x4040), (3, 1)]) = .next u :=
  ⟨ran (h.1 stK false .f32 (.v 1) (.v 4) .none (by decide)).1 (by decide),
   ran (h.1 stK true .f32 (.v 1) (.v 4) (.v 1) (by decide)).1 (by decide),
   ran (h.1 (regs stC [(2, 0x0101), (3, 1)]) true .f32 (.v 1) (.v 2) (.v 3) (by decide)).2 (by decide),
   ran (h.1 (regs stC [(2, 0x4040), (3, 1)]) true .f32 (.v 1) (.v 2) (.v 3) (by decide)).2 (by decide)⟩

/-- What EMIT does at each rate: the element is of rate K, and of the other rates after a change. -/
theorem witness_EmitAndDice_rates :
    (stK.elemAt 1).rate = .K ∧ stK.muted (stK.elemAt 1) = false ∧ stK.muted { stK.elemAt 1 with killed := true } = true ∧
    (stC.elemAt 1).rate = .C ∧ ({ stK.elemAt 1 with rate := .Y, anc := [(.K, 1)] } : Elem).ancestor .S = none ∧
    ({ stK.elemAt 1 with rate := .Y, anc := [(.K, 1)] } : Elem).ancestor .K = some 1 ∧
    ({ stK.elemAt 1 with rate := .Y, anc := [(.S, 1)] } : Elem).ancestor .S = some 1 := by decide

/-- The machine in an element of rate C with an entry address in v4. -/
def stY : State := regs stC [(4, 0x10000)]

/-- The ray that its lane asks for. -/
def rayAsk (granted failed : Bool) : Creation :=
  { launch := 1, rate := .Y, protos := [stY.rayProto 1 1 false], regs := [], crew := 1, attempted := true, since := stY.now, turn := 0,
    fromRecord := false, cause := some 1, granted := granted, failed := failed }

/-- An older ray that still waits for its bytes. -/
def outranked : State := { stY with creations := [(9, { rayAsk false false with cause := some 7, turn := 1 })] }

/-- A ray that fits, one that comes after an older one, one whose storage has been granted, and one whose stall has ended in a
fault. -/
theorem witness_SpawnsAndBins_ray (h : Obligations.SpawnsAndBins) :
    (∃ u, exec (.spawn false (.v 4) (.v 8)) stY = .next u) ∧ (∃ u, exec (.spawn false (.v 4) (.v 8)) outranked = .next u) ∧
    (∃ u, exec (.spawn false (.v 4) (.v 8)) { stY with creations := [(9, rayAsk true false)] } = .next u) ∧
    ∃ u, exec (.spawn false (.v 4) (.v 8)) { stY with creations := [(9, rayAsk false true)] } = .next u := by
  have at_ := fun s (f : s.iss.faults = []) => (h s false (.v 4) (.v 4) (.v 8) f).2.1 1 1
  refine ⟨⟨_, And.left (at_ stY (by decide) _ _ _ rfl rfl rfl (by decide) (by decide) (Option.some_get (by decide)).symm) (by decide) (by decide)⟩,
    ⟨_, And.left (And.right (at_ outranked (by decide) _ _ _ rfl rfl rfl (by decide) (by decide) (Option.some_get (by decide)).symm)) (by decide)
      (by decide)⟩,
    ⟨_, And.left (And.right (And.right (at_ { stY with creations := [(9, rayAsk true false)] } (by decide) _ _ _ rfl rfl rfl (by decide)
      (by decide) (Option.some_get (by decide)).symm))) 9 (rayAsk true false) rfl (by decide) (by decide)⟩,
    ⟨_, And.left (And.right (And.right (And.right (at_ { stY with creations := [(9, rayAsk false true)] } (by decide) _ _ _ rfl rfl rfl
      (by decide) (by decide) (Option.some_get (by decide)).symm)))) 9 (rayAsk false true) rfl (by decide)⟩⟩

/-- A texture of 4 by 4 RGBA8 texels at 0x20000 in the page of K, with its descriptor's address in the pair v8, and coordinates. -/
def sT : State :=
  let s := regs stK [(2, 0x3F000000), (3, 0x3F000000), (8, 0x40000)]
  { s with mem := s.mem.writeN 0x40000 (bytesOf 32 (0x20000 + 3 * 2 ^ 64 + 3 * 2 ^ 80)) }

theorem witness_TextureWords (h : Obligations.TextureWords) :
    (∃ u, exec (.tex 0 0 (.v 16) (.v 2) (.v 8)) sT = .next u) ∧ (∃ u, exec (.texl 0 7 (.v 16) (.v 2) (.v 8) (.v 10)) sT = .next u) ∧
    (∃ u, exec (.texg 3 0 7 (.v 16) (.v 2) (.v 8) (.v 10)) sT = .next u) ∧ ∃ u, exec (.texq (.v 16) (.v 8) (.v 10)) sT = .next u :=
  ⟨ran (h sT 0 3 0 (.v 16) (.v 2) (.v 8) (.v 10) (by decide)).1 (by decide),
   ran (h sT 0 3 7 (.v 16) (.v 2) (.v 8) (.v 10) (by decide)).2.1 (by decide),
   ran (h sT 0 3 7 (.v 16) (.v 2) (.v 8) (.v 10) (by decide)).2.2.1 (by decide),
   ran (h sT 0 3 7 (.v 16) (.v 2) (.v 8) (.v 10) (by decide)).2.2.2 (by decide)⟩

/-- A node of the page of K with a malformed reference, at the address in the pair v16, and the ray in v8 to v15. -/
def sR (tmin tmax : Word) : State :=
  let s := regs st [(11, tmin), (12, 0x3F800000), (15, tmax), (16, 0x40000), (18, 0x40000)]
  { s with mem := s.mem.writeN 0x40030 (bytesOf 16 4) }

/-- An entry of the inference queue for a model of one layer from one value to one. -/
def ask1 (fmt : Byte) : IEntry :=
  { thread := 1, launch := 1, ctx := 0, die := 0, desc := 0x40000,
    dbytes := [1, fmt, 1, 0, 0, 0, 0, 0, 5, 0, 0, 1, 0] ++ List.replicate 51 0, inputs := [0x3F800000], nout := 1, result := 2,
    flush := false, seq := 4, serve := none }

/-- The tile of the layer, aboard the carousel. -/
def tile5 : Tile := { ctx := 0, name := 5, version := 1, bytes := [] }

/-- Its layer 0, which waits for its tile since cycle 0. -/
def serve0 : Serve := { layer := 0, since := 0, x := [0x3F800000] }

/-- A ray with an empty interval, one that meets the malformed node, an inference asked for, its service, that of one whose
descriptor is not valid, the end of one whose tile has not come, a die with none, and the last layer of one whose tile passes. -/
theorem witness_RaysAndInference (h : Obligations.RaysAndInference) :
    (∃ u, exec (.trace 0 0xFF (.v 24) (.v 8) (.v 16)) (sR 1 0) = .next u) ∧
    (∃ u, exec (.trace 2 0xFF (.v 24) (.v 8) (.v 16)) (sR 0 0x3F800000) = .next u) ∧
    (∃ u, exec (.infer 31 15 (.v 40) (.v 20) (.v 18)) (sR 0 0) = .next u) ∧
    (∃ u, exec (.inferBatchService 0) { st with infers := [(4, ask1 0x10)] } = .next u) ∧
    (∃ u, exec (.inferBatchService 0) { st with infers := [(4, ask1 0x12)] } = .next u) ∧
    (∃ u, exec (.inferBatchService 0) { st with infers := [(4, { ask1 0x10 with serve := some serve0 })], cycle := 16385 } = .next u) ∧
    exec (.inferBatchService 0) st = .next st ∧
    ∃ u, st.inferCatch tile5 { ask1 0x10 with serve := some serve0 } = u := by
  refine ⟨ran (h.1 (sR 1 0) 0 0xFF 0 0 (.v 24) (.v 8) (.v 16) (by decide)).1 (by decide),
    ran (h.1 (sR 0 0x3F800000) 2 0xFF 0 0 (.v 24) (.v 8) (.v 16) (by decide)).1 (by decide),
    ran (h.1 (sR 0 0) 0 0 31 15 (.v 40) (.v 20) (.v 18) (by decide)).2 (by decide),
    ⟨_, And.left (And.right (And.right (h.2 { st with infers := [(4, ask1 0x10)] } 0))) (ask1 0x10) [] rfl rfl⟩,
    ⟨_, And.left (And.right (And.right (h.2 { st with infers := [(4, ask1 0x12)] } 0))) (ask1 0x12) [] rfl rfl⟩,
    ⟨_, And.left (h.2 { st with infers := [(4, { ask1 0x10 with serve := some serve0 })], cycle := 16385 } 0) (by decide)⟩,
    And.left (And.right (h.2 st 0)) (by decide) (by decide),
    ⟨_, And.right (And.right (And.right (h.2 st 0))) tile5
      { ask1 0x10 with serve := some serve0 } .f16 serve0 (by decide) rfl⟩⟩

/-- Registers for engine words: v2 and v3 hold 128 and 16,512, v4 a name, the pairs v6 and v8 addresses of G and D, v10 a
length of 32, v12 to v15 zeros. -/
def sE : State := regs st [(2, 128), (3, 16512), (4, 5), (6, 0x20000), (8, 0x30000), (10, 32)]

/-- The machine with the tile of that name aboard. -/
def aboard : State := { sE with slots := [(0, tile5)] }

def cquota (n : Word) (s : State) : State := { s with ctxs := SMap.modify s.ctxs 0 fun c => { c with cquota := n } }

/-- A boarding, one of a name aboard and one past the quota; the other words with the tile aboard; the greatest name. -/
theorem witness_CarouselOperations (h : Obligations.CarouselOperations) :
    (∃ u, exec (.cboard eng0 .G (.v 1) (.v 6) (.v 4)) (cquota 4 sE) = .next u) ∧
    (∃ u, exec (.cboard eng0 .S (.v 1) (.v 2) (.v 4)) (cquota 4 aboard) = .next u) ∧
    (∃ u, exec (.cboard eng0 .S (.v 1) (.v 2) (.v 4)) (cquota 0 sE) = .next u) ∧
    (∃ u, exec (.ccatch eng0 (.v 1) (.v 2) (.v 4)) aboard = .next u) ∧
    (∃ u, exec (.creplace eng0 true (.v 1) (.v 2) (.v 4) (.v 3)) aboard = .next u) ∧
    (∃ u, exec (.calight eng0 true (.v 1) (.v 2) (.v 4)) aboard = .next u) ∧ (∃ u, exec (.cquery (.v 16) (.v 4)) aboard = .next u) ∧
    ∃ u, exec (.cquery (.v 16) (.v 4)) (regs aboard [(4, 0xFFFFFF)]) = .next u :=
  ⟨ran (h.1 (cquota 4 sE) eng0 .G true true (.v 1) (.v 6) (.v 4) (.v 3) (fun _ => 5) (by decide)).1 (by decide),
   ran (h.1 (cquota 4 aboard) eng0 .S true true (.v 1) (.v 2) (.v 4) (.v 3) (fun _ => 5) (by decide)).1 (by decide),
   ran (h.1 (cquota 0 sE) eng0 .S true true (.v 1) (.v 2) (.v 4) (.v 3) (fun _ => 5) (by decide)).1 (by decide),
   ran (h.1 aboard eng0 .S true true (.v 1) (.v 2) (.v 4) (.v 3) (fun _ => 5) (by decide)).2.1 (by decide),
   ran (h.1 aboard eng0 .S true true (.v 1) (.v 2) (.v 4) (.v 3) (fun _ => 5) (by decide)).2.2.1 (by decide),
   ran (h.1 aboard eng0 .S true true (.v 1) (.v 2) (.v 4) (.v 3) (fun _ => 5) (by decide)).2.2.2.1 (by decide),
   ⟨_, (h.1 aboard eng0 .S true true (.v 16) (.v 2) (.v 4) (.v 3) (fun _ => 5) (by decide)).2.2.2.2 (by unfold State.Reads; decide) (by decide)⟩,
   ⟨_, (h.1 (regs aboard [(4, 0xFFFFFF)]) eng0 .S true true (.v 16) (.v 2) (.v 4) (.v 3) (fun _ => 0xFFFFFF) (by decide)).2.2.2.2
     (by unfold State.Reads; decide) (by decide)⟩⟩

/-- An engine operation of the thread. -/
def eop (k : EKind) (left : List Nat) (out : Option (Nat × Nat)) : EOp :=
  { thread := 1, crew := 1, launch := 1, ctx := 0, core := 0, kind := k, result := none, word := none, chute := none, seq := 7,
    undelivered := left, staged := [], outcome := out, committedAt := none, applied := false, resv := 0, touched := [],
    reach := 0, serving := true }

/-- The machine when a slot has come to a station. -/
def riding (q die : Nat) (s : State) : State := { s with cycle := 4 * q, rides := 4 * q + die }

/-- Slots at a station: not the next one; the last slot, empty with a boarding; slot 0 at station 3, empty without one; a tile with
an error and a good one at station 0. -/
theorem witness_CarouselOperations_slots (h : Obligations.CarouselOperations) :
    exec (.carouselPassage 1 ⟨0, false⟩) aboard = .next aboard ∧
    (∃ u, exec (.carouselPassage 0 ⟨4095, false⟩) (riding 4095 0 { sE with eops := [(7, eop (.cboard .S 128 5) [] none)] }) = .next u) ∧
    (∃ u, exec (.carouselPassage 3 ⟨0, true⟩) (riding 3072 3 sE) = .next u) ∧ (∃ u, exec (.carouselPassage 0 ⟨0, true⟩) aboard = .next u) ∧
    (∃ u, exec (.carouselPassage 0 ⟨0, false⟩) aboard = .next u) ∧ (riding 7168 3 sE).nextPassage = some (3, 0) ∧
    (let s := { aboard with eops := [(7, eop (.creplace 128 none 5) [] none)], slots := [(0, { tile5 with version := 0xFFFF })] }
     s.applyReplace 0 7 = s.endEop 7 0x04 0) ∧
    (let s := { aboard with eops := [(7, eop (.calight none 5) [] none)] }
     s.applyAlight 0 tile5 7 = State.endEop { s with slots := SMap.del s.slots 0 } 7 0 1) :=
  ⟨(h.2 aboard 1 0).1 (by decide) false,
   ⟨_, And.left ((h.2 (riding 4095 0 { sE with eops := [(7, eop (.cboard .S 128 5) [] none)] }) 0 4095).2.1 (by decide)) 7 [] _ rfl (by decide) rfl
     false⟩,
   ⟨_, And.left (And.right ((h.2 (riding 3072 3 sE) 3 0).2.1 (by decide))) (by decide) (by decide) true⟩,
   ⟨_, (And.left (And.right (And.right ((h.2 aboard 0 0).2.1 (by decide)))) _ rfl).1⟩,
   ⟨_, And.right (And.right (And.right ((h.2 aboard 0 0).2.1 (by decide)))) _ rfl⟩,
   ((h.2 (riding 7168 3 sE) 3 0).2.2.1 7168 3 0 (by decide) (by decide) (by decide) (by decide) (by decide)).1,
   ((h.2 { aboard with eops := [(7, eop (.creplace 128 none 5) [] none)], slots := [(0, { tile5 with version := 0xFFFF })] } 0 0).2.2.2 7 _ _ rfl rfl).2.2.1 128 none 5 rfl rfl,
   ((h.2 { aboard with eops := [(7, eop (.calight none 5) [] none)] } 0 0).2.2.2 7 _ _ rfl rfl).1 5 rfl⟩

/-- The machine with a collective group that its device alone is in. -/
def grouped : State :=
  { sE with dev := { sE.dev with groups := [(0, { grp := 9, sizem1 := 0, en := true, ctx := 0, members := 1 })] } }

theorem witness_HoistWords (h : Obligations.HoistWords) :
    (∃ u, exec (.hcopy eng0 .S .G (.v 1) (.v 2) (.v 6) (.v 10)) sE = .next u) ∧
    (∃ u, exec (.hlayout eng0 .S .G .b32 1 1 0 4 8 (.v 1) (.v 12) (.v 6)) sE = .next u) ∧
    (∃ u, exec (.hgather eng0 .D 0 (.v 1) (.v 2) (.v 8) (.v 10)) sE = .next u) ∧
    (∃ u, exec (.hscatter eng0 .G 0 (.v 1) (.v 2) (.v 6) (.v 10)) sE = .next u) ∧
    (∃ u, exec (.hcoll .bcast eng0 .S .D .s32 9 0 0 (.v 1) (.v 2) (.v 8) (.v 10)) grouped = .next u) ∧
    ∃ u, exec (.dflip eng0 .G (.v 1) (.v 6) (.v 12) (.v 14)) sE = .next u :=
  ⟨ran (h sE eng0 .S .G .b32 0 0 0 0 0 0 0 0 0 .bcast (.v 1) (.v 2) (.v 6) (.v 10) (by decide)).1 (by decide),
   ran (h sE eng0 .S .G .b32 1 1 0 0 4 8 0 0 0 .bcast (.v 1) (.v 12) (.v 6) (.v 10) (by decide)).2.1 (by decide),
   ran (h sE eng0 .D .G .b32 0 0 0 0 0 0 0 0 0 .bcast (.v 1) (.v 2) (.v 8) (.v 10) (by decide)).2.2.1 (by decide),
   ran (h sE eng0 .D .G .b32 0 0 0 0 0 0 0 0 0 .bcast (.v 1) (.v 2) (.v 6) (.v 10) (by decide)).2.2.2.1 (by decide),
   ran (h grouped eng0 .S .D .s32 0 0 0 9 0 0 0 0 0 .bcast (.v 1) (.v 2) (.v 8) (.v 10) (by decide)).2.2.2.2.1 (by decide),
   ran (h sE eng0 .G .G .b32 0 0 0 0 0 0 0 0 0 .bcast (.v 1) (.v 6) (.v 12) (.v 14) (by decide)).2.2.2.2.2 (by decide)⟩

/-- Four hoists that the core serves, and a fifth. -/
def crowded : State :=
  let x := eop (.hcopy .S 0 .S 64 32) [0, 1] none
  { sE with eops := [(33, x), (34, x), (35, x), (36, x), (37, { x with serving := false })] }

/-- A unit to move within the scratchpad, one that is not there, one of a hoist that waits for its core, a caught line, an operation that ends and one that does not. -/
theorem witness_EngineOperations (h : Obligations.EngineOperations) :
    (∃ u, exec (.engineLineDelivery 7 1) { sE with eops := [(7, eop (.hcopy .S 0 .S 64 32) [0, 1] none)] } = .next u) ∧
    (∃ u, exec (.engineLineDelivery 7 2) { sE with eops := [(7, eop (.hcopy .S 0 .S 64 32) [0, 1] none)] } = .next u) ∧
    exec (.engineLineDelivery 37 0) crowded = .next crowded ∧
    (∃ u, exec (.engineLineDelivery 7 0) { sE with eops := [(7, eop (.hcopy .D 0x30000 .G 0x20000 32) [0, 1] none)] } = .next u) ∧
    (∃ u, exec (.engineLineDelivery 7 127) { sE with eops := [(7, eop (.ccatch 128 5) [127] (some (0, 1)))] } = .next u) ∧
    (∃ u, exec (.engineCompletion 7) { sE with eops := [(7, eop (.ccatch 128 5) [127] (some (0, 1)))] } = .next u) ∧
    (∃ u, exec (.engineCompletion 7) { sE with eops := [(7, eop (.ccatch 128 5) [] (some (0, 1)))] } = .next u) ∧
    ∃ u, exec (.engineCompletion 7) { sE with eops := [(7, { eop (.ccatch 128 5) [] (some (0, 1)) with word := some 0x30000 })] } = .next u :=
  ⟨let ⟨u, e, _⟩ := (h { sE with eops := [(7, eop (.hcopy .S 0 .S 64 32) [0, 1] none)] } 7 1 _ rfl).2.2.2.1 0 64 32 rfl (by decide) rfl
      (by decide) (by decide) (by decide) (by decide)
   ⟨u, e⟩,
   ⟨_, (h { sE with eops := [(7, eop (.hcopy .S 0 .S 64 32) [0, 1] none)] } 7 2 _ rfl).1 (by decide)⟩,
   (h crowded 37 0 _ rfl).2.1 rfl rfl (by decide),
   ⟨_, (h { sE with eops := [(7, eop (.hcopy .D 0x30000 .G 0x20000 32) [0, 1] none)] } 7 0 _ rfl).2.2.1 .D 0x30000 .G 0x20000 32 _ _ _ _ _ rfl
     (by decide) rfl rfl rfl⟩,
   ⟨_, (h { sE with eops := [(7, eop (.ccatch 128 5) [127] (some (0, 1)))] } 7 127 _ rfl).2.2.2.2.1 128 5 (.inl rfl) (by decide) (by decide)⟩,
   ⟨_, (h { sE with eops := [(7, eop (.ccatch 128 5) [127] (some (0, 1)))] } 7 0 _ rfl).2.2.2.2.2.1 (.inr (by decide))⟩,
   ⟨_, And.left ((h { sE with eops := [(7, eop (.ccatch 128 5) [] (some (0, 1)))] } 7 0 _ rfl).2.2.2.2.2.2 0 1 rfl rfl) rfl⟩,
   ⟨_, And.left (And.right ((h { sE with eops := [(7, { eop (.ccatch 128 5) [] (some (0, 1)) with word := some 0x30000 })] } 7 0 _ rfl).2.2.2.2.2.2
     0 1 rfl rfl) 0x30000 rfl) _ rfl⟩⟩

theorem witness_LotWords (h : Obligations.LotWords) :
    (∃ u, exec (.labort 0xFF) st = .next u) ∧ ((st.abortLot 1 5 0 0 false).launchAt 1).status = .aborted 5 0 0 ∧
    ((st.abortLot 1 5 0 0 false).thr 1).live = false ∧ ∃ u, exec (.lotq (.v 8) (.v 2)) (regs st [(2, 1)]) = .next u :=
  ⟨⟨_, (h st 0xFF (.v 8) (.v 2) (fun _ => 0)).1 1 [] (by decide)⟩,
   congrArg Launch.status ((h st 0 (.v 8) (.v 2) (fun _ => 0)).2.1 1 0 5 (by decide) (by decide)),
   (h st 0 (.v 8) (.v 2) (fun _ => 0)).2.2.1 1 0 5 (by decide) 1 (by decide) (by decide) (by decide),
   ⟨_, (h (regs st [(2, 1)]) 0 (.v 8) (.v 2) (fun _ => 1)).2.2.2 (by decide) (by unfold State.Reads; decide)⟩⟩

/-- Queue 0 of the context: 16 records at 0x30000, and 16 entries at 0x30800. -/
def queue0 (en : Bool) : Queue := { Queue.reset with en := en, sublog := 4, cpllog := 4, sub := 0x30000, cpl := 0x30800 }

/-- The machine with that queue, its doorbell at `door`, and an address of D in the pair v6. -/
def sQ (en : Bool) (door : Word) : State := { sM with queues := [(0, { queue0 en with door := door })] }

/-- A launch from the device, deferred, and into a full ring. -/
theorem witness_LaunchAndQueues (h : Obligations.LaunchAndQueues) :
    (∃ u, exec (.launch false (.v 16) (.v 6) 0) (sQ true 0) = .next u) ∧ (∃ u, exec (.launch true (.v 16) (.v 6) 0) (sQ true 0) = .next u) ∧
    ∃ u, exec (.launch false (.v 16) (.v 6) 0) (sQ true 16) = .next u :=
  ⟨ran (h.1 (sQ true 0) false (.v 16) (.v 6) 0 (by decide)) (by decide), ran (h.1 (sQ true 0) true (.v 16) (.v 6) 0 (by decide)) (by decide),
   ran (h.1 (sQ true 16) false (.v 16) (.v 6) 0 (by decide)) (by decide)⟩

/-- A record of a launch of one crew of 32 threads with 8 registers, at the head of the ring. -/
def withRecord (s : State) : State :=
  let b := 0x10000 + (1 + 2 ^ 18) * 2 ^ 64 + 32 * 2 ^ 96 + (2 ^ 192 - 1) * 2 ^ 192
  { s with mem := s.mem.writeN 0x30000 (bytesOf 64 b) }

/-- A deferred record at the head of the ring, whose lot is in a state. -/
def behindLot (status : LotStatus) : State :=
  { sM with queues := [(0, { queue0 true with door := 1, deferred := [(0, 1)] })] }.modLaunch 1 fun l =>
    { l with status := status, deferred := [.launch 0 0] }

/-- A queue number past the last; the doorbell of the last queue; QCFG while enabled, on and off, and while disabled, good and
bad; QCHEAD; a record that is not valid and one that is, a deferred one whose lot runs, one whose lot is about to perform it and one whose lot has ended, and a queue with nothing to take. -/
theorem witness_LaunchAndQueues_host (h : Obligations.LaunchAndQueues) :
    exec (.qdoor 1024 1) st = .next st ∧ (∃ u, exec (.qdoor 1023 1) st = .next u) ∧ exec (.qcfgWrite 0 0x80000000) (sQ true 0) = .next (sQ true 0) ∧
    (∃ u, exec (.qcfgWrite 0 0) (sQ true 0) = .next u) ∧ (∃ u, exec (.qcfgWrite 0 0x80044000) (sQ false 0) = .next u) ∧
    (∃ u, exec (.qcfgWrite 0 0x80034000) (sQ false 0) = .next u) ∧ (∃ u, exec (.qchead 0 1) (sQ true 0) = .next u) ∧
    (∃ u, exec (.recordTake 0) (sQ true 1) = .next u) ∧ (∃ u, exec (.recordTake 0) (withRecord (sQ true 1)) = .next u) ∧ exec (.recordTake 0) (sQ true 0) = .next (sQ true 0) ∧
    (∃ u, exec (.recordTake 0) { sM with queues := [(0, { queue0 true with door := 1, deferred := [(0, 1)] })] } = .next u) ∧
    (∃ u, exec (.recordTake 0) (behindLot .committed) = .next u) ∧ ∃ u, exec (.recordTake 0) (behindLot (.aborted 4 0 0)) = .next u := by
  refine ⟨((h.2 st 1024 1).1 (by decide)).1, ⟨_, (h.2 st 1023 1).2.1 (by decide)⟩, (h.2 (sQ true 0) 0 0x80000000).2.2.1 (by decide) (by decide) (by decide),
    ⟨_, (h.2 (sQ true 0) 0 0).2.2.2.1 (by decide) (by decide) (by decide)⟩,
    ⟨_, ((h.2 (sQ false 0) 0 0x80044000).2.2.2.2.1 (by decide) (by decide)).2 (by decide) (by decide) (by decide)⟩,
    ⟨_, ((h.2 (sQ false 0) 0 0x80034000).2.2.2.2.1 (by decide) (by decide)).1 (.inr (by decide))⟩,
    ⟨_, (h.2 (sQ true 0) 0 1).2.2.2.2.2.1 (by decide) (by decide)⟩, ?_, ?_, (h.2 (sQ true 0) 0 0).2.2.2.2.2.2.1 (.inr (.inl (by decide))),
    ⟨_, (((h.2 { sM with queues := [(0, { queue0 true with door := 1, deferred := [(0, 1)] })] } 0 0).2.2.2.2.2.2.2 (by decide) (by decide)
      (by decide) (by decide)).1 1 (by decide)).1 (by decide)⟩,
    ⟨_, (((h.2 (behindLot .committed) 0 0).2.2.2.2.2.2.2 (by decide) (by decide) (by decide) (by decide)).1 1 (by decide)).2.1 (by decide)
      (by decide)⟩,
    ⟨_, (((h.2 (behindLot (.aborted 4 0 0)) 0 0).2.2.2.2.2.2.2 (by decide) (by decide) (by decide) (by decide)).1 1 (by decide)).2.2 4 0 0 (by decide)⟩⟩
  · exact ⟨_, (((h.2 (sQ true 1) 0 0).2.2.2.2.2.2.2 (by decide) (by decide) (by decide) (by decide)).2 (by decide)).2.1 _ rfl⟩
  · exact ⟨_, (((h.2 (withRecord (sQ true 1)) 0 0).2.2.2.2.2.2.2 (by decide) (by decide) (by decide) (by decide)).2 (by decide)).2.2 _ _ rfl
      (by decide)⟩

/-- Launch 1 waits to be admitted to slot 0, with a quota that fits and one that does not. -/
def waits (quota : Nat) : State :=
  { st with waiting := [1], queues := [(0, queue0 true)] }.modLaunch 1 fun l =>
    { l with status := .pending, slot := 5, lrec := { l.lrec with quota := quota } }

/-- A crew of a launch that runs, with nobody placed yet, in a context with room for saves. -/
def unplaced : State :=
  (st.modCtx 0 fun c => { c with saveSize := 0x1000000 }).modCrew 1 fun c => { c with status := .waiting }

/-- The draw block of a record with nothing in it. -/
def blank : DrawRec :=
  { stall := 0, share := 0, reserves := [], objects := [], clusters := [], indices := [], nobj := 0, objTab := 0, clTab := 0 }

/-- The replay of such a draw whose descriptor address is not aligned. -/
def redrawn : State :=
  unplaced.modLaunch 1 fun l => { l with ext := { l.ext with rdesc := none, consts := List.replicate 32 1, draw := some blank } }

/-- A queue whose fallback is wanted since a deadline at tick 0. -/
def wanting : State :=
  let s : State := { st with rtime := 8192, queues := [(0, { queue0 true with fallWant := [(0, 3)], fallRec := some (LRec.zero, (st.launchAt 1).ext) })] }
  s

theorem witness_LaunchesAndCrews (h : Obligations.LaunchesAndCrews) :
    (∃ u, exec (.launchAdmission 1) (waits 1) = .next u) ∧ (∃ u, exec (.launchAdmission 1) (waits 0xFFFFFFFF) = .next u) ∧
    (∃ u, exec (.fallbackAdmission 0) wanting = .next u) ∧ exec (.fallbackAdmission 0) st = .next st ∧
    (∃ u, exec (.crewPlacement 1) unplaced = .next u) ∧ (∃ u, exec (.crewPlacement 1) redrawn = .next u) ∧
    exec (.crewPlacement 1) st = .next st :=
  ⟨let ⟨u, e, _⟩ := (h.1.1 (waits 1) 1 0 (by decide) (by decide) (by decide)).2 (by decide) (by decide)
   ⟨u, e⟩,
   ⟨_, (h.1.1 (waits 0xFFFFFFFF) 1 0 (by decide) (by decide) (by decide)).1 (by decide)⟩,
   ⟨_, h.1.2.2.2.1 wanting 0 1 3 0 [] _ _ rfl rfl (by decide) (by decide) (by decide) (by decide)⟩,
   h.1.2.2.2.2.1 st 0 (.inl (by decide)),
   ⟨_, (h.1.2.2.2.2.2 unplaced 1).2.2.1 _ _ (by decide) (by decide) (by decide) rfl rfl⟩,
   ⟨_, (h.1.2.2.2.2.2 redrawn 1).2.2.2.2.2 0 (by decide) (by decide) (by decide) rfl⟩,
   (h.1.2.2.2.2.2 st 1).1 (.inl (by decide))⟩

/-- Beside the launch, another of a greater priority. -/
def pressed : State := { st with launches := st.launches ++ [(2, { st.launchAt 1 with prio := 7 })] }

/-- A crew that is being saved, one that is evicted, and the times of its wait. -/
theorem witness_LaunchesAndCrews_eviction (h : Obligations.LaunchesAndCrews) :
    (∃ u, exec (.evictionSaveComplete 1) (st.modCrew 1 fun c => { c with status := .saving, sSize := 16 }) = .next u) ∧
    exec (.evictionSaveComplete 1) st = .next st ∧ exec (.crewRestore 1) st = .next st ∧
    (∃ u, exec (.crewRestore 1) (st.modCrew 1 fun c => { c with status := .evicted }) = .next u) ∧
    exec (.restoreWaitTimeout 1) (st.modCrew 1 fun c => { c with status := .evicted, evictedAt := 1 }) =
      .next (st.modCrew 1 fun c => { c with status := .evicted, evictedAt := 1 }) ∧
    (∃ u, exec (.restoreWaitTimeout 1) { st.modCrew 1 fun c => { c with status := .evicted } with rtime := 2000 } = .next u) ∧
    (pressed.crewAt 1).status = .resident ∧ 1 ∈ pressed.victims 2 :=
  ⟨let ⟨u, e, _⟩ := (h.2 (st.modCrew 1 fun c => { c with status := .saving, sSize := 16 }) 1).1 (by decide) (by decide) (by decide) (by decide)
     (by decide) (by decide) (by decide)
   ⟨u, e⟩,
   (h.2 st 1).2.1 (by decide), (h.2 st 1).2.2.1 (.inl (by decide)),
   ⟨_, (h.2 (st.modCrew 1 fun c => { c with status := .evicted }) 1).2.2.2.1 (by decide) (by decide) (by decide) _ _ rfl rfl⟩,
   (h.2 (st.modCrew 1 fun c => { c with status := .evicted, evictedAt := 1 }) 1).2.2.2.2.2.1 (.inr (by decide)),
   ⟨_, (h.2 { st.modCrew 1 fun c => { c with status := .evicted } with rtime := 2000 } 1).2.2.2.2.2.2.1 (by decide) (by decide)⟩,
   ((h.2 pressed 1).2.2.2.2.2.2.2 (by decide) 2 1 (by decide)).1, by decide⟩

/-- The launch with a deadline, of a class, in a state. -/
def lotOf (dclass : Nat) (deadline : DWord) (status : LotStatus) : State :=
  st.modLaunch 1 fun l => { l with dclass := dclass, status := status, arrival := some 0, lines := [0x400], shadow := [(0x20000, 7)],
                                   lrec := { l.lrec with deadline := deadline } }

/-- A ready lot with another that committed since its start and wrote the same byte. -/
def rival : State :=
  let s := lotOf 0 1 .ready
  { s with launches := s.launches ++ [(2, { (lotOf 0 1 .committed).launchAt 1 with committedAt := 1, arrival := none })] }

/-- A deadline that is met at tick 0 and one that is not, at the first of the two ticks that count for class 1; a commit, a
conflict with a lot that committed meanwhile, the deferred words of a commit, the sequencer turned down while the lot runs and past
its deadline, a folded byte, and a line to fold and one not there. -/
theorem witness_EndOfLots (h : Obligations.EndOfLots) :
    (∃ u, exec (.deadlineCut 1) (lotOf 0 0 .running) = .next u) ∧ (∃ u, exec (.deadlineCut 1) (lotOf 1 1024 .running) = .next u) ∧
    exec (.deadlineCut 1) (lotOf 1 1025 .running) = .next (lotOf 1 1025 .running) ∧
    (∃ u, exec (.lotCommit 1) (lotOf 0 1 .ready) = .next u) ∧
    (∃ u, exec (.lotCommit 1) rival = .next u) ∧
    (∃ u, exec (.lotCommit 1) (lotOf 0 1 .committed) = .next u) ∧
    exec (.lotCommit 1) (lotOf 0 1 .running) = .next (lotOf 0 1 .running) ∧
    exec (.lotCommit 1) (lotOf 0 0 .ready) = .next (lotOf 0 0 .ready) ∧
    ((lotOf 0 1 .committed).mem.fold ((lotOf 0 1 .committed).launchAt 1).shadow).read 0x20000 =
      SMap.getD ((lotOf 0 1 .committed).launchAt 1).shadow 0x20000 ((lotOf 0 1 .committed).mem.read 0x20000) ∧
    (∃ u, exec (.dresserFold 1 0x400) (lotOf 0 1 .committed) = .next u) ∧
    exec (.dresserFold 1 0x401) (lotOf 0 1 .committed) = .next (lotOf 0 1 .committed) := by
  exact ⟨⟨_, (h (lotOf 0 0 .running) 1 0).1 (by decide)⟩, ⟨_, (h (lotOf 1 1024 .running) 1 0).1 (by decide)⟩,
    (h (lotOf 1 1025 .running) 1 0).2.1 (by decide),
    ⟨_, (And.left ((h (lotOf 0 1 .ready) 1 0).2.2.1 (by decide) (by decide) (by decide) (by decide) (by decide)) (by decide)).1⟩,
    ⟨_, (h rival 1 0).2.2.2.1 (by decide) (by decide) (by decide) (by decide) (by decide)⟩,
    ⟨_, (h (lotOf 0 1 .committed) 1 0).2.2.2.2.1 (by decide) (by decide)⟩,
    (h (lotOf 0 1 .running) 1 0).2.2.2.2.2.1 (by decide), (h (lotOf 0 0 .ready) 1 0).2.2.2.2.2.1 (by decide),
    (h (lotOf 0 1 .committed) 1 0).2.2.2.2.2.2.1 (by decide) (by decide) 0x20000,
    ⟨_, (h (lotOf 0 1 .committed) 1 0x400).2.2.2.2.2.2.2.1 (by decide) (by decide) (by decide)⟩,
    (h (lotOf 0 1 .committed) 1 0x401).2.2.2.2.2.2.2.2 (.inr (.inl (by decide)))⟩

/-- The gang that can issue its next word, at a cycle and a tick. -/
def ready (cycle rtime : Nat) : State := { st with cycle := cycle, rtime := BitVec.ofNat 64 rtime }

/-- The thread waits in a trap. -/
def stuck (s : State) : State := s.setPark 1 .trapped

/-- A batch of die 2 begun at tick 0. -/
def batch2 : Batch := { die := 2, num := 0, first := 0, entries := [], sent := false, written := false }

/-- The thread at a page whose entry says that it is absent. -/
def missing : State :=
  let s := st.modThr 1 fun x => { x with pc := 0x70000 }
  { s with mem := s.mem.writeN 0 (bytesOf 8 256) }

/-- The same after the driver has refused the page. -/
def turnedDown : State := missing.modThr 1 fun x => { x with refused := [7] }

/-- Each watch at the time that it fires and just before: 4,096 cycles, the context's limit, 2,000 ticks; and a word whose
page is absent or refused. -/
theorem witness_SchedulerWatches (h : Obligations.SchedulerWatches) :
    (∃ u, exec (.starvationPromotion 1) (ready 4096 0) = .next u) ∧ exec (.starvationPromotion 1) (ready 4095 0) = .next (ready 4095 0) ∧
    (∃ u, exec (.watchdogFire 0) (stuck (ready 0 10000000)) = .next u) ∧ exec (.watchdogFire 0) (stuck (ready 0 9999999)) = .next (stuck (ready 0 9999999)) ∧
    (∃ u, exec (.contextResume 0) (st.modCtx 0 fun c => { c with stopped := true }) = .next u) ∧ exec (.contextResume 0) st = .next st ∧
    (∃ u, exec (.residencyBatchTimeout 2) { ready 0 2000 with batches := [batch2] } = .next u) ∧
    exec (.residencyBatchTimeout 2) { ready 0 1999 with batches := [batch2] } = .next { ready 0 1999 with batches := [batch2] } ∧
    (∃ u, exec (.fetchTranslationFault 1) { st with tlb := [(0, 0, 1, 16, 3)] } = .next u) ∧
    (∃ u, exec (.fetchTranslationFault 1) missing = .next u) ∧ ∃ u, exec (.fetchTranslationFault 1) turnedDown = .next u :=
  ⟨⟨_, (h (ready 4096 0) 1 0 0).1 (by decide) (by decide)⟩, (h (ready 4095 0) 1 0 0).2.1 (.inr (by decide)),
   ⟨_, (h (stuck (ready 0 10000000)) 1 0 0).2.2.2.2.1.1 (by decide)⟩, (h (stuck (ready 0 9999999)) 1 0 0).2.2.2.2.1.2.1 (by decide),
   ⟨_, (h (st.modCtx 0 fun c => { c with stopped := true }) 1 0 0).2.2.2.2.1.2.2.1 (by decide)⟩,
   (h st 1 0 0).2.2.2.2.1.2.2.2 (by decide),
   ⟨_, ((h { ready 0 2000 with batches := [batch2] } 1 0 2).2.2.2.2.2.1 _ rfl).1 (by decide)⟩,
   ((h { ready 0 1999 with batches := [batch2] } 1 0 2).2.2.2.2.2.1 _ rfl).2 (by decide),
   ⟨_, ((h { st with tlb := [(0, 0, 1, 16, 3)] } 1 0 2).2.2.2.2.2.2 _ 1 [] rfl (by decide)).1 _ (by decide) rfl⟩,
   ⟨_, ((h missing 1 0 2).2.2.2.2.2.2 _ 1 [] rfl (by decide)).2.1 (by decide) rfl⟩,
   ⟨_, ((h turnedDown 1 0 2).2.2.2.2.2.2 _ 1 [] rfl (by decide)).2.2 (by decide)⟩⟩

/-- A creation of one V element of launch 1. -/
def create (cause : Option Nat) (anc : List (Rate × Nat)) : Creation :=
  { launch := 1, rate := .V, protos := [{ Elem.zero with launch := 1, rate := .V, anc := anc }], regs := [], crew := 1, attempted := false,
    since := 0, turn := 0, fromRecord := false, cause := cause, granted := false, failed := false }

def creating (s : State) (c : Creation) : State := { s with creations := [(7, c)] }

/-- A draw with no share. -/
def poor : State := stC.modLaunch 1 fun l => { l with ext := { l.ext with draw := some { patches with share := 0 } } }

/-- A creation that the record defines, before which another of its rate is to have its bytes. -/
def later : State :=
  let c := { create none [] with fromRecord := true }
  { stC with creations := [(7, { c with protos := c.protos.map fun p => { p with idx := 1 } }), (8, c)] }

/-- A creation that a lane asks for, one whose ancestor is not frozen, one that is made, one that does not fit, one that is held back, and one that has
stalled for its limit and not yet. -/
theorem witness_DrawEvents (h : Obligations.DrawEvents) :
    (∃ u, exec (.elementCreation 7) (creating stC (create (some 1) [])) = .next u) ∧
    exec (.elementCreation 7) (creating stC (create none [(.C, 1)])) = .next (creating stC (create none [(.C, 1)])) ∧
    (∃ u, exec (.elementCreation 7) (creating stC (create none [])) = .next u) ∧
    (∃ u, exec (.elementCreation 7) (creating poor (create none [])) = .next u) ∧ exec (.elementCreation 7) later = .next later ∧
    (let s := { creating poor { create none [] with attempted := true } with rtime := 99999 }
     exec (.stockpileStallLimit 7) s = .next s) ∧
    (∃ u, exec (.stockpileStallLimit 7) { creating poor { create none [] with attempted := true } with rtime := 100000 } = .next u) ∧
    ∃ u, exec (.stockpileStallLimit 7) { creating poor { create (some 1) [] with attempted := true } with rtime := 100000 } = .next u :=
  ⟨⟨_, ((h (creating stC (create (some 1) [])) 1 7 0 0).1 _ rfl (by decide) (by decide)).1 (by decide) (by decide) (by decide)⟩,
   ((h (creating stC (create none [(.C, 1)])) 1 7 0 0).1 _ rfl (by decide) (by decide)).2.1 (by decide) (by decide),
   ⟨_, ((h (creating stC (create none [])) 1 7 0 0).1 _ rfl (by decide) (by decide)).2.2.2.1 (by decide) (by decide) (by decide) (by decide) (by decide)⟩,
   ⟨_, ((h (creating poor (create none [])) 1 7 0 0).1 _ rfl (by decide) (by decide)).2.2.2.2 (by decide) (by decide) (by decide) (by decide) (by decide) (by decide)⟩,
   ((h later 1 7 0 0).1 _ rfl (by decide) (by decide)).2.2.1 (by decide) (by decide) (by decide) (by decide),
   ((h { creating poor { create none [] with attempted := true } with rtime := 99999 } 1 7 0 0).2.1 _ rfl (by decide)).1 (by decide),
   ⟨_, ((h { creating poor { create none [] with attempted := true } with rtime := 100000 } 1 7 0 0).2.1 _ rfl (by decide)).2.1 (by decide) (by decide)⟩,
   ⟨_, ((h { creating poor { create (some 1) [] with attempted := true } with rtime := 100000 } 1 7 0 0).2.1 _ rfl (by decide)).2.2 (by decide)
     (by decide)⟩⟩

/-- A draw with one primitive whose three vertices are the element of rate V numbered 0, and one sample of it. -/
def prim1 (done : Bool) : Prim := { obj := 0, cluster := 0, idx := 0, verts := [0, 0, 0], begun := false, done := done, squads := [] }

def sample1 (written : Bool) : Sample :=
  { prim := 0, px := 0, py := 0, idx := 0, lam := [], z := 0, color := [], written := written, elem := none, kelem := none, wantsS := false,
    resolved := false }

def drawing (done emitted exited : Bool) (rates : List Bool) : State :=
  let s := stC.modElem 1 fun e => { e with rate := .V, emitted := emitted, exited := exited, frozen := true }
  let s := s.modDraw 1 fun d =>
    { d with prims := [(0, prim1 done)], samples := [(0, sample1 emitted)],
             target := [(0, { color := [], depth := 0, passed := false, zreplaced := false })] }
  { s with images := s.images.map fun i => { i with rates := rates } }

/-- A primitive that is done, of a program without V, discarded, waiting and sampled; a sample that is written, one that is not,
and one whose primitive's K elements are still to come; a draw that is over and one that is not. -/
theorem witness_DrawEvents_samples (h : Obligations.DrawEvents) :
    (let s := drawing true false false (List.replicate 8 true)
     exec (.primitiveRasterise 1 0) s = .next s) ∧
    (∃ u, exec (.primitiveRasterise 1 0) (drawing false false false (List.replicate 8 false)) = .next u) ∧
    (∃ u, exec (.primitiveRasterise 1 0) (drawing false false true (List.replicate 8 true)) = .next u) ∧
    (let s := drawing false false false (List.replicate 8 true)
     exec (.primitiveRasterise 1 0) s = .next s) ∧
    (∃ u, exec (.primitiveRasterise 1 0) (drawing false true true (List.replicate 8 true)) = .next u) ∧
    (∃ u, exec (.sampleResolve 1 0) (drawing true true true (List.replicate 5 true ++ List.replicate 3 false)) = .next u) ∧
    (∃ u, exec (.sampleResolve 1 0) (drawing true false true (List.replicate 5 true ++ List.replicate 3 false)) = .next u) ∧
    (let s := drawing true true true (List.replicate 8 true)
     exec (.sampleResolve 1 0) s = .next s) ∧
    exec (.drawWriteOut 1) st = .next st := by
  refine ⟨((h (drawing true false false (List.replicate 8 true)) 1 7 0 0).2.2.1 _ rfl).1 rfl,
    ⟨_, ((h (drawing false false false (List.replicate 8 false)) 1 7 0 0).2.2.1 _ rfl).2.1 rfl (by decide)⟩,
    ⟨_, (((h (drawing false false true (List.replicate 8 true)) 1 7 0 0).2.2.1 _ rfl).2.2 [1, 1, 1] rfl (by decide) (by decide)).1 ⟨1, by decide⟩⟩,
    (((h (drawing false false false (List.replicate 8 true)) 1 7 0 0).2.2.1 _ rfl).2.2 [1, 1, 1] rfl (by decide) (by decide)).2.1 (by decide)
      ⟨1, by decide⟩,
    ⟨_, (((h (drawing false true true (List.replicate 8 true)) 1 7 0 0).2.2.1 _ rfl).2.2 [1, 1, 1] rfl (by decide) (by decide)).2.2 (by decide) rfl⟩,
    ⟨_, (((h (drawing true true true (List.replicate 5 true ++ List.replicate 3 false)) 1 7 0 0).2.2.2.1 _ rfl).2 rfl (by decide) (by decide)).2 rfl
      (by decide)⟩,
    ⟨_, (((h (drawing true false true (List.replicate 5 true ++ List.replicate 3 false)) 1 7 0 0).2.2.2.1 _ rfl).2 rfl (by decide) (by decide)).1 rfl⟩,
    ((h (drawing true true true (List.replicate 8 true)) 1 7 0 0).2.2.2.1 _ rfl).1 (.inr (.inl (by decide))),
    (h st 1 7 0 0).2.2.2.2.1 (by decide)⟩

/-- A draw of which nothing is left, with no pixel to write. -/
def finished : State :=
  { stC with threads := SMap.modify stC.threads 1 fun x => { x with live := false } }

theorem witness_DrawEvents_over (h : Obligations.DrawEvents) : ∃ u, exec (.drawWriteOut 1) finished = .next u :=
  ⟨_, (h finished 1 7 0 0).2.2.2.2.2 (by decide) finished [] finished rfl rfl⟩

/-- The context while it does not exist. -/
def absentCtx : State := st.modCtx 0 fun c => { c with exists_ := false, localBase := 0, localStride := 0, featc := 0 }

/-- A batch of die 0 that has been written, and one entry of it. -/
def batch0 : Batch := { die := 0, num := 5, first := 0, entries := [(0, 7, 0, 1)], sent := true, written := true }

/-- The thread waits for page 7 in batch 5 of die 0. -/
def waiting7 : State := st.setPark 1 (.xlate 0 [(5, 7)] false [])

/-- The last context and the first number past it; an invalidation begun, one not asked for; a context made, not made, there
already, and destroyed; a batch answered and one that is not there; a page refused, given, not waited for, and of another context; the heads of the last die and past it. -/
theorem witness_ContextEvents (h : Obligations.ContextEvents) :
    exec (.contextCreate 4096 1) st = .next st ∧ (∃ u, exec (.tlbInvalidate 4095 0) st = .next u) ∧
    (∃ u, exec (.tlbInvalidate 0 0x40000003) st = .next u) ∧ exec (.contextCreate 0 1) st = .next st ∧
    (∃ u, exec (.contextCreate 0 2) absentCtx = .next u) ∧ (∃ u, exec (.contextCreate 0 1) absentCtx = .next u) ∧
    (let s := absentCtx.modCtx 0 fun c => { c with wdog := 0 }
     exec (.contextCreate 0 1) s = .next s) ∧
    exec (.contextDestroy 0) st = .next st ∧ (∃ u, exec (.contextDestroy 0) { st with launches := [] } = .next u) ∧
    exec (.fresp 0 5) st = .next st ∧ (∃ u, exec (.fresp 0 5) { st with batches := [batch0] } = .next u) ∧
    ((waiting7.answerPage 0 5 0 7 false).thr 1).refused = [7] ∧ ((waiting7.answerPage 0 5 0 7 true).thr 1).park = none ∧
    (waiting7.answerPage 0 5 0 8 true).thr 1 = waiting7.thr 1 ∧ (waiting7.answerPage 0 5 3 7 true).thr 1 = waiting7.thr 1 ∧
    exec (.frhead 4 1) st = .next st ∧ ∃ u, exec (.frhead 3 1) st = .next u :=
  ⟨((h st 4096 0 1 0).1 (by decide)).2, ⟨_, ((h st 4095 0 0 0).2.1 (by decide)).1 (.inl (by decide))⟩,
   ⟨_, ((h st 0 0 0x40000003 0).2.1 (by decide)).2 (by decide) (by decide)⟩, (h st 0 0 1 0).2.2.1 (by decide) (by decide),
   ⟨_, (h absentCtx 0 0 2 0).2.2.2.1 (by decide) (by decide) (by decide)⟩,
   let ⟨u, e, _⟩ := ((h absentCtx 0 0 1 0).2.2.2.2.1 (by decide) (by decide) (by decide)).2 (by decide)
   ⟨u, e⟩,
   ((h (absentCtx.modCtx 0 fun c => { c with wdog := 0 }) 0 0 1 0).2.2.2.2.1 (by decide) (by decide) (by decide)).1 (by decide),
   (h st 0 0 1 0).2.2.2.2.2.1 (.inr (.inr (by decide))),
   let ⟨u, e, _⟩ := (h { st with launches := [] } 0 0 1 0).2.2.2.2.2.2.1 (by decide) (by decide) (by decide)
   ⟨u, e⟩,
   (h st 0 0 0 5).2.2.2.2.2.2.2.1 (by decide), ⟨_, (h { st with batches := [batch0] } 0 0 0 5).2.2.2.2.2.2.2.2.1 _ rfl (by
     have e : ({ st with batches := [batch0] } : State).engineWait = [] := by decide
     intro w hw
     rw [e] at hw
     cases hw)⟩,
   congrArg Thread.refused (((h waiting7 0 0 0 5).2.2.2.2.2.2.2.2.2.1 1 0 7 (by decide) (by decide) _ _ _ rfl).1 (by decide)),
   congrArg Thread.park (((h waiting7 0 0 0 5).2.2.2.2.2.2.2.2.2.1 1 0 7 (by decide) (by decide) _ _ _ rfl).2.1 (by decide)),
   ((h waiting7 0 0 0 5).2.2.2.2.2.2.2.2.2.1 1 0 8 (by decide) (by decide) _ _ _ rfl).2.2 (by decide) true,
   (h waiting7 0 0 0 5).2.2.2.2.2.2.2.2.2.2.1 1 3 7 true (by decide),
   (h st 0 4 1 5).2.2.2.2.2.2.2.2.2.2.2.1 (by decide), ⟨_, (h st 0 3 1 5).2.2.2.2.2.2.2.2.2.2.2.2 (by decide)⟩⟩

/-- A debugger on the context, with a stop recorded, its mailbox holding a command in the page of D. -/
def stop1 : Stop :=
  { cause := 0x31, index := 0xFF, brkn := 0, lot := 1, crew := 0, pc := 0x10000, eaddr := 0, lanes := 1, tid := 0, crewUid := 1, threads := [1] }

def debugged (op : Nat) : State :=
  let s := st.modCtx 0 fun c => { c with dbgAttach := true, stops := [stop1], recorded := some stop1 }
  { s with mem := s.mem.writeN 0x30040 (bytesOf 8 (1 + 2 ^ 32 * op)) }

/-- The fourth watchpoint of the last context, a fifth armed on one core, and numbers past the last; commands 0 to 2, and one
already done; a stop to record. -/
theorem witness_DebuggerEvents (h : Obligations.DebuggerEvents) :
    (∃ u, exec (.debugAttach 0 3) st = .next u) ∧
    (∃ u, exec (.debugAttach 0 3) (st.modCtx 0 fun c => { c with mbox := false }) = .next u) ∧ exec (.watchpointWrite 0 4 0) st = .next st ∧
    (∃ u, exec (.watchpointWrite 4095 3 0x80000000000000) st = .next u) ∧
    (∃ u, exec (.watchpointWrite 4095 3 0x80000000000000) (st.modCtx 0 fun c => { c with wps := List.replicate 4 0x80000000000000 }) = .next u) ∧
    exec (.haltreq 0 1) st = .next st ∧ (∃ u, exec (.haltreq 0 1) (debugged 0) = .next u) ∧ exec (.debugResume 0) st = .next st ∧
    (∃ u, exec (.debugResume 0) (debugged 0) = .next u) ∧ (∃ u, exec (.debugStep 0) (debugged 1) = .next u) ∧
    (∃ u, exec (.debugAbort 0) (debugged 2) = .next u) ∧
    (∃ u, exec (.debugAbort 0) ((debugged 2).modCtx 0 fun c => { c with lastCmd := 1 }) = .next u) ∧
    exec (.stopRecordDelivery 0) st = .next st ∧
    ∃ u, exec (.stopRecordDelivery 0) ((debugged 0).modCtx 0 fun c => { c with recorded := none }) = .next u :=
  ⟨⟨_, And.left ((h st 0 0 3 0).1 (by decide)) (.inr (by decide))⟩,
   ⟨_, (And.right ((h (st.modCtx 0 fun c => { c with mbox := false }) 0 0 3 0).1 (by decide)) (by decide) (by decide) _).1 rfl⟩, (h st 0 4 0 0).2.2.1 (.inr (by decide)),
   ⟨_, ((h st 4095 3 0 0x80000000000000).2.2.2.1 (by decide) (by decide)).2 (.inr (by decide))⟩,
   ⟨_, ((h (st.modCtx 0 fun c => { c with wps := List.replicate 4 0x80000000000000 }) 4095 3 0 0x80000000000000).2.2.2.1 (by decide) (by decide)).1
     (by decide) (by decide)⟩,
   (h st 0 0 0 1).2.2.2.2.1 (.inr (by decide)), ⟨_, (h (debugged 0) 0 0 0 1).2.2.2.2.2.1 (by decide) (by decide)⟩,
   ((h st 0 0 0 1).2.2.2.2.2.2.1 (.inl (by decide))).1,
   ⟨_, ((h (debugged 0) 0 0 0 1).2.2.2.2.2.2.2.1 (by decide) (by decide) _ _ _ rfl rfl).2.1 (by decide) (by decide)⟩,
   ⟨_, ((h (debugged 1) 0 0 0 1).2.2.2.2.2.2.2.1 (by decide) (by decide) _ _ _ rfl rfl).2.2.1 (by decide) (by decide)⟩,
   ⟨_, ((h (debugged 2) 0 0 0 1).2.2.2.2.2.2.2.1 (by decide) (by decide) _ _ _ rfl rfl).2.2.2 (by decide) (by decide)⟩,
   ⟨_, (((h ((debugged 2).modCtx 0 fun c => { c with lastCmd := 1 }) 0 0 0 1).2.2.2.2.2.2.2.1 (by decide) (by decide) _ _ _ rfl rfl).1 (by decide)).2.2⟩,
   (h st 0 0 0 1).2.2.2.2.2.2.2.2.2.1 (by decide) (.inl (by decide)),
   ⟨_, (h ((debugged 0).modCtx 0 fun c => { c with recorded := none }) 0 0 0 1).2.2.2.2.2.2.2.2.2.2.2 _ _ _ _ _ rfl rfl (by decide) rfl rfl rfl⟩⟩

/-- The machine with a retired line at 0x20000. -/
def retired : State := { st with dev := { st.dev with retired := [0x400] } }

/-- HBM is not open in reset. -/
theorem shut : ¬(State.reset.dev.dstate = .ready ∨ ((State.reset.dev.dstate = .checkpoint ∨ State.reset.dev.dstate = .restore) ∧
    ∃ c, State.reset.dev.mbox.running = some c ∧ c.came = .ready)) := by
  rintro (h | ⟨h | h, _⟩) <;> exact absurd h (by decide)

/-- An offset with no block, a whole register, the registers of the last queue and context, and accesses to the ends of HBM, to a
deaf device, and to a retired line. -/
theorem witness_HostRequests (h : Obligations.HostRequests) :
    exec (.registerWrite 0x10000 4 1) st = .next st ∧ (∃ u, exec (.registerWrite 0x220000 4 1) st = .next u) ∧
    (∃ u, exec (.registerWrite (64 * 1023 + 8) 8 64) st = .next u) ∧
    exec (.registerWrite (64 * 0 + 8) 8 64) (sQ true 0) = .next (sQ true 0) ∧
    (∃ u, exec (.registerWrite (0x100000 + 256 * 4095) 8 64) st = .next u) ∧ exec (.registerWrite (0x100000 + 256 * 0) 8 64) st = .next st ∧
    exec (.hostBar2Write 0 [1]) State.reset = .next State.reset ∧ (∃ u, exec (.hostBar2Write (hbmSize - 1) [1]) st = .next u) ∧
    (∃ u, exec (.hostBar2Read 0 4) State.reset = .next u) ∧ (∃ u, exec (.hostBar2Read 0x20000 4) retired = .next u) ∧
    (∃ u, exec (.hostBar2Read 0 200) st = .next u) ∧ ∃ u, exec (.getMeasurements 255) st = .next u :=
  ⟨(h st 0x10000 4 1 [] 0 [] 0 0).1 (by decide), ⟨_, (h st 0x220000 4 1 [] 0 [] 0 0).2.1 _ _ rfl (by decide)⟩,
   ⟨_, ((h st 0 4 64 [] 0 [] 0 0).2.2.1 1023 (by decide) (by decide) (by decide)).1⟩,
   (h (sQ true 0) 0 4 64 [] 0 [] 0 0).2.2.2.1 0 (by decide) (by decide),
   ⟨_, (h st 0 4 64 [] 0 [] 0 0).2.2.2.2.1 4095 (by decide) (by decide)⟩, (h st 0 4 64 [] 0 [] 0 0).2.2.2.2.2.1 0 (by decide) (by decide),
   (h State.reset 0 4 64 [1] 0 [] 0 0).2.2.2.2.2.2.1 shut,
   let ⟨u, e, _⟩ := (h st (hbmSize - 1) 4 64 [1] 0 [] 0 0).2.2.2.2.2.2.2.1 (.inl (by decide)) (by decide) (by decide) (by decide)
   ⟨u, e⟩,
   ⟨_, ((h State.reset 0 4 64 [1] 0 [] 0 0).2.2.2.2.2.2.2.2.1).1 (by decide)⟩,
   ⟨_, ((h retired 0x20000 4 64 [1] 0 [] 0 0).2.2.2.2.2.2.2.2.1).2.1 (by decide) (by decide)⟩,
   ⟨_, ((h st 0 200 64 [1] 0 [] 0 0).2.2.2.2.2.2.2.2.1).2.2 (by decide) (by decide) (by decide)⟩,
   let ⟨_, _, _, _, _, e⟩ := (h st 0 4 64 [1] 255 [] 0 0).2.2.2.2.2.2.2.2.2.2.2.2.2.2.2.2
   ⟨_, e⟩⟩

/-- The machine with port 3 up, and a window at home. -/
def linked : State :=
  let p : Port := { Port.reset with en := true, up := true, lanes := 8 }
  { st with dev := { st.dev with ports := [(3, p)], windows := [(0, { base := 0x30000, size := 64, ctx := 0, wid := 9, home := 0, en := true })] } }

/-- The same, but with the window in a page that is absent. -/
def farther : State :=
  { linked with mem := linked.mem.writeN 0 (bytesOf 8 256),
                dev := { linked.dev with windows := [(0, { base := 0x70000, size := 64, ctx := 0, wid := 9, home := 0, en := true })] } }

/-- Requests on a port that serves and on one that does not; the last location of a window, a packet of no window; subnetworks up
and down; the last port and the first number past it. -/
theorem witness_FabricEvents (h : Obligations.FabricEvents) :
    exec (.fabricRequest 2 1 (.read 0 4)) linked = .next linked ∧ (∃ u, exec (.fabricRequest 3 1 (.read 0 4)) linked = .next u) ∧
    (∃ u, exec (.fabricRequest 3 1 (.atomic 0 .add .n32 1 0)) linked = .next u) ∧
    (∃ u, exec (.fabricRequest 3 1 (.atomic 0 .add .n32 1 0)) (linked.modDev fun d => { d with retired := [0] }) = .next u) ∧
    exec (.windowPacketArrival 8 60 .add .n32 2 1) linked = .next linked ∧ (∃ u, exec (.windowPacketArrival 9 60 .add .n32 2 1) linked = .next u) ∧
    (∃ u, exec (.windowPacketArrival 9 60 .add .n32 2 1) farther = .next u) ∧
    exec (.subnetworkPowerUp 8) st = .next st ∧ (∃ u, exec (.subnetworkPowerUp 7) st = .next u) ∧
    (∃ u, exec (.subnetworkPowerUp 0) (st.modDev fun d => { d with subnets := [(0, 3)] }) = .next u) ∧
    (∃ u, exec (.subnetworkPowerUp 0) (st.modDev fun d => { d with subnets := [(0, 7)] }) = .next u) ∧
    (∃ u, exec (.subnetworkPowerDown 0 1) (st.modDev fun d => { d with subnets := [(0, 3)] }) = .next u) ∧
    exec (.subnetworkPowerDown 0 0) st = .next st ∧ (∃ u, exec (.escapeDiversion 0 ⟨3, 1⟩) st = .next u) ∧ exec (.portLinkChange 16 8) linked = .next linked ∧
    ∃ u, exec (.portLinkChange 15 8) linked = .next u :=
  ⟨(h linked 2 1 0 4 60 9 0 (.read 0 4) [] .add .n32 1 0).1 (by decide),
   ⟨_, ((h linked 3 1 0 4 60 9 0 (.read 0 4) [] .add .n32 1 0).2.1 (by decide)).1⟩,
   ⟨_, ((h linked 3 1 0 4 60 9 0 (.read 0 4) [] .add .n32 1 0).2.1 (by decide)).2.2.2.1 _ rfl⟩,
   ⟨_, ((h (linked.modDev fun d => { d with retired := [0] }) 3 1 0 4 60 9 0 (.read 0 4) [] .add .n32 1 0).2.1 (by decide)).2.2.2.2.1 (by decide)⟩,
   (h linked 3 1 0 2 60 8 0 (.read 0 4) [] .add .n32 1 0).2.2.1 (by decide),
   ⟨_, And.right ((h linked 3 1 0 2 60 9 0 (.read 0 4) [] .add .n32 1 0).2.2.2.1 _ rfl (.inl (by decide)) (by decide) (by decide) (by decide)) _ _ _ _ rfl⟩,
   ⟨_, And.left ((h farther 3 1 0 2 60 9 0 (.read 0 4) [] .add .n32 1 0).2.2.2.1 _ rfl (.inl (by decide)) (by decide) (by decide) (by decide)) _ rfl⟩,
   (h st 3 1 0 2 60 9 8 (.read 0 4) [] .add .n32 1 0).2.2.2.2.1.1 (by decide),
   ⟨_, (h st 3 1 0 2 60 9 7 (.read 0 4) [] .add .n32 1 0).2.2.2.2.1.2.1 (by decide) (by decide)⟩,
   ⟨_, (h (st.modDev fun d => { d with subnets := [(0, 3)] }) 3 1 0 2 60 9 0 (.read 0 4) [] .add .n32 1 0).2.2.2.2.1.2.2.1 (by decide) (by decide)
     (by decide)⟩,
   ⟨_, (h (st.modDev fun d => { d with subnets := [(0, 7)] }) 3 1 0 2 60 9 0 (.read 0 4) [] .add .n32 1 0).2.2.2.2.1.2.2.2.1 (by decide) (by decide)
     (by decide) (by decide)⟩,
   ⟨_, (h (st.modDev fun d => { d with subnets := [(0, 3)] }) 3 1 0 1 60 9 0 (.read 0 4) [] .add .n32 1 0).2.2.2.2.1.2.2.2.2.1 (by decide) (by decide)
     (by decide) (by decide)⟩,
   (h st 3 1 0 0 60 9 0 (.read 0 4) [] .add .n32 1 0).2.2.2.2.1.2.2.2.2.2 (by decide),
   ⟨_, (h st 3 0 3 1 60 9 0 (.read 0 4) [] .add .n32 1 0).2.2.2.2.2.2.1 (by decide)⟩,
   (h linked 16 1 0 8 60 9 0 (.read 0 4) [] .add .n32 1 0).2.2.2.2.2.2.2.1 (by decide),
   ⟨_, (h linked 15 1 0 8 60 9 0 (.read 0 4) [] .add .n32 1 0).2.2.2.2.2.2.2.2 (by decide)⟩⟩

/-- The larger form with its clock on or off, in a state of the lock. -/
def clock (en : Bool) (lock : Lock) (good now : Nat) : State :=
  { st with rtime := BitVec.ofNat 64 now,
            dev := { st.dev with form := 2, ptp := { Ptp.reset with tcfg := if en then 0xFFFF7F03 else 0xFFFF7F02, tip := 1, lock := lock, good := good } } }

/-- A master. -/
def leading : State :=
  let s := clock true .locked 0 0
  s.modDev fun d => { d with ptp := { d.ptp with master := true } }

/-- The clock enabled, refused and not there; a Sync at the sixteenth good one and before, one of another domain, and an Announce; the
messages by role; the ends of holdover. -/
theorem witness_ClockAndDisplayEvents (h : Obligations.ClockAndDisplayEvents) :
    exec (.ptpEnable 1) st = .next st ∧ (∃ u, exec (.ptpEnable 9) (clock false .free 0 0) = .next u) ∧
    exec (.ptpEnable 13) (clock false .free 0 0) = .next (clock false .free 0 0) ∧
    (∃ u, exec (.ptpEventMessage ⟨127, 0, (.sync 10 5)⟩) (clock true .acquiring 14 0) = .next u ∧ u.dev.ptp.lock = .acquiring) ∧
    (∃ u, exec (.ptpEventMessage ⟨127, 0, (.sync 10 5)⟩) (clock true .acquiring 15 0) = .next u ∧ u.dev.ptp.lock = .locked) ∧
    (∃ u, exec (.ptpEventMessage ⟨127, 0, (.announce 254 0 0 5)⟩) (clock true .locked 0 0) = .next u) ∧
    exec (.ptpEventMessage ⟨126, 0, .delayReq⟩) (clock true .locked 0 0) = .next (clock true .locked 0 0) ∧
    exec (.ptpEventMessage ⟨127, 0, (.sync 10 5)⟩) leading = .next leading ∧ exec (.ptpMessageInterval 0) st = .next st ∧
    exec (.ptpMessageInterval 2) (clock true .locked 0 0) = .next ((clock true .locked 0 0).send (.ptp 2)) ∧
    (∃ u, exec .syncLoss (clock true .locked 0 0) = .next u) ∧ exec .syncLoss st = .next st ∧
    (∃ u, exec .holdoverTimeout (clock true .holdover 0 6000000000) = .next u) ∧
    exec .holdoverTimeout (clock true .holdover 0 5999999999) = .next (clock true .holdover 0 5999999999) :=
  ⟨(h.1 st 1 .delayReq 127 0 0 0 0 0 0 0 true).1 (by decide),
   ⟨_, ((h.1 (clock false .free 0 0) 9 .delayReq 127 0 0 0 0 0 0 0 true).2.1 (by decide) (by decide)).1 (.inr (by decide))⟩,
   ((h.1 (clock false .free 0 0) 13 .delayReq 127 0 0 0 0 0 0 0 true).2.1 (by decide) (by decide)).2 (by decide) (by decide),
   let ⟨u, e, r⟩ := ((h.1 (clock true .acquiring 14 0) 0 .delayReq 127 0 0 0 0 0 10 5 true).2.2.2.2.1 (by decide) (by decide) (by decide)).2.1 rfl
   ⟨u, e, (r.2.2.2.2.2.2.2.2.1 (by decide) (by decide) (by decide)).1⟩,
   let ⟨u, e, r⟩ := ((h.1 (clock true .acquiring 15 0) 0 .delayReq 127 0 0 0 0 0 10 5 true).2.2.2.2.1 (by decide) (by decide) (by decide)).2.1 rfl
   ⟨u, e, r.2.2.2.2.2.2.2.2.2.1 (by decide) (by decide) (by decide)⟩,
   let ⟨u, e, _⟩ := ((h.1 (clock true .locked 0 0) 0 .delayReq 127 0 0 254 0 0 0 5 true).2.2.2.2.1 (by decide) (by decide) (by decide)).2.2.1
   ⟨u, e⟩,
   (h.1 (clock true .locked 0 0) 0 .delayReq 126 0 0 0 0 0 0 0 true).2.2.1 (.inr (.inr (by decide))),
   ((h.1 leading 0 .delayReq 127 0 0 0 0 0 10 5 true).2.2.2.2.1 (by decide) (by decide) (by decide)).1 rfl,
   ((h.1 st 1 .delayReq 127 0 0 0 0 0 0 0 true).2.2.2.1 (.inl (by decide))).1,
   (((h.1 (clock true .locked 0 0) 1 .delayReq 127 0 0 0 0 0 0 0 true).2.2.2.2.2.1 (by decide) (by decide)).2.1 (by decide)).2.2,
   let ⟨u, e, _⟩ := (h.1 (clock true .locked 0 0) 1 .delayReq 127 0 0 0 0 0 0 0 true).2.2.2.2.2.2.1 (by decide)
   ⟨u, e⟩,
   (h.1 st 1 .delayReq 127 0 0 0 0 0 0 0 true).2.2.2.2.2.2.2.1 (by decide),
   let ⟨u, e, _⟩ := (h.1 (clock true .holdover 0 6000000000) 1 .delayReq 127 0 0 0 0 0 0 0 true).2.2.2.2.2.2.2.2.1 (by decide) (by decide)
   ⟨u, e⟩,
   (h.1 (clock true .holdover 0 5999999999) 1 .delayReq 127 0 0 0 0 0 0 0 true).2.2.2.2.2.2.2.2.2 (.inr (by decide))⟩

/-- The larger form with its outputs. -/
def screens (ocfg : Word) (cur : DWord) : State :=
  { st with dev := { st.dev with form := 2, outputs := [(3, { Output.reset with ocfg := ocfg, pden := 1, pnum := 1, cur := cur, frame := -1 })] } }

/-- The last output and the first number past it; enabled, refused and on already; a frame that begins and one that is early. -/
theorem witness_ClockAndDisplayEvents_outputs (h : Obligations.ClockAndDisplayEvents) :
    exec (.outputEnable 4 1) (screens 0 0) = .next (screens 0 0) ∧ exec (.outputEnable 3 1) (screens 1 0) = .next (screens 1 0) ∧
    (∃ u, exec (.outputEnable 3 1) (screens 0 0) = .next u) ∧ (∃ u, exec (.outputEnable 2 1) (screens 0 0) = .next u) ∧
    (∃ u, exec (.ostatClear 3 6) (screens 1 0) = .next u) ∧ (∃ u, exec (.outputLinkChange 3 true) (screens 1 0) = .next u) ∧
    exec (.frameStart 3) (screens 0 0) = .next (screens 0 0) ∧ (∃ u, exec (.frameStart 3) (screens 1 0) = .next u) ∧
    (screens 1 0).scanOut 3 = screens 1 0 ∧ ((screens 1 256).output 3).cur ≠ 0 :=
  ⟨((h.2 (screens 0 0) 4 1 true).1 (by decide)).1, (h.2 (screens 1 0) 3 1 true).2.1 (by decide) (by decide),
   let ⟨u, e, _⟩ := ((h.2 (screens 0 0) 3 1 true).2.2.1 (by decide) (by decide)).2 (by decide) (by decide)
   ⟨u, e⟩,
   ⟨_, ((h.2 (screens 0 0) 2 1 true).2.2.1 (by decide) (by decide)).1 (.inr (by decide))⟩,
   ⟨_, (h.2 (screens 1 0) 3 6 true).2.2.2.1 (by decide)⟩, ⟨_, (h.2 (screens 1 0) 3 6 true).2.2.2.2.1 (by decide)⟩,
   (h.2 (screens 0 0) 3 6 true).2.2.2.2.2.1.1 (.inr (.inl (by decide))), ⟨_, (h.2 (screens 1 0) 3 6 true).2.2.2.2.2.1.2 (by decide)⟩,
   (h.2 (screens 1 0) 3 6 true).2.2.2.2.2.2.2.1 (by decide), by decide⟩

/-- The mailbox with a command asked for, or one that runs. -/
def asked (cmd : Word) (run : Option Nat) (surveys : Nat) (ds : DState) (busy : Bool) : State :=
  let k := run.map fun op => { op := op, seq := 7, addr := 0, len := 0, arg := 0, came := .ready : Cmd }
  { st with rmws := if busy then [(5, rmw1 5)] else [],
            dev := { st.dev with dstate := ds, mbox := { st.dev.mbox with cmd := cmd, running := k, surveys := surveys } } }

/-- Each command where it may run, where another runs and where its state forbids it; each command's end; surveys. -/
theorem witness_MailboxCommands (h : Obligations.MailboxCommands) :
    (∃ u, exec .checkpoint (asked 2 none 0 .ready false) = .next u) ∧ (∃ u, exec .checkpoint (asked 2 (some 5) 0 .ready false) = .next u) ∧
    (∃ u, exec .checkpoint (asked 2 none 0 .safe false) = .next u) ∧
    (∃ u, exec .restore { asked 3 none 0 .ready false with ctxs := [] } = .next u) ∧ (∃ u, exec .restore (asked 3 none 0 .ready false) = .next u) ∧
    (∃ u, exec .fwload (asked 4 none 0 .safe false) = .next u) ∧ (∃ u, exec .fwload (asked 4 none 0 .contained false) = .next u) ∧
    (∃ u, exec .warmreset (asked 5 none 0 .contained false) = .next u) ∧ (∃ u, exec .warmreset (asked 5 none 0 .safe false) = .next u) ∧
    (∃ u, exec .coldreset (asked 6 none 0 .safe false) = .next u) ∧ exec .commandCompletion st = .next st ∧
    (let s := asked 2 (some 2) 0 .checkpoint true
     exec .commandCompletion s = .next s) ∧
    (∀ op ∈ [2, 3, 4, 5, 6], ∃ u, exec .commandCompletion (asked 0 (some op) 0 .ready false) = .next u) ∧
    exec .survey st = .next st ∧ ∃ u, exec .survey (asked 0 none 1 .ready false) = .next u := by
  refine ⟨⟨_, (h (asked 2 none 0 .ready false)).1 (by decide) (by decide) (by decide)⟩,
    ⟨_, ((h (asked 2 (some 5) 0 .ready false)).2.2.2.2.2.2.2.2.2.1 (by decide)).1 (by decide)⟩,
    ⟨_, (h (asked 2 none 0 .safe false)).2.2.2.2.2.1 (by decide) (by decide) (by decide)⟩,
    ⟨_, (h { asked 3 none 0 .ready false with ctxs := [] }).2.1 (by decide) (by decide) (by decide)⟩,
    ⟨_, (h (asked 3 none 0 .ready false)).2.2.2.2.2.2.1 (by decide) (by decide) (by decide)⟩,
    ⟨_, (h (asked 4 none 0 .safe false)).2.2.1 (by decide) (by decide) (by decide)⟩,
    ⟨_, (h (asked 4 none 0 .contained false)).2.2.2.2.2.2.2.1 (by decide) (by decide) (by decide)⟩,
    ⟨_, (h (asked 5 none 0 .contained false)).2.2.2.1 (by decide) (by decide) (by decide)⟩,
    ⟨_, (h (asked 5 none 0 .safe false)).2.2.2.2.2.2.2.2.1 (by decide) (by decide) (by decide)⟩,
    ⟨_, (h (asked 6 none 0 .safe false)).2.2.2.2.1 (by decide) (by decide)⟩,
    (h st).2.2.2.2.2.2.2.2.2.2.1 (by decide), ((h (asked 2 (some 2) 0 .checkpoint true)).2.2.2.2.2.2.2.2.2.2.2.1 _ rfl).1 (by decide) (by decide), ?_,
    (h st).2.2.2.2.2.2.2.2.2.2.2.2.1 (by decide), let ⟨_, _, e, _⟩ := (h (asked 0 none 1 .ready false)).2.2.2.2.2.2.2.2.2.2.2.2.2 (by decide)
    ⟨_, e⟩⟩
  intro op hop
  have k := (h (asked 0 (some op) 0 .ready false)).2.2.2.2.2.2.2.2.2.2.2.1 _ rfl
  simp only [List.mem_cons, List.not_mem_nil, or_false] at hop
  obtain rfl | rfl | rfl | rfl | rfl := hop
  · obtain ⟨u, e, _⟩ := k.2.1 rfl (by decide)
    exact ⟨u, e⟩
  · obtain ⟨u, e, _⟩ := k.2.2.1 rfl
    exact ⟨u, e⟩
  · obtain ⟨u, e, _⟩ := k.2.2.2.1 rfl
    exact ⟨u, e⟩
  · obtain ⟨u, e, _⟩ := k.2.2.2.2.1 rfl
    exact ⟨u, e⟩
  · obtain ⟨u, e, _⟩ := k.2.2.2.2.2 rfl
    exact ⟨u, e⟩

/-- Sounding from reset with every outcome; scrubbing and a fatal error in and out of operation; the last die and stack and the
first numbers past them. -/
theorem witness_BringUpEvents (h : Obligations.BringUpEvents) :
    exec (.soundingComplete (some 8) 0) st = .next st ∧ (∃ u, exec (.soundingComplete none 0) State.reset = .next u) ∧
    (∃ u, exec (.soundingComplete (some 7) 9) State.reset = .next u) ∧ (∃ u, exec (.soundingComplete (some 0) 0) State.reset = .next u) ∧
    exec (.hbmScrub 1 [0]) State.reset = .next State.reset ∧ (∃ u, exec (.hbmScrub 1 [hbmSize - 1]) st = .next u) ∧
    exec .fatalErrorContainment State.reset = .next State.reset ∧ (∃ u, exec .fatalErrorContainment st = .next u) ∧
    (∃ u, exec (.thermalThrottle 3) st = .next u) ∧ exec (.thermalThrottle 4) st = .next st ∧
    (∃ u, exec (.hbmStackTemperatureChange 7 true) st = .next u) ∧ exec (.hbmStackTemperatureChange 8 true) st = .next st :=
  ⟨(h st 0 0 0 0 0 [] true).2.2.2.1 (by decide) (some 8),
   let ⟨u, e, _⟩ := (h State.reset 0 0 0 0 0 [] true).1 (by decide)
   ⟨u, e⟩,
   let ⟨u, e, _⟩ := (h State.reset 7 0 0 0 9 [] true).2.1 (by decide) (by decide) (by decide)
   ⟨u, e⟩,
   let ⟨u, e, _⟩ := (h State.reset 0 0 0 0 0 [] true).2.2.1 (by decide) (by decide)
   ⟨u, e⟩,
   (h State.reset 0 0 0 1 0 [0] true).2.2.2.2.2.1 (by decide),
   let ⟨u, e, _⟩ := (h st 0 0 0 1 0 [hbmSize - 1] true).2.2.2.2.1 (by decide)
   ⟨u, e⟩,
   (h State.reset 0 0 0 1 0 [0] true).2.2.2.2.2.2.2.1 (by decide) (by decide) (by decide),
   let ⟨u, e, _⟩ := (h st 0 0 0 1 0 [] true).2.2.2.2.2.2.1 (by decide)
   ⟨u, e⟩,
   ⟨_, (h st 0 3 0 1 0 [] true).2.2.2.2.2.2.2.2.1 (by decide) (by decide)⟩, (h st 0 4 0 1 0 [] true).2.2.2.2.2.2.2.2.2.1 (by decide),
   ⟨_, (h st 0 0 7 1 0 [] true).2.2.2.2.2.2.2.2.2.2.2.1 (by decide)⟩, (h st 0 0 8 1 0 [] true).2.2.2.2.2.2.2.2.2.2.2.2.1 (by decide)⟩

/-- The machine about to issue NOP from a rate, with the step written down. -/
def stepping (w : Nat) : State := State.reset.placeWord w 0

def nopWord : Nat := 0x003820000000003FC000000000000000

/-- A NOP that is fetched, decoded and run, and one of another rate that is gone past. -/
theorem witness_StepRunsDecoded (h : Obligations.StepRunsDecoded) :
    (∃ u, step (stepping nopWord) = .next u) ∧
    ∃ u, step { stepping nopWord with gangs := [(1, { Gang.zero with crew := 1, rate := .F, ready := 0 })] } = .next u := by
  constructor
  · have k := ((h (stepping nopWord) 1 1 [] 0x10000 [1] _ _ _ (by decide)).1 rfl (by decide +kernel) (by decide) (by decide) (by decide) (by decide) rfl).2.2 _ rfl (by decide)
      (by decide)
    obtain ⟨b, n, again, e, _⟩ := k.2 (by decide) (by decide) (by decide) (by decide) (by decide) (by
      intro c p
      have a : ∀ c, (State.ctxAt { stepping nopWord with agenda := [] } c).dbgAttach = false := by
        intro c
        change (SMap.getD [(0, fetchCtx)] c Ctx.reset).dbgAttach = false
        by_cases hc : c = 0
        · subst hc
          rfl
        · have e : SMap.get? [(0, fetchCtx)] c = none := by rw [SMap.get?_cons, if_neg hc, SMap.get?_nil]
          simp [SMap.getD, e, Ctx.reset]
      exact if_pos (congrArg Bool.not (a c)))
    obtain ⟨_, r⟩ := k.1 b _ n again e
    exact ⟨_, r _ rfl⟩
  · exact ⟨_, ((h { stepping nopWord with gangs := [(1, { Gang.zero with crew := 1, rate := .F, ready := 0 })] } 1 1 [] 0x10000 [1] _ _ _
      (by decide)).1 rfl (by decide +kernel) (by decide) (by decide) (by decide) (by decide) rfl).2.1 (by decide)⟩

/-- The agenda names an event: one that nothing forces, and a watchdog that has to fire now. -/
def named (i : Instr) : State := { stepping nopWord with agenda := [.event i] }

def barking : State := { (named (.watchdogFire 0)).setPark 1 .trapped with rtime := 10000000 }

/-- The agenda names an image that the loader has placed. -/
def loading : State := { stepping nopWord with agenda := (stepping nopWord).images.map .image }

theorem witness_StepRunsDecoded_event (h : Obligations.StepRunsDecoded) :
    step (named .survey) = exec .survey { named .survey with agenda := [] } ∧
    step barking = exec (.watchdogFire 0) { barking with agenda := [] } ∧ ∃ u, step loading = .next u :=
  ⟨(h (named .survey) 0 0 [] 0 [] st 0 0 (by decide)).2.1 .survey rfl rfl (by decide) (by decide +kernel),
   (h barking 0 0 [] 0 [] st 0 0 (by decide)).2.2.1 (.watchdogFire 0) rfl (by decide +kernel) (by decide),
   ⟨_, (h loading 0 0 [] 0 [] st 0 0 (by decide)).2.2.2 _ rfl (by decide +kernel)⟩⟩

/-- A well-formed instruction of one word and one of two, their words, and a word outside the hint region that decodes. -/
theorem witness_DecodeOfEncode :
    (Instr.add false .s32 (.v 1) (.v 2) (.imm 5) 7).wf plain = true ∧ (Instr.movi64 .b64 (.v 2) 5).wf plain = true ∧
    encode { ctl := plain, ins := .add false .s32 (.v 1) (.v 2) (.imm 5) 7 } = [0x0038010040800003CA80700000000005] ∧
    encode { ctl := plain, ins := .movi64 .b64 (.v 2) 5 } = [0x803800808000000FC400000000000000, 0xC0000000000000000000000000000005] ∧
    fieldN 0x0038010040800003CA80700000000005 102 10 < 0x3C0 ∧
    reads 0x0038010040800003CA80700000000005 0 plain (.add false .s32 (.v 1) (.v 2) (.imm 5) 7) = true := by decide

theorem witness_StepsKeepMemoryCanonical : (stepping nopWord).mem.wf = true ∧ ∃ t, step (stepping nopWord) = .next t :=
  ⟨by decide, _, rfl⟩

/-- Whether a word, run in the thread, starts this value on its way to a register of it. -/
def gives (i : Instr) (s : State) (t n : Nat) (w : Word) : Bool :=
  match exec i s with
  | .next u => (u.thr t).pend.any fun p => p.res == .v n && p.val == w
  | _ => false

/-- Whether a word, run in the thread, starts this value on its way to a predicate of it. -/
def sets (i : Instr) (s : State) (n : Nat) (b : Bool) : Bool :=
  match exec i s with
  | .next u => (u.thr 1).pend.any fun p => p.res == .p n && p.val == if b then 1 else 0
  | _ => false

/-- The tracked values that a word, run in a thread, returns to a register. -/
def returns (i : Instr) (s : State) (t n : Nat) (w : Word) : Bool :=
  match exec i s with
  | .next u => u.results.any fun r => r.2.thread == t && r.2.regs == [.v n] && r.2.vals == some [w]
  | _ => false

/-- File 05, the 64-bit add through the carry predicate. -/
theorem test_carry :
    (let s := regs st [(0, 0xFFFFFFF0), (1, 1), (2, 0x20), (3, 2)]
     gives (.add false .n32 (.v 4) (.v 0) (.reg (.v 2)) 1) s 1 4 0x10 ∧ sets (.add false .n32 (.v 4) (.v 0) (.reg (.v 2)) 1) s 1 true ∧
     gives (.addc .n32 (.v 5) (.v 1) (.reg (.v 3)) 1 7) (s.modThr 1 fun x => { x with preds := 2 }) 1 5 4 ∧
     gives (.add false .n64 (.v 4) (.v 0) (.reg (.v 2)) 7) s 1 5 4) := by decide

/-- File 06, the worked case of fused and unfused products. -/
theorem test_fused :
    (let s := regs st [(1, 0x3F800800), (2, 0xBF800000), (4, 0x3F801000)]
     gives (.fmul .rne m0 (.v 4) (.v 1) (.v 1)) s 1 4 0x3F801000 ∧ gives (.fadd .rne m0 (.v 5) (.v 4) (.v 2)) s 1 5 0x3A000000 ∧
     gives (.ffma .rne m0 (.v 6) (.v 1) (.v 1) (.v 2)) s 1 6 0x3A000400) := by decide

/-- File 04, the worked conversions of 1/3, of 0.3 and of 300.0. -/
theorem test_conversions :
    (let x := valueOf .f32 0x3E99999A
     let p4 : Fmt := .f8 false false 4
     roundToFormat false (valueOf .f32 0x3EAAAAAB) .bf16 .rne (polOf .sat) 0 = some 0x3EAB ∧
     roundToFormat false (valueOf .f32 0x3EAAAAAB) .f16 .rne (polOf .sat) 0 = some 0x3555 ∧
     roundToFormat false x p4 .rne (polOf .sat) 0 = some 0x32 ∧ roundToFormat false x p4 .rtz (polOf .sat) 0 = some 0x31 ∧
     roundToFormat false x p4 .sr (polOf .sat) 0x8000 = some 0x32 ∧ roundToFormat false x p4 .sr (polOf .sat) 0x1000 = some 0x31 ∧
     roundToFormat false x p4 .sr (polOf .sat) 0x6667 = some 0x32 ∧ roundToFormat false x p4 .sr (polOf .sat) 0x6666 = some 0x31 ∧
     roundToFormat false (valueOf .f32 0x43960000) p4 .rne (polOf .sat) 0 = some 0x7F ∧
     roundToFormat false (valueOf .f32 0x43960000) p4 .rne (polOf .trap) 0 = none) := by decide

/-- File 04, the decode examples: 2.75, −0.0048828125 and 2.5. -/
theorem test_codes :
    FVal.eqv (valueOf (.f8 false false 4) 0x4B) (valueOf .f32 0x40300000) ∧ FVal.eqv (valueOf (.f8 false false 4) 0x85) (valueOf .f32 0xBBA00000) ∧
    FVal.eqv (valueOf (.f8 true false 3) 0x45) (valueOf .f32 0x40200000) := by decide

/-- R151: and, not, exclusive or. -/
theorem test_tables :
    (let s := st.modThr 1 fun x => { x with preds := 0b0001010 }
     sets (.plop 5 1 3 7 0xC0) s 5 true ∧ sets (.plop 5 1 2 7 0xC0) s 5 false ∧ sets (.plop 5 1 7 7 0x0F) s 5 false ∧
     sets (.plop 5 1 3 0 0x96) s 5 false ∧ sets (.plop 5 1 2 0 0x96) s 5 true) := by decide

/-- File 01, the layout word and its exclusive or; file 13, the slice of an address. -/
theorem test_places :
    layoutFields (0x2000 + 2 ^ 32 * 0x00200100 + 2 ^ 64 * 0x40000000) = (0x2000, 256, 2, 0, 4) ∧ layoutXor 4 0x230A = 0x231A ∧
    sliceDie 0x31A80 = 1 ∧ sliceOf 0x31A80 = 16 := by decide

/-- A quad of K lanes with 1.0, 3.0, 2.0 and 7.0. -/
def quad : State :=
  let x := stK.thr 1
  { stK with threads := [(1, 0x3F800000), (2, 0x40400000), (3, 0x40000000), (4, 0x40E00000)].map fun (p : Nat × Word) =>
               (p.1, { x with lane := p.1 - 1, regs := [(2, p.2)] }),
             iss := { stK.iss with lanes := [1, 2, 3, 4] } }

/-- R253: differences in each direction, fine and coarse. -/
theorem test_differences :
    returns (.deriv false true (.v 1) (.v 2)) quad 1 1 0x40000000 ∧ returns (.deriv false true (.v 1) (.v 2)) quad 3 1 0x40A00000 ∧
    returns (.deriv true true (.v 1) (.v 2)) quad 1 1 0x3F800000 ∧ returns (.deriv true true (.v 1) (.v 2)) quad 4 1 0x40800000 ∧
    returns (.deriv false false (.v 1) (.v 2)) quad 4 1 0x40000000 := by decide

/-- R144 to R147: a wrap, a saturation, the truncation of a quotient, a shift past the width, and a bit field. -/
theorem test_integers :
    (let s := regs st [(2, 0x7FFFFFFF), (3, 0xFFFFFFF9), (4, 2), (5, 40), (6, 0x000081F0), (8, 0x0804)]
     gives (.add false .s32 (.v 1) (.v 2) (.imm 1) 7) s 1 1 0x80000000 ∧ gives (.add true .s32 (.v 1) (.v 2) (.imm 1) 7) s 1 1 0x7FFFFFFF ∧
     gives (.div .s32 (.v 1) (.v 3) (.reg (.v 4))) s 1 1 0xFFFFFFFD ∧ gives (.rem .s32 (.v 1) (.v 3) (.reg (.v 4))) s 1 1 0xFFFFFFFF ∧
     gives (.shl .b32 (.v 1) (.v 2) (.reg (.v 5))) s 1 1 0 ∧ gives (.sar .b32 (.v 1) (.v 3) (.reg (.v 5))) s 1 1 0xFFFFFFFF ∧
     gives (.bfx .n32 (.v 1) (.v 6) (.reg (.v 8))) s 1 1 0x1F ∧ gives (.lea .n32 (.v 1) (.v 4) (.reg (.v 5)) 3) s 1 1 322) := by decide

end Sys2Proof.Tests
end

section
/-! SUPPORT. The integer words (R144 to R149, R152): what the number helpers of their meanings compute, bit by bit, and what
their shared shapes answer. -/

namespace Sys2Proof.Machine

/-! Views of a code. -/

theorem signedOf_eq_toInt (w x : Nat) : signedOf w x = (BitVec.ofNat w x).toInt := by
  cases w with
  | zero => rw [BitVec.eq_nil (BitVec.ofNat 0 x)]; simp [signedOf, Nat.mod_one]
  | succ w =>
    have hp : 2 ^ (w + 1) = 2 * 2 ^ w := by ring
    have hc : ((2 ^ (w + 1) : Nat) : Int) = 2 ^ (w + 1) := by norm_cast
    have hh : (2 * (x % 2 ^ (w + 1)) < 2 ^ (w + 1)) ↔ ¬ (x % 2 ^ (w + 1) ≥ 2 ^ w) := by omega
    rw [BitVec.toInt_eq_toNat_cond, BitVec.toNat_ofNat, signedOf, hc]
    by_cases h : x % 2 ^ (w + 1) ≥ 2 ^ w <;> simp [hh, h]

theorem wrapI_eq_toNat (w : Nat) (v : Int) : wrapI w v = (BitVec.ofInt w v).toNat := by
  simp [wrapI, BitVec.toNat_ofInt]

theorem wrapI_signedOf (n w x : Nat) : wrapI n (signedOf w x) = ((BitVec.ofNat w x).signExtend n).toNat := by
  rw [wrapI_eq_toNat, signedOf_eq_toInt, BitVec.signExtend]

theorem sext64_toNat (v : BitVec 32) : (sext64 32 v.toNat).toNat = (v.signExtend 64).toNat := by
  rw [sext64, signedOf_eq_toInt, BitVec.ofNat_toNat, BitVec.setWidth_eq, BitVec.signExtend]

theorem wrapI_natCast (w n : Nat) : wrapI w (n : Int) = n % 2 ^ w := by
  simp [wrapI_eq_toNat]

theorem wrapI_wrapI (w : Nat) (v : Int) : wrapI w (wrapI w v : Int) = wrapI w v := by
  rw [wrapI_natCast, wrapI_eq_toNat, BitVec.toNat_mod_cancel]

/-- WriteInt writes a code modulo `2 ^ w` (R142). -/
theorem writeInt_congr {w : Nat} {g : Bool} {d : Opd} {u v : Int} (h : wrapI w u = wrapI w v) :
    writeInt w g d u = writeInt w g d v := by
  simp only [writeInt, writeIntCode, h]

theorem writeInt_natCast_congr {w m n : Nat} {g : Bool} {d : Opd} (h : m % 2 ^ w = n % 2 ^ w) :
    writeInt w g d (m : Int) = writeInt w g d (n : Int) :=
  writeInt_congr (by rw [wrapI_natCast, wrapI_natCast, h])

/-! Bits. -/

theorem testN_eq_testBit (x i : Nat) : testN x i = x.testBit i := by
  rw [testN, bitN, Nat.testBit_eq_decide_div_mod_eq]; rfl

theorem bitN_eq_testBit (x i : Nat) : bitN x i = (x.testBit i).toNat := (Nat.toNat_testBit x i).symm

theorem testBit_fieldN (x lo n i : Nat) : (fieldN x lo n).testBit i = (decide (i < n) && x.testBit (lo + i)) := by
  rw [fieldN, Nat.testBit_mod_two_pow, Nat.testBit_div_two_pow, Nat.add_comm]

theorem andN_eq (w x y : Nat) : andN w x y = (x &&& y) % 2 ^ w := by
  simp [andN, Nat.and_mod_two_pow]

theorem orN_eq (w x y : Nat) : orN w x y = (x ||| y) % 2 ^ w := by
  simp [orN, Nat.or_mod_two_pow]

theorem xorN_eq (w x y : Nat) : xorN w x y = (x ^^^ y) % 2 ^ w := by
  simp [xorN, Nat.xor_mod_two_pow]

theorem notN_eq {w x : Nat} (h : x < 2 ^ w) : notN w x = 2 ^ w - 1 - x := by
  rw [notN, Nat.mod_eq_of_lt h]

/-- POPC counts the 1 bits (R147). -/
theorem popN_eq_length (w x : Nat) : popN w x = ((List.range w).filter fun i => x.testBit i).length := by
  induction w generalizing x with
  | zero => rfl
  | succ w ih =>
    have hb : x % 2 = (x.testBit 0).toNat := by rw [Nat.toNat_testBit]; simp
    rw [popN, ih, List.range_succ_eq_map, List.filter_cons, List.filter_map, hb]
    cases x.testBit 0 <;> simp [Function.comp_def, Nat.testBit_succ, Nat.add_comm]

/-- CTZ gives the place of the lowest 1 bit, or the width (R147). -/
theorem ctzN_spec (w x : Nat) :
    ctzN w x ≤ w ∧ (ctzN w x < w → x.testBit (ctzN w x)) ∧ ∀ i, i < ctzN w x → x.testBit i = false := by
  induction w generalizing x with
  | zero => simp [ctzN]
  | succ w ih =>
    obtain ⟨hle, hset, hclear⟩ := ih (x / 2)
    rw [ctzN]
    split
    case isTrue h => exact ⟨by omega, fun _ => by simp [h], fun i hi => absurd hi (by omega)⟩
    case isFalse h =>
      refine ⟨by omega, fun hlt => ?_, fun i hi => ?_⟩
      · rw [Nat.add_comm, Nat.testBit_succ]
        exact hset (by omega)
      · cases i with
        | zero => simpa using h
        | succ i => rw [Nat.testBit_succ]; exact hclear i (by omega)

theorem revN_lt (w x : Nat) : revN w x < 2 ^ w := by
  induction w generalizing x with
  | zero => simp [revN]
  | succ w ih =>
    have hr := ih (x / 2)
    rw [revN, pow_succ]
    rcases Nat.mod_two_eq_zero_or_one x with h | h <;> rw [h] <;> omega

/-- BREV turns the bits round (R147). -/
theorem testBit_revN (w x i : Nat) (hi : i < w) : (revN w x).testBit i = x.testBit (w - 1 - i) := by
  induction w generalizing x with
  | zero => omega
  | succ w ih =>
    rw [revN, Nat.mul_comm, Nat.testBit_two_pow_mul_add _ (revN_lt w _)]
    split
    case isTrue h => rw [ih _ h, ← Nat.testBit_succ]; congr 1; omega
    case isFalse h =>
      obtain rfl : i = w := by omega
      simp

/-- CLZ gives the number of 0 bits above the highest 1 bit (R147). -/
theorem clz_spec (w x : Nat) :
    ctzN w (revN w x) ≤ w ∧ (ctzN w (revN w x) < w → x.testBit (w - 1 - ctzN w (revN w x))) ∧
      ∀ i, i < ctzN w (revN w x) → x.testBit (w - 1 - i) = false := by
  obtain ⟨hle, hset, hclear⟩ := ctzN_spec w (revN w x)
  refine ⟨hle, fun h => ?_, fun i hi => ?_⟩
  · rw [← testBit_revN w x _ h]; exact hset h
  · rw [← testBit_revN w x i (by omega)]; exact hclear i hi

/-- The number whose lowest `w` bits are given one by one. -/
def bitSum (w : Nat) (p : Nat → Bool) : Nat := sumList ((List.range w).map fun i => 2 ^ i * (p i).toNat)

theorem bitSum_succ (w : Nat) (p : Nat → Bool) : bitSum (w + 1) p = 2 ^ w * (p w).toNat + bitSum w p := by
  simp [bitSum, sumList, List.range_succ, Nat.add_comm]

theorem bitSum_lt (w : Nat) (p : Nat → Bool) : bitSum w p < 2 ^ w := by
  induction w with
  | zero => simp [bitSum, sumList]
  | succ w ih => rw [bitSum_succ, pow_succ]; cases p w <;> simp <;> omega

theorem testBit_bitSum (w : Nat) (p : Nat → Bool) (i : Nat) (hi : i < w) : (bitSum w p).testBit i = p i := by
  induction w with
  | zero => omega
  | succ w ih =>
    rw [bitSum_succ, Nat.testBit_two_pow_mul_add _ (bitSum_lt w p)]
    split
    case isTrue h => exact ih h
    case isFalse h =>
      obtain rfl : i = w := by omega
      cases p i <;> simp

/-- BFI puts the low bits of `y` into a field of `x` (R147). -/
theorem testBit_bfiValue (w x y f i : Nat) (hi : i < w) :
    (bfiValue w x y f).testBit i =
      if f % 256 ≤ i ∧ i < f % 256 + f / 256 % 256 then y.testBit (i - f % 256) else x.testBit i := by
  have hsum : bfiValue w x y f = bitSum w fun i =>
      if f % 256 ≤ i ∧ i < f % 256 + f / 256 % 256 then y.testBit (i - f % 256) else x.testBit i := by
    simp only [bfiValue, bitSum, bitN_eq_testBit, fieldN, Nat.pow_zero, Nat.div_one, apply_ite Bool.toNat,
      Bool.and_eq_true, decide_eq_true_eq, Nat.reducePow]
  rw [hsum, testBit_bitSum w _ i hi]

/-- Past its top bit an extended code reads 0, or its top bit under a signed type (R142). -/
theorem testBit_wrapI_readInt (n w : Nat) (g : Bool) (x i : Nat) (hw : 0 < w) (hi : i < n) :
    (wrapI n (readInt w g x)).testBit i = if i < w then x.testBit i else g && x.testBit (w - 1) := by
  cases g with
  | true =>
    rw [readInt, if_pos rfl, wrapI_signedOf, BitVec.testBit_toNat, BitVec.getLsbD_signExtend,
      BitVec.msb_eq_getLsbD_last]
    simp only [hi, decide_true, Bool.true_and, BitVec.getLsbD_ofNat, Nat.sub_one_lt_of_lt hw]
    split <;> simp [*]
  | false =>
    rw [readInt, if_neg Bool.false_ne_true, Int.ofNat_eq_natCast, wrapI_natCast, Nat.testBit_mod_two_pow,
      Nat.testBit_mod_two_pow]
    by_cases h : i < w <;> simp [h, hi]

/-- The operand of BFX (R147), as far as a field can reach: extended to 512 bits under a signed type. -/
def bfxWide (w : Nat) (g : Bool) (x : Nat) : Nat := if g then wrapI 512 (signedOf w x) else x

theorem testBit_bfxWide {w : Nat} (g : Bool) {x : Nat} (i : Nat) (hw : 0 < w) (hx : x < 2 ^ w) (hi : i < 512) :
    (bfxWide w g x).testBit i = if i < w then x.testBit i else g && x.testBit (w - 1) := by
  cases g with
  | true => exact testBit_wrapI_readInt 512 w true x i hw hi
  | false =>
    by_cases h : i < w
    · simp [bfxWide, h]
    · simp [bfxWide, h, Nat.testBit_lt_two_pow (hx.trans_le (Nat.pow_le_pow_right two_pos (not_lt.mp h)))]

theorem bfxValue_eq (w : Nat) (g : Bool) (x f : Nat) :
    bfxValue w g x f = if min (f / 256 % 256) w = 0 then 0
      else readInt (min (f / 256 % 256) w) g (fieldN (bfxWide w g x) (f % 256) (min (f / 256 % 256) w)) := by
  have hpos : fieldN f 0 8 = f % 256 := by simp [fieldN]
  have hlen : (if fieldN f 8 8 < w then fieldN f 8 8 else w) = min (f / 256 % 256) w := by
    change (if f / 256 % 256 < w then f / 256 % 256 else w) = _
    split <;> omega
  have hlow : ∀ lo n, fieldN (bfxWide w g x) lo n % 2 ^ n = fieldN (bfxWide w g x) lo n := fun lo n => Nat.mod_mod _ _
  simp only [bfxValue, readInt, hpos, hlen, hlow]
  rfl

/-- The bits of BFX's result (R147): those of the field, then 0, or the field's top bit under a signed type. -/
theorem testBit_bfxValue {w : Nat} (g : Bool) {x : Nat} (f i : Nat) (hx : x < 2 ^ w)
    (hlen : 0 < min (f / 256 % 256) w) (hi : i < w) :
    (wrapI w (bfxValue w g x f)).testBit i =
      if i < min (f / 256 % 256) w then
        (if f % 256 + i < w then x.testBit (f % 256 + i) else g && x.testBit (w - 1))
      else g && (if f % 256 + (min (f / 256 % 256) w - 1) < w then x.testBit (f % 256 + (min (f / 256 % 256) w - 1))
        else g && x.testBit (w - 1)) := by
  have hfield : ∀ j, j < min (f / 256 % 256) w →
      (fieldN (bfxWide w g x) (f % 256) (min (f / 256 % 256) w)).testBit j =
        if f % 256 + j < w then x.testBit (f % 256 + j) else g && x.testBit (w - 1) := fun j hj => by
    rw [testBit_fieldN, testBit_bfxWide g _ (by omega) hx (by omega)]
    simp [hj]
  rw [bfxValue_eq, if_neg hlen.ne', testBit_wrapI_readInt _ _ _ _ _ hlen hi, hfield _ (Nat.sub_one_lt hlen.ne')]
  exact ite_congr rfl (fun h => hfield i h) fun _ => rfl

/-- A byte that PERMB selects (R147): a selector of 8 or more spreads the byte's top bit. -/
theorem permByte_mod (x y n : Nat) :
    permByte x y (n % 16) =
      if n % 16 < 8 then (x + y * 2 ^ 32) / 2 ^ (8 * (n % 16)) % 256
      else if 128 ≤ (x + y * 2 ^ 32) / 2 ^ (8 * (n % 16 % 8)) % 256 then 255 else 0 := by
  generalize hn : n % 16 = sel
  have hsel : testN sel 3 = true ↔ ¬ sel < 8 := by simp only [testN, bitN, beq_iff_eq]; omega
  have htop : ∀ e, testN (e % 256) 7 = true ↔ 128 ≤ e % 256 := fun e => by simp only [testN, bitN, beq_iff_eq]; omega
  change (if testN sel 3 = true then if testN ((x + y * 2 ^ 32) / 2 ^ (8 * (sel % 8)) % 256) 7 = true then 255 else 0
    else (x + y * 2 ^ 32) / 2 ^ (8 * (sel % 8)) % 256) = _
  simp only [hsel, htop, ite_not]
  by_cases h8 : sel < 8
  · rw [if_pos h8, if_pos h8, Nat.mod_eq_of_lt h8]
  · rw [if_neg h8, if_neg h8]

/-- Saturation is clamping to the range of the type (R144). -/
theorem saturate_eq_clamp (sat : Bool) (w : Nat) (g : Bool) (v : Int) :
    saturate sat w g v = if sat then max (minT w g) (min v (maxT w g)) else v := by
  have hle : minT w g ≤ maxT w g := by
    have h1 : (0 : Int) < 2 ^ w := by positivity
    have h2 : (0 : Int) < 2 ^ (w - 1) := by positivity
    cases g with
    | true => simp only [minT, maxT, if_true]; omega
    | false => simp only [minT, maxT, Bool.false_eq_true, if_false]; omega
  cases sat with
  | false => rfl
  | true =>
    simp only [saturate, if_true]
    split
    · omega
    · split <;> omega

/-- A shift right that keeps the sign rounds down, whatever the count (R146). -/
theorem writeInt_sarN {w : Nat} (d : Opd) (x n : Nat) (hw : 0 < w) :
    writeInt w false d (Int.ofNat (sarN w x n)) = writeInt w false d (signedOf w x / 2 ^ min n (w - 1)) := by
  have hn : (if n < w then n else w - 1) = min n (w - 1) := by rw [min_def]; split <;> split <;> omega
  refine writeInt_congr ?_
  rw [sarN, Int.ofNat_eq_natCast, wrapI_wrapI, hn, Int.fdiv_eq_ediv_of_nonneg _ (by positivity)]

/-- A 32-bit immediate under a 64-bit signed type is extended by its sign (R139, R149). -/
theorem movi32_value (w : Nat) (g : Bool) (imm : BitVec 32) :
    (if g && w == 64 then (sext64 32 imm.toNat).toNat else imm.toNat) =
      if g = true ∧ w = 64 then (imm.signExtend 64).toNat else imm.toNat := by
  simp only [sext64_toNat, Bool.and_eq_true, beq_iff_eq]

/-- The four bytes of PERMB's word, each by its selector nibble (R147). -/
theorem permbWord_eq (x y f : Nat) :
    sumList ((List.range 4).map fun i => 2 ^ (8 * i) * permByte x y (fieldN f (4 * i) 4)) =
      permByte x y (f / 16 ^ 0 % 16) + 2 ^ 8 * permByte x y (f / 16 ^ 1 % 16) + 2 ^ 16 * permByte x y (f / 16 ^ 2 % 16) +
        2 ^ 24 * permByte x y (f / 16 ^ 3 % 16) := by
  simp [sumList, List.range_succ, fieldN]

/-! Operands. -/

/-- A source of a register's or a pair's width is below `2 ^ w` (R142). -/
theorem State.src_lt {s : State} {t w x : Nat} {o : Opd} (hw : w = 32 ∨ w = 64) (h : s.src t w o = .ok x) : x < 2 ^ w := by
  have hpos : 0 < 2 ^ w := by positivity
  cases o with
  | none => cases h; exact hpos
  | c n => cases h; exact Nat.mod_lt _ hpos
  | h n m =>
    rw [State.src] at h
    split at h
    · cases h; exact Nat.mod_lt _ hpos
    · cases h
  | v n =>
    rcases hw with rfl | rfl
    · cases h; exact Nat.mod_lt _ hpos
    · cases h; exact BitVec.isLt _

theorem State.srcI_lt {s : State} {t w x : Nat} {g : Bool} {o : SrcI} (hw : w = 32 ∨ w = 64)
    (h : s.srcI t w g o = .ok x) : x < 2 ^ w := by
  cases o with
  | reg o => exact State.src_lt hw h
  | imm v =>
    rcases hw with rfl | rfl
    · cases h; exact Nat.mod_lt _ (by positivity)
    · cases g with
      | true => cases h; exact BitVec.isLt _
      | false => cases h; exact v.isLt.trans (by norm_num)

/-! Words of a fixed latency, by the values of their executing lanes. -/

/-- Only the executing lanes' results matter. -/
theorem State.yields_congr (s : State) (lat : Nat) {r r' : Nat → List (Res × Word)} (h : ∀ t ∈ s.iss.lanes, r t = r' t) :
    s.yields lat r = s.yields lat r' := by
  unfold State.yields State.each
  congr 1
  exact List.foldl_ext _ _ _ fun u t ht => congrArg (fun ws => (u.laterAll t lat ws).past t) (h t ht)

/-- A word of one source, by what each lane gets. -/
theorem int1_yields_of (s : State) {lat w : Nat} {d a : Opd} {f : Nat → List (Res × Word)} {x : Nat → Nat}
    {r : Nat → List (Res × Word)} (hs : s.Issues) (hd : s.Writes d) (ha : s.Reads w a x)
    (h : ∀ t ∈ s.iss.lanes, f (x t) = r t) : int1 s lat w d a f = .next (s.yields lat r) :=
  (int1_yields s lat w d a f x hs hd ha).trans (congrArg _ (s.yields_congr lat h))

/-- A word of two sources, by what each lane gets. -/
theorem int2_yields_of (s : State) {lat w wb : Nat} {g : Bool} {d a : Opd} {b : SrcI} {f : Nat → Nat → List (Res × Word)}
    {x y : Nat → Nat} {r : Nat → List (Res × Word)} (hs : s.Issues) (hd : s.Writes d) (ha : s.Reads w a x)
    (hb : s.ReadsI wb g b y) (h : ∀ t ∈ s.iss.lanes, f (x t) (y t) = r t) :
    int2 s lat w wb g d a b f = .next (s.yields lat r) :=
  (int2_yields s lat w wb g d a b f x y hs hd ha hb).trans (congrArg _ (s.yields_congr lat h))

/-- A word of three sources, by what each lane gets. -/
theorem int3_yields_of (s : State) {lat w wc : Nat} {g : Bool} {d a b : Opd} {c : SrcI}
    {f : Nat → Nat → Nat → List (Res × Word)} {x y z : Nat → Nat} {r : Nat → List (Res × Word)} (hs : s.Issues)
    (hd : s.Writes d) (ha : s.Reads w a x) (hb : s.Reads w b y) (hc : s.ReadsI wc g c z)
    (h : ∀ t ∈ s.iss.lanes, f (x t) (y t) (z t) = r t) : int3 s lat w wc g d a b c f = .next (s.yields lat r) :=
  (int3_yields s lat w wc g d a b c f x y z hs hd ha hb hc).trans (congrArg _ (s.yields_congr lat h))

/-- Where no executing lane is among the faulting ones, the word has its effect in every lane. -/
theorem State.partly_of_no_fault (s : State) {bad : Nat → Option (Cause × DWord)} (f : State → Nat → State)
    (h : ∀ t ∈ s.iss.lanes, bad t = none) : s.partly bad f = s.each f := by
  have hfs : (s.iss.lanes.filterMap fun t => (bad t).map fun c => (t, c.1, c.2)) = [] :=
    List.filterMap_eq_nil_iff.mpr fun t ht => by rw [h t ht]; rfl
  have hfold : s.iss.lanes.foldl (fun u t => if (bad t).isSome then u else (f u t).past t) s =
      s.iss.lanes.foldl (fun u t => (f u t).past t) s :=
    List.foldl_ext _ _ _ fun u t ht => by rw [h t ht]; rfl
  simp only [State.partly, hfs, hfold, State.takeFault_nil, List.length_nil, State.each]

/-- DIV and REM: a lane whose divisor is 0 faults, and the others have their results on the way (R145). -/
theorem divide_partly (s : State) (ty : Ty) (d a : Opd) (b : SrcI) (f : Int → Int → Int) (x y : Nat → Nat)
    (hs : s.Issues) (hd : s.Writes d) (ha : s.Reads (tyBits ty) a x) (hb : s.ReadsI (tyBits ty) (tySigned ty) b y) :
    divide s ty d a b f = .next (s.partly (fun t => if readInt (tyBits ty) (tySigned ty) (y t) = 0 then some (.arith, 0) else none)
      fun u t => u.laterAll t 40 (writeInt (tyBits ty) (tySigned ty) d
        (f (readInt (tyBits ty) (tySigned ty) (x t)) (readInt (tyBits ty) (tySigned ty) (y t))))) := by
  refine forLanes_partly s _ _ _ hs (fun u t t' h => u.sameFor_laterAll 40 _ h) fun u t ht hu => ?_
  simp only [State.dstFault_congr hu, hd t ht, ha.of_sameFor ht hu, hb.of_sameFor ht hu]
  by_cases hz : readInt (tyBits ty) (tySigned ty) (y t) = 0
  · simp only [bind, Except.bind, if_pos hz]; rfl
  · simp only [bind, Except.bind, if_neg hz]; rfl

/-- DIV and REM where no divisor is 0 (R145). -/
theorem divide_yields (s : State) (ty : Ty) (d a : Opd) (b : SrcI) (f : Int → Int → Int) (x y : Nat → Nat)
    (hs : s.Issues) (hd : s.Writes d) (ha : s.Reads (tyBits ty) a x) (hb : s.ReadsI (tyBits ty) (tySigned ty) b y)
    (hy : ∀ t ∈ s.iss.lanes, readInt (tyBits ty) (tySigned ty) (y t) ≠ 0) :
    divide s ty d a b f = .next (s.yields 40 fun t => writeInt (tyBits ty) (tySigned ty) d
      (f (readInt (tyBits ty) (tySigned ty) (x t)) (readInt (tyBits ty) (tySigned ty) (y t)))) := by
  rw [divide_partly s ty d a b f x y hs hd ha hb, s.partly_of_no_fault _ fun t ht => if_neg (hy t ht), State.yields]

end Sys2Proof.Machine
end

section
/-! The integer obligations (R144 to R149, R152), settled from the values of the words in the lanes that execute. -/

open Sys2Proof Sys2Proof.Machine

namespace Sys2Proof.Proofs

/-- ADDC reads its carry-in from a predicate of its own lane (R144). -/
theorem exec_addc {s : State} (ty : Ty) {d a : Opd} {c : SrcI} (pi po : BitVec 3) {x y : Nat → Nat} (hs : s.Issues)
    (hd : s.Writes d) (ha : s.Reads (tyBits ty) a x) (hc : s.ReadsI (tyBits ty) (tySigned ty) c y) :
    exec (.addc ty d a c pi po) s = .next (s.yields 4 fun t =>
      writeInt (tyBits ty) (tySigned ty) d ((x t + y t + (if s.pr t pi.toNat then 1 else 0) : Nat) : Int) ++
        predWord po (decide (2 ^ tyBits ty ≤ x t + y t + (if s.pr t pi.toNat then 1 else 0)))) :=
  alu_yields s 4 d _ _ hs hd fun u t ht hu => by
    rw [ha.of_sameFor ht hu, hc.of_sameFor ht hu]
    simp only [State.pr_congr hu]
    rfl

/-- SUBB reads its borrow-in from a predicate of its own lane (R144). -/
theorem exec_subb {s : State} (ty : Ty) {d a : Opd} {c : SrcI} (pi po : BitVec 3) {x y : Nat → Nat} (hs : s.Issues)
    (hd : s.Writes d) (ha : s.Reads (tyBits ty) a x) (hc : s.ReadsI (tyBits ty) (tySigned ty) c y) :
    exec (.subb ty d a c pi po) s = .next (s.yields 4 fun t =>
      writeInt (tyBits ty) (tySigned ty) d ((x t : Int) - y t - (if s.pr t pi.toNat then 1 else 0 : Nat)) ++
        predWord po (decide ((x t : Int) - y t - (if s.pr t pi.toNat then 1 else 0 : Nat) < 0))) :=
  alu_yields s 4 d _ _ hs hd fun u t ht hu => by
    have hborrow : ∀ n : Nat, borrowOut (x t) (y t) n = decide ((x t : Int) - y t - n < 0) := fun n =>
      decide_eq_decide.mpr (by omega)
    rw [ha.of_sameFor ht hu, hc.of_sameFor ht hu, ← hborrow]
    simp only [State.pr_congr hu]
    rfl

/-- Settles O1: each word is one of the shared shapes, saturation is clamping, and a zero divisor faults its own lane only. -/
theorem integerArithmetic : Obligations.IntegerArithmetic := by
  unfold Obligations.IntegerArithmetic
  refine ⟨fun s ty sat d a b c pi po x y z hs hd => ⟨fun ha hc => ⟨?add, ?sub, exec_addc ty pi po hs hd ha hc,
    exec_subb ty pi po hs hd ha hc, ?mul, ?mulhi, ?min, ?max⟩, fun ha => ⟨?neg, ?abs⟩, fun ha hb hc => ?mad,
    fun ha hb hc => ?madw⟩, fun s ty d a c x y hs hd ha hc => ⟨?div, ?rem, fun hy => ⟨?divAll, ?remAll⟩⟩⟩
  case add => exact int2_yields_of s hs hd ha hc fun t _ => by rw [addWords, saturate_eq_clamp]; rfl
  case sub => exact int2_yields_of s hs hd ha hc fun t _ => by rw [subWords, saturate_eq_clamp]; rfl
  case mul => exact int2_yields_of s hs hd ha hc fun _ _ => rfl
  case mulhi =>
    exact int2_yields_of s hs hd ha hc fun _ _ =>
      congrArg (writeInt _ _ d) (Int.fdiv_eq_ediv_of_nonneg _ (by positivity))
  case min => exact int2_yields_of s hs hd ha hc fun _ _ => by rw [min_def]
  case max => exact int2_yields_of s hs hd ha hc fun _ _ => by rw [max_def]
  case neg => exact int1_yields_of s hs hd ha fun t _ => by rw [saturate_eq_clamp]
  case abs => exact int1_yields_of s hs hd ha fun t _ => by rw [saturate_eq_clamp, Int.ofNat_eq_natCast, Int.natCast_natAbs]
  case mad => exact int3_yields_of s hs hd ha hb hc fun _ _ => rfl
  case madw => exact int3_yields_of s hs hd ha hb hc fun _ _ => rfl
  case div => exact divide_partly s ty d a c (fun p q => p.tdiv q) x y hs hd ha hc
  case rem => exact divide_partly s ty d a c (fun p q => p - q * p.tdiv q) x y hs hd ha hc
  case divAll => exact divide_yields s ty d a c (fun p q => p.tdiv q) x y hs hd ha hc hy
  case remAll => exact divide_yields s ty d a c (fun p q => p - q * p.tdiv q) x y hs hd ha hc hy

/-- Settles O4: each lane reads its own predicates as they stood at issue, and an immediate extends as R139 says. -/
theorem movesAndAddresses : Obligations.MovesAndAddresses := by
  unfold Obligations.MovesAndAddresses
  intro s ty d a c ps psn sh imm wide mask x y hs hd
  refine ⟨fun ha => ?mov, ?movi32, ?movi64, fun ha hc => ?sel, fun ha hc => ?lea, ?pmov, fun ha => ?pmovSet⟩
  case mov => exact int1_yields_of s hs hd ha fun _ _ => rfl
  case movi32 =>
    exact alu_yields s 4 d _ _ hs hd fun _ _ _ _ =>
      congrArg (fun v => Except.ok (dstWords (tyBits ty) d v)) (movi32_value (tyBits ty) (tySigned ty) imm)
  case movi64 => exact alu_yields s 4 d _ _ hs hd fun _ _ _ _ => rfl
  case sel =>
    refine alu_yields s 4 d _ _ hs hd fun u t ht hu => ?_
    rw [ha.of_sameFor ht hu, hc.of_sameFor ht hu, State.prx_congr hu]
    rfl
  case lea => exact int2_yields_of s hs hd ha hc fun _ _ => rfl
  case pmov =>
    change execPmov d s = _
    exact alu_yields s 4 d _ _ hs hd fun u t ht hu => by rw [State.sameFor_thr hu]
  case pmovSet =>
    refine alu_yields s 4 .none _ _ hs (fun _ _ => rfl) fun u t ht hu => ?_
    rw [ha.of_sameFor ht hu]
    simp only [testN_eq_testBit]
    rfl

/-- Settles O3: the bits of BFX, BFI and BREV and the bit counts come from the bit lemmas of the number helpers, and the
other results agree modulo `2 ^ w` in the lanes that execute. -/
theorem logicAndShifts : Obligations.LogicAndShifts := by
  unfold Obligations.LogicAndShifts
  refine ⟨fun s ty d a b c x y n hs hd hty => ?logic, fun s ty d a b c x y f hs hd => ⟨fun ha hc => ?bfx, fun ha hb hc => ?bfi,
    fun ha => ⟨?popc, ?clz, ?ctz, ?brev⟩, fun ha hb hc => ?permb⟩⟩
  case logic =>
    have hw : tyBits ty = 32 ∨ tyBits ty = 64 := by rcases hty with rfl | rfl <;> simp [tyBits]
    refine ⟨fun ha hc => ⟨?and, ?or, ?xor, ?andn, ?orn⟩, fun ha => ?not, fun ha hc => ⟨?shl, ?shr, ?sar, ?rot⟩,
      fun ha hb hc => ?fshl⟩
    case and => exact int2_yields_of s hs hd ha hc fun t _ => writeInt_natCast_congr (by rw [andN_eq, Nat.mod_mod])
    case or => exact int2_yields_of s hs hd ha hc fun t _ => writeInt_natCast_congr (by rw [orN_eq, Nat.mod_mod])
    case xor => exact int2_yields_of s hs hd ha hc fun t _ => writeInt_natCast_congr (by rw [xorN_eq, Nat.mod_mod])
    case andn =>
      exact int2_yields_of s hs hd ha hc fun t ht => writeInt_natCast_congr (by
        beta_reduce
        rw [andN_eq, Nat.mod_mod, notN_eq (State.srcI_lt hw (hc t ht))])
    case orn =>
      exact int2_yields_of s hs hd ha hc fun t ht => writeInt_natCast_congr (by
        beta_reduce
        rw [orN_eq, Nat.mod_mod, notN_eq (State.srcI_lt hw (hc t ht))])
    case not => exact int1_yields_of s hs hd ha fun t ht => by rw [notN_eq (State.src_lt hw (ha t ht))]; rfl
    case shl => exact int2_yields_of s hs hd ha hc fun _ _ => rfl
    case shr => exact int2_yields_of s hs hd ha hc fun _ _ => rfl
    case sar => exact int2_yields_of s hs hd ha hc fun t _ => writeInt_sarN d (x t) (n t) (by omega)
    case rot => exact int2_yields_of s hs hd ha hc fun _ _ => rfl
    case fshl => exact int3_yields_of s hs hd ha hb hc fun _ _ => rfl
  case bfx =>
    refine ⟨fun t => bfxValue (tyBits ty) (tySigned ty) (x t) (f t), int2_yields s 4 _ 32 false d a c _ x f hs hd ha hc, ?_⟩
    intro t ht hw
    exact ⟨fun h => (bfxValue_eq ..).trans (if_pos h),
      fun h i hi => testBit_bfxValue _ (f t) i (State.src_lt hw (ha t ht)) h hi⟩
  case bfi =>
    exact ⟨fun t => bfiValue (tyBits ty) (x t) (y t) (f t), int3_yields s 4 _ 32 false d a b c _ x y f hs hd ha hb hc,
      fun t i hi => testBit_bfiValue _ (x t) (y t) (f t) i hi⟩
  case popc =>
    exact ⟨fun t => popN (tyBits ty) (x t), int1_yields s 4 _ d a _ x hs hd ha, fun t => popN_eq_length _ _⟩
  case clz =>
    exact ⟨fun t => ctzN (tyBits ty) (revN (tyBits ty) (x t)), int1_yields s 4 _ d a _ x hs hd ha, fun t _ => clz_spec _ _⟩
  case ctz =>
    exact ⟨fun t => ctzN (tyBits ty) (x t), int1_yields s 4 _ d a _ x hs hd ha, fun t => ctzN_spec _ _⟩
  case brev =>
    exact ⟨fun t => revN (tyBits ty) (x t), int1_yields s 4 _ d a _ x hs hd ha, fun t i hi => testBit_revN _ _ i hi⟩
  case permb =>
    refine int3_yields_of s hs hd ha hb hc fun t _ => ?_
    rw [permbWord_eq]
    simp only [permByte_mod]

end Sys2Proof.Proofs
end
